-- ==== Sys2Proof/Word.lean ====
section
/-! DEFINITION. The word types of the KT4120: a byte, the 16-bit and 32-bit words that hold client keys, masks, frames,
counts that wrap and register values, and the 64-bit host addresses. What the manual counts or indexes (cell, pool and
lease numbers, tokens, tick counts) is a natural number. -/

namespace Sys2Proof

/-- A byte of a cell, a notice, the control block, the meter page or an image (R172). -/
abbrev Byte := BitVec 8

/-- A 16-bit word: a lease generation (R88), a pool field of an answer (Table 10-1). -/
abbrev Half := BitVec 16

/-- A 32-bit word: a register value (R172), a client key or mask (R4), a Frame Number (R9), a wrapping count. -/
abbrev Word := BitVec 32

/-- A 64-bit host address (R158, R132). -/
abbrev HostAddr := BitVec 64

end Sys2Proof
end

