-- ==== Sys2Proof/Config.lean ====
section
/-! DEFINITION. The sizes the part fixes: how many pools, lease records, cells, read-ahead slots and notice entries there
are, and the limits a rule states as one number. The manual leaves no value undefined, so there is no free value here. -/

namespace Sys2Proof.Config

/-- R1: the Entitlement Table holds 512 pool entries. -/
abbrev numPools : Nat := 512
/-- R87: the Lease Table holds 4096 lease records. -/
abbrev numLeases : Nat := 4096
/-- R161: the Cell Table holds 1024 cells. -/
abbrev numCells : Nat := 1024
/-- R162: the Exchange Interface keeps eight read-ahead slots. -/
abbrev readAheadSlots : Nat := 8
/-- R162, R43: the engine fetches bytes 0 to 39 of a cell. -/
abbrev cellCopyBytes : Nat := 40
/-- R166, R167: the notice list has 1024 entries. -/
abbrev noticeListSize : Nat := 1024
/-- R29: the charge ceiling, the largest charge a lease record can hold. -/
abbrev chargeCeiling : Nat := 65535
/-- R132: the shortest and the longest image length an INSTALL may name. -/
abbrev minImageBytes : Nat := 128
/-- R132: the longest image length an INSTALL may name. -/
abbrev maxImageBytes : Nat := 49280
/-- R135: an image header is 128 bytes. -/
abbrev headerBytes : Nat := 128
/-- R135: an image pool record is 96 bytes. -/
abbrev recordBytes : Nat := 96
/-- R112: reference cycles in one base tick. -/
abbrev cyclesPerBaseTick : Nat := 25000
/-- R112: base ticks in one second. -/
abbrev baseTicksPerSecond : Nat := 1000
/-- R62, R97: the pool field of an answer that names no pool, FFFFh. -/
abbrev noPool : Half := 0xFFFF

end Sys2Proof.Config
end

