-- ==== Sys2Proof/Syntax.lean ====
section
/-! DEFINITION. The commands of the engine: one constructor for each row of spec/opcode_table.json. A command is a
register write, the arrival, completion or failure of a DMA transfer, a tick, a reset, or an event of the engine's own
blocks. Its operands are what the outside brings (the word written, the bytes read, the tag of the transfer a completion
belongs to) or which of several possible events it is (log entries 1, 5 and 8). The fields of a request stand in the
fetched cell, not in the command. -/

namespace Sys2Proof

/-- The two registers that ignore writes (Table 9-4). -/
inductive ReadOnlyReg where
  | status
  | faultInfo
  deriving DecidableEq, Repr

/-- The two units that present grants (R17): the Admission Unit for a DRAW, the Wait Unit for an examination. -/
inductive GrantSender where
  | admissionUnit
  | waitUnit
  deriving DecidableEq, Repr

/-- One row of spec/opcode_table.json each. -/
inductive Instr where
  /-- R158: a write of `value` to EXBASE_LO. -/
  | exbaseLoWrite (value : Word)
  /-- R158: a write of `value` to EXBASE_HI. -/
  | exbaseHiWrite (value : Word)
  /-- R161: a write of `value` to POST. -/
  | post (value : Word)
  /-- R159: a CONTROL write of `value`, whose requested state is 1 (RUN); its enable field is taken first (R160). -/
  | requestRun (value : Word)
  /-- R159: a CONTROL write of `value`, whose requested state is 2 (HOLD). -/
  | requestHold (value : Word)
  /-- R159: a CONTROL write of `value`, whose requested state is 3 (STILL). -/
  | requestStill (value : Word)
  /-- R168: a CONTROL write of `value`, whose requested state is 0. -/
  | interruptEnable (value : Word)
  /-- R171: a CONTROL write of `value`, whose function-reset bit is 1. -/
  | functionReset (value : Word)
  /-- R171: power-on reset. -/
  | powerOnReset
  /-- R171: the PCIe function-level reset. -/
  | functionLevelReset
  /-- R168: a write of `value` to CAUSE. -/
  | causeWrite (value : Word)
  /-- R160: a write of `value` to STATUS or FAULT_INFO. -/
  | registerWriteIgnored (reg : ReadOnlyReg) (value : Word)
  /-- R162: the pick of the next PENDING cell. -/
  | cellPick
  /-- R162: the arrival of the cell fetch with this tag, bringing bytes 0 to 39 of the cell. -/
  | fetchArrival (tag : Nat) (bytes : List Byte)
  /-- R163: the Evaluator takes a cell whose request kind is 0 or above 10. -/
  | unknownRequestKind
  /-- R43: the Evaluator takes a DRAW, or goes on with the one in hand, for at most `steps` of its steps (log entry 5). -/
  | draw (steps : Nat)
  /-- R17: the grant presented by `sender` is taken at the Entitlement Table and Lease Table. -/
  | grantEvent (sender : GrantSender)
  /-- R105: the revival presented by the Admission Unit is taken at the Lease Table. -/
  | revival
  /-- R66: the Wait Unit takes the oldest parking event handed to it. -/
  | parking
  /-- R98: the Evaluator takes a RENEW. -/
  | renew
  /-- R100: the Evaluator takes a RETURN. -/
  | returnLease
  /-- R103: the Evaluator takes a RETURN_MATCHING. -/
  | returnMatching
  /-- R81: the Evaluator takes a WITHDRAW, or the Wait Unit takes the one in hand. -/
  | withdraw
  /-- R21: the Evaluator takes an INSPECT_POOL, or the Entitlement Table takes the one in hand. -/
  | inspectPool
  /-- R133: the Evaluator takes an INSTALL. -/
  | install
  /-- R127: the Evaluator takes a SET_CLOCK. -/
  | setClock
  /-- R119: the Evaluator takes a TUNE. -/
  | tune
  /-- R20: the Evaluator takes a CLEAR_FLOOR, or the Wait Unit takes the one in hand. -/
  | clearFloor
  /-- R92: a tick of the lease stream, taken by the Lease Table. -/
  | leaseTick
  /-- R93: the lease tick at which the HELD record `index` lapses (log entry 4). -/
  | lapse (index : Nat)
  /-- R94: the lease tick at which the LINGERING record `index` ends its linger (log entry 4). -/
  | lingerEnd (index : Nat)
  /-- R150: a lease tick, taken by the Meter Unit. -/
  | tokenTicks
  /-- R114: a tick of the housekeeping stream. -/
  | housekeepingTick
  /-- R80: the housekeeping tick at which the deadline of the waiter of `cell` reaches 0 (log entry 4). -/
  | waitExpiry (cell : Nat)
  /-- R118: the housekeeping tick that ends the grace hold (log entry 4). -/
  | graceHoldEnd
  /-- R70: the Wait Unit begins an examination, or goes on with the one in hand, for at most `steps` of its steps. -/
  | examination (steps : Nat)
  /-- R78: the Wait Unit takes the oldest commit report handed to it. -/
  | commitReport
  /-- R122: a second, taken by the Schedule Unit. -/
  | second
  /-- R123: the second that makes a slot start (log entry 4). -/
  | slotStart
  /-- R124: the second that makes a frame start (log entry 4). -/
  | frameStart
  /-- R134: the arrival of the image read with this tag, bringing its next bytes. -/
  | imageReadArrival (tag : Nat) (bytes : List Byte)
  /-- R141: the commit event at the Entitlement Table. -/
  | installCommit
  /-- R126: the Schedule Unit takes the commit's schedule content. -/
  | scheduleContent
  /-- R164: the first write of the entry at the head of the write list is issued. -/
  | writeListIssue
  /-- R164: the answer-area write with this tag completes. -/
  | answerWriteComplete (tag : Nat)
  /-- R164: the pool-field write with this tag completes. -/
  | poolFieldWriteComplete (tag : Nat)
  /-- R164: the status-byte write with this tag completes. -/
  | statusByteWriteComplete (tag : Nat)
  /-- R166: the front notice's entry write is issued. -/
  | noticeWrite
  /-- R166: the notice entry write with this tag completes. -/
  | noticeEntryWriteComplete (tag : Nat)
  /-- R166: the notices-written count write with this tag completes. -/
  | noticeWritten (tag : Nat)
  /-- R167: the consumed-count read with this tag arrives, bringing bytes 04h to 07h of the control block (Table 10-7). -/
  | consumedReadArrival (tag : Nat) (bytes : List Byte)
  /-- R169: the transfer with this tag ends in a DMA error. -/
  | dmaError (tag : Nat)
  /-- R149: the Meter Unit takes the count at place `which` among those handed to it. -/
  | meterCount (which : Nat)
  /-- R152: the Meter Unit takes a slot end handed to it. -/
  | slotEnd
  /-- R153: the slot end that ends a meter interval (log entry 4). -/
  | intervalEnd
  /-- R153: the read of the meter owner word is issued. -/
  | meterOwnerRead
  /-- R154: the meter owner read with this tag arrives, bringing bytes 08h to 0Bh of the control block (Table 10-7). -/
  | ownerReadArrival (tag : Nat) (bytes : List Byte)
  /-- R155: the meter page write with this tag completes. -/
  | pageWriteComplete (tag : Nat)
  /-- R155: the owner-word write with this tag completes. -/
  | ownerWordWriteComplete (tag : Nat)
  deriving DecidableEq, Repr

end Sys2Proof
end

