-- ==== Sys2Proof/Machine/Bytes.lean ====
section
/-! DEFINITION. Byte order (R172) and the bit fields of the CONTROL word (Table 10-14): the one place where a byte list is
read as a number, a number is laid out as bytes, or a register word is taken apart. -/

namespace Sys2Proof.Machine

/-- The byte at an offset; a byte that is not there reads 0. -/
def byteAt (bs : List Byte) (off : Nat) : Byte := bs.getD off 0

/-- R172: the little-endian number in the `n` bytes from `off`. -/
def readLE (bs : List Byte) : (off n : Nat) → Nat
  | _, 0 => 0
  | off, n + 1 => (byteAt bs off).toNat + 256 * readLE bs (off + 1) n

/-- R172: the big-endian number in the `n` bytes from `off`, above the value already read. -/
def readBEFrom (acc : Nat) (bs : List Byte) : (off n : Nat) → Nat
  | _, 0 => acc
  | off, n + 1 => readBEFrom (acc * 256 + (byteAt bs off).toNat) bs (off + 1) n

/-- R172: the big-endian number in the `n` bytes from `off`. -/
def readBE (bs : List Byte) (off n : Nat) : Nat := readBEFrom 0 bs off n

/-- R172: a number as `n` little-endian bytes. -/
def bytesLE : (n v : Nat) → List Byte
  | 0, _ => []
  | n + 1, v => BitVec.ofNat 8 v :: bytesLE n (v / 256)

/-- Table 10-14, CONTROL bits 1 and 0: the requested state. -/
def controlRequest (value : Word) : Nat := value.toNat % 4

/-- Table 10-14, CONTROL bit 4: the interrupt enable. -/
def controlEnable (value : Word) : Bool := value.getLsbD 4

/-- Table 10-14, CONTROL bit 31: function reset. -/
def controlReset (value : Word) : Bool := value.getLsbD 31

end Sys2Proof.Machine
end

