-- ==== Sys2Proof/WellFormed.lean ====
section
/-! DEFINITION. Which commands are well formed: the CONTROL word carries the field values of its row (Table 10-14), a
fetch brings the 40 bytes the engine reads (R162), a read of the control block the four bytes of its field (Table 10-7), an
image read at least one byte, and a lease index or cell number is within its table (R87, R161). -/

namespace Sys2Proof

/-- A command whose operands are what its row allows. -/
def Instr.wellFormed : Instr → Bool
  | .requestRun v => Machine.controlRequest v == 1 && !Machine.controlReset v
  | .requestHold v => Machine.controlRequest v == 2 && !Machine.controlReset v
  | .requestStill v => Machine.controlRequest v == 3 && !Machine.controlReset v
  | .interruptEnable v => Machine.controlRequest v == 0 && !Machine.controlReset v
  | .functionReset v => Machine.controlReset v
  | .fetchArrival _ bytes => bytes.length == Config.cellCopyBytes
  | .consumedReadArrival _ bytes => bytes.length == 4
  | .ownerReadArrival _ bytes => bytes.length == 4
  | .imageReadArrival _ bytes => decide (0 < bytes.length ∧ bytes.length ≤ Config.maxImageBytes)
  | .lapse i => decide (i < Config.numLeases)
  | .lingerEnd i => decide (i < Config.numLeases)
  | .waitExpiry c => decide (c < Config.numCells)
  | .exbaseLoWrite _ => true
  | .exbaseHiWrite _ => true
  | .post _ => true
  | .powerOnReset => true
  | .functionLevelReset => true
  | .causeWrite _ => true
  | .registerWriteIgnored _ _ => true
  | .cellPick => true
  | .unknownRequestKind => true
  | .draw _ => true
  | .grantEvent _ => true
  | .revival => true
  | .parking => true
  | .renew => true
  | .returnLease => true
  | .returnMatching => true
  | .withdraw => true
  | .inspectPool => true
  | .install => true
  | .setClock => true
  | .tune => true
  | .clearFloor => true
  | .leaseTick => true
  | .tokenTicks => true
  | .housekeepingTick => true
  | .graceHoldEnd => true
  | .examination _ => true
  | .commitReport => true
  | .second => true
  | .slotStart => true
  | .frameStart => true
  | .installCommit => true
  | .scheduleContent => true
  | .writeListIssue => true
  | .answerWriteComplete _ => true
  | .poolFieldWriteComplete _ => true
  | .statusByteWriteComplete _ => true
  | .noticeWrite => true
  | .noticeEntryWriteComplete _ => true
  | .noticeWritten _ => true
  | .dmaError _ => true
  | .meterCount _ => true
  | .slotEnd => true
  | .intervalEnd => true
  | .meterOwnerRead => true
  | .pageWriteComplete _ => true
  | .ownerWordWriteComplete _ => true

end Sys2Proof
end

