-- ==== Sys2Proof/Decode.lean ====
section
/-! DEFINITION. spec/opcode_table.json gives no bits for any row, so no word spells a command there. What the spec does
encode is the register window (Table 10-14): which command a write of a word at an offset of the window is. -/

namespace Sys2Proof

/-- The command a table word spells: none, since no row of the table has bits. -/
def decodeTableWord (_nbits _w : Nat) : Option Instr := none

/-- R160, Table 10-14: the CONTROL write of a word. Function reset takes none of the other fields. -/
def controlCommand (value : Word) : Instr :=
  if Machine.controlReset value then .functionReset value
  else match Machine.controlRequest value with
    | 1 => .requestRun value
    | 2 => .requestHold value
    | 3 => .requestStill value
    | _ => .interruptEnable value

/-- Table 10-14: the command that a write of `value` at `offset` of the register window is; there is no register elsewhere. -/
def registerWriteCommand (offset : Nat) (value : Word) : Option Instr :=
  match offset with
  | 0x00 => some (.exbaseLoWrite value)
  | 0x04 => some (.exbaseHiWrite value)
  | 0x08 => some (.post value)
  | 0x0C => some (controlCommand value)
  | 0x10 => some (.registerWriteIgnored .status value)
  | 0x14 => some (.causeWrite value)
  | 0x18 => some (.registerWriteIgnored .faultInfo value)
  | _ => none

/-- Table 10-14, read the other way: the offset and word of the register write a command is, where it is one. -/
def registerWriteOf : Instr → Option (Nat × Word)
  | .exbaseLoWrite v => some (0x00, v)
  | .exbaseHiWrite v => some (0x04, v)
  | .post v => some (0x08, v)
  | .requestRun v => some (0x0C, v)
  | .requestHold v => some (0x0C, v)
  | .requestStill v => some (0x0C, v)
  | .interruptEnable v => some (0x0C, v)
  | .functionReset v => some (0x0C, v)
  | .registerWriteIgnored .status v => some (0x10, v)
  | .causeWrite v => some (0x14, v)
  | .registerWriteIgnored .faultInfo v => some (0x18, v)
  | _ => none

end Sys2Proof
end

