-- ==== Sys2Proof/Machine/State.lean ====
section
/-! DEFINITION. The engine's state, block by block as Table 0-2 of 00_scope.md gives it: each block owns its own part. A table
of many like entries is a sparse list of (number, entry) pairs in one canonical form, numbers rising and no entry equal
to what an unlisted number reads as (log entry 21); what an unlisted entry reads as is its value at reset. -/

namespace Sys2Proof.Machine

/-- A table held sparsely: (number, entry) pairs, numbers strictly rising, no entry at its reset value (log entry 21). -/
abbrev Table (α : Type) := List (Nat × α)

/-! ### Exchange Interface -/

/-- R159: the engine states. -/
inductive EngineState where
  | offline
  | run
  | hold
  | still
  | faulted
  deriving DecidableEq, Repr

/-- R161, Table 9-5: the cell states. -/
inductive CellState where
  | idle
  | pending
  | fetching
  | ready
  | waiting
  | working
  | answering
  | notifying
  deriving DecidableEq, Repr

/-- R161, R162: a cell's state, its repost mark, and the copy of its bytes while it is READY and not yet taken. -/
structure Cell where
  st     : CellState
  repost : Bool
  copy   : List Byte
  deriving DecidableEq, Repr

/-- R171: a cell after reset. -/
def Cell.atReset : Cell := { st := .idle, repost := false, copy := [] }

/-- Table 10-5: the result codes of answers. -/
inductive Result where
  | granted
  | ok
  | noEntitlement
  | expired
  | outOfWindow
  | exhausted
  | exceedsCapacity
  | chargeLimit
  | leaseTableFull
  | clockUnset
  | waitExpired
  | withdrawn
  | cleared
  | staleHandle
  | lapsed
  | notWaiting
  | malformed
  | badField
  | installBusy
  | imageCorrupt
  | imageOld
  | clockBackward
  | poolRetired
  deriving DecidableEq, Repr

/-- R1, R12: the pool states. -/
inductive PoolState where
  | absent
  | active
  | draining
  | retiring
  deriving DecidableEq, Repr

/-- Table 10-6: the validity values of an INSPECT_POOL answer. -/
inductive Validity where
  | noValue
  | current
  | notYet
  | ended
  deriving DecidableEq, Repr

/-- R174, Table 10-4: the answer body by its form. -/
inductive AnswerBody where
  /-- every body byte 0 -/
  | zero
  /-- DRAW, waiter, RENEW, RETURN: handle, charge, period -/
  | lease (index : Nat) (generation : Half) (charge period : Nat)
  /-- RETURN_MATCHING OK: records returned -/
  | returnMatching (records : Nat)
  /-- CLEAR_FLOOR OK: lease records and waiters cleared -/
  | clearFloor (records waiters : Nat)
  /-- INSPECT_POOL OK -/
  | inspect (st : PoolState) (windowOpen : Bool) (validity : Validity)
      (capacity reserve inUse reserveInUse leaseCount seatCap waiters : Nat)
  /-- INSTALL OK: pools created, kept, retiring, removed, and the floor now standing -/
  | install (created kept retiring removed : Nat) (floor : Word)
  /-- IMAGE_OLD: the image sequence and the floor it was judged against -/
  | imageOld (sequence floor : Word)
  /-- SET_CLOCK OK and CLOCK_BACKWARD: the position -/
  | clock (frame : Word) (slot seconds : Nat)
  /-- TUNE OK: the four values as taken -/
  | tune (leaseSel hkSel graceCount interval : Nat)
  deriving DecidableEq, Repr

/-- Table 10-1: what a FINAL answer writes into bytes 28h to 3Fh of a cell. -/
structure Answer where
  result : Result
  detail : Nat
  pool   : Half
  body   : AnswerBody
  deriving DecidableEq, Repr

/-- R164: an entry of the write list. -/
inductive WriteEntry where
  | final (cell : Nat) (answer : Answer)
  | parked (cell pool : Nat)
  deriving DecidableEq, Repr

/-- R164, R166: how far the two writes of the entry at the front have got. The second write of `firstDone` is not issued yet
because DMA was not permitted when the first completed. -/
inductive WriteStage where
  | notBegun
  | first
  | firstDone
  | second
  deriving DecidableEq, Repr

/-- R165: an entry of the Notice Queue. -/
inductive Notice where
  | answer (cell : Nat) (result : Result) (pool : Half)
  | lapse (index : Nat) (generation : Half) (pool : Nat)
  | meter
  deriving DecidableEq, Repr

/-- R169: the transfers the engine makes; `index` is what the fault record takes. -/
inductive TransferKind where
  | fetch (cell : Nat)
  | answerArea (cell : Nat)
  | poolField (cell : Nat)
  | statusByte (cell : Nat)
  | noticeEntry (index : Nat)
  | noticeCount (index : Nat)
  | consumedRead
  | imageRead (cell : Nat)
  | ownerRead
  | pageWrite
  | ownerWrite
  deriving DecidableEq, Repr

/-- A DMA transfer: its tag (log entry 8), what it is, its host address, how many bytes it reads, and the bytes it writes. -/
structure Transfer where
  tag   : Nat
  kind  : TransferKind
  addr  : HostAddr
  len   : Nat
  bytes : List Byte
  deriving DecidableEq, Repr

/-- R169, Table 9-6: the fault kinds. -/
inductive FaultKind where
  | none
  | fetch
  | answer
  | notice
  | consumed
  | image
  | meter
  deriving DecidableEq, Repr

/-- What the Exchange Interface owns (Table 0-2, chapter 9). -/
structure ExchangeInterface where
  base           : HostAddr
  engine         : EngineState
  baseInvalid    : Bool
  cells          : Table Cell
  servicePointer : Nat
  readAhead      : List Nat
  writeList      : List WriteEntry
  writeStage     : WriteStage
  notices        : List Notice
  noticeStage    : WriteStage
  written        : Word
  cached         : Word
  causeNotice    : Bool
  causeFault     : Bool
  intEnable      : Bool
  faultKind      : FaultKind
  faultIndex     : Nat
  faultAddr      : BitVec 20
  inFlight       : List Transfer
  retry          : List Transfer
  deriving DecidableEq, Repr

/-! ### Request Evaluator and Admission Unit -/

/-- R38, Table 2-4: the failure kinds of the admission test. -/
inductive FailKind where
  | state
  | window
  | chargeLimit
  | tokens
  | seats
  | record
  | classRule
  deriving DecidableEq, Repr

/-- R48: a LINGERING record the revival lookup found. -/
structure FoundRecord where
  index      : Nat
  pool       : Nat
  charge     : Nat
  generation : Half
  deriving DecidableEq, Repr

/-- R52, R53: a structural candidate as gathered, with the validity frames read then. -/
structure Candidate where
  pool      : Nat
  rank      : Nat
  validFrom : Word
  validTo   : Word
  deriving DecidableEq, Repr

/-- R54: the trial record kept for a pool tried. -/
structure TrialRecord where
  pool       : Nat
  charge     : Nat
  fits       : Bool
  windowOpen : Bool
  kind       : FailKind
  deriving DecidableEq, Repr

/-- Table 3-2: the step a DRAW decision stands before. -/
inductive DrawStage where
  /-- the clock check (R47) -/
  | clock
  /-- the revival lookup (R48) -/
  | lookup
  /-- judging the records the lookup found, one by one (R48) -/
  | qualify (found : List FoundRecord)
  /-- a revival presented to the Lease Table and not yet taken (R49) -/
  | reviving (index : Nat) (generation : Half)
  /-- the table-full check (R51) -/
  | tableFull
  /-- gathering the structural candidates (R52) -/
  | gather
  /-- dividing them by validity (R53) -/
  | divide (candidates : List Candidate)
  /-- trying the pools left, with the trial records so far in candidate order (R54) -/
  | trial (left : List Nat) (tried : List TrialRecord)
  /-- a grant presented for a pool and not yet taken (R54, R56) -/
  | granting (pool charge : Nat) (fits : Bool) (left : List Nat) (tried : List TrialRecord)
  deriving DecidableEq, Repr

/-- R43, R45: a DRAW as dispatched, with its clamps, and the step its decision stands before. -/
structure DrawDecision where
  cell      : Nat
  feature   : Nat
  key       : Word
  quantity  : Nat
  units     : Nat
  cls       : Nat
  waitLimit : Nat
  period    : Nat
  stage     : DrawStage
  deriving DecidableEq, Repr

/-- R46: the cell being decided. The requests other than DRAW stand here only while they wait for the Wait Unit. -/
inductive Decision where
  | draw (d : DrawDecision)
  | withdraw (cell target : Nat)
  | inspect (cell pool : Nat)
  | clearFloor (cell : Nat)
  deriving DecidableEq, Repr

/-! ### Entitlement Table -/

/-- Table 1-1: a pool's parameter set; its window masks stand in the Schedule Unit. -/
structure Params where
  rank          : Nat
  features      : List Nat
  scopeValue    : Word
  scopeMask     : Word
  capacity      : Nat
  reserve       : Nat
  reserveValue  : Word
  reserveMask   : Word
  seatCap       : Nat
  baseCost      : Nat
  unitCost      : Nat
  includedUnits : Nat
  rateExempt    : Bool
  periodDefault : Nat
  periodMin     : Nat
  periodMax     : Nat
  linger        : Nat
  validFrom     : Word
  validTo       : Word
  deriving DecidableEq, Repr

/-- What the absent parameter set reads as; no decision reads it. -/
def Params.none : Params :=
  { rank := 0, features := [], scopeValue := 0, scopeMask := 0, capacity := 0, reserve := 0, reserveValue := 0, reserveMask := 0,
    seatCap := 0, baseCost := 0, unitCost := 0, includedUnits := 0, rateExempt := false, periodDefault := 0, periodMin := 0,
    periodMax := 0, linger := 0, validFrom := 0, validTo := 0 }

/-- R1, R16: a pool entry. -/
structure Pool where
  st           : PoolState
  params       : Option Params
  inUse        : Nat
  reserveInUse : Nat
  leaseCount   : Nat
  deriving DecidableEq, Repr

/-- R23: a pool entry after reset. -/
def Pool.atReset : Pool := { st := .absent, params := Option.none, inUse := 0, reserveInUse := 0, leaseCount := 0 }

/-- What the Entitlement Table owns (Table 0-2, chapter 1). -/
structure EntitlementTable where
  pools : Table Pool
  floor : Word
  deriving DecidableEq, Repr

/-! ### Lease Table -/

/-- R89: the lease record states. -/
inductive LeaseState where
  | free
  | held
  | lingering
  | lapsed
  deriving DecidableEq, Repr

/-- R87, Table 5-1: a lease record. -/
structure Lease where
  st         : LeaseState
  generation : Half
  pool       : Nat
  feature    : Nat
  key        : Word
  charge     : Nat
  inReserve  : Bool
  period     : Nat
  counter    : Nat
  deriving DecidableEq, Repr

/-- R111: a lease record after reset. -/
def Lease.atReset : Lease :=
  { st := .free, generation := 0, pool := 0, feature := 0, key := 0, charge := 0, inReserve := false, period := 0, counter := 0 }

/-- What the Lease Table owns (Table 0-2, chapter 5). -/
structure LeaseTable where
  leases : Table Lease
  deriving DecidableEq, Repr

/-! ### Wait Unit -/

/-- R65: an entry of a wait queue; its home pool is the number of the queue that holds it. -/
structure Waiter where
  cell     : Nat
  key      : Word
  feature  : Nat
  quantity : Nat
  units    : Nat
  cls      : Nat
  period   : Nat
  deadline : Nat
  deriving DecidableEq, Repr

/-- R59: a parking event handed by the Admission Unit. -/
structure ParkingEvent where
  home   : Nat
  waiter : Waiter
  deriving DecidableEq, Repr

/-- R70 to R74: the step an examination stands before. -/
inductive ExamStage where
  /-- reading the pool's state (R71) -/
  | poolState
  /-- judging its validity (R72) -/
  | validity
  /-- judging the head (R73, R74) -/
  | head
  /-- a grant presented for the head and not yet taken (R74) -/
  | granting (charge : Nat)
  deriving DecidableEq, Repr

/-- R70: the examination in hand. -/
structure Examination where
  pool  : Nat
  stage : ExamStage
  deriving DecidableEq, Repr

/-- R78, R143: the two lists of a commit report. -/
structure CommitReport where
  kept    : List Nat
  leaving : List Nat
  deriving DecidableEq, Repr

/-- What the Wait Unit owns (Table 0-2, chapter 4), with the events handed to it and not yet taken. -/
structure WaitUnit where
  queues        : Table (List Waiter)
  stall         : List Nat
  due           : List Nat
  exam          : Option Examination
  parkInbox     : List ParkingEvent
  commitReports : List CommitReport
  heldTicks     : Nat
  deriving DecidableEq, Repr

/-! ### Time Base and Schedule Unit -/

/-- What the Time Base owns (R112 to R118). -/
structure TimeBase where
  divider       : Nat
  secCount      : Nat
  leaseCount    : Nat
  hkCount       : Nat
  leaseInterval : Nat
  hkInterval    : Nat
  leaseSel      : Nat
  hkSel         : Nat
  graceCount    : Nat
  graceHold     : Option Nat
  deriving DecidableEq, Repr

/-- R120: slot count, slot length and rate table of a schedule. -/
structure Schedule where
  slotCount  : Nat
  slotLength : Nat
  rates      : List Nat
  deriving DecidableEq, Repr

/-- What the Schedule Unit owns (R120). -/
structure ScheduleUnit where
  clockSet    : Bool
  frame       : Word
  slot        : Nat
  seconds     : Nat
  active      : Schedule
  staged      : Option Schedule
  activeMasks : Table Word
  stagedMasks : Table (Option Word)
  deriving DecidableEq, Repr

/-! ### Install Unit -/

/-- R131: an entry of the staged pool image. -/
structure StagedPool where
  params : Params
  mask   : Word
  deriving DecidableEq, Repr

/-- R131: the staged header content. -/
structure HeaderContent where
  sequence : Word
  schedule : Schedule
  deriving DecidableEq, Repr

/-- R131, R146: what the unit holds of the install in flight. `readTag` is the tag of the image read whose bytes it will take;
`restart` is set by a fault and makes the read start again when DMA resumes. -/
structure ImageRead where
  cell    : Nat
  addr    : HostAddr
  len     : Nat
  bytes   : List Byte
  crc     : Word
  readTag : Option Nat
  restart : Bool
  deriving DecidableEq, Repr

/-- R141, Table 7-2: the pools by what the commit event made of them. -/
structure CommitOutcome where
  created  : List Nat
  kept     : List Nat
  retiring : List Nat
  removed  : List Nat
  deriving DecidableEq, Repr

/-- R131: the Install Unit. In COMMITTING, `outcome` is absent before the commit event and present after it. -/
inductive InstallUnit where
  | idle
  | reading (image : ImageRead)
  | committing (image : ImageRead) (staged : Table (Option StagedPool)) (header : HeaderContent) (outcome : Option CommitOutcome)
  deriving DecidableEq, Repr

/-! ### Meter Unit -/

/-- R148, Table 8-1: the six meters of a pool and their saturation flags. -/
structure Meters where
  tokenTicks      : Nat
  grants          : Nat
  refusals        : Nat
  waitExpiries    : Nat
  lapses          : Nat
  peak            : Nat
  satTokenTicks   : Bool
  satGrants       : Bool
  satRefusals     : Bool
  satWaitExpiries : Bool
  satLapses       : Bool
  satPeak         : Bool
  deriving DecidableEq, Repr

/-- R148: a pool's meters after reset. -/
def Meters.atReset : Meters :=
  { tokenTicks := 0, grants := 0, refusals := 0, waitExpiries := 0, lapses := 0, peak := 0, satTokenTicks := false,
    satGrants := false, satRefusals := false, satWaitExpiries := false, satLapses := false, satPeak := false }

/-- R149, Table 8-2: the meters a count raises by 1. -/
inductive CountedMeter where
  | grants
  | refusals
  | waitExpiries
  | lapses
  deriving DecidableEq, Repr

/-- R149, R150: a count handed to the Meter Unit and not yet taken. -/
inductive MeterCount where
  | raise (meter : CountedMeter) (pool : Nat)
  | peak (pool inUse : Nat)
  deriving DecidableEq, Repr

/-- R154: what the page snapshot holds of a pool's entry. -/
structure Occupancy where
  st         : PoolState
  inUse      : Nat
  leaseCount : Nat
  deriving DecidableEq, Repr

/-- R154: an ABSENT pool's part of a snapshot. -/
def Occupancy.atReset : Occupancy := { st := .absent, inUse := 0, leaseCount := 0 }

/-- R154: the page snapshot. -/
structure PageSnapshot where
  covered : Nat
  frame   : Word
  slot    : Nat
  pages   : Word
  meters  : Table Meters
  pools   : Table Occupancy
  deriving DecidableEq, Repr

/-- R148, R155: the page operation state. In WRITING, `part` is the write being made or next to be made (0 the header, p + 1 the
record of pool p, 513 the owner word) and `issued` says whether it has been issued. -/
inductive PageOperation where
  | idle
  | reading
  | writing (snapshot : PageSnapshot) (part : Nat) (issued : Bool)
  deriving DecidableEq, Repr

/-- What the Meter Unit owns (R148), with the counts and slot ends handed to it and not yet taken. -/
structure MeterUnit where
  meters       : Table Meters
  slotEndCount : Nat
  interval     : Nat
  covered      : Nat
  pages        : Word
  page         : PageOperation
  readDue      : Bool
  inbox        : List MeterCount
  slotEnds     : Nat
  deriving DecidableEq, Repr

/-! ### The whole machine -/

/-- The engine: its nine blocks, the commands waiting, and the model's own counters (log entries 8 and 23). -/
structure State where
  pending  : List Instr
  nextTag  : Nat
  msiSent  : Nat
  xi       : ExchangeInterface
  decision : Option Decision
  et       : EntitlementTable
  lt       : LeaseTable
  wu       : WaitUnit
  tb       : TimeBase
  su       : ScheduleUnit
  install  : InstallUnit
  mu       : MeterUnit
  deriving DecidableEq, Repr

/-- The engine never stops with a fault: a DMA error is an ordinary next state, the engine state FAULTED (R169, log entry 27). -/
inductive Fault where
  deriving DecidableEq, Repr

/-- Why a command has no meaning. -/
inductive Refusal where
  /-- Raised by exec's arm of a command that has no meaning yet, with the command's mnemonic; safe. No arm of this model raises it. -/
  | notModelled (mnemonic : String)
  deriving DecidableEq, Repr

/-- R171: the Exchange Interface after reset. -/
def ExchangeInterface.atReset : ExchangeInterface :=
  { base := 0, engine := .offline, baseInvalid := false, cells := [], servicePointer := 1023, readAhead := [], writeList := [],
    writeStage := .notBegun, notices := [], noticeStage := .notBegun, written := 0, cached := 0, causeNotice := false,
    causeFault := false, intEnable := false, faultKind := .none, faultIndex := 0, faultAddr := 0, inFlight := [], retry := [] }

/-- R86: the Wait Unit after reset. -/
def WaitUnit.atReset : WaitUnit :=
  { queues := [], stall := [], due := [], exam := Option.none, parkInbox := [], commitReports := [], heldTicks := 0 }

/-- R112, R117: the Time Base after reset; the intervals in progress are those of selection 3. -/
def TimeBase.atReset : TimeBase :=
  { divider := 0, secCount := 0, leaseCount := 0, hkCount := 0, leaseInterval := 1000, hkInterval := 100, leaseSel := 3,
    hkSel := 3, graceCount := 300, graceHold := Option.none }

/-- R120: one slot of 65535 seconds with every rate 100. -/
def Schedule.atReset : Schedule := { slotCount := 1, slotLength := 65535, rates := List.replicate 32 100 }

/-- R120: the Schedule Unit after reset. -/
def ScheduleUnit.atReset : ScheduleUnit :=
  { clockSet := false, frame := 0, slot := 0, seconds := 0, active := Schedule.atReset, staged := Option.none, activeMasks := [],
    stagedMasks := [] }

/-- R148: the Meter Unit after reset. -/
def MeterUnit.atReset : MeterUnit :=
  { meters := [], slotEndCount := 0, interval := 1, covered := 0, pages := 0, page := .idle, readDue := false, inbox := [],
    slotEnds := 0 }

/-- The machine right after power-on reset (R171 and the reset rule of each chapter), with no command waiting. -/
def State.reset : State :=
  { pending := [], nextTag := 0, msiSent := 0, xi := ExchangeInterface.atReset, decision := Option.none,
    et := { pools := [], floor := 0 }, lt := { leases := [] }, wu := WaitUnit.atReset, tb := TimeBase.atReset,
    su := ScheduleUnit.atReset, install := .idle, mu := MeterUnit.atReset }

end Sys2Proof.Machine
end

