-- ==== Sys2Proof/Machine/Tables.lean ====
section
/-! DEFINITION. The operations over the sparse tables and the ordered number sets of State. Every one of them keeps the
canonical form (log entry 21): numbers strictly rising, and no listed entry equal to what an unlisted one reads as. -/

namespace Sys2Proof.Machine

/-- The entry of a number; an unlisted number reads as `d`. -/
def Table.get {α : Type} (d : α) : Table α → Nat → α
  | [], _ => d
  | (k, v) :: t, i => if k = i then v else Table.get d t i

/-- Insert or replace an entry, keeping the numbers rising. -/
def Table.put {α : Type} (i : Nat) (v : α) : Table α → Table α
  | [] => [(i, v)]
  | (k, w) :: t => if i < k then (i, v) :: (k, w) :: t else if i = k then (i, v) :: t else (k, w) :: Table.put i v t

/-- Remove an entry. -/
def Table.erase {α : Type} (i : Nat) (t : Table α) : Table α := t.filter (fun e => decide (e.1 ≠ i))

/-- Write an entry: the value an unlisted number reads as removes it. -/
def Table.set {α : Type} [DecidableEq α] (d : α) (t : Table α) (i : Nat) (v : α) : Table α :=
  if v = d then Table.erase i t else Table.put i v t

/-- Change every listed entry; for an `f` that leaves `d` as it is, this changes every entry. -/
def Table.mapEntries {α : Type} [DecidableEq α] (d : α) (f : Nat → α → α) (t : Table α) : Table α :=
  t.filterMap (fun e => if f e.1 e.2 = d then none else some (e.1, f e.1 e.2))

/-- The table of the numbers below `n` whose entries a function gives. -/
def Table.build {α : Type} [DecidableEq α] (d : α) (n : Nat) (f : Nat → α) : Table α :=
  (List.range n).filterMap (fun i => if f i = d then none else some (i, f i))

/-- The canonical form: numbers strictly rising, no entry equal to what an unlisted number reads as. -/
def Table.canonical {α : Type} [DecidableEq α] (d : α) (t : Table α) : Bool :=
  decide ((t.map Prod.fst).Pairwise (· < ·)) && t.all (fun e => decide (e.2 ≠ d))

/-- The canonical form over the numbers below `n`. -/
def Table.wf {α : Type} [DecidableEq α] (d : α) (n : Nat) (t : Table α) : Bool :=
  Table.canonical d t && t.all (fun e => decide (e.1 < n))

/-- A list of numbers strictly rising. -/
def rising (l : List Nat) : Bool := decide (l.Pairwise (· < ·))

/-- Insert a number into a rising list of numbers, once. -/
def addNumber (i : Nat) : List Nat → List Nat
  | [] => [i]
  | k :: t => if i < k then i :: k :: t else if i = k then k :: t else k :: addNumber i t

/-- Insert several numbers. -/
def addNumbers (is : List Nat) (t : List Nat) : List Nat := is.foldl (fun acc i => addNumber i acc) t

/-- Insert by a key into a list whose keys rise, after the entries of an equal or smaller key. -/
def insertByKey {α : Type} (key : α → Nat) (x : α) : List α → List α
  | [] => [x]
  | y :: t => if key x < key y then x :: y :: t else y :: insertByKey key x t

/-- Sort by a key, entries of equal key in the order they came. -/
def sortByKey {α : Type} (key : α → Nat) (l : List α) : List α := l.foldl (fun acc x => insertByKey key x acc) []

/-- The places of a list whose entries meet a test: the entries and their numbers, numbers rising. -/
def Table.select {α : Type} (p : Nat → α → Bool) (t : Table α) : List (Nat × α) := t.filter (fun e => p e.1 e.2)

end Sys2Proof.Machine
end

