-- ==== Sys2Proof/Machine/Admission.lean ====
section
/-! DEFINITION. The pure arithmetic and tests of chapters 1 and 2: matching, validity, the charge, the per-client limit, the
counter conditions, period clamping. They read values only; who reads which state when is said where they are used. -/

namespace Sys2Proof.Machine

/-- R4: a client key matches a value and mask. -/
def keyMatches (key value mask : Word) : Bool := decide ((key ^^^ value) &&& mask = 0)

/-- R3: the pool lists the feature. -/
def Params.lists (p : Params) (feature : Nat) : Bool := p.features.contains feature

/-- R4: the pool serves the client key. -/
def Params.serves (p : Params) (key : Word) : Bool := keyMatches key p.scopeValue p.scopeMask

/-- R5: the client key is an insider of the pool. -/
def Params.insider (p : Params) (key : Word) : Bool := keyMatches key p.reserveValue p.reserveMask

/-- R9: both frames bound the Frame Number, inclusively and as unsigned numbers. -/
def withinFrames (validFrom validTo frame : Word) : Bool := decide (validFrom.toNat ≤ frame.toNat ∧ frame.toNat ≤ validTo.toNat)

/-- R9: the Frame Number is past the pool's validity. -/
def Params.past (p : Params) (frame : Word) : Bool := decide (p.validTo.toNat < frame.toNat)

/-- R9: the Frame Number is before the pool's validity. -/
def Params.before (p : Params) (frame : Word) : Bool := decide (frame.toNat < p.validFrom.toNat)

/-- R9: the Frame Number is within the pool's validity. -/
def Params.within (p : Params) (frame : Word) : Bool := withinFrames p.validFrom p.validTo frame

/-- Table 1-9: the validity an INSPECT_POOL answer reports. A pool both before and past is reported ENDED (its note). -/
def Params.validity (p : Params) (frame : Word) : Validity :=
  if p.past frame then .ended else if p.before frame then .notYet else .current

/-- R12: a pool that can be a structural candidate by its state. -/
def PoolState.serving : PoolState → Bool
  | .active => true
  | .draining => true
  | .absent => false
  | .retiring => false

/-- R10: the window bit of a slot. -/
def maskOpen (mask : Word) (slot : Nat) : Bool := mask.getLsbD slot

/-- R25: the extra units. -/
def extraUnits (units included : Nat) : Nat := units - included

/-- R26: the raw charge. -/
def rawCharge (quantity units base unit included : Nat) : Nat := quantity * (base + unit * extraUnits units included)

/-- R28: the charge, the scaled charge of R27 divided by 100 and rounded up. -/
def chargeOf (raw rate : Nat) : Nat := (raw * rate + 99) / 100

/-- R24, R27: the rate percent of a pool, 100 for a rate-exempt one, else the slot's rate entry. -/
def rateFor (p : Params) (sched : Schedule) (slot : Nat) : Nat := if p.rateExempt then 100 else sched.rates.getD slot 100

/-- R24: the charge of a quantity and units on a pool at a slot. -/
def poolCharge (p : Params) (sched : Schedule) (slot quantity units : Nat) : Nat :=
  chargeOf (rawCharge quantity units p.baseCost p.unitCost p.includedUnits) (rateFor p sched slot)

/-- R29: a charge fits capacity. -/
def fitsCapacity (charge capacity : Nat) : Bool := decide (charge ≤ Config.chargeCeiling ∧ charge ≤ capacity)

/-- R32: the reserve shortfall. -/
def shortfall (reserve reserveInUse : Nat) : Nat := reserve - reserveInUse

/-- R33: the limit of a pool for a client key. -/
def clientLimit (p : Params) (reserveInUse : Nat) (key : Word) : Nat :=
  if p.insider key then p.capacity else p.capacity - shortfall p.reserve reserveInUse

/-- R34: the token condition. -/
def tokenCondition (p : Params) (pool : Pool) (key : Word) (charge : Nat) : Bool :=
  decide (pool.inUse + charge ≤ clientLimit p pool.reserveInUse key)

/-- R35: the seat condition. -/
def seatCondition (p : Params) (pool : Pool) : Bool := decide (p.seatCap = 0 ∨ pool.leaseCount + 1 ≤ p.seatCap)

/-- R14: a pool fits its capacity and its seat cap (the drain test). -/
def withinLimits (p : Params) (pool : Pool) : Bool :=
  decide (pool.inUse ≤ p.capacity ∧ (p.seatCap = 0 ∨ pool.leaseCount ≤ p.seatCap))

/-- R55, R8: the period a request receives: 0 the default, any other clamped into the range. -/
def grantedPeriod (p : Params) (request : Nat) : Nat :=
  if request = 0 then p.periodDefault
  else if request < p.periodMin then p.periodMin
  else if p.periodMax < request then p.periodMax
  else request

/-- R37: a queue holds a waiter of the class or a more urgent one (0 the most urgent). -/
def holdsClass (queue : List Waiter) (cls : Nat) : Bool := queue.any (fun w => decide (w.cls ≤ cls))

/-- R66: the place of a new entry: directly after the last entry whose class is as urgent or more urgent. -/
def placeWaiter (w : Waiter) : List Waiter → List Waiter
  | [] => [w]
  | v :: t => if holdsClass (v :: t) w.cls then v :: placeWaiter w t else w :: v :: t

end Sys2Proof.Machine
end

