-- ==== Sys2Proof/Machine/Flags.lean ====
section
/-! DEFINITION. Status, cause and interrupt bits: the gates the engine state sets (Tables 6-4 and 9-3), the cause bits and
the MSI (R168), the numeric codes of Table 10-6 and 10-5, and the register reads of Table 9-4. -/

namespace Sys2Proof.Machine

/-- Table 9-3: DMA transfers are issued in RUN and HOLD. -/
def EngineState.dma : EngineState → Bool
  | .run => true
  | .hold => true
  | .offline => false
  | .still => false
  | .faulted => false

/-- Table 9-3: the Request Evaluator takes cells in RUN and HOLD. -/
def EngineState.evaluates : EngineState → Bool
  | .run => true
  | .hold => true
  | .offline => false
  | .still => false
  | .faulted => false

/-- Table 6-4: the tick streams run in every state but STILL. -/
def EngineState.streams : EngineState → Bool
  | .still => false
  | .offline => true
  | .run => true
  | .hold => true
  | .faulted => true

/-- Table 6-4, R96: aging runs in RUN, FAULTED and OFFLINE. -/
def EngineState.ages : EngineState → Bool
  | .run => true
  | .faulted => true
  | .offline => true
  | .hold => false
  | .still => false

/-- R118: a pending grace hold acts in RUN and FAULTED. -/
def EngineState.graceActs : EngineState → Bool
  | .run => true
  | .faulted => true
  | .offline => false
  | .hold => false
  | .still => false

/-- R118: a pending grace hold withholds lease ticks now. -/
def State.withheld (s : State) : Bool := s.xi.engine.graceActs && s.tb.graceHold.isSome

/-- R92, R116, R118: a lease tick is taken for aging now. -/
def State.leaseTickTaken (s : State) : Bool := s.xi.engine.ages && !s.withheld

/-- R168: send one MSI (counted, log entry 23). -/
def State.sendMsi (s : State) : State := { s with msiSent := s.msiSent + 1 }

/-- R168: set CAUSE NOTICE; an MSI is sent when the interrupt is enabled and the bit was 0. -/
def State.setCauseNotice (s : State) : State :=
  if s.xi.intEnable && !s.xi.causeNotice then { s.sendMsi with xi.causeNotice := true } else { s with xi.causeNotice := true }

/-- R168: set CAUSE FAULT; an MSI is sent when the interrupt is enabled and the bit was 0. -/
def State.setCauseFault (s : State) : State :=
  if s.xi.intEnable && !s.xi.causeFault then { s.sendMsi with xi.causeFault := true } else { s with xi.causeFault := true }

/-- R168: a CONTROL write takes the enable; an MSI is sent when it goes from 0 to 1 while a cause bit is 1. -/
def State.takeEnable (s : State) (enable : Bool) : State :=
  if enable && !s.xi.intEnable && (s.xi.causeNotice || s.xi.causeFault) then { s.sendMsi with xi.intEnable := enable }
  else { s with xi.intEnable := enable }

/-- R168: a CAUSE write clears each bit written as 1. -/
def State.clearCauses (s : State) (value : Word) : State :=
  { s with
    xi.causeNotice := s.xi.causeNotice && !value.getLsbD 0
    xi.causeFault := s.xi.causeFault && !value.getLsbD 1 }

/-- Table 10-6: the engine state's code. -/
def EngineState.code : EngineState → Nat
  | .offline => 0
  | .run => 1
  | .hold => 2
  | .still => 3
  | .faulted => 4

/-- Table 10-6: the fault kind's code. -/
def FaultKind.code : FaultKind → Nat
  | .none => 0
  | .fetch => 1
  | .answer => 2
  | .notice => 3
  | .consumed => 4
  | .image => 5
  | .meter => 6

/-- Table 10-6: the pool state's code. -/
def PoolState.code : PoolState → Nat
  | .absent => 0
  | .active => 1
  | .draining => 2
  | .retiring => 3

/-- Table 10-6: the validity's code. -/
def Validity.code : Validity → Nat
  | .noValue => 0
  | .current => 1
  | .notYet => 2
  | .ended => 3

/-- Table 10-5: the result code. -/
def Result.code : Result → Nat
  | .granted => 1
  | .ok => 2
  | .noEntitlement => 3
  | .expired => 4
  | .outOfWindow => 5
  | .exhausted => 6
  | .exceedsCapacity => 7
  | .chargeLimit => 8
  | .leaseTableFull => 9
  | .clockUnset => 10
  | .waitExpired => 11
  | .withdrawn => 12
  | .cleared => 13
  | .staleHandle => 14
  | .lapsed => 15
  | .notWaiting => 16
  | .malformed => 17
  | .badField => 18
  | .installBusy => 19
  | .imageCorrupt => 20
  | .imageOld => 21
  | .clockBackward => 22
  | .poolRetired => 23

/-- R131: install busy, READING or COMMITTING. -/
def InstallUnit.busy : InstallUnit → Bool
  | .idle => false
  | .reading _ => true
  | .committing _ _ _ _ => true

/-- A bit at a place of a register word. -/
def bitAt (b : Bool) (place : Nat) : Nat := if b then 2 ^ place else 0

/-- R161: the Post Set, the PENDING cells in rising number. -/
def State.postSet (s : State) : List Nat := (Table.select (fun _ c => decide (c.st = .pending)) s.xi.cells).map Prod.fst

/-- The seven registers of Table 10-14. -/
inductive Register where
  | exbaseLo
  | exbaseHi
  | post
  | control
  | status
  | cause
  | faultInfo
  deriving DecidableEq, Repr

/-- R160, Table 9-4, Table 10-14: what a read of a register returns (log entry 28). -/
def State.readRegister (s : State) : Register → Word
  | .exbaseLo => s.xi.base.setWidth 32
  | .exbaseHi => (s.xi.base >>> 32).setWidth 32
  | .post => BitVec.ofNat 32 s.postSet.length
  | .control => BitVec.ofNat 32 (bitAt s.xi.intEnable 4)
  | .status =>
    BitVec.ofNat 32 (s.xi.engine.code + bitAt s.su.clockSet 4 + bitAt s.install.busy 5 + bitAt s.xi.baseInvalid 6
      + s.xi.faultKind.code * 2 ^ 8)
  | .cause => BitVec.ofNat 32 (bitAt s.xi.causeNotice 0 + bitAt s.xi.causeFault 1)
  | .faultInfo => BitVec.ofNat 32 (s.xi.faultAddr.toNat + s.xi.faultIndex * 2 ^ 20)

/-- Table 10-14: the register at an offset of the window; there is none elsewhere. -/
def registerAt : Nat → Option Register
  | 0x00 => some .exbaseLo
  | 0x04 => some .exbaseHi
  | 0x08 => some .post
  | 0x0C => some .control
  | 0x10 => some .status
  | 0x14 => some .cause
  | 0x18 => some .faultInfo
  | _ => none

/-- R172, Table 10-14: the word a read at an offset of the register window returns, where a register stands. -/
def State.readWindow (s : State) (offset : Nat) : Option Word := (registerAt offset).map s.readRegister

end Sys2Proof.Machine
end

