-- ==== Sys2Proof/Machine/Layouts.lean ====
section
/-! DEFINITION. The byte-level formats of chapter 10: where each region of the exchange area lies (Table 9-1), what an answer, a
notice entry and a part of the meter page look like in host memory, and which bytes and bits of a request are reserved. -/

namespace Sys2Proof.Machine

/-- R158, log entry 18: a host address of the exchange area, the base plus an offset. -/
def exchangeAddr (base : HostAddr) (offset : Nat) : HostAddr := base + BitVec.ofNat 64 offset

/-- Table 9-1: the offset of a cell. -/
def cellOffset (cell : Nat) : Nat := 0xA000 + 64 * cell

/-- Table 10-7: the offset of the notices-written count. -/
def writtenOffset : Nat := 0x00
/-- Table 10-7: the offset of the consumed count. -/
def consumedOffset : Nat := 0x04
/-- Table 10-7: the offset of the meter owner word. -/
def ownerOffset : Nat := 0x08

/-- R175: the offset of the notice entry written as number `w`. -/
def noticeOffset (w : Word) : Nat := 0x1000 + 0x10 * (w.toNat % Config.noticeListSize)

/-- R155, R175: the offset of a part of the meter page, the header and then one record for each pool. -/
def pageOffset (part : Nat) : Nat := if part = 0 then 0x5000 else 0x5000 + 0x40 + 0x20 * (part - 1)

/-- Zero bytes. -/
def zeros (n : Nat) : List Byte := List.replicate n 0

/-- One byte of a number. -/
def byteOf (v : Nat) : Byte := BitVec.ofNat 8 v

/-- Table 10-4: the 20 bytes of an answer body. -/
def AnswerBody.bytes : AnswerBody → List Byte
  | .zero => zeros 20
  | .lease index generation charge period =>
    bytesLE 2 index ++ bytesLE 2 generation.toNat ++ bytesLE 2 charge ++ bytesLE 2 period ++ zeros 12
  | .returnMatching records => zeros 8 ++ bytesLE 2 records ++ zeros 10
  | .clearFloor records waiters => zeros 8 ++ bytesLE 2 records ++ bytesLE 2 waiters ++ zeros 8
  | .inspect st windowOpen validity capacity reserve inUse reserveInUse leaseCount seatCap waiters =>
    [byteOf st.code, byteOf (bitAt windowOpen 0), byteOf validity.code, 0] ++ bytesLE 2 capacity ++ bytesLE 2 reserve
      ++ bytesLE 2 inUse ++ bytesLE 2 reserveInUse ++ bytesLE 2 leaseCount ++ bytesLE 2 seatCap ++ bytesLE 2 waiters ++ zeros 2
  | .install created kept retiring removed floor =>
    zeros 8 ++ bytesLE 2 created ++ bytesLE 2 kept ++ bytesLE 2 retiring ++ bytesLE 2 removed ++ bytesLE 4 floor.toNat
  | .imageOld sequence floor => zeros 8 ++ bytesLE 4 sequence.toNat ++ zeros 4 ++ bytesLE 4 floor.toNat
  | .clock frame slot seconds => zeros 10 ++ bytesLE 4 frame.toNat ++ [byteOf slot, 0] ++ bytesLE 2 seconds ++ zeros 2
  | .tune leaseSel hkSel graceCount interval =>
    zeros 10 ++ [byteOf leaseSel, byteOf hkSel] ++ bytesLE 2 graceCount ++ [byteOf interval] ++ zeros 5

/-- Table 10-1: bytes 28h to 3Fh of a cell. -/
def Answer.bytes (a : Answer) : List Byte :=
  [byteOf a.result.code, byteOf a.detail] ++ bytesLE 2 a.pool.toNat ++ a.body.bytes

/-- Table 10-8: a notice entry; a METER notice carries the pages-written count standing when it is written (R156). -/
def Notice.bytes (pages : Word) : Notice → List Byte
  | .answer cell result pool =>
    [1, byteOf result.code] ++ bytesLE 2 cell ++ bytesLE 2 0 ++ bytesLE 2 pool.toNat ++ bytesLE 4 0 ++ bytesLE 4 0
  | .lapse index generation pool =>
    [2, 0] ++ bytesLE 2 index ++ bytesLE 2 generation.toNat ++ bytesLE 2 pool ++ bytesLE 4 0 ++ bytesLE 4 0
  | .meter => [3, 0] ++ bytesLE 2 0 ++ bytesLE 2 0 ++ bytesLE 2 Config.noPool.toNat ++ bytesLE 4 pages.toNat ++ bytesLE 4 0

/-- R169: the index a notice's transfers carry into a fault record. -/
def Notice.faultIndex : Notice → Nat
  | .answer cell _ _ => cell
  | .lapse index _ _ => index
  | .meter => 0

/-- Table 10-9: the meter page header. -/
def PageSnapshot.headerBytes (p : PageSnapshot) : List Byte :=
  [byteOf p.covered] ++ zeros 3 ++ bytesLE 4 p.frame.toNat ++ [byteOf p.slot] ++ zeros 3 ++ bytesLE 4 p.pages.toNat ++ zeros 48

/-- Table 10-10: the saturation flags of a pool. -/
def Meters.flagBits (m : Meters) : Nat :=
  bitAt m.satTokenTicks 0 + bitAt m.satGrants 1 + bitAt m.satRefusals 2 + bitAt m.satWaitExpiries 3 + bitAt m.satLapses 4
    + bitAt m.satPeak 5

/-- Table 10-10: the meter page record of a pool. -/
def PageSnapshot.recordBytes (p : PageSnapshot) (pool : Nat) : List Byte :=
  let m := Table.get Meters.atReset p.meters pool
  let o := Table.get Occupancy.atReset p.pools pool
  bytesLE 4 m.tokenTicks ++ bytesLE 4 m.grants ++ bytesLE 2 m.refusals ++ bytesLE 2 m.waitExpiries ++ bytesLE 2 m.lapses
    ++ bytesLE 2 m.peak ++ bytesLE 2 o.inUse ++ bytesLE 2 o.leaseCount ++ [byteOf o.st.code, byteOf m.flagBits] ++ zeros 10

/-- R155: the bytes of a part of the page. -/
def PageSnapshot.partBytes (p : PageSnapshot) (part : Nat) : List Byte :=
  if part = 0 then p.headerBytes else p.recordBytes (part - 1)

/-- Table 9-6: the fault kind of a transfer. -/
def TransferKind.faultKind : TransferKind → FaultKind
  | .fetch _ => .fetch
  | .answerArea _ => .answer
  | .poolField _ => .answer
  | .statusByte _ => .answer
  | .noticeEntry _ => .notice
  | .noticeCount _ => .notice
  | .consumedRead => .consumed
  | .imageRead _ => .image
  | .ownerRead => .meter
  | .pageWrite => .meter
  | .ownerWrite => .meter

/-- R169: the index of a transfer in the fault record. -/
def TransferKind.faultIndex : TransferKind → Nat
  | .fetch cell => cell
  | .answerArea cell => cell
  | .poolField cell => cell
  | .statusByte cell => cell
  | .noticeEntry index => index
  | .noticeCount index => index
  | .imageRead cell => cell
  | .consumedRead => 0
  | .ownerRead => 0
  | .pageWrite => 0
  | .ownerWrite => 0

end Sys2Proof.Machine
end

