-- ==== Sys2Proof/Machine/Operands.lean ====
section
/-! DEFINITION. The fields of a request: the kind codes (Table 10-2), which bytes and bits each kind reserves (Table 10-3), the
malformation check (R163, R173), and the fields of each kind read from the cell's copy. -/

namespace Sys2Proof.Machine

/-- Table 10-2: the request kind codes. -/
def kindDraw : Nat := 1
/-- Table 10-2. -/
def kindRenew : Nat := 2
/-- Table 10-2. -/
def kindReturn : Nat := 3
/-- Table 10-2. -/
def kindReturnMatching : Nat := 4
/-- Table 10-2. -/
def kindWithdraw : Nat := 5
/-- Table 10-2. -/
def kindInspectPool : Nat := 6
/-- Table 10-2. -/
def kindInstall : Nat := 7
/-- Table 10-2. -/
def kindSetClock : Nat := 8
/-- Table 10-2. -/
def kindTune : Nat := 9
/-- Table 10-2. -/
def kindClearFloor : Nat := 10

/-- Table 10-1: the request kind of a cell. -/
def requestKind (copy : List Byte) : Nat := (byteAt copy 1).toNat

/-- Table 10-3: the (offset, width) of the whole-byte fields of a kind. -/
def fieldSpans (kind : Nat) : List (Nat × Nat) :=
  match kind with
  | 1 => [(0x04, 2), (0x06, 1), (0x07, 1), (0x08, 2), (0x0A, 2), (0x0C, 2), (0x10, 4)]
  | 2 => [(0x04, 2), (0x06, 2), (0x08, 2)]
  | 3 => [(0x04, 2), (0x06, 2)]
  | 4 => [(0x04, 2), (0x08, 4), (0x0C, 4)]
  | 5 => [(0x04, 2)]
  | 6 => [(0x04, 2)]
  | 7 => [(0x08, 8), (0x10, 4)]
  | 8 => [(0x04, 4), (0x08, 1), (0x0A, 2)]
  | 9 => [(0x04, 1), (0x05, 1), (0x06, 2), (0x08, 1)]
  | _ => []

/-- Table 10-3: the offset of a kind's flags byte, of which only bit 0 is a field. -/
def flagsOffset (kind : Nat) : Option Nat :=
  match kind with
  | 3 => some 0x08
  | 4 => some 0x06
  | _ => none

/-- R173: the byte at an offset of 02h to 27h offends: a reserved byte that is not 0, or a flags byte with a bit other than bit 0. -/
def reservedOffends (kind : Nat) (copy : List Byte) (off : Nat) : Bool :=
  if (fieldSpans kind).any (fun f => decide (f.1 ≤ off ∧ off < f.1 + f.2)) then false
  else if flagsOffset kind = some off then decide (1 < (byteAt copy off).toNat)
  else decide (byteAt copy off ≠ 0)

/-- R173: the first offending offset of 02h to 27h. -/
def firstReserved (kind : Nat) (copy : List Byte) : Option Nat :=
  (List.range' 2 38).find? (reservedOffends kind copy)

/-- R172: a 32-bit field of a cell or of the control block, little-endian. -/
def wordField (copy : List Byte) (off : Nat) : Word := BitVec.ofNat 32 (readLE copy off 4)

/-- R43, R45, Table 10-3: a DRAW's fields with units 0 taken as 1 and a class above 3 as 3, standing before the clock check. -/
def drawRequest (cell : Nat) (copy : List Byte) : DrawDecision :=
  { cell := cell
    feature := readLE copy 0x04 2
    key := wordField copy 0x10
    quantity := (byteAt copy 0x06).toNat
    units := if readLE copy 0x08 2 = 0 then 1 else readLE copy 0x08 2
    cls := if 3 < (byteAt copy 0x07).toNat then 3 else (byteAt copy 0x07).toNat
    waitLimit := readLE copy 0x0A 2
    period := readLE copy 0x0C 2
    stage := .clock }

/-- R44: the offset of the first DRAW field out of range: feature code 0, quantity 0 or above 64, units above 1024. -/
def drawBadField (copy : List Byte) : Option Nat :=
  if readLE copy 0x04 2 = 0 then some 0x04
  else if (byteAt copy 0x06).toNat = 0 ∨ 64 < (byteAt copy 0x06).toNat then some 0x06
  else if 1024 < readLE copy 0x08 2 then some 0x08
  else none

/-- R88, Table 10-3: the record index of a handle. -/
def handleIndex (copy : List Byte) : Nat := readLE copy 0x04 2
/-- R88, Table 10-3: the generation of a handle. -/
def handleGeneration (copy : List Byte) : Half := BitVec.ofNat 16 (readLE copy 0x06 2)

/-- R132: the offset of the first INSTALL field out of range: an address not 8-byte aligned, a length out of 128 to 49,280. -/
def installBadField (copy : List Byte) : Option Nat :=
  if readLE copy 0x08 8 % 8 ≠ 0 then some 0x08
  else if readLE copy 0x10 4 < Config.minImageBytes ∨ Config.maxImageBytes < readLE copy 0x10 4 then some 0x10
  else none

/-- R119: the offset of the first TUNE field out of range. -/
def tuneBadField (copy : List Byte) : Option Nat :=
  if 7 < (byteAt copy 0x04).toNat then some 0x04
  else if 7 < (byteAt copy 0x05).toNat then some 0x05
  else none

/-- R119: the meter interval, 0 taken as 1. -/
def tuneInterval (copy : List Byte) : Nat := if (byteAt copy 0x08).toNat = 0 then 1 else (byteAt copy 0x08).toNat

end Sys2Proof.Machine
end

