-- ==== Sys2Proof/Machine/Ops.lean ====
section
/-! DEFINITION. The operations the commands share: reading and writing one entry of a table, handing an answer, a notice or a
count on, issuing a transfer and taking its end, the engine's passage between states with the retry list (R170), the
grant event (R17), the free event (R18), the triggers of the Wait Unit (R69, R76), taking a cell (R162, R163), reset (R171). -/

namespace Sys2Proof.Machine

/-! ### Entries of the tables -/

/-- R161: a cell's entry. -/
def State.cell (s : State) (c : Nat) : Cell := Table.get Cell.atReset s.xi.cells c
/-- Write a cell's entry. -/
def State.setCell (s : State) (c : Nat) (v : Cell) : State := { s with xi.cells := Table.set Cell.atReset s.xi.cells c v }
/-- Change a cell's state only. -/
def State.setCellState (s : State) (c : Nat) (st : CellState) : State := s.setCell c { s.cell c with st := st }

/-- R1: a pool's entry. -/
def State.pool (s : State) (p : Nat) : Pool := Table.get Pool.atReset s.et.pools p
/-- Write a pool's entry. -/
def State.setPool (s : State) (p : Nat) (v : Pool) : State := { s with et.pools := Table.set Pool.atReset s.et.pools p v }
/-- R1: a pool's parameter set, for pools that hold one. -/
def State.params (s : State) (p : Nat) : Params := (s.pool p).params.getD Params.none

/-- R87: a lease record. -/
def State.lease (s : State) (i : Nat) : Lease := Table.get Lease.atReset s.lt.leases i
/-- Write a lease record. -/
def State.setLease (s : State) (i : Nat) (v : Lease) : State := { s with lt.leases := Table.set Lease.atReset s.lt.leases i v }

/-- R65: a pool's wait queue. -/
def State.queue (s : State) (p : Nat) : List Waiter := Table.get [] s.wu.queues p
/-- Write a pool's wait queue. -/
def State.setQueue (s : State) (p : Nat) (q : List Waiter) : State := { s with wu.queues := Table.set [] s.wu.queues p q }

/-- R10: a pool's active window mask. -/
def State.activeMask (s : State) (p : Nat) : Word := Table.get 0 s.su.activeMasks p
/-- Write a pool's active window mask. -/
def State.setActiveMask (s : State) (p : Nat) (m : Word) : State := { s with su.activeMasks := Table.set 0 s.su.activeMasks p m }
/-- R10: a pool's staged window mask, present or absent. -/
def State.stagedMask (s : State) (p : Nat) : Option Word := Table.get none s.su.stagedMasks p
/-- Write a pool's staged window mask. -/
def State.setStagedMask (s : State) (p : Nat) (m : Option Word) : State :=
  { s with su.stagedMasks := Table.set none s.su.stagedMasks p m }

/-- R148: a pool's meters. -/
def State.metersOf (s : State) (p : Nat) : Meters := Table.get Meters.atReset s.mu.meters p

/-- R10: the pool's window is open in the current slot. -/
def State.windowOpen (s : State) (p : Nat) : Bool := maskOpen (s.activeMask p) s.su.slot

/-- R24: the charge of a quantity and units on a pool in the current slot. -/
def State.chargeOn (s : State) (p quantity units : Nat) : Nat := poolCharge (s.params p) s.su.active s.su.slot quantity units

/-! ### Answers, notices and counts handed on -/

/-- A pool number as an answer's pool field. -/
def poolField (p : Nat) : Half := BitVec.ofNat 16 p

/-- An answer whose body is 0 and whose detail is 0. -/
def plainAnswer (result : Result) (pool : Half) : Answer := { result := result, detail := 0, pool := pool, body := .zero }

/-- R163: MALFORMED with the offending offset; every other answer field 0. -/
def malformedAnswer (off : Nat) : Answer := { result := .malformed, detail := off, pool := Config.noPool, body := .zero }

/-- BAD_FIELD with the field's offset, pool field FFFFh and body 0. The pool field is given for DRAW (R62), INSPECT_POOL (R21), RENEW and
RETURN (R97, R100), RETURN_MATCHING (R103), WITHDRAW (Table 4-6) and INSTALL (R132); for TUNE and SET_CLOCK it is the model's reading
(log entry 36). The body is that of R174 (log entry 16). -/
def badFieldAnswer (off : Nat) : Answer := { result := .badField, detail := off, pool := Config.noPool, body := .zero }

/-- R57, R50: a GRANTED answer; detail 1 is REVIVED (R174). -/
def grantedAnswer (detail pool index : Nat) (generation : Half) (charge period : Nat) : Answer :=
  { result := .granted, detail := detail, pool := poolField pool, body := .lease index generation charge period }

/-- R164, R68: a block hands a cell's FINAL answer: it joins the end of the write list and the cell is ANSWERING. -/
def State.handAnswer (s : State) (c : Nat) (a : Answer) : State :=
  { s with
    xi.writeList := s.xi.writeList ++ [.final c a]
    xi.cells := Table.set Cell.atReset s.xi.cells c { s.cell c with st := .answering, copy := [] } }

/-- R165: a notice joins the end of the Notice Queue. -/
def State.handNotice (s : State) (n : Notice) : State := { s with xi.notices := s.xi.notices ++ [n] }

/-- R149: counts handed to the Meter Unit, each to be taken as an event of its own. -/
def State.handCounts (s : State) (cs : List MeterCount) : State := { s with mu.inbox := s.mu.inbox ++ cs }

/-! ### Transfers -/

/-- Issue a transfer under the next tag (log entry 8). -/
def State.issue (s : State) (kind : TransferKind) (addr : HostAddr) (len : Nat) (bytes : List Byte) : State :=
  { s with
    nextTag := s.nextTag + 1
    xi.inFlight := s.xi.inFlight ++ [{ tag := s.nextTag, kind := kind, addr := addr, len := len, bytes := bytes }] }

/-- The transfer in flight under a tag. -/
def State.transfer (s : State) (tag : Nat) : Option Transfer := s.xi.inFlight.find? (fun t => decide (t.tag = tag))

/-- The transfer under a tag has ended. -/
def State.landed (s : State) (tag : Nat) : State :=
  { s with xi.inFlight := s.xi.inFlight.filter (fun t => decide (t.tag ≠ tag)) }

/-- A consumed-count read is in flight (R167). -/
def State.consumedInFlight (s : State) : Bool := s.xi.inFlight.any (fun t => decide (t.kind = .consumedRead))

/-- R167: the notice list's room. -/
def State.room (s : State) : Nat := Config.noticeListSize - (s.xi.written - s.xi.cached).toNat

/-- R167: a notice waits at the front of the Notice Queue and the room is 0. -/
def State.noticeStalled (s : State) : Bool :=
  !s.xi.notices.isEmpty && decide (s.xi.noticeStage = .notBegun) && decide (s.room = 0)

/-- R167: a housekeeping tick or register write re-reads the consumed count where a notice waits for room, DMA is permitted and
no such read is in flight. -/
def State.rereadConsumed (s : State) : State :=
  if s.noticeStalled && s.xi.engine.dma && !s.consumedInFlight then
    s.issue .consumedRead (exchangeAddr s.xi.base consumedOffset) 4 []
  else s

/-- R164: issue the first write of the head entry: the answer area of a FINAL answer, the pool field of a PARKED mark. -/
def State.issueFirstWrite (s : State) : State :=
  match s.xi.writeList with
  | [] => s
  | .final c a :: _ =>
    { s.issue (.answerArea c) (exchangeAddr s.xi.base (cellOffset c + 0x28)) 0 a.bytes with xi.writeStage := .first }
  | .parked c p :: _ =>
    { s.issue (.poolField c) (exchangeAddr s.xi.base (cellOffset c + 0x2A)) 0 (bytesLE 2 p) with xi.writeStage := .first }

/-- R164: issue the status-byte write of the head entry: 2 for a FINAL answer, 1 for a PARKED mark. -/
def State.issueStatusWrite (s : State) : State :=
  match s.xi.writeList with
  | [] => s
  | .final c _ :: _ =>
    { s.issue (.statusByte c) (exchangeAddr s.xi.base (cellOffset c)) 0 [2] with xi.writeStage := .second }
  | .parked c _ :: _ =>
    { s.issue (.statusByte c) (exchangeAddr s.xi.base (cellOffset c)) 0 [1] with xi.writeStage := .second }

/-- R164: the head entry's first write has completed: the status-byte write is issued, or waits until DMA is permitted. -/
def State.firstWriteDone (s : State) : State :=
  if s.xi.engine.dma then s.issueStatusWrite else { s with xi.writeStage := .firstDone }

/-- R166: issue the entry write of the front notice at position w mod 1024. -/
def State.issueNoticeEntry (s : State) : State :=
  match s.xi.notices with
  | [] => s
  | n :: _ =>
    { s.issue (.noticeEntry n.faultIndex) (exchangeAddr s.xi.base (noticeOffset s.xi.written)) 0 (n.bytes s.mu.pages) with
      xi.noticeStage := .first }

/-- R166: issue the write of w + 1 into the notices-written count. -/
def State.issueNoticeCount (s : State) : State :=
  match s.xi.notices with
  | [] => s
  | n :: _ =>
    { s.issue (.noticeCount n.faultIndex) (exchangeAddr s.xi.base writtenOffset) 0 (bytesLE 4 (s.xi.written + 1).toNat) with
      xi.noticeStage := .second }

/-- R155: issue the part of the meter page that comes next: the header, a record, or the owner word as 1 (log entry 11). -/
def State.issuePagePart (s : State) : State :=
  match s.mu.page with
  | .idle => s
  | .reading => s
  | .writing snap part _ =>
    if part ≤ Config.numPools then
      { s.issue .pageWrite (exchangeAddr s.xi.base (pageOffset part)) 0 (snap.partBytes part) with
        mu.page := .writing snap part true }
    else
      { s.issue .ownerWrite (exchangeAddr s.xi.base ownerOffset) 0 (bytesLE 4 1) with mu.page := .writing snap part true }

/-- R155: the part that comes next is issued, or waits until DMA is permitted. -/
def State.nextPagePart (s : State) : State := if s.xi.engine.dma then s.issuePagePart else s

/-- R136: the CRC register's start value. -/
def crcStart : Word := 0xFFFFFFFF

/-- R134: how many bytes the next image read asks for: the rest of the header, then the rest of the image. -/
def ImageRead.wanted (im : ImageRead) : Nat :=
  if im.bytes.length < Config.headerBytes then Config.headerBytes - im.bytes.length else im.len - im.bytes.length

/-- R134: issue the image read that goes on from the progress reached (log entry 10). -/
def State.issueImageRead (s : State) : State :=
  match s.install with
  | .reading im =>
    { s.issue (.imageRead im.cell) (im.addr + BitVec.ofNat 64 im.bytes.length) im.wanted [] with
      install := .reading { im with readTag := some s.nextTag } }
  | .idle => s
  | .committing _ _ _ _ => s

/-- R134: the next image read is issued, or waits until DMA is permitted. -/
def State.nextImageRead (s : State) : State := if s.xi.engine.dma then s.issueImageRead else s

/-! ### Passing between engine states -/

/-- R117: leaving STILL loads the grace hold from the grace count. -/
def State.loadGrace (s : State) : State :=
  { s with tb.graceHold := if s.tb.graceCount = 0 then none else some s.tb.graceCount }

/-- R170: issue a transfer of the retry list afresh and in full (log entry 13). -/
def State.reissue (s : State) (t : Transfer) : State := s.issue t.kind t.addr t.len t.bytes

/-- R170: issue the whole retry list in its order. -/
def State.issueRetries (s : State) : State := s.xi.retry.foldl State.reissue { s with xi.retry := [] }

/-- R164, R170: a status-byte write that waited for DMA. -/
def State.resumeWriteList (s : State) : State := if s.xi.writeStage = .firstDone then s.issueStatusWrite else s

/-- R166, R170: a notices-written count write that waited for DMA. -/
def State.resumeNotices (s : State) : State := if s.xi.noticeStage = .firstDone then s.issueNoticeCount else s

/-- R155, R170: a page write that waited for DMA. -/
def State.resumePage (s : State) : State :=
  match s.mu.page with
  | .writing _ _ false => s.issuePagePart
  | .writing _ _ true => s
  | .idle => s
  | .reading => s

/-- R134, R146: an install in READING goes on from its progress, or after a fault starts again at the first byte. -/
def State.resumeImage (s : State) : State :=
  match s.install with
  | .reading im =>
    if im.restart then
      State.issueImageRead
        { s with install := .reading { im with bytes := [], crc := crcStart, readTag := none, restart := false } }
    else if im.readTag = none then s.issueImageRead
    else s
  | .idle => s
  | .committing _ _ _ _ => s

/-- R170: DMA resumes: the retry list first, then the streams from where they stood (log entry 12). -/
def State.resume (s : State) : State := s.issueRetries.resumeWriteList.resumeNotices.resumePage.resumeImage

/-- Table 9-2: a state request taken in OFFLINE is taken when the base is nonzero, and refused with base invalid set otherwise. -/
def State.leaveOffline (s : State) (target : EngineState) : State :=
  if s.xi.base = 0 then { s with xi.baseInvalid := true } else { s with xi.engine := target, xi.baseInvalid := false }

/-- Table 9-2: a request for RUN or HOLD. -/
def State.requestDmaState (s : State) (target : EngineState) : State :=
  match s.xi.engine with
  | .offline => s.leaveOffline target
  | .run => { s with xi.engine := target }
  | .hold => { s with xi.engine := target }
  | .still => State.resume { s.loadGrace with xi.engine := target }
  | .faulted => State.resume { s with xi.engine := target }

/-- Table 9-2: a request for STILL. -/
def State.requestStillState (s : State) : State :=
  match s.xi.engine with
  | .offline => s.leaveOffline .still
  | .run => { s with xi.engine := .still }
  | .hold => { s with xi.engine := .still }
  | .still => s
  | .faulted => { s with xi.engine := .still }

/-- R169: a transfer in flight ends in a DMA error. -/
def State.failTransfer (s : State) (t : Transfer) : State :=
  let queued := { s.landed t.tag with xi.retry := insertByKey Transfer.tag t s.xi.retry }
  let left := if s.xi.engine = .still then queued.loadGrace else queued
  let recorded :=
    if s.xi.engine = .faulted then left
    else
      State.setCauseFault
        { left with
          xi.engine := .faulted
          xi.faultKind := t.kind.faultKind
          xi.faultIndex := t.kind.faultIndex
          xi.faultAddr := t.addr.setWidth 20 }
  match s.install with
  | .reading im => { recorded with install := .reading { im with readTag := none, restart := true } }
  | .idle => recorded
  | .committing _ _ _ _ => recorded

/-- R171: every block returns to its reset values; the commands waiting and the model's counters stay (log entries 8 and 23). -/
def State.afterReset (s : State) : State :=
  { State.reset with pending := s.pending, nextTag := s.nextTag, msiSent := s.msiSent }

/-! ### Triggers of the Wait Unit -/

/-- R69: pools join the due set. -/
def State.makeDue (s : State) (ps : List Nat) : State := { s with wu.due := addNumbers ps s.wu.due }

/-- R69, R77: a slot start or frame start makes every pool whose queue is not empty due. -/
def State.triggerQueues (s : State) : State :=
  s.makeDue ((Table.select (fun _ q => !q.isEmpty) s.wu.queues).map Prod.fst)

/-- R76: a lease record became FREE: every pool with a table-stall mark becomes due. -/
def State.reportRecordFree (s : State) : State := s.makeDue s.wu.stall

/-- R75: set or clear a pool's table-stall mark. -/
def State.setStall (s : State) (p : Nat) (set : Bool) : State :=
  { s with wu.stall := if set then addNumber p s.wu.stall else s.wu.stall.filter (fun q => decide (q ≠ p)) }

/-! ### The free event -/

/-- R18 step 1: a record gives back its charge and its seat. -/
def Pool.giveBack (p : Pool) (l : Lease) : Pool :=
  { p with
    inUse := p.inUse - l.charge
    reserveInUse := p.reserveInUse - (if l.inReserve then l.charge else 0)
    leaseCount := p.leaseCount - 1 }

/-- R18 step 1, for one record. -/
def State.lowerCounters (s : State) (l : Lease) : State := s.setPool l.pool ((s.pool l.pool).giveBack l)

/-- R15: the pool becomes ABSENT, its parameter set is discarded and its window masks go, at a CLEAR_FLOOR too (R20), where the words of
R42 would leave the parameters and the masks as they were, and those of R120 the masks: the model's choice (log entry 37). -/
def State.dropPool (s : State) (p : Nat) : State := ((s.setPool p Pool.atReset).setActiveMask p 0).setStagedMask p none

/-- R18 steps 2 and 3 for one pool: a DRAINING pool that fits becomes ACTIVE (R14), a RETIRING pool without leases ABSENT (R15). -/
def State.settlePool (s : State) (p : Nat) : State :=
  match (s.pool p).st with
  | .draining => if withinLimits (s.params p) (s.pool p) then s.setPool p { s.pool p with st := .active } else s
  | .retiring => if (s.pool p).leaseCount = 0 then s.dropPool p else s
  | .active => s
  | .absent => s

/-- R18: the free event of the records given (as they were while they held their tokens and seats). -/
def State.freeEvent (s : State) (ls : List Lease) : State :=
  let lowered := ls.foldl State.lowerCounters s
  let settled := (ls.map Lease.pool).foldl State.settlePool lowered
  settled.makeDue (ls.map Lease.pool)

/-! ### The grant event -/

/-- R36, R90: the FREE record of lowest index. -/
def State.lowestFree (s : State) : Option Nat :=
  (List.range Config.numLeases).find? (fun i => decide ((s.lease i).st = .free))

/-- R17, R38: the grant event's verdict: the first failing condition in the order 1, 4, 5, 6, or none. -/
def State.grantVerdict (s : State) (p : Nat) (key : Word) (charge : Nat) : Option FailKind :=
  if !(s.pool p).st.serving then some .state
  else if !tokenCondition (s.params p) (s.pool p) key charge then some .tokens
  else if !seatCondition (s.params p) (s.pool p) then some .seats
  else if s.lowestFree.isNone then some .record
  else none

/-- R56: the lease record a grant makes, with the record's generation kept and the in-reserve flag formed against the reserve scope
standing at the event. -/
def State.grantedLease (s : State) (p : Nat) (key : Word) (feature charge period index : Nat) : Lease :=
  { st := .held
    generation := (s.lease index).generation
    pool := p
    feature := feature
    key := key
    charge := charge
    inReserve := (s.params p).insider key
    period := grantedPeriod (s.params p) period
    counter := grantedPeriod (s.params p) period }

/-- R17: the counters a passed grant raises. -/
def State.grantedPool (s : State) (p : Nat) (key : Word) (charge : Nat) : Pool :=
  { s.pool p with
    inUse := (s.pool p).inUse + charge
    reserveInUse := (s.pool p).reserveInUse + (if (s.params p).insider key then charge else 0)
    leaseCount := (s.pool p).leaseCount + 1 }

/-- R17, R56: a passed grant makes the lease in one event at both tables and hands the Meter Unit the grant and the new in-use. -/
def State.makeLease (s : State) (p : Nat) (key : Word) (feature charge period index : Nat) : State :=
  State.handCounts
    ((s.setLease index (s.grantedLease p key feature charge period index)).setPool p (s.grantedPool p key charge))
    [.raise .grants p, .peak p ((s.pool p).inUse + charge)]

/-! ### Taking a cell -/

/-- R162, R163: the Evaluator takes the earliest-issued cell when it runs, decides nothing else, and the cell is READY. The take
frees the slot. -/
def State.takeCell (s : State) : Option (Nat × List Byte × State) :=
  if s.xi.engine.evaluates && s.decision.isNone then
    match s.xi.readAhead with
    | [] => none
    | c :: rest =>
      if (s.cell c).st = .ready then
        some (c, (s.cell c).copy, { s with
          xi.readAhead := rest
          xi.cells := Table.set Cell.atReset s.xi.cells c { s.cell c with copy := [] } })
      else none
  else none

/-- R163, R173: take a cell of a request kind; a malformed one is answered MALFORMED, any other is decided. A cell of another kind
is not taken. -/
def State.withRequest (s : State) (kind : Nat) (decideIt : Nat → List Byte → State → State) : State :=
  match s.takeCell with
  | none => s
  | some (c, copy, taken) =>
    if requestKind copy = kind then
      match firstReserved kind copy with
      | some off => taken.handAnswer c (malformedAnswer off)
      | none => decideIt c copy taken
    else s

/-! ### The Wait Unit's removals -/

/-- R68: a waiter leaves its queue with this answer. -/
def State.answerWaiter (s : State) (p : Nat) (r : Result) (w : Waiter) : State :=
  s.handAnswer w.cell (plainAnswer r (poolField p))

/-- R68: every entry of a pool's queue is removed and answered, in queue order from the front. -/
def State.flushQueue (s : State) (p : Nat) (r : Result) : State :=
  (s.queue p).foldl (fun s w => s.answerWaiter p r w) (s.setQueue p [])

end Sys2Proof.Machine
end

