-- ==== Sys2Proof/Machine/Registers.lean ====
section
/-! DEFINITION. The register writes and the resets (R158 to R161, R168, R171). Each register write is one event, and besides its
own effect it re-reads the consumed count where R167 calls for it; that is judged after the write's own effect (log
entry 14). -/

namespace Sys2Proof.Machine

/-- What a command answers: the engine never stops (log entry 27). -/
abbrev Outcome := Host.Outcome State Fault Refusal

/-- R160: the end of every register write. -/
def State.registerWritten (s : State) : State := s.rereadConsumed

/-- R158: EXBASE_LO sets base bits 31 to 12 in OFFLINE; in any other state the held base stands. -/
def State.writeBaseLo (s : State) (value : Word) : State :=
  match s.xi.engine with
  | .offline => { s with xi.base := (s.xi.base >>> 32).setWidth 32 ++ (value &&& 0xFFFFF000) }
  | .run => s
  | .hold => s
  | .still => s
  | .faulted => s

/-- R158: EXBASE_HI sets base bits 63 to 32 in OFFLINE. -/
def State.writeBaseHi (s : State) (value : Word) : State :=
  match s.xi.engine with
  | .offline => { s with xi.base := value ++ s.xi.base.setWidth 32 }
  | .run => s
  | .hold => s
  | .still => s
  | .faulted => s

/-- R161: a POST write of a number. -/
def State.postCell (s : State) (c : Nat) : State :=
  if Config.numCells ≤ c then s
  else match (s.cell c).st with
    | .idle => s.setCellState c .pending
    | .notifying => s.setCell c { s.cell c with repost := true }
    | .pending => s
    | .fetching => s
    | .ready => s
    | .waiting => s
    | .working => s
    | .answering => s

/-- R158: EXBASE_LO_WRITE. -/
def execExbaseLoWrite (value : Word) (s : State) : Outcome := .next (s.writeBaseLo value).registerWritten

/-- R158: EXBASE_HI_WRITE. -/
def execExbaseHiWrite (value : Word) (s : State) : Outcome := .next (s.writeBaseHi value).registerWritten

/-- R161: POST. The whole word is the cell number (Table 10-14). -/
def execPost (value : Word) (s : State) : Outcome := .next (s.postCell value.toNat).registerWritten

/-- R159, R160: REQUEST_RUN. The enable field is taken first, the requested state second. -/
def execRequestRun (value : Word) (s : State) : Outcome :=
  .next ((s.takeEnable (controlEnable value)).requestDmaState .run).registerWritten

/-- R159, R160: REQUEST_HOLD. -/
def execRequestHold (value : Word) (s : State) : Outcome :=
  .next ((s.takeEnable (controlEnable value)).requestDmaState .hold).registerWritten

/-- R159, R160: REQUEST_STILL. -/
def execRequestStill (value : Word) (s : State) : Outcome :=
  .next (s.takeEnable (controlEnable value)).requestStillState.registerWritten

/-- R168, R160: INTERRUPT_ENABLE, a CONTROL write that requests no state. -/
def execInterruptEnable (value : Word) (s : State) : Outcome := .next (s.takeEnable (controlEnable value)).registerWritten

/-- R171, R160: FUNCTION_RESET; the other fields of the write are not taken. -/
def execFunctionReset (_value : Word) (s : State) : Outcome := .next s.afterReset

/-- R171: POWER_ON_RESET. -/
def execPowerOnReset (s : State) : Outcome := .next s.afterReset

/-- R171: FUNCTION_LEVEL_RESET, the same effect as power-on reset. -/
def execFunctionLevelReset (s : State) : Outcome := .next s.afterReset

/-- R168: CAUSE_WRITE. -/
def execCauseWrite (value : Word) (s : State) : Outcome := .next (s.clearCauses value).registerWritten

/-- R160: REGISTER_WRITE_IGNORED, a write to STATUS or FAULT_INFO. -/
def execRegisterWriteIgnored (_reg : ReadOnlyReg) (_value : Word) (s : State) : Outcome := .next s.registerWritten

end Sys2Proof.Machine
end

