-- ==== Sys2Proof/Machine/Exchange.lean ====
section
/-! DEFINITION. Cells, the write list, notices and DMA errors at the Exchange Interface (R162, R164 to R170). A completion or
arrival names its transfer by tag; one that names no such transfer in flight is ignored (R171, log entry 8). -/

namespace Sys2Proof.Machine

/-- R162: the next PENDING cell in rotating order: the lowest number above the pointer, wrapping past 1023 to 0. -/
def State.nextPick (s : State) : Option Nat :=
  match s.postSet.find? (fun c => decide (s.xi.servicePointer < c)) with
  | some c => some c
  | none => s.postSet.head?

/-- R162: the pick of a cell: it leaves the Post Set, becomes FETCHING, takes a slot, moves the pointer, and its bytes 0 to 39
are fetched. -/
def State.pickCell (s : State) (c : Nat) : State :=
  let picked := s.setCellState c .fetching
  State.issue { picked with xi.servicePointer := c, xi.readAhead := s.xi.readAhead ++ [c] } (.fetch c)
    (exchangeAddr s.xi.base (cellOffset c)) Config.cellCopyBytes []

/-- R162: CELL_PICK, made when the Post Set is not empty, a slot is unoccupied and DMA is permitted. -/
def execCellPick (s : State) : Outcome :=
  match s.nextPick with
  | some c => if s.xi.engine.dma && decide (s.xi.readAhead.length < Config.readAheadSlots) then .next (s.pickCell c) else .next s
  | none => .next s

/-- R162: FETCH_ARRIVAL: the fetched bytes become the cell's copy and the cell becomes READY. -/
def execFetchArrival (tag : Nat) (bytes : List Byte) (s : State) : Outcome :=
  match s.transfer tag with
  | some { kind := .fetch c, .. } =>
    .next ((s.landed tag).setCell c { s.cell c with st := .ready, copy := bytes.take Config.cellCopyBytes })
  | _ => .next s

/-- R164: WRITE_LIST_ISSUE, made while DMA is permitted and no write of the list is begun. -/
def execWriteListIssue (s : State) : Outcome :=
  if s.xi.engine.dma && decide (s.xi.writeStage = .notBegun) then .next s.issueFirstWrite else .next s

/-- R164: ANSWER_WRITE_COMPLETE: the status-byte write of 2 follows. -/
def execAnswerWriteComplete (tag : Nat) (s : State) : Outcome :=
  match s.transfer tag with
  | some { kind := .answerArea _, .. } => .next (s.landed tag).firstWriteDone
  | _ => .next s

/-- R164: POOL_FIELD_WRITE_COMPLETE: the status-byte write of 1 follows. -/
def execPoolFieldWriteComplete (tag : Nat) (s : State) : Outcome :=
  match s.transfer tag with
  | some { kind := .poolField _, .. } => .next (s.landed tag).firstWriteDone
  | _ => .next s

/-- R164: the head entry leaves the write list; a FINAL answer makes its cell NOTIFYING and queues its ANSWER notice. -/
def State.retireWrite (s : State) : State :=
  match s.xi.writeList with
  | [] => s
  | .final c a :: rest =>
    (State.setCellState { s with xi.writeList := rest, xi.writeStage := .notBegun } c .notifying).handNotice
      (.answer c a.result a.pool)
  | .parked _ _ :: rest => { s with xi.writeList := rest, xi.writeStage := .notBegun }

/-- R164: STATUS_BYTE_WRITE_COMPLETE. -/
def execStatusByteWriteComplete (tag : Nat) (s : State) : Outcome :=
  match s.transfer tag with
  | some { kind := .statusByte _, .. } => .next (s.landed tag).retireWrite
  | _ => .next s

/-- R166: NOTICE_WRITE, made when DMA is permitted, the list has room and no notice write is begun. -/
def execNoticeWrite (s : State) : Outcome :=
  if s.xi.engine.dma && decide (0 < s.room) && decide (s.xi.noticeStage = .notBegun) then .next s.issueNoticeEntry else .next s

/-- R166: NOTICE_ENTRY_WRITE_COMPLETE: the count write of w + 1 follows, or waits until DMA is permitted. -/
def execNoticeEntryWriteComplete (tag : Nat) (s : State) : Outcome :=
  match s.transfer tag with
  | some { kind := .noticeEntry _, .. } =>
    if s.xi.engine.dma then .next (s.landed tag).issueNoticeCount
    else .next { s.landed tag with xi.noticeStage := .firstDone }
  | _ => .next s

/-- R166: a cell whose ANSWER notice is written becomes IDLE, or PENDING with its repost mark cleared. -/
def State.releaseCell (s : State) (c : Nat) : State :=
  s.setCell c { s.cell c with st := if (s.cell c).repost then .pending else .idle, repost := false }

/-- R95: the report of a written LAPSE notice: a record still LAPSED with that generation becomes FREE, its generation advanced. -/
def State.lapseWritten (s : State) (index : Nat) (generation : Half) : State :=
  if (s.lease index).st = .lapsed ∧ (s.lease index).generation = generation then
    (s.setLease index { s.lease index with st := .free, generation := generation + 1 }).reportRecordFree
  else s

/-- R166: what the notice-written event does by the notice's kind. -/
def State.noticeDelivered (s : State) : Notice → State
  | .answer c _ _ => s.releaseCell c
  | .lapse index generation _ => s.lapseWritten index generation
  | .meter => s

/-- R166: the notice-written event: w advances, the front notice leaves, CAUSE NOTICE is set. -/
def State.noticeWrittenEvent (s : State) : State :=
  match s.xi.notices with
  | [] => s
  | n :: rest =>
    (State.setCauseNotice
      { s with xi.written := s.xi.written + 1, xi.notices := rest, xi.noticeStage := .notBegun }).noticeDelivered n

/-- R166: NOTICE_WRITTEN, the completion of the count write. -/
def execNoticeWritten (tag : Nat) (s : State) : Outcome :=
  match s.transfer tag with
  | some { kind := .noticeCount _, .. } => .next (s.landed tag).noticeWrittenEvent
  | _ => .next s

/-- R167: a consumed count read from the control block is stale when more than 1024 below w, modulo 2^32. -/
def State.staleConsumed (s : State) (value : Word) : Bool := decide (Config.noticeListSize < (s.xi.written - value).toNat)

/-- R167: the value read is judged: a stale one is not taken, any other becomes the cached consumed count. -/
def State.takeConsumed (s : State) (value : Word) : State := if s.staleConsumed value then s else { s with xi.cached := value }

/-- R167: CONSUMED_READ_ARRIVAL; the field of the control block is little-endian (R172). -/
def execConsumedReadArrival (tag : Nat) (bytes : List Byte) (s : State) : Outcome :=
  match s.transfer tag with
  | some { kind := .consumedRead, .. } => .next ((s.landed tag).takeConsumed (wordField bytes 0))
  | _ => .next s

/-- R169: DMA_ERROR on a transfer in flight. -/
def execDmaError (tag : Nat) (s : State) : Outcome :=
  match s.transfer tag with
  | some t => .next (s.failTransfer t)
  | none => .next s

end Sys2Proof.Machine
end

