-- ==== Sys2Proof/Machine/Leases.lean ====
section
/-! DEFINITION. Leases: RENEW (R97 to R99), RETURN (R100 to R102), RETURN_MATCHING (R103, R104), and the aging of the Lease
Table at a lease tick with its lapses and linger ends (R92 to R94). -/

namespace Sys2Proof.Machine

/-- Table 5-4, R100: an answer of RENEW or RETURN carries the handle as the request gave it. -/
def handleAnswer (result : Result) (pool : Half) (copy : List Byte) (charge period : Nat) : Answer :=
  { result := result, detail := 0, pool := pool, body := .lease (handleIndex copy) (handleGeneration copy) charge period }

/-- R98, R100: how the Lease Table reads a handle that names a record. -/
inductive HandleCase where
  | live
  | lapsed
  | stale
  deriving DecidableEq, Repr

/-- Table 5-4: HELD with the handle's generation, LAPSED with it, or anything else. -/
def handleCase (l : Lease) (generation : Half) : HandleCase :=
  match l.st with
  | .held => if l.generation = generation then .live else .stale
  | .lapsed => if l.generation = generation then .lapsed else .stale
  | .lingering => .stale
  | .free => .stale

/-- R99: the granted period after a RENEW: 0 keeps it, any other request is clamped into the pool's range. R8 says that a RENEW of 0
receives the pool's default; the model follows R99, to whose chapter R8 itself leaves RENEW (log entry 34). -/
def renewedPeriod (p : Params) (l : Lease) (request : Nat) : Nat := if request = 0 then l.period else grantedPeriod p request

/-- R99: the record a RENEW reloads. -/
def Lease.reload (l : Lease) (period : Nat) : Lease := { l with period := period, counter := period }

/-- R98: the RENEW event for a record index of 0 to 4095. -/
def State.renewRecord (s : State) (c : Nat) (copy : List Byte) : State :=
  let i := handleIndex copy
  let l := s.lease i
  match handleCase l (handleGeneration copy) with
  | .live =>
    let period := renewedPeriod (s.params l.pool) l (readLE copy 0x08 2)
    (s.setLease i (l.reload period)).handAnswer c (handleAnswer .ok (poolField l.pool) copy l.charge period)
  | .lapsed => s.handAnswer c (handleAnswer .lapsed (poolField l.pool) copy 0 0)
  | .stale => s.handAnswer c (handleAnswer .staleHandle Config.noPool copy 0 0)

/-- R97: RENEW after the malformation check. -/
def renewRequest (c : Nat) (copy : List Byte) (s : State) : State :=
  if Config.numLeases ≤ handleIndex copy then s.handAnswer c (badFieldAnswer 0x04) else s.renewRecord c copy

/-- R97 to R99: RENEW. -/
def execRenew (s : State) : Outcome := .next (s.withRequest kindRenew renewRequest)

/-- R101, R102: a returned record goes into linger, or is freed at once; its generation is advanced. -/
def State.returnedLease (s : State) (skip : Bool) (l : Lease) : Lease :=
  if (s.params l.pool).linger = 0 ∨ skip then { l with st := .free, generation := l.generation + 1 }
  else { l with st := .lingering, generation := l.generation + 1, counter := (s.params l.pool).linger }

/-- R102: the record is freed at once by its return. -/
def State.freedByReturn (s : State) (skip : Bool) (l : Lease) : Bool := decide ((s.params l.pool).linger = 0) || skip

/-- R18, R76: the records a return frees at once: one free event, and the report of records becoming FREE. -/
def State.freeReturned (s : State) (freed : List Lease) : State :=
  if freed.isEmpty then s else (s.freeEvent freed).reportRecordFree

/-- R104: the records chosen are returned in one event. -/
def State.returnRecords (s : State) (skip : Bool) (chosen : Nat → Lease → Bool) : State :=
  State.freeReturned
    { s with lt.leases := Table.mapEntries Lease.atReset (fun i l => if chosen i l then s.returnedLease skip l else l) s.lt.leases }
    (((Table.select chosen s.lt.leases).map Prod.snd).filter (s.freedByReturn skip))

/-- R100: the linger counter loaded, which the answer's period field carries: 0 when the record was freed at once. -/
def State.lingerLoaded (s : State) (skip : Bool) (l : Lease) : Nat :=
  if s.freedByReturn skip l then 0 else (s.params l.pool).linger

/-- R100: the RETURN event for a record index of 0 to 4095. -/
def State.returnRecord (s : State) (c : Nat) (copy : List Byte) : State :=
  let i := handleIndex copy
  let l := s.lease i
  let skip := (byteAt copy 0x08).getLsbD 0
  match handleCase l (handleGeneration copy) with
  | .live =>
    (s.returnRecords skip (fun j _ => decide (j = i))).handAnswer c
      (handleAnswer .ok (poolField l.pool) copy l.charge (s.lingerLoaded skip l))
  | .lapsed => s.handAnswer c (handleAnswer .lapsed (poolField l.pool) copy 0 0)
  | .stale => s.handAnswer c (handleAnswer .staleHandle Config.noPool copy 0 0)

/-- R100: RETURN after the malformation check. -/
def returnRequest (c : Nat) (copy : List Byte) (s : State) : State :=
  if Config.numLeases ≤ handleIndex copy then s.handAnswer c (badFieldAnswer 0x04) else s.returnRecord c copy

/-- R100 to R102: RETURN. -/
def execReturnLease (s : State) : Outcome := .next (s.withRequest kindReturn returnRequest)

/-- R103: the HELD records a RETURN_MATCHING selects; a filter of FFFFh is every pool. -/
def returnSelects (copy : List Byte) (l : Lease) : Bool :=
  decide (l.st = .held) && keyMatches l.key (wordField copy 0x08) (wordField copy 0x0C)
    && (decide (readLE copy 0x04 2 = 0xFFFF) || decide (l.pool = readLE copy 0x04 2))

/-- R103, R104: RETURN_MATCHING after the malformation check. -/
def returnMatchingRequest (c : Nat) (copy : List Byte) (s : State) : State :=
  let filter := readLE copy 0x04 2
  if Config.numPools ≤ filter ∧ filter ≠ 0xFFFF then s.handAnswer c (badFieldAnswer 0x04)
  else
    (s.returnRecords ((byteAt copy 0x06).getLsbD 0) (fun _ l => returnSelects copy l)).handAnswer c
      { result := .ok, detail := 0, pool := poolField filter,
        body := .returnMatching (Table.select (fun _ l => returnSelects copy l) s.lt.leases).length }

/-- R103, R104: RETURN_MATCHING. -/
def execReturnMatching (s : State) : Outcome := .next (s.withRequest kindReturnMatching returnMatchingRequest)

/-! ### Aging -/

/-- R92 to R94: a record after a lease tick that ages it. -/
def Lease.aged (l : Lease) : Lease :=
  match l.st with
  | .held => if l.counter ≤ 1 then { l with st := .lapsed, counter := 0 } else { l with counter := l.counter - 1 }
  | .lingering => if l.counter ≤ 1 then { l with st := .free, counter := 0 } else { l with counter := l.counter - 1 }
  | .free => l
  | .lapsed => l

/-- R93: the record lapses at the next lease tick that ages it. -/
def Lease.lapsing (l : Lease) : Bool := decide (l.st = .held) && decide (l.counter ≤ 1)

/-- R94: the record's linger ends at the next lease tick that ages it. -/
def Lease.lingerEnding (l : Lease) : Bool := decide (l.st = .lingering) && decide (l.counter ≤ 1)

/-- R93: the LAPSE notice of a lapse. -/
def lapseNotice (e : Nat × Lease) : Notice := .lapse e.1 e.2.generation e.2.pool

/-- R92: a lease tick taken by the Lease Table for aging, in one event: the counters, the lapses with their notices in rising record
index and their counts, the one free event of lapses and linger ends, and the report of records becoming FREE. -/
def State.ageLeases (s : State) : State :=
  let lapsing := Table.select (fun _ l => l.lapsing) s.lt.leases
  let lingered := Table.select (fun _ l => l.lingerEnding) s.lt.leases
  let ending := Table.select (fun _ l => l.lapsing || l.lingerEnding) s.lt.leases
  let aged :=
    { s with
      lt.leases := Table.mapEntries Lease.atReset (fun _ l => l.aged) s.lt.leases
      xi.notices := s.xi.notices ++ lapsing.map lapseNotice
      mu.inbox := s.mu.inbox ++ lapsing.map (fun (e : Nat × Lease) => MeterCount.raise .lapses e.2.pool) }
  let freed := aged.freeEvent (ending.map Prod.snd)
  if lingered.isEmpty then freed else freed.reportRecordFree

end Sys2Proof.Machine
end

