-- ==== Sys2Proof/Machine/Waiting.lean ====
section
/-! DEFINITION. The Wait Unit: parking (R66), examinations (R70 to R75), commit reports (R78), the deadline count of a
housekeeping tick (R79, R80), WITHDRAW (R81) and its part of CLEAR_FLOOR (R84). While an examination is in hand none of the
others is taken (R70): a parking event or commit report stays handed, a request stays in hand, and a housekeeping tick is
held until the examination ends (log entries 19 and 20). -/

namespace Sys2Proof.Machine

/-! ### Deadlines -/

/-- R79: an entry after a housekeeping tick that counts it. -/
def Waiter.counted (w : Waiter) : Waiter := { w with deadline := w.deadline - 1 }

/-- R80: the entry's deadline reaches 0 at the next tick that counts it. -/
def Waiter.expiring (w : Waiter) : Bool := decide (w.deadline ≤ 1)

/-- R80: the entries that expire, with their home pools, in rising cell number. -/
def State.expiringWaiters (s : State) : List (Nat × Waiter) :=
  sortByKey (fun e => e.2.cell) (s.wu.queues.flatMap (fun q => (q.2.filter Waiter.expiring).map (fun w => (q.1, w))))

/-- R80: the pools whose head expires. -/
def State.expiringHeads (s : State) : List Nat :=
  (Table.select (fun _ q => (q.head?.map Waiter.expiring).getD false) s.wu.queues).map Prod.fst

/-- R80: one expired entry is answered WAIT_EXPIRED and one wait-expiry counted for its home pool. -/
def State.expireWaiter (s : State) (e : Nat × Waiter) : State :=
  (s.answerWaiter e.1 .waitExpired e.2).handCounts [.raise .waitExpiries e.1]

/-- R79, R80: a housekeeping tick taken by the Wait Unit while aging runs. -/
def State.countDeadlines (s : State) : State :=
  let counted :=
    { s with wu.queues := Table.mapEntries [] (fun _ q => (q.filter (fun w => !w.expiring)).map Waiter.counted) s.wu.queues }
  (s.expiringWaiters.foldl State.expireWaiter counted).makeDue s.expiringHeads

/-- R79: the Wait Unit takes a housekeeping tick, in the engine state standing then. -/
def State.waitTick (s : State) : State := if s.xi.engine.ages then s.countDeadlines else s

/-- R70: a housekeeping tick reaches the Wait Unit: it is taken, or held while an examination is in hand. -/
def State.tickWaitUnit (s : State) : State :=
  match s.wu.exam with
  | none => s.waitTick
  | some _ => { s with wu.heldTicks := s.wu.heldTicks + 1 }

/-- Take a number of housekeeping ticks. -/
def State.waitTicks : Nat → State → State
  | 0, s => s
  | n + 1, s => State.waitTicks n s.waitTick

/-! ### Parking -/

/-- R66: an entry is placed in its home pool's queue, its cell is WAITING, and its PARKED mark joins the write list. -/
def State.placeParked (s : State) (e : ParkingEvent) : State :=
  let placed := (s.setQueue e.home (placeWaiter e.waiter (s.queue e.home))).setCellState e.waiter.cell .waiting
  { placed with xi.writeList := placed.xi.writeList ++ [.parked e.waiter.cell e.home] }

/-- R60, R66: the Wait Unit takes a parking event. -/
def State.takeParking (s : State) (e : ParkingEvent) : State :=
  if (s.pool e.home).st.serving then s.placeParked e else s.answerWaiter e.home .poolRetired e.waiter

/-- R66: PARKING, the oldest parking event handed, taken between examinations. -/
def execParking (s : State) : Outcome :=
  match s.wu.parkInbox, s.wu.exam with
  | e :: rest, none => .next (State.takeParking { s with wu.parkInbox := rest } e)
  | [], _ => .next s
  | _ :: _, some _ => .next s

/-! ### Examinations -/

/-- R70: the examination ends, with the pool's table-stall mark set or cleared (R75); the ticks held meanwhile are taken. -/
def State.endExam (s : State) (p : Nat) (stalled : Bool) : State :=
  State.waitTicks s.wu.heldTicks { s.setStall p stalled with wu.exam := none, wu.heldTicks := 0 }

/-- Move the examination to a step. -/
def State.examAt (s : State) (p : Nat) (stage : ExamStage) : State := { s with wu.exam := some { pool := p, stage := stage } }

/-- R71: the pool's state is read. -/
def State.examPoolState (s : State) (p : Nat) : State :=
  if (s.pool p).st.serving then s.examAt p .validity else (s.flushQueue p .poolRetired).endExam p false

/-- R72, R85: past validity every entry is answered EXPIRED and counted as a refusal. -/
def State.examFlushExpired (s : State) (p : Nat) : State :=
  ((s.flushQueue p .expired).handCounts ((s.queue p).map (fun _ => MeterCount.raise .refusals p))).endExam p false

/-- R74, R75: a commit or free taken after the state was read has made the pool ABSENT: it holds no parameter set to judge (R12), and
the examination stops with STATE (log entry 35). -/
def State.absentNow (s : State) (p : Nat) : Bool := decide ((s.pool p).st = .absent)

/-- R72: the pool's validity is judged. -/
def State.examValidity (s : State) (p : Nat) : State :=
  if s.absentNow p then s.endExam p false
  else if (s.params p).past s.su.frame then s.examFlushExpired p
  else if (s.params p).before s.su.frame then s.endExam p false
  else s.examAt p .head

/-- R73, R85: the head is removed and answered EXCEEDS_CAPACITY, and one refusal is counted. -/
def State.passOver (s : State) (p : Nat) (w : Waiter) (rest : List Waiter) : State :=
  ((s.setQueue p rest).answerWaiter p .exceedsCapacity w).handCounts [.raise .refusals p]

/-- R73, R74: the head is judged: passed over, stopped at a closed window, or a grant is presented for it. -/
def State.examHead (s : State) (p : Nat) : State :=
  match s.queue p with
  | [] => s.endExam p false
  | w :: rest =>
    if s.absentNow p then s.endExam p false
    else if !fitsCapacity (s.chargeOn p w.quantity w.units) (s.params p).capacity then s.passOver p w rest
    else if s.windowOpen p then s.examAt p (.granting (s.chargeOn p w.quantity w.units))
    else s.endExam p false

/-- R71 to R74: the next step of the examination in hand. One that has presented a grant waits for it. -/
def State.examStep (s : State) : State :=
  match s.wu.exam with
  | none => s
  | some e =>
    match e.stage with
    | .poolState => s.examPoolState e.pool
    | .validity => s.examValidity e.pool
    | .head => s.examHead e.pool
    | .granting _ => s

/-- At most `n` steps of the examination in hand. -/
def State.examSteps : Nat → State → State
  | 0, s => s
  | n + 1, s => State.examSteps n s.examStep

/-- R70: with none in hand, an examination of the lowest-numbered due pool begins. -/
def State.beginExam (s : State) : State :=
  match s.wu.exam, s.wu.due with
  | none, p :: rest => { s with wu.due := rest, wu.exam := some { pool := p, stage := .poolState } }
  | none, [] => s
  | some _, _ => s

/-- R70: EXAMINATION (log entry 5). -/
def execExamination (steps : Nat) (s : State) : Outcome := .next (State.examSteps steps s.beginExam)

/-- R74: the verdict of the grant event on the head the examination presented. -/
def State.examGrant (s : State) (p charge : Nat) : State :=
  match s.queue p with
  | [] => s.endExam p false
  | w :: rest =>
    match s.grantVerdict p w.key charge, s.lowestFree with
    | none, some i =>
      let made := (s.makeLease p w.key w.feature charge w.period i).setQueue p rest
      (made.handAnswer w.cell
        (grantedAnswer 0 p i (s.lease i).generation charge (grantedPeriod (s.params p) w.period))).examAt p .head
    | none, none => s.endExam p true
    | some .record, _ => s.endExam p true
    | some .state, _ => s.endExam p false
    | some .tokens, _ => s.endExam p false
    | some .seats, _ => s.endExam p false
    | some .window, _ => s.endExam p false
    | some .chargeLimit, _ => s.endExam p false
    | some .classRule, _ => s.endExam p false

/-! ### Commit reports -/

/-- R78: the waiters of a pool that leaves are answered POOL_RETIRED and its table-stall mark is cleared. -/
def State.retireQueue (s : State) (p : Nat) : State := (s.flushQueue p .poolRetired).setStall p false

/-- R78: the Wait Unit takes a commit report. -/
def State.takeCommitReport (s : State) (r : CommitReport) : State :=
  ((r.leaving.foldl State.retireQueue s).makeDue r.kept).makeDue r.leaving

/-- R78: COMMIT_REPORT, the oldest report handed, taken between examinations. -/
def execCommitReport (s : State) : Outcome :=
  match s.wu.commitReports, s.wu.exam with
  | r :: rest, none => .next (State.takeCommitReport { s with wu.commitReports := rest } r)
  | [], _ => .next s
  | _ :: _, some _ => .next s

/-! ### Requests the Wait Unit takes -/

/-- R70: the Wait Unit takes the request handed to it now: no examination is in hand, and the parking events handed before it have
been taken. -/
def State.waitUnitFree (s : State) : Bool := s.wu.exam.isNone && s.wu.parkInbox.isEmpty

/-- R67: the pool whose queue holds a cell. -/
def State.homeOf (s : State) (cell : Nat) : Option Nat :=
  (s.wu.queues.find? (fun q => q.2.any (fun w => decide (w.cell = cell)))).map Prod.fst

/-- R81: the head of a queue is the cell. -/
def headIs (cell : Nat) (queue : List Waiter) : Bool := (queue.head?.map (fun w => decide (w.cell = cell))).getD false

/-- R81: the target's entry is removed and answered WITHDRAWN; its pool becomes due when it was the head. -/
def State.withdrawFrom (s : State) (p target : Nat) : State :=
  let removed := s.setQueue p ((s.queue p).filter (fun w => decide (w.cell ≠ target)))
  let answered := removed.handAnswer target (plainAnswer .withdrawn (poolField p))
  if headIs target (s.queue p) then answered.makeDue [p] else answered

/-- R81: the WITHDRAW event at the Wait Unit; the target's answer is handed before the WITHDRAW's. -/
def State.withdrawEvent (s : State) (c target : Nat) : State :=
  match s.homeOf target with
  | some p => (s.withdrawFrom p target).handAnswer c (plainAnswer .ok (poolField p))
  | none => s.handAnswer c (plainAnswer .notWaiting Config.noPool)

/-- R81: WITHDRAW after the malformation check: refused, or handed to the Wait Unit. -/
def withdrawRequest (c : Nat) (copy : List Byte) (s : State) : State :=
  if Config.numCells ≤ readLE copy 0x04 2 then s.handAnswer c (badFieldAnswer 0x04)
  else { s with decision := some (.withdraw c (readLE copy 0x04 2)) }

/-- R81: the Wait Unit takes the WITHDRAW in hand when it can. -/
def State.finishWithdraw (s : State) : State :=
  match s.decision with
  | some (.withdraw c target) =>
    if s.waitUnitFree then State.withdrawEvent { s with decision := none } c target else s
  | _ => s

/-- R81: WITHDRAW. -/
def execWithdraw (s : State) : Outcome := .next (s.withRequest kindWithdraw withdrawRequest).finishWithdraw

/-! ### CLEAR_FLOOR -/

/-- R84: every entry of every queue with its pool, in rising pool number and queue order. -/
def State.allWaiters (s : State) : List (Nat × Waiter) := s.wu.queues.flatMap (fun q => q.2.map (fun w => (q.1, w)))

/-- R84: the Wait Unit's part of CLEAR_FLOOR. -/
def State.clearWaiters (s : State) : State :=
  s.allWaiters.foldl (fun s e => s.answerWaiter e.1 .cleared e.2) { s with wu.queues := [], wu.stall := [], wu.due := [] }

/-- R109: the LAPSE notice of record `i` is at the front of the Notice Queue and its write has begun. -/
def State.lapseBegun (s : State) (i : Nat) : Bool :=
  match s.xi.notices with
  | .lapse j _ _ :: _ => decide (j = i) && decide (s.xi.noticeStage ≠ .notBegun)
  | _ => false

/-- R109: CLEAR_FLOOR makes the record FREE: HELD, LINGERING, or LAPSED with its LAPSE notice write not begun. -/
def State.clearedByFloor (s : State) (i : Nat) (l : Lease) : Bool :=
  match l.st with
  | .held => true
  | .lingering => true
  | .lapsed => !s.lapseBegun i
  | .free => false

/-- R16: the record holds tokens and a seat. -/
def Lease.holds (l : Lease) : Bool :=
  match l.st with
  | .held => true
  | .lingering => true
  | .free => false
  | .lapsed => false

/-- A notice is a LAPSE notice. -/
def Notice.isLapse : Notice → Bool
  | .lapse _ _ _ => true
  | .answer _ _ _ => false
  | .meter => false

/-- R109, R165: the Notice Queue less every LAPSE notice whose write has not begun. -/
def State.noticesKept (s : State) : List Notice :=
  match s.xi.notices with
  | [] => []
  | n :: rest =>
    if s.xi.noticeStage = .notBegun then (n :: rest).filter (fun m => !m.isLapse)
    else n :: rest.filter (fun m => !m.isLapse)

/-- R109: the Lease Table's part of CLEAR_FLOOR. -/
def State.clearLeases (s : State) : State :=
  let cleared :=
    { s with
      lt.leases := Table.mapEntries Lease.atReset
        (fun i l => if s.clearedByFloor i l then { l with st := .free, generation := l.generation + 1 } else l) s.lt.leases
      xi.notices := s.noticesKept }
  let freed := cleared.freeEvent ((Table.select (fun _ l => l.holds) s.lt.leases).map Prod.snd)
  if (Table.select s.clearedByFloor s.lt.leases).isEmpty then freed else freed.reportRecordFree

/-- R20, R84, R109: CLEAR_FLOOR at its blocks, and its answer with both counts (log entry 15 for its pool field). -/
def State.clearFloorEvent (s : State) (c : Nat) : State :=
  s.clearWaiters.clearLeases.handAnswer c
    { result := .ok, detail := 0, pool := 0,
      body := .clearFloor (Table.select s.clearedByFloor s.lt.leases).length s.allWaiters.length }

/-- R20: CLEAR_FLOOR after the malformation check is handed to the Wait Unit. -/
def clearFloorRequest (c : Nat) (_copy : List Byte) (s : State) : State := { s with decision := some (.clearFloor c) }

/-- R70, R84: the Wait Unit takes the CLEAR_FLOOR in hand when it can. -/
def State.finishClearFloor (s : State) : State :=
  match s.decision with
  | some (.clearFloor c) => if s.waitUnitFree then State.clearFloorEvent { s with decision := none } c else s
  | _ => s

/-- R20: CLEAR_FLOOR. -/
def execClearFloor (s : State) : Outcome := .next (s.withRequest kindClearFloor clearFloorRequest).finishClearFloor

/-! ### INSPECT_POOL -/

/-- R21, Table 1-9: the body of an INSPECT_POOL answer. -/
def State.inspectBody (s : State) (p : Nat) : AnswerBody :=
  let e := s.pool p
  let pr := s.params p
  match e.st with
  | .absent => .inspect .absent false .noValue 0 0 0 0 0 0 0
  | .active =>
    .inspect .active (s.windowOpen p) (pr.validity s.su.frame) pr.capacity pr.reserve e.inUse e.reserveInUse e.leaseCount
      pr.seatCap (s.queue p).length
  | .draining =>
    .inspect .draining (s.windowOpen p) (pr.validity s.su.frame) pr.capacity pr.reserve e.inUse e.reserveInUse e.leaseCount
      pr.seatCap (s.queue p).length
  | .retiring =>
    .inspect .retiring (s.windowOpen p) (pr.validity s.su.frame) pr.capacity pr.reserve e.inUse e.reserveInUse e.leaseCount
      pr.seatCap (s.queue p).length

/-- R21: INSPECT_POOL after the malformation check: refused, or to be taken by the Entitlement Table. -/
def inspectRequest (c : Nat) (copy : List Byte) (s : State) : State :=
  if Config.numPools ≤ readLE copy 0x04 2 then s.handAnswer c (badFieldAnswer 0x04)
  else { s with decision := some (.inspect c (readLE copy 0x04 2)) }

/-- R21, R67: the request is taken with the Wait Unit's count, which is not given within an examination (log entry 20). -/
def State.finishInspect (s : State) : State :=
  match s.decision with
  | some (.inspect c p) =>
    if s.wu.exam.isNone then
      State.handAnswer { s with decision := none } c { result := .ok, detail := 0, pool := poolField p, body := s.inspectBody p }
    else s
  | _ => s

/-- R21: INSPECT_POOL. -/
def execInspectPool (s : State) : Outcome := .next (s.withRequest kindInspectPool inspectRequest).finishInspect

/-- R163: UNKNOWN_REQUEST_KIND: a kind of 0 or above 10 is answered MALFORMED with detail 01h. -/
def execUnknownRequestKind (s : State) : Outcome :=
  match s.takeCell with
  | none => .next s
  | some (c, copy, taken) =>
    if requestKind copy = 0 ∨ 10 < requestKind copy then .next (taken.handAnswer c (malformedAnswer 0x01)) else .next s

end Sys2Proof.Machine
end

