-- ==== Sys2Proof/Machine/Draw.lean ====
section
/-! DEFINITION. The DRAW decision of chapter 3, step by step (Table 3-2), the grant event (R17) and the revival event (R105). A
decision is not one event (R46): each step reads its owners as they stand when it is taken, and other events may be taken
between two steps. A DRAW command takes at most so many steps of the decision in hand (log entry 5). -/

namespace Sys2Proof.Machine

/-- R46: the decision in hand moves to a step. -/
def State.drawAt (s : State) (d : DrawDecision) (stage : DrawStage) : State :=
  { s with decision := some (.draw { d with stage := stage }) }

/-- R62: a refusal is answered, and counted against the pool it names. -/
def State.refuseDraw (s : State) (d : DrawDecision) (r : Result) (pool : Option Nat) : State :=
  match pool with
  | none => State.handAnswer { s with decision := none } d.cell (plainAnswer r Config.noPool)
  | some p =>
    (State.handAnswer { s with decision := none } d.cell (plainAnswer r (poolField p))).handCounts [.raise .refusals p]

/-- R47: the clock check. -/
def State.drawClock (s : State) (d : DrawDecision) : State :=
  if s.su.clockSet then s.drawAt d .lookup else s.refuseDraw d .clockUnset none

/-- R48: the revival lookup of the match array, in one comparison of every record. -/
def State.revivalLookup (s : State) (key : Word) (feature : Nat) : List FoundRecord :=
  (Table.select (fun _ l => decide (l.st = .lingering ∧ l.key = key ∧ l.feature = feature)) s.lt.leases).map
    (fun e => { index := e.1, pool := e.2.pool, charge := e.2.charge, generation := e.2.generation })

/-- Section 1.3: a pool is a structural candidate for a key and a feature. -/
def State.structuralCandidate (s : State) (p : Nat) (key : Word) (feature : Nat) : Bool :=
  (s.pool p).st.serving && (s.params p).lists feature && (s.params p).serves key

/-- R48: a record found qualifies. -/
def State.qualifies (s : State) (d : DrawDecision) (f : FoundRecord) : Bool :=
  s.structuralCandidate f.pool d.key d.feature && (s.params f.pool).within s.su.frame && s.windowOpen f.pool
    && decide (s.chargeOn f.pool d.quantity d.units ≤ f.charge)

/-- R48, R49: the records found are judged in rising index; the first that qualifies is presented for revival. -/
def State.drawQualify (s : State) (d : DrawDecision) : List FoundRecord → State
  | [] => s.drawAt d .tableFull
  | f :: rest => if s.qualifies d f then s.drawAt d (.reviving f.index f.generation) else s.drawAt d (.qualify rest)

/-- R51: the table-full check. -/
def State.drawTableFull (s : State) (d : DrawDecision) : State :=
  if s.lowestFree.isNone then s.refuseDraw d .leaseTableFull none else s.drawAt d .gather

/-- R2: candidate order, by rank and then by pool number, as one number. -/
def Candidate.order (c : Candidate) : Nat := c.rank * Config.numPools + c.pool

/-- R52, R2: the structural candidates, in candidate order. -/
def State.candidates (s : State) (key : Word) (feature : Nat) : List Candidate :=
  sortByKey Candidate.order
    (((List.range Config.numPools).filter (fun p => s.structuralCandidate p key feature)).map
      (fun p => { pool := p, rank := (s.params p).rank, validFrom := (s.params p).validFrom, validTo := (s.params p).validTo }))

/-- R52: gathering the structural candidates. -/
def State.drawGather (s : State) (d : DrawDecision) : State :=
  match s.candidates d.key d.feature with
  | [] => s.refuseDraw d .noEntitlement none
  | c :: rest => s.drawAt d (.divide (c :: rest))

/-- R53: the candidates within validity at the Frame Number. -/
def remainingCandidates (frame : Word) (cs : List Candidate) : List Nat :=
  (cs.filter (fun c => withinFrames c.validFrom c.validTo frame)).map Candidate.pool

/-- R53: the division by validity; with none within validity, EXPIRED names the first structural candidate. -/
def State.drawDivide (s : State) (d : DrawDecision) (cs : List Candidate) : State :=
  match remainingCandidates s.su.frame cs with
  | [] => s.refuseDraw d .expired (cs.head?.map Candidate.pool)
  | p :: rest => s.drawAt d (.trial (p :: rest) [])

/-- R38: conditions 1, 2, 3 and 7 in that order, judged when the pool is tried. -/
def State.trialVerdict (s : State) (p cls charge : Nat) : Option FailKind :=
  if !(s.pool p).st.serving then some .state
  else if !s.windowOpen p then some .window
  else if Config.chargeCeiling < charge then some .chargeLimit
  else if holdsClass (s.queue p) cls then some .classRule
  else none

/-- R54: the trial record of a pool tried now. -/
def State.trialRecord (s : State) (p charge : Nat) (kind : FailKind) : TrialRecord :=
  { pool := p, charge := charge, fits := fitsCapacity charge (s.params p).capacity, windowOpen := s.windowOpen p, kind := kind }

/-- R54: one candidate is tried: dropped when it fails with STATE, recorded when it fails otherwise, or a grant is presented. -/
def State.drawTrial (s : State) (d : DrawDecision) (p : Nat) (rest : List Nat) (tried : List TrialRecord) : State :=
  let charge := s.chargeOn p d.quantity d.units
  match s.trialVerdict p d.cls charge with
  | none => s.drawAt d (.granting p charge (fitsCapacity charge (s.params p).capacity) rest tried)
  | some .state => s.drawAt d (.trial rest tried)
  | some .window => s.drawAt d (.trial rest (tried ++ [s.trialRecord p charge .window]))
  | some .chargeLimit => s.drawAt d (.trial rest (tried ++ [s.trialRecord p charge .chargeLimit]))
  | some .tokens => s.drawAt d (.trial rest (tried ++ [s.trialRecord p charge .tokens]))
  | some .seats => s.drawAt d (.trial rest (tried ++ [s.trialRecord p charge .seats]))
  | some .record => s.drawAt d (.trial rest (tried ++ [s.trialRecord p charge .record]))
  | some .classRule => s.drawAt d (.trial rest (tried ++ [s.trialRecord p charge .classRule]))

/-- R58: the home pool, the first remaining candidate whose charge fits capacity. -/
def homePool (tried : List TrialRecord) : Option Nat := (tried.find? TrialRecord.fits).map TrialRecord.pool

/-- R61, Table 3-3: the refusal code, by the first row whose condition holds. -/
def refusalCode (tried : List TrialRecord) : Result :=
  if tried.all (fun t => decide (Config.chargeCeiling < t.charge)) then .chargeLimit
  else if tried.all (fun t => !t.fits) then .exceedsCapacity
  else if tried.all (fun t => !t.fits || !t.windowOpen) then .outOfWindow
  else .exhausted

/-- R59, R65: the queue entry a DRAW parks as. -/
def DrawDecision.waiter (d : DrawDecision) : Waiter :=
  { cell := d.cell, key := d.key, feature := d.feature, quantity := d.quantity, units := d.units, cls := d.cls,
    period := d.period, deadline := d.waitLimit }

/-- R59: the cell is handed to the Wait Unit as one parking event. -/
def State.handParking (s : State) (d : DrawDecision) (home : Nat) : State :=
  { s with decision := none, wu.parkInbox := s.wu.parkInbox ++ [{ home := home, waiter := d.waiter }] }

/-- R54, R58, R59, R61: the end of the search. -/
def State.drawEnd (s : State) (d : DrawDecision) (tried : List TrialRecord) : State :=
  match tried with
  | [] => s.refuseDraw d .noEntitlement none
  | t :: _ =>
    match homePool tried with
    | some home => if d.waitLimit = 0 then s.refuseDraw d (refusalCode tried) (some t.pool) else s.handParking d home
    | none => s.refuseDraw d (refusalCode tried) (some t.pool)

/-- Table 3-2: the next step of the DRAW decision in hand. One that has presented a grant or a revival waits for it, and a trial waits
while an examination is in hand, because it asks the Wait Unit for the class rule (R67, log entry 20). -/
def State.drawStep (s : State) : State :=
  match s.decision with
  | some (.draw d) =>
    match d.stage with
    | .clock => s.drawClock d
    | .lookup => s.drawAt d (.qualify (s.revivalLookup d.key d.feature))
    | .qualify found => s.drawQualify d found
    | .reviving _ _ => s
    | .tableFull => s.drawTableFull d
    | .gather => s.drawGather d
    | .divide cs => s.drawDivide d cs
    | .trial [] tried => s.drawEnd d tried
    | .trial (p :: rest) tried => if s.wu.exam.isNone then s.drawTrial d p rest tried else s
    | .granting _ _ _ _ _ => s
  | _ => s

/-- At most `n` steps of the decision in hand. -/
def State.drawSteps : Nat → State → State
  | 0, s => s
  | n + 1, s => State.drawSteps n s.drawStep

/-- R44, R45: a DRAW after the malformation check: refused by its range check, or clamped and dispatched. -/
def drawRequestCheck (c : Nat) (copy : List Byte) (s : State) : State :=
  match drawBadField copy with
  | some off => s.handAnswer c (badFieldAnswer off)
  | none => { s with decision := some (.draw (drawRequest c copy)) }

/-- R43: DRAW. -/
def execDraw (steps : Nat) (s : State) : Outcome := .next (State.drawSteps steps (s.withRequest kindDraw drawRequestCheck))

/-! ### The grant event and the revival event -/

/-- R54, R56, R57: the verdict of the grant event on the trial the Admission Unit presented. -/
def State.drawGrant (s : State) (d : DrawDecision) (p charge : Nat) (fits : Bool) (left : List Nat)
    (tried : List TrialRecord) : State :=
  let failed := fun kind =>
    s.drawAt d (.trial left (tried ++ [{ pool := p, charge := charge, fits := fits, windowOpen := true, kind := kind }]))
  match s.grantVerdict p d.key charge, s.lowestFree with
  | none, some i =>
    State.handAnswer { s.makeLease p d.key d.feature charge d.period i with decision := none } d.cell
      (grantedAnswer 0 p i (s.lease i).generation charge (grantedPeriod (s.params p) d.period))
  | none, none => failed .record
  | some .state, _ => s.drawAt d (.trial left tried)
  | some .tokens, _ => failed .tokens
  | some .seats, _ => failed .seats
  | some .record, _ => failed .record
  | some .window, _ => failed .window
  | some .chargeLimit, _ => failed .chargeLimit
  | some .classRule, _ => failed .classRule

/-- R17: the grant presented by the Admission Unit is taken. -/
def State.admissionGrant (s : State) : State :=
  match s.decision with
  | some (.draw d) =>
    match d.stage with
    | .granting p charge fits left tried => s.drawGrant d p charge fits left tried
    | _ => s
  | _ => s

/-- R17, R74: the grant presented by the Wait Unit is taken. -/
def State.waitUnitGrant (s : State) : State :=
  match s.wu.exam with
  | some e =>
    match e.stage with
    | .granting charge => s.examGrant e.pool charge
    | .poolState => s
    | .validity => s
    | .head => s
  | none => s

/-- R17: GRANT_EVENT. -/
def execGrantEvent (sender : GrantSender) (s : State) : Outcome :=
  match sender with
  | .admissionUnit => .next s.admissionGrant
  | .waitUnit => .next s.waitUnitGrant

/-- R49, R50, R105: the revival event: a record still LINGERING with that generation becomes HELD and the DRAW is answered REVIVED;
otherwise the DRAW goes on to the table-full check. -/
def State.reviveRecord (s : State) (d : DrawDecision) (index : Nat) (generation : Half) : State :=
  let l := s.lease index
  if l.st = .lingering ∧ l.generation = generation then
    let period := grantedPeriod (s.params l.pool) d.period
    let revived := s.setLease index { l with st := .held, period := period, counter := period }
    State.handCounts
      (State.handAnswer { revived with decision := none } d.cell (grantedAnswer 1 l.pool index l.generation l.charge period))
      [.raise .grants l.pool]
  else s.drawAt d .tableFull

/-- R105: REVIVAL. -/
def execRevival (s : State) : Outcome :=
  match s.decision with
  | some (.draw d) =>
    match d.stage with
    | .reviving index generation => .next (s.reviveRecord d index generation)
    | _ => .next s
  | _ => .next s

end Sys2Proof.Machine
end

