-- ==== Sys2Proof/Machine/Metering.lean ====
section
/-! DEFINITION. The Meter Unit: counts and their saturation (R149 to R151), token-ticks (R150), slot ends and interval ends (R152,
R153), and the meter page (R153 to R156). -/

namespace Sys2Proof.Machine

/-- Table 8-1: the largest value of the token-ticks meter. -/
def maxTokenTicks : Nat := 4294967295
/-- Table 8-1: the largest value of the grants meter. -/
def maxGrants : Nat := 16777215
/-- Table 8-1: the largest value of a 16-bit meter. -/
def maxMeter16 : Nat := 65535
/-- R153: the largest intervals-covered count. -/
def maxCovered : Nat := 255

/-- R149, R151: a count raises the named meter by 1; one at its largest value stays and its flag is set. -/
def Meters.raise (m : Meters) : CountedMeter → Meters
  | .grants => if m.grants < maxGrants then { m with grants := m.grants + 1 } else { m with satGrants := true }
  | .refusals => if m.refusals < maxMeter16 then { m with refusals := m.refusals + 1 } else { m with satRefusals := true }
  | .waitExpiries =>
    if m.waitExpiries < maxMeter16 then { m with waitExpiries := m.waitExpiries + 1 } else { m with satWaitExpiries := true }
  | .lapses => if m.lapses < maxMeter16 then { m with lapses := m.lapses + 1 } else { m with satLapses := true }

/-- R150, R151: a new in-use above the peak becomes the peak; the flag is set when the peak reaches 65535 (log entry 17). -/
def Meters.takePeak (m : Meters) (inUse : Nat) : Meters :=
  if m.peak < inUse then
    if inUse < maxMeter16 then { m with peak := inUse } else { m with peak := maxMeter16, satPeak := true }
  else m

/-- R150, R151: a lease tick adds the pool's in-use to its token-ticks. -/
def Meters.addTokens (m : Meters) (inUse : Nat) : Meters :=
  if m.tokenTicks + inUse ≤ maxTokenTicks then { m with tokenTicks := m.tokenTicks + inUse }
  else { m with tokenTicks := maxTokenTicks, satTokenTicks := true }

/-- Write a pool's meters. -/
def State.setMeters (s : State) (p : Nat) (m : Meters) : State := { s with mu.meters := Table.set Meters.atReset s.mu.meters p m }

/-- R149: the Meter Unit takes one count. -/
def State.takeCount (s : State) : MeterCount → State
  | .raise meter p => s.setMeters p ((s.metersOf p).raise meter)
  | .peak p inUse => s.setMeters p ((s.metersOf p).takePeak inUse)

/-- R149: METER_COUNT; counts from different sources need no order among themselves, so any one handed may be taken. -/
def execMeterCount (which : Nat) (s : State) : Outcome :=
  match s.mu.inbox[which]? with
  | some c => .next (State.takeCount { s with mu.inbox := s.mu.inbox.eraseIdx which } c)
  | none => .next s

/-- R150: the meters of every pool after a lease tick that the Meter Unit takes. -/
def State.addTokenTicks (s : State) : State :=
  { s with
    mu.meters := Table.build Meters.atReset Config.numPools (fun p => (s.metersOf p).addTokens (s.pool p).inUse) }

/-- R113, R150: a lease tick reaches the Meter Unit, which takes it while aging runs and no grace hold withholds it. -/
def State.tickMeterUnit (s : State) : State := if s.leaseTickTaken then s.addTokenTicks else s

/-- R150: TOKEN_TICKS. -/
def execTokenTicks (s : State) : Outcome := .next s.tickMeterUnit

/-- R153: an interval end: the intervals-covered count rises, staying at 255, and the read-due mark is set unless a read is in flight. -/
def State.intervalEnded (s : State) : State :=
  { s with
    mu.covered := if s.mu.covered < maxCovered then s.mu.covered + 1 else s.mu.covered
    mu.readDue := if s.mu.page = .reading then s.mu.readDue else true }

/-- R152: the slot end taken now ends an interval. -/
def State.intervalDue (s : State) : Bool := decide (s.mu.interval ≤ s.mu.slotEndCount + 1)

/-- R152: the Meter Unit takes one slot end. -/
def State.takeSlotEnd (s : State) : State :=
  let taken := { s with mu.slotEnds := s.mu.slotEnds - 1 }
  if s.intervalDue then State.intervalEnded { taken with mu.slotEndCount := 0 }
  else { taken with mu.slotEndCount := s.mu.slotEndCount + 1 }

/-- R152: SLOT_END, a slot end the Schedule Unit has handed. -/
def execSlotEnd (s : State) : Outcome := if 0 < s.mu.slotEnds then .next s.takeSlotEnd else .next s

/-- R153: INTERVAL_END, the slot end that ends an interval (log entry 4). -/
def execIntervalEnd (s : State) : Outcome :=
  if 0 < s.mu.slotEnds ∧ s.intervalDue then .next s.takeSlotEnd else .next s

/-- R153: METER_OWNER_READ, issued while the operation is IDLE, the mark is set and DMA is permitted. -/
def execMeterOwnerRead (s : State) : Outcome :=
  if s.mu.page = .idle ∧ s.mu.readDue ∧ s.xi.engine.dma then
    .next { s.issue .ownerRead (exchangeAddr s.xi.base ownerOffset) 4 [] with mu.readDue := false, mu.page := .reading }
  else .next s

/-- R154: the page snapshot taken now. -/
def State.snapshot (s : State) : PageSnapshot :=
  { covered := s.mu.covered
    frame := s.su.frame
    slot := s.su.slot
    pages := s.mu.pages + 1
    meters := s.mu.meters
    pools := Table.build Occupancy.atReset Config.numPools
      (fun p => { st := (s.pool p).st, inUse := (s.pool p).inUse, leaseCount := (s.pool p).leaseCount }) }

/-- R154, R150: the meters after a snapshot: 0 and clear, but the peak reloaded with the in-use of that moment. -/
def State.metersAfterSnapshot (s : State) : Table Meters :=
  Table.build Meters.atReset Config.numPools (fun p => { Meters.atReset with peak := (s.pool p).inUse })

/-- R154: the owner word read is 0: the snapshot is taken and its writing begins. -/
def State.takePage (s : State) : State :=
  State.nextPagePart
    { s with
      mu.meters := s.metersAfterSnapshot
      mu.covered := 0
      mu.pages := s.mu.pages + 1
      mu.page := .writing s.snapshot 0 false }

/-- R154: the owner word read is judged: 0 takes the page, any other value merges. -/
def State.takeOwnerWord (s : State) (word : Word) : State := if word = 0 then s.takePage else { s with mu.page := .idle }

/-- R154: OWNER_READ_ARRIVAL; the field of the control block is little-endian (R172). -/
def execOwnerReadArrival (tag : Nat) (bytes : List Byte) (s : State) : Outcome :=
  match s.transfer tag with
  | some { kind := .ownerRead, .. } => .next ((s.landed tag).takeOwnerWord (wordField bytes 0))
  | _ => .next s

/-- R155: a page write has completed: the next part follows. -/
def State.pagePartDone (s : State) : State :=
  match s.mu.page with
  | .writing snap part _ => State.nextPagePart { s with mu.page := .writing snap (part + 1) false }
  | .idle => s
  | .reading => s

/-- R155: PAGE_WRITE_COMPLETE. -/
def execPageWriteComplete (tag : Nat) (s : State) : Outcome :=
  match s.transfer tag with
  | some { kind := .pageWrite, .. } => .next (s.landed tag).pagePartDone
  | _ => .next s

/-- R156: a METER notice whose write has not begun is in the Notice Queue. -/
def State.meterNoticeWaits (s : State) : Bool :=
  match s.xi.notices with
  | [] => false
  | n :: rest => if s.xi.noticeStage = .notBegun then (n :: rest).contains .meter else rest.contains .meter

/-- R155, R156: the owner word is written: a METER notice is handed, unless one waits to stand for it, and the operation is IDLE. -/
def State.pageDone (s : State) : State :=
  let noticed := if s.meterNoticeWaits then s else s.handNotice .meter
  { noticed with mu.page := .idle }

/-- R155: OWNER_WORD_WRITE_COMPLETE. -/
def execOwnerWordWriteComplete (tag : Nat) (s : State) : Outcome :=
  match s.transfer tag with
  | some { kind := .ownerWrite, .. } => .next (s.landed tag).pageDone
  | _ => .next s

end Sys2Proof.Machine
end

