-- ==== Sys2Proof/Machine/Time.lean ====
section
/-! DEFINITION. The Time Base and the Schedule Unit: the tick streams and their selections (R112 to R116), the grace hold (R117,
R118), seconds, slot starts and frame starts (R121 to R124), SET_CLOCK (R127 to R129), TUNE (R119), and the reference
cycle that an idle step is (R112, log entry 2). A LEASE_TICK, HOUSEKEEPING_TICK or SECOND command is a tick of its stream
falling now (log entry 3); the rows named for what a tick brings about are that tick (log entry 4). -/

namespace Sys2Proof.Machine

/-- Table 6-1: the lease tick period of a selection, in base ticks. -/
def leasePeriod : Nat → Nat
  | 0 => 100
  | 1 => 200
  | 2 => 500
  | 3 => 1000
  | 4 => 2000
  | 5 => 5000
  | 6 => 10000
  | _ => 30000

/-- Table 6-2: the housekeeping tick period of a selection, in base ticks. -/
def hkPeriod : Nat → Nat
  | 0 => 10
  | 1 => 20
  | 2 => 50
  | 3 => 100
  | 4 => 200
  | 5 => 500
  | 6 => 1000
  | _ => 2000

/-! ### Lease ticks -/

/-- R112, R115: the lease count starts again and the selection standing fixes the next interval. -/
def State.restartLeaseStream (s : State) : State :=
  { s with tb.leaseCount := 0, tb.leaseInterval := leasePeriod s.tb.leaseSel }

/-- R92, R113: a lease tick reaches the Lease Table. -/
def State.tickLeaseTable (s : State) : State := if s.leaseTickTaken then s.ageLeases else s

/-- R92, R113: a tick of the lease stream at the Lease Table; in STILL no tick comes (R112). -/
def State.leaseTickEvent (s : State) : State := if s.xi.engine.streams then s.restartLeaseStream.tickLeaseTable else s

/-- R92: LEASE_TICK. -/
def execLeaseTick (s : State) : Outcome := .next s.leaseTickEvent

/-- R93: LAPSE, the lease tick at which the HELD record's counter reaches 0. -/
def execLapse (index : Nat) (s : State) : Outcome :=
  if (s.lease index).lapsing ∧ s.leaseTickTaken then .next s.leaseTickEvent else .next s

/-- R94: LINGER_END, the lease tick at which the LINGERING record's counter reaches 0. -/
def execLingerEnd (index : Nat) (s : State) : Outcome :=
  if (s.lease index).lingerEnding ∧ s.leaseTickTaken then .next s.leaseTickEvent else .next s

/-! ### Housekeeping ticks -/

/-- R112, R115: the housekeeping count starts again and the selection standing fixes the next interval. -/
def State.restartHkStream (s : State) : State := { s with tb.hkCount := 0, tb.hkInterval := hkPeriod s.tb.hkSel }

/-- R118: a housekeeping tick counts a pending grace hold down in RUN and FAULTED; at 0 the hold is clear. -/
def State.countGrace (s : State) : State :=
  if s.xi.engine.graceActs then
    match s.tb.graceHold with
    | none => s
    | some n => { s with tb.graceHold := if n ≤ 1 then none else some (n - 1) }
  else s

/-- R114: a tick of the housekeeping stream at its three takers; in STILL no tick comes. -/
def State.housekeepingEvent (s : State) : State :=
  if s.xi.engine.streams then s.restartHkStream.tickWaitUnit.rereadConsumed.countGrace else s

/-- R114: HOUSEKEEPING_TICK. -/
def execHousekeepingTick (s : State) : Outcome := .next s.housekeepingEvent

/-- R80: some waiter of the cell has a deadline that the next tick brings to 0. -/
def State.waiterExpires (s : State) (cell : Nat) : Bool :=
  s.wu.queues.any (fun q => q.2.any (fun w => decide (w.cell = cell) && w.expiring))

/-- R80: WAIT_EXPIRY, the housekeeping tick at which the deadline of the cell's waiter reaches 0. -/
def execWaitExpiry (cell : Nat) (s : State) : Outcome :=
  if s.waiterExpires cell ∧ s.xi.engine.ages ∧ s.wu.exam = none then .next s.housekeepingEvent else .next s

/-- R118: GRACE_HOLD_END, the housekeeping tick that brings the hold's remaining count to 0. -/
def execGraceHoldEnd (s : State) : Outcome :=
  if s.tb.graceHold = some 1 ∧ s.xi.engine.graceActs then .next s.housekeepingEvent else .next s

/-! ### Seconds -/

/-- R123, R124: a slot start or frame start is handed to the Wait Unit, as a trigger, and to the Meter Unit, as one slot end. -/
def State.handSlotChange (s : State) : State := { s.triggerQueues with mu.slotEnds := s.mu.slotEnds + 1 }

/-- R124 step 3: the active masks once every staged mask present has become active. -/
def State.masksApplied (s : State) : Table Word :=
  s.su.stagedMasks.foldl (fun t e => match e.2 with
    | some m => Table.set 0 t e.1 m
    | none => t) s.su.activeMasks

/-- R124 steps 2 and 3: staged content becomes active. -/
def State.applyStaged (s : State) : State :=
  { s with
    su.active := s.su.staged.getD s.su.active
    su.staged := none
    su.activeMasks := s.masksApplied
    su.stagedMasks := [] }

/-- R124 step 1: the Frame Number rises by 1, FFFFFFFFh staying. -/
def nextFrame (frame : Word) : Word := if frame = 0xFFFFFFFF then frame else frame + 1

/-- R123: a slot start. -/
def State.slotStarts (s : State) : State :=
  State.handSlotChange { s with su.slot := s.su.slot + 1, su.seconds := 0 }

/-- R124: a frame start at the end of the last slot. -/
def State.frameStarts (s : State) : State :=
  State.handSlotChange { s.applyStaged with su.frame := nextFrame s.su.frame, su.slot := 0, su.seconds := 0 }

/-- R122: the current slot ends at the next second. -/
def State.slotEnding (s : State) : Bool := decide (s.su.active.slotLength ≤ s.su.seconds + 1)

/-- R122: the current slot is the last of the frame. -/
def State.lastSlot (s : State) : Bool := decide (s.su.active.slotCount ≤ s.su.slot + 1)

/-- R122: a second advances the position of a clock that is SET. -/
def State.advanceClock (s : State) : State :=
  if s.slotEnding then if s.lastSlot then s.frameStarts else s.slotStarts
  else { s with su.seconds := s.su.seconds + 1 }

/-- R121, R122: a second taken by the Schedule Unit. -/
def State.takeSecond (s : State) : State := if s.su.clockSet then s.advanceClock else s

/-- R112, R116: a tick of the seconds stream; in STILL no tick comes. -/
def State.secondEvent (s : State) : State :=
  if s.xi.engine.streams then State.takeSecond { s with tb.secCount := 0 } else s

/-- R122: SECOND. -/
def execSecond (s : State) : Outcome := .next s.secondEvent

/-- R123: SLOT_START, the second that ends a slot that is not the last. -/
def execSlotStart (s : State) : Outcome :=
  if s.su.clockSet ∧ s.slotEnding ∧ ¬ s.lastSlot then .next s.secondEvent else .next s

/-- R124: FRAME_START, the second that ends the last slot. -/
def execFrameStart (s : State) : Outcome :=
  if s.su.clockSet ∧ s.slotEnding ∧ s.lastSlot then .next s.secondEvent else .next s

/-! ### SET_CLOCK -/

/-- R127: the target geometry: the staged schedule for a different frame where one is present, else the active one. -/
def State.targetSchedule (s : State) (frame : Word) : Schedule :=
  if frame ≠ s.su.frame then s.su.staged.getD s.su.active else s.su.active

/-- R128: a position is below another: the frame first, then the slot, then the seconds. -/
def positionBelow (f1 : Word) (s1 n1 : Nat) (f2 : Word) (s2 n2 : Nat) : Bool :=
  decide (f1.toNat < f2.toNat ∨ f1 = f2 ∧ (s1 < s2 ∨ s1 = s2 ∧ n1 < n2))

/-- R129: a target taken moves the position, with one frame start, one slot start, or neither. -/
def State.moveClock (s : State) (frame : Word) (slot seconds : Nat) : State :=
  if frame ≠ s.su.frame then
    State.handSlotChange { s.applyStaged with su.frame := frame, su.slot := slot, su.seconds := seconds }
  else if slot ≠ s.su.slot then State.handSlotChange { s with su.slot := slot, su.seconds := seconds }
  else { s with su.seconds := seconds }

/-- R128: an answer of SET_CLOCK that carries the position. -/
def State.clockAnswer (s : State) (r : Result) : Answer :=
  { result := r, detail := 0, pool := Config.noPool, body := .clock s.su.frame s.su.slot s.su.seconds }

/-- R128, R129: the clamped target is compared and taken. -/
def State.takeTarget (s : State) (c : Nat) (frame : Word) (slot seconds : Nat) : State :=
  if s.su.clockSet && positionBelow frame slot seconds s.su.frame s.su.slot s.su.seconds then
    s.handAnswer c (s.clockAnswer .clockBackward)
  else
    let moved := { s.moveClock frame slot seconds with su.clockSet := true }
    moved.handAnswer c (moved.clockAnswer .ok)

/-- R127 to R129: SET_CLOCK after the malformation check, one event at the Schedule Unit. -/
def setClockRequest (c : Nat) (copy : List Byte) (s : State) : State :=
  let frame := wordField copy 0x04
  let slot := (byteAt copy 0x08).toNat
  let geometry := s.targetSchedule frame
  if geometry.slotCount ≤ slot then s.handAnswer c (badFieldAnswer 0x08)
  else s.takeTarget c frame slot (min (readLE copy 0x0A 2) (geometry.slotLength - 1))

/-- R127: SET_CLOCK. -/
def execSetClock (s : State) : Outcome := .next (s.withRequest kindSetClock setClockRequest)

/-! ### TUNE -/

/-- R119: TUNE after the malformation check: both selections and the grace count at the Time Base, the interval at the Meter Unit. -/
def tuneRequest (c : Nat) (copy : List Byte) (s : State) : State :=
  match tuneBadField copy with
  | some off => s.handAnswer c (badFieldAnswer off)
  | none =>
    let leaseSel := (byteAt copy 0x04).toNat
    let hkSel := (byteAt copy 0x05).toNat
    let graceCount := readLE copy 0x06 2
    let interval := tuneInterval copy
    State.handAnswer
      { s with tb.leaseSel := leaseSel, tb.hkSel := hkSel, tb.graceCount := graceCount, mu.interval := interval } c
      { result := .ok, detail := 0, pool := Config.noPool, body := .tune leaseSel hkSel graceCount interval }

/-- R119: TUNE. -/
def execTune (s : State) : Outcome := .next (s.withRequest kindTune tuneRequest)

/-! ### The reference -/

/-- R112: a second falls when its count has reached 1000 base ticks. -/
def State.fallSecond (s : State) : State := if Config.baseTicksPerSecond ≤ s.tb.secCount then s.secondEvent else s

/-- R112, R113: a lease tick falls when its count has reached the interval in progress, and both its takers take it. -/
def State.fallLeaseTick (s : State) : State :=
  if s.tb.leaseInterval ≤ s.tb.leaseCount then s.leaseTickEvent.tickMeterUnit else s

/-- R112, R114: a housekeeping tick falls when its count has reached the interval in progress. -/
def State.fallHkTick (s : State) : State := if s.tb.hkInterval ≤ s.tb.hkCount then s.housekeepingEvent else s

/-- R112: a base tick: the three counts rise, and the ticks that are due fall (log entry 2). -/
def State.baseTick (s : State) : State :=
  State.fallHkTick (State.fallLeaseTick (State.fallSecond
    { s with
      tb.divider := 0
      tb.secCount := s.tb.secCount + 1
      tb.leaseCount := s.tb.leaseCount + 1
      tb.hkCount := s.tb.hkCount + 1 }))

/-- R112: one cycle of the 25 MHz reference; in STILL the divider stands. -/
def State.referenceCycle (s : State) : State :=
  if s.xi.engine.streams then
    if s.tb.divider + 1 < Config.cyclesPerBaseTick then { s with tb.divider := s.tb.divider + 1 } else s.baseTick
  else s

end Sys2Proof.Machine
end

