-- ==== Sys2Proof/Machine/Install.lean ====
section
/-! DEFINITION. The Install Unit (R131 to R147): the take of an INSTALL, the image read with its running CRC, checks 1 to 6,
staging with the clamps of Table 1-2, the commit event at the Entitlement Table, and the schedule content at the Schedule
Unit. An answer of an INSTALL counts no meter (R140). -/

namespace Sys2Proof.Machine

/-! ### Taking an INSTALL -/

/-- R133: the install taken from a request's address and length fields, at progress 0. -/
def newInstall (c : Nat) (copy : List Byte) : ImageRead :=
  { cell := c, addr := BitVec.ofNat 64 (readLE copy 0x08 8), len := readLE copy 0x10 4, bytes := [], crc := crcStart,
    readTag := none, restart := false }

/-- R133: the Install Unit takes an INSTALL: READING and the cell WORKING from IDLE, INSTALL_BUSY otherwise. -/
def State.takeInstall (s : State) (c : Nat) (copy : List Byte) : State :=
  if s.install.busy then s.handAnswer c (plainAnswer .installBusy Config.noPool)
  else State.nextImageRead { s.setCellState c .working with install := .reading (newInstall c copy) }

/-- R132: INSTALL after the malformation check. -/
def installRequest (c : Nat) (copy : List Byte) (s : State) : State :=
  match installBadField copy with
  | some off => s.handAnswer c (badFieldAnswer off)
  | none => s.takeInstall c copy

/-- R132, R133: INSTALL. -/
def execInstall (s : State) : Outcome := .next (s.withRequest kindInstall installRequest)

/-! ### The CRC -/

/-- R136 step 2: one shift of the CRC register. -/
def crcShift (crc : Word) : Word := if crc.getLsbD 0 then (crc >>> 1) ^^^ 0xEDB88320 else crc >>> 1

/-- R136 step 2: a number of shifts. -/
def crcShifts : Nat → Word → Word
  | 0, crc => crc
  | n + 1, crc => crcShifts n (crcShift crc)

/-- R136: the CRC register takes one byte. -/
def crcByte (crc : Word) (b : Byte) : Word := crcShifts 8 (crc ^^^ b.setWidth 32)

/-- R136: the CRC register takes bytes in ascending order. -/
def crcBytes (crc : Word) (bs : List Byte) : Word := bs.foldl crcByte crc

/-- R136: the register after the last byte becomes the image CRC. -/
def crcFinal (crc : Word) : Word := crc ^^^ 0xFFFFFFFF

/-- R136, Table 10-11: the first byte the CRC covers, directly after the CRC field. -/
def crcCoveredFrom : Nat := 0x0A

/-- R134, R136: the unit takes bytes of the image: progress rises and the register runs over each covered one. -/
def ImageRead.take (im : ImageRead) (bs : List Byte) : ImageRead :=
  { im with
    bytes := im.bytes ++ bs
    crc := crcBytes im.crc (bs.drop (crcCoveredFrom - im.bytes.length))
    readTag := none }

/-! ### The image's fields -/

/-- Table 10-11: the magic. -/
def ImageRead.magic (im : ImageRead) : Nat := readBE im.bytes 0x00 4
/-- Table 10-11: the format version. -/
def ImageRead.version (im : ImageRead) : Nat := readBE im.bytes 0x04 2
/-- Table 10-11: the CRC field. -/
def ImageRead.crcField (im : ImageRead) : Word := BitVec.ofNat 32 (readBE im.bytes 0x06 4)
/-- Table 10-11: the image sequence. -/
def ImageRead.sequence (im : ImageRead) : Word := BitVec.ofNat 32 (readBE im.bytes 0x0A 4)
/-- Table 10-11: the pool count. -/
def ImageRead.poolCount (im : ImageRead) : Nat := readBE im.bytes 0x0E 2
/-- Table 10-11: the slot count. -/
def ImageRead.slotCount (im : ImageRead) : Nat := readBE im.bytes 0x10 2
/-- Table 10-11: the slot length. -/
def ImageRead.slotLength (im : ImageRead) : Nat := readBE im.bytes 0x12 2
/-- Table 10-11: the total length. -/
def ImageRead.totalLength (im : ImageRead) : Nat := readBE im.bytes 0x14 4
/-- Table 10-11: rate entry `i`. -/
def ImageRead.rate (im : ImageRead) (i : Nat) : Nat := readBE im.bytes (0x18 + 2 * i) 2
/-- R135: the 96 bytes of the pool record at a position. -/
def ImageRead.record (im : ImageRead) (i : Nat) : List Byte :=
  (im.bytes.drop (Config.headerBytes + Config.recordBytes * i)).take Config.recordBytes
/-- R135: the pool records in image order. -/
def ImageRead.records (im : ImageRead) : List (List Byte) := (List.range im.poolCount).map im.record

/-- Table 10-12: the pool number of a record. -/
def recordPool (r : List Byte) : Nat := readBE r 0x00 2
/-- Table 10-12: the feature count of a record. -/
def recordFeatureCount (r : List Byte) : Nat := readBE r 0x02 1
/-- Table 10-12: the first feature-count codes of a record. -/
def recordFeatures (r : List Byte) : List Nat := (List.range (recordFeatureCount r)).map (fun i => readBE r (0x04 + 2 * i) 2)

/-! ### Checks -/

/-- R137: checks 1 and 2 on the header: the number of the first that fails. -/
def ImageRead.headerFailure (im : ImageRead) : Option Nat :=
  if im.magic ≠ 0x4B543431 ∨ im.version ≠ 1 then some 1
  else if im.totalLength ≠ im.len ∨ im.totalLength ≠ Config.headerBytes + Config.recordBytes * im.poolCount then some 2
  else none

/-- R138 check 6: a record passes its five tests, given the pool numbers of the earlier records. -/
def recordPasses (earlier : List Nat) (r : List Byte) : Bool :=
  decide (recordPool r < Config.numPools) && !earlier.contains (recordPool r)
    && decide (1 ≤ recordFeatureCount r ∧ recordFeatureCount r ≤ 8)
    && (recordFeatures r).all (fun f => decide (f ≠ 0)) && decide (recordFeatures r).Nodup

/-- R138 check 6: the position of the first record that fails, counting from `position`. -/
def failingRecord (position : Nat) (earlier : List Nat) : List (List Byte) → Option Nat
  | [] => none
  | r :: rest => if recordPasses earlier r then failingRecord (position + 1) (recordPool r :: earlier) rest else some position

/-- R137, R138: an IMAGE_CORRUPT answer with the failing check's number. -/
def corruptAnswer (check : Nat) (pool : Half) : Answer :=
  { result := .imageCorrupt, detail := check, pool := pool, body := .zero }

/-- R138: checks 3 to 6 in order: the answer of the first that fails. -/
def ImageRead.imageFailure (im : ImageRead) (floor : Word) : Option Answer :=
  if crcFinal im.crc ≠ im.crcField then some (corruptAnswer 3 Config.noPool)
  else if im.sequence.toNat ≤ floor.toNat then
    some { result := .imageOld, detail := 0, pool := Config.noPool, body := .imageOld im.sequence floor }
  else if im.slotCount < 1 ∨ 32 < im.slotCount ∨ im.slotLength = 0 then some (corruptAnswer 5 Config.noPool)
  else (failingRecord 0 [] im.records).map (fun position => corruptAnswer 6 (BitVec.ofNat 16 position))

/-! ### Staging -/

/-- R139: a rate clamped into 25 to 400. -/
def clampRate (rate : Nat) : Nat := max 25 (min rate 400)

/-- R139: the staged header content. -/
def ImageRead.header (im : ImageRead) : HeaderContent :=
  { sequence := im.sequence
    schedule :=
      { slotCount := im.slotCount, slotLength := im.slotLength, rates := (List.range 32).map (fun i => clampRate (im.rate i)) } }

/-- Table 1-2: the period maximum staged, a 0 taken as 1. -/
def stagedPeriodMax (maximum : Nat) : Nat := max 1 maximum
/-- Table 1-2: the period minimum staged, a 0 taken as 1 and then no more than the maximum. -/
def stagedPeriodMin (minimum maximum : Nat) : Nat := min (max 1 minimum) (stagedPeriodMax maximum)
/-- Table 1-2: the period default staged, a 0 taken as 1, then raised to the minimum, then lowered to the maximum. -/
def stagedPeriodDefault (default minimum maximum : Nat) : Nat :=
  min (max (max 1 default) (stagedPeriodMin minimum maximum)) (stagedPeriodMax maximum)

/-- R11, R139, Table 10-12: the parameter set a record stages, with the clamps of Table 1-2. -/
def recordParams (r : List Byte) : Params :=
  { rank := readBE r 0x03 1
    features := recordFeatures r
    scopeValue := BitVec.ofNat 32 (readBE r 0x14 4)
    scopeMask := BitVec.ofNat 32 (readBE r 0x18 4)
    capacity := readBE r 0x24 2
    reserve := min (readBE r 0x26 2) (readBE r 0x24 2)
    reserveValue := BitVec.ofNat 32 (readBE r 0x1C 4)
    reserveMask := BitVec.ofNat 32 (readBE r 0x20 4)
    seatCap := min (readBE r 0x28 2) 4096
    baseCost := min (readBE r 0x2A 2) 4095
    unitCost := min (readBE r 0x2C 2) 1023
    includedUnits := min (readBE r 0x2E 2) 1024
    rateExempt := (byteAt r 0x37).getLsbD 0
    periodDefault := stagedPeriodDefault (readBE r 0x30 2) (readBE r 0x32 2) (readBE r 0x34 2)
    periodMin := stagedPeriodMin (readBE r 0x32 2) (readBE r 0x34 2)
    periodMax := stagedPeriodMax (readBE r 0x34 2)
    linger := readBE r 0x36 1
    validFrom := BitVec.ofNat 32 (readBE r 0x38 4)
    validTo := BitVec.ofNat 32 (readBE r 0x3C 4) }

/-- R139: the staged entry of a record, its window mask taken as given. -/
def recordStaged (r : List Byte) : StagedPool := { params := recordParams r, mask := BitVec.ofNat 32 (readBE r 0x40 4) }

/-- R139: the staged pool image, each record at its pool number. -/
def ImageRead.stagedPools (im : ImageRead) : Table (Option StagedPool) :=
  im.records.foldl (fun t r => Table.set none t (recordPool r) (some (recordStaged r))) []

/-! ### The arrival of image bytes -/

/-- R131, R140: the install ends with an answer and the unit is IDLE, holding nothing. -/
def State.endInstall (s : State) (c : Nat) (a : Answer) : State := State.handAnswer { s with install := .idle } c a

/-- R138, R139: the last byte has been taken: checks 3 to 6, and staging when they pass. -/
def State.judgeImage (s : State) (im : ImageRead) : State :=
  match im.imageFailure s.et.floor with
  | some a => s.endInstall im.cell a
  | none => { s with install := .committing im im.stagedPools im.header none }

/-- R134: the read goes on, or ends with the last byte. -/
def State.imageGoesOn (s : State) (im : ImageRead) : State :=
  if im.bytes.length < im.len then State.nextImageRead { s with install := .reading im } else s.judgeImage im

/-- R134, R137: bytes are taken; when they complete the header, checks 1 and 2 are judged. -/
def State.takeImageBytes (s : State) (im : ImageRead) (bs : List Byte) : State :=
  if im.bytes.length < Config.headerBytes ∧ Config.headerBytes ≤ (im.take bs).bytes.length then
    match (im.take bs).headerFailure with
    | some check => s.endInstall im.cell (corruptAnswer check Config.noPool)
    | none => s.imageGoesOn (im.take bs)
  else s.imageGoesOn (im.take bs)

/-- R172, log entry 10: how many bytes at a time an arrival that brings less than was asked is taken. No field of an image header or
record crosses a multiple of 16 (Tables 10-11 and 10-12), so no field is split between two reads. -/
def imagePiece : Nat := 16

/-- R134, R172: the bytes of an arrival that are taken: all that were asked for, or the whole pieces of an arrival that brings less. -/
def arrivedBytes (asked : Nat) (bs : List Byte) : List Byte :=
  if asked ≤ bs.length then bs.take asked else bs.take (bs.length / imagePiece * imagePiece)

/-- R134, R146: an image read has landed: its bytes are taken when it is the read the unit waits for, and discarded otherwise. -/
def State.imageLanded (s : State) (t : Transfer) (bs : List Byte) : State :=
  match s.install with
  | .reading im => if im.readTag = some t.tag then s.takeImageBytes im (arrivedBytes t.len bs) else s
  | .idle => s
  | .committing _ _ _ _ => s

/-- R134: IMAGE_READ_ARRIVAL (log entries 10 and 31). -/
def execImageReadArrival (tag : Nat) (bytes : List Byte) (s : State) : Outcome :=
  match s.transfer tag with
  | some { kind := .imageRead c, addr := a, len := n, bytes := b, tag := g } =>
    .next ((s.landed tag).imageLanded { kind := .imageRead c, addr := a, len := n, bytes := b, tag := g } bytes)
  | _ => .next s

/-! ### The commit event -/

/-- R141: the entry the staged image holds for a pool number. -/
def stagedEntry (staged : Table (Option StagedPool)) (p : Nat) : Option StagedPool := Table.get none staged p

/-- R141: the pool was not ABSENT. -/
def State.installed (s : State) (p : Nat) : Bool := decide ((s.pool p).st ≠ .absent)

/-- R141, Table 7-2: the pools by what the commit makes of them. -/
def State.commitOutcome (s : State) (staged : Table (Option StagedPool)) : CommitOutcome :=
  let numbers := List.range Config.numPools
  { created := numbers.filter (fun p => !s.installed p && (stagedEntry staged p).isSome)
    kept := numbers.filter (fun p => s.installed p && (stagedEntry staged p).isSome)
    retiring := numbers.filter (fun p => s.installed p && (stagedEntry staged p).isNone && decide ((s.pool p).leaseCount ≠ 0))
    removed := numbers.filter (fun p => s.installed p && (stagedEntry staged p).isNone && decide ((s.pool p).leaseCount = 0)) }

/-- R108: a HELD or LINGERING record of a kept pool has its flag formed against the new reserve scope. -/
def State.recomputed (s : State) (staged : Table (Option StagedPool)) (l : Lease) : Lease :=
  match stagedEntry staged l.pool with
  | some entry => if l.holds && s.installed l.pool then { l with inReserve := entry.params.insider l.key } else l
  | none => l

/-- R108: the Lease Table after the reserve recomputation. -/
def State.recomputedLeases (s : State) (staged : Table (Option StagedPool)) : Table Lease :=
  Table.mapEntries Lease.atReset (fun _ l => s.recomputed staged l) s.lt.leases

/-- R16: the charges of the HELD and LINGERING records that a test picks out, summed. -/
def chargeSum (leases : Table Lease) (p : Lease → Bool) : Nat :=
  ((leases.filter (fun e => e.2.holds && p e.2)).map (fun e => e.2.charge)).sum

/-- R108: the sum of the charges of a pool's flagged records. -/
def reserveSum (leases : Table Lease) (p : Nat) : Nat := chargeSum leases (fun l => decide (l.pool = p) && l.inReserve)

/-- R142: a kept pool with its new parameter set, its counters, and its state judged against the new limits. -/
def keptPool (e : Pool) (params : Params) (reserveInUse : Nat) : Pool :=
  { e with
    params := some params
    reserveInUse := reserveInUse
    st := if withinLimits params e then .active else .draining }

/-- R141: a created pool. -/
def createdPool (params : Params) : Pool :=
  { st := .active, params := some params, inUse := 0, reserveInUse := 0, leaseCount := 0 }

/-- R141 to R143, Table 7-2: one pool number at the commit. -/
def State.committedPool (s : State) (staged : Table (Option StagedPool)) (p : Nat) : Pool :=
  match stagedEntry staged p with
  | some entry =>
    if s.installed p then keptPool (s.pool p) entry.params (reserveSum (s.recomputedLeases staged) p)
    else createdPool entry.params
  | none =>
    if s.installed p then
      if (s.pool p).leaseCount = 0 then Pool.atReset else { s.pool p with st := .retiring }
    else s.pool p

/-- R143: the report to the Wait Unit. -/
def CommitOutcome.report (o : CommitOutcome) : CommitReport :=
  { kept := o.kept, leaving := o.retiring.foldl (fun acc p => addNumber p acc) o.removed }

/-- R141 to R144: the commit event. -/
def State.commit (s : State) (im : ImageRead) (staged : Table (Option StagedPool)) (header : HeaderContent) : State :=
  { s with
    et.pools := Table.build Pool.atReset Config.numPools (s.committedPool staged)
    et.floor := header.sequence
    lt.leases := s.recomputedLeases staged
    wu.commitReports := s.wu.commitReports ++ [(s.commitOutcome staged).report]
    install := .committing im staged header (some (s.commitOutcome staged)) }

/-- R141: INSTALL_COMMIT. -/
def execInstallCommit (s : State) : Outcome :=
  match s.install with
  | .committing im staged header none => .next (s.commit im staged header)
  | .committing _ _ _ (some _) => .next s
  | .reading _ => .next s
  | .idle => .next s

/-! ### The schedule content -/

/-- R126: the window mask the image gives a pool. -/
def stagedMaskOf (staged : Table (Option StagedPool)) (p : Nat) : Word := ((stagedEntry staged p).map StagedPool.mask).getD 0

/-- R126: a pool's mask becomes its active mask at once, with no staged mask. -/
def State.maskActive (staged : Table (Option StagedPool)) (s : State) (p : Nat) : State :=
  (s.setActiveMask p (stagedMaskOf staged p)).setStagedMask p none

/-- R126: a kept pool's mask with the clock SET. -/
def State.maskStaged (staged : Table (Option StagedPool)) (s : State) (p : Nat) : State :=
  s.setStagedMask p (some (stagedMaskOf staged p))

/-- R126: a pool that became RETIRING has no staged mask. -/
def State.maskRetired (s : State) (p : Nat) : State := s.setStagedMask p none

/-- R126: a pool that became ABSENT has no staged mask, and an active mask of 0. -/
def State.maskRemoved (s : State) (p : Nat) : State := (s.setActiveMask p 0).setStagedMask p none

/-- R126: the schedule, staged with the clock SET and active at once with the clock UNSET. -/
def State.takeSchedule (s : State) (sched : Schedule) : State :=
  if s.su.clockSet then { s with su.staged := some sched } else { s with su.active := sched, su.staged := none }

/-- R126: the masks of the kept pools. -/
def State.takeKeptMasks (s : State) (staged : Table (Option StagedPool)) (kept : List Nat) : State :=
  if s.su.clockSet then kept.foldl (State.maskStaged staged) s else kept.foldl (State.maskActive staged) s

/-- R126: the Schedule Unit takes the content of a commit. -/
def State.takeContent (s : State) (staged : Table (Option StagedPool)) (header : HeaderContent) (o : CommitOutcome) : State :=
  o.removed.foldl State.maskRemoved (o.retiring.foldl State.maskRetired
    (o.created.foldl (State.maskActive staged) ((s.takeSchedule header.schedule).takeKeptMasks staged o.kept)))

/-- R144, Table 10-4: the OK answer of an INSTALL. -/
def installAnswer (o : CommitOutcome) (floor : Word) : Answer :=
  { result := .ok, detail := 0, pool := Config.noPool,
    body := .install o.created.length o.kept.length o.retiring.length o.removed.length floor }

/-- R126, R144: SCHEDULE_CONTENT: the content is taken, the INSTALL is answered OK, and the Install Unit is IDLE. -/
def execScheduleContent (s : State) : Outcome :=
  match s.install with
  | .committing im staged header (some o) =>
    .next ((s.takeContent staged header o).endInstall im.cell (installAnswer o s.et.floor))
  | .committing _ _ _ none => .next s
  | .reading _ => .next s
  | .idle => .next s

end Sys2Proof.Machine
end

