-- ==== Sys2Proof/Machine/Dispatch.lean ====
section
/-! DEFINITION. The one match on a command: each row of spec/opcode_table.json has its meaning. -/

namespace Sys2Proof.Machine

/-- The effect of a command on everything but the queue of waiting commands. -/
def exec (i : Instr) (s : State) : Host.Outcome State Fault Refusal :=
  match i with
  | .exbaseLoWrite value => Sys2Proof.Machine.execExbaseLoWrite value s
  | .exbaseHiWrite value => Sys2Proof.Machine.execExbaseHiWrite value s
  | .post value => Sys2Proof.Machine.execPost value s
  | .requestRun value => Sys2Proof.Machine.execRequestRun value s
  | .requestHold value => Sys2Proof.Machine.execRequestHold value s
  | .requestStill value => Sys2Proof.Machine.execRequestStill value s
  | .interruptEnable value => Sys2Proof.Machine.execInterruptEnable value s
  | .functionReset value => Sys2Proof.Machine.execFunctionReset value s
  | .powerOnReset => Sys2Proof.Machine.execPowerOnReset s
  | .functionLevelReset => Sys2Proof.Machine.execFunctionLevelReset s
  | .causeWrite value => Sys2Proof.Machine.execCauseWrite value s
  | .registerWriteIgnored reg value => Sys2Proof.Machine.execRegisterWriteIgnored reg value s
  | .cellPick => Sys2Proof.Machine.execCellPick s
  | .fetchArrival tag bytes => Sys2Proof.Machine.execFetchArrival tag bytes s
  | .unknownRequestKind => Sys2Proof.Machine.execUnknownRequestKind s
  | .draw steps => Sys2Proof.Machine.execDraw steps s
  | .grantEvent sender => Sys2Proof.Machine.execGrantEvent sender s
  | .revival => Sys2Proof.Machine.execRevival s
  | .parking => Sys2Proof.Machine.execParking s
  | .renew => Sys2Proof.Machine.execRenew s
  | .returnLease => Sys2Proof.Machine.execReturnLease s
  | .returnMatching => Sys2Proof.Machine.execReturnMatching s
  | .withdraw => Sys2Proof.Machine.execWithdraw s
  | .inspectPool => Sys2Proof.Machine.execInspectPool s
  | .install => Sys2Proof.Machine.execInstall s
  | .setClock => Sys2Proof.Machine.execSetClock s
  | .tune => Sys2Proof.Machine.execTune s
  | .clearFloor => Sys2Proof.Machine.execClearFloor s
  | .leaseTick => Sys2Proof.Machine.execLeaseTick s
  | .lapse index => Sys2Proof.Machine.execLapse index s
  | .lingerEnd index => Sys2Proof.Machine.execLingerEnd index s
  | .tokenTicks => Sys2Proof.Machine.execTokenTicks s
  | .housekeepingTick => Sys2Proof.Machine.execHousekeepingTick s
  | .waitExpiry cell => Sys2Proof.Machine.execWaitExpiry cell s
  | .graceHoldEnd => Sys2Proof.Machine.execGraceHoldEnd s
  | .examination steps => Sys2Proof.Machine.execExamination steps s
  | .commitReport => Sys2Proof.Machine.execCommitReport s
  | .second => Sys2Proof.Machine.execSecond s
  | .slotStart => Sys2Proof.Machine.execSlotStart s
  | .frameStart => Sys2Proof.Machine.execFrameStart s
  | .imageReadArrival tag bytes => Sys2Proof.Machine.execImageReadArrival tag bytes s
  | .installCommit => Sys2Proof.Machine.execInstallCommit s
  | .scheduleContent => Sys2Proof.Machine.execScheduleContent s
  | .writeListIssue => Sys2Proof.Machine.execWriteListIssue s
  | .answerWriteComplete tag => Sys2Proof.Machine.execAnswerWriteComplete tag s
  | .poolFieldWriteComplete tag => Sys2Proof.Machine.execPoolFieldWriteComplete tag s
  | .statusByteWriteComplete tag => Sys2Proof.Machine.execStatusByteWriteComplete tag s
  | .noticeWrite => Sys2Proof.Machine.execNoticeWrite s
  | .noticeEntryWriteComplete tag => Sys2Proof.Machine.execNoticeEntryWriteComplete tag s
  | .noticeWritten tag => Sys2Proof.Machine.execNoticeWritten tag s
  | .consumedReadArrival tag bytes => Sys2Proof.Machine.execConsumedReadArrival tag bytes s
  | .dmaError tag => Sys2Proof.Machine.execDmaError tag s
  | .meterCount which => Sys2Proof.Machine.execMeterCount which s
  | .slotEnd => Sys2Proof.Machine.execSlotEnd s
  | .intervalEnd => Sys2Proof.Machine.execIntervalEnd s
  | .meterOwnerRead => Sys2Proof.Machine.execMeterOwnerRead s
  | .ownerReadArrival tag bytes => Sys2Proof.Machine.execOwnerReadArrival tag bytes s
  | .pageWriteComplete tag => Sys2Proof.Machine.execPageWriteComplete tag s
  | .ownerWordWriteComplete tag => Sys2Proof.Machine.execOwnerWordWriteComplete tag s

end Sys2Proof.Machine
end

