-- ==== Sys2Proof/Machine/Step.lean ====
section
/-! DEFINITION. One step of the engine: the command at the front of the queue, or, with none waiting, one cycle of the 25 MHz
reference (log entry 2). -/

namespace Sys2Proof.Machine

/-- The command at the front of the queue is taken with the rest of the queue left waiting; with none waiting, R112: a cycle of the
reference passes (log entry 2). -/
def step (s : State) : Host.Outcome State Fault Refusal :=
  match s.pending with
  | [] => .next s.referenceCycle
  | c :: rest => exec c { s with pending := rest }

/-- The command a table word spells, put at the front of the queue; the table gives no bits, so no word spells one. -/
def State.withFetchWord (s : State) (nbits w : Nat) : State :=
  match decodeTableWord nbits w with
  | some c => { s with pending := c :: s.pending }
  | none => s

end Sys2Proof.Machine
end

