-- ==== Sys2Proof/Safety.lean ====
section
/-! DEFINITION. The terms the statements use: what it is for a request to be taken and answered, and the invariants that every
step keeps, each with the rule of spec/ it comes from. -/

namespace Sys2Proof.Machine

/-! ### Taking and answering a request -/

/-- R162, R163: the Evaluator can take cell `c` now, the earliest-issued one, whose fetched bytes are `copy`. -/
def State.Serves (s : State) (c : Nat) (copy : List Byte) (rest : List Nat) : Prop :=
  s.xi.engine.evaluates = true ∧ s.decision = none ∧ s.xi.readAhead = c :: rest ∧ (s.cell c).st = .ready ∧ (s.cell c).copy = copy

/-- R163: a request of this kind that passes the malformation check. -/
def State.ServesKind (s : State) (c : Nat) (copy : List Byte) (rest : List Nat) (kind : Nat) : Prop :=
  s.Serves c copy rest ∧ requestKind copy = kind ∧ firstReserved kind copy = none

/-- R162: the cell's slot is free, and the Exchange Interface is otherwise as it was, but for its cells, its write list and the parts
named by `rest`. -/
def TakenFrame (s t : State) (rest : List Nat) : Prop :=
  t.xi.readAhead = rest ∧
    { t.xi with readAhead := s.xi.readAhead, writeList := s.xi.writeList, cells := s.xi.cells } = s.xi

/-- R164: the answers were handed, in this order, and their cells are ANSWERING; every other cell is as it was. -/
def Answered (s t : State) (answers : List (Nat × Answer)) : Prop :=
  t.xi.writeList = s.xi.writeList ++ answers.map (fun e => WriteEntry.final e.1 e.2) ∧
    (∀ e ∈ answers, (t.cell e.1).st = .answering) ∧
    ∀ c, (∀ e ∈ answers, e.1 ≠ c) → t.cell c = s.cell c

/-- R162, R164: a taken request is answered at once with one answer. -/
def TakenAndAnswered (s t : State) (c : Nat) (rest : List Nat) (a : Answer) : Prop :=
  TakenFrame s t rest ∧ Answered s t [(c, a)]

/-- R162, R70, R81: a request is taken from its slot and stays in hand: its cell stays READY and no other cell changes (log entry 20). -/
def TakenInHand (s t : State) (c : Nat) (rest : List Nat) (d : Decision) : Prop :=
  t = { s with xi := t.xi, decision := some d } ∧ TakenFrame s t rest ∧ t.xi.writeList = s.xi.writeList ∧
    (t.cell c).st = .ready ∧ ∀ c', c' ≠ c → t.cell c' = s.cell c'

/-- Only the cells of the Exchange Interface differ, and of those only `c`. -/
def OnlyCell (s t : State) (c : Nat) : Prop :=
  t = { s with xi := { s.xi with cells := t.xi.cells } } ∧ ∀ c', c' ≠ c → t.cell c' = s.cell c'

/-- R164: a waiting or decided cell outside the read-ahead is answered: the Exchange Interface changes in its cells and its write list
only. -/
def AnsweredFrame (s t : State) : Prop := { t.xi with writeList := s.xi.writeList, cells := s.xi.cells } = s.xi

/-! ### What a free leaves (R14, R15, R18) -/

/-- R18 step 1: the counters less the charges and seats of the records named. -/
def Pool.lowered (e : Pool) (ls : List Lease) : Pool :=
  { e with
    inUse := e.inUse - (ls.map Lease.charge).sum
    reserveInUse := e.reserveInUse - ((ls.filter Lease.inReserve).map Lease.charge).sum
    leaseCount := e.leaseCount - ls.length }

/-- R14, R15: the state of a pool named in a free, after its counters were lowered. -/
def Pool.settled (e : Pool) : Pool :=
  match e.st with
  | .draining => if withinLimits (e.params.getD Params.none) e then { e with st := .active } else e
  | .retiring => if e.leaseCount = 0 then Pool.atReset else e
  | .active => e
  | .absent => e

/-- The records of a free that a pool holds. -/
def freedFrom (ls : List Lease) (p : Nat) : List Lease := ls.filter (fun l => decide (l.pool = p))

/-- R15, R18: the free takes the lease count of a RETIRING pool to 0. -/
def State.dropsAt (s : State) (ls : List Lease) (p : Nat) : Prop :=
  freedFrom ls p ≠ [] ∧ (s.pool p).st = .retiring ∧ (s.pool p).leaseCount ≤ (freedFrom ls p).length

/-- R18, R14, R15: the free event of these records at the Entitlement Table and the Schedule Unit: each pool named is lowered and
settled, a pool dropped loses its masks, and no other pool and no other mask changes. -/
def FreeTaken (s t : State) (ls : List Lease) : Prop :=
  (∀ p, freedFrom ls p = [] → t.pool p = s.pool p) ∧
    (∀ p, freedFrom ls p ≠ [] → t.pool p = ((s.pool p).lowered (freedFrom ls p)).settled) ∧
    (∀ p, s.dropsAt ls p → t.activeMask p = 0 ∧ t.stagedMask p = none) ∧
    (∀ p, ¬ s.dropsAt ls p → t.activeMask p = s.activeMask p ∧ t.stagedMask p = s.stagedMask p) ∧
    t.et.floor = s.et.floor ∧ { t.su with activeMasks := s.su.activeMasks, stagedMasks := s.su.stagedMasks } = s.su

/-- R69: these pools, and no others, joined the due set. -/
def DueJoined (s t : State) (joined : Nat → Prop) : Prop := ∀ p, p ∈ t.wu.due ↔ p ∈ s.wu.due ∨ joined p

/-- Of the Wait Unit only the due set changed. -/
def OnlyDue (s t : State) : Prop := { t.wu with due := s.wu.due } = s.wu

/-- R87: the records of the table in rising index. -/
def State.records (s : State) : List (Nat × Lease) := (List.range Config.numLeases).map (fun i => (i, s.lease i))

/-! ### Terms of the statements about requests -/

/-- The command that takes a request of a kind (Table 10-2). -/
def requestCommand (kind steps : Nat) : Instr :=
  match kind with
  | 1 => .draw steps
  | 2 => .renew
  | 3 => .returnLease
  | 4 => .returnMatching
  | 5 => .withdraw
  | 6 => .inspectPool
  | 7 => .install
  | 8 => .setClock
  | 9 => .tune
  | 10 => .clearFloor
  | _ => .unknownRequestKind

/-- An answer of RENEW or RETURN: the handle as the request gave it, detail 0 (Table 5-4, R100). -/
def leaseAnswer (r : Result) (pool : Half) (copy : List Byte) (charge period : Nat) : Answer :=
  { result := r, detail := 0, pool := pool, body := .lease (readLE copy 4 2) (BitVec.ofNat 16 (readLE copy 6 2)) charge period }

/-- R103, R4: the record is HELD, its client key matches the request's value and mask, and its pool passes the filter. -/
def ReturnSelected (copy : List Byte) (l : Lease) : Prop :=
  l.st = .held ∧ (l.key ^^^ BitVec.ofNat 32 (readLE copy 8 4)) &&& BitVec.ofNat 32 (readLE copy 12 4) = 0 ∧
    (readLE copy 4 2 = 0xFFFF ∨ l.pool = readLE copy 4 2)

/-- R104: a selected record goes into linger rather than being freed at once. -/
def State.Lingers (s : State) (copy : List Byte) (l : Lease) : Prop :=
  (s.params l.pool).linger ≠ 0 ∧ (byteAt copy 6).getLsbD 0 = false

/-- A DRAW refused with no pool named: the answer of R62, with nothing else changed and nothing counted. -/
def RefusedUnnamed (s t : State) (d : DrawDecision) (r : Result) : Prop :=
  t = { s with xi := t.xi, decision := none } ∧ AnsweredFrame s t ∧
    Answered s t [(d.cell, { result := r, detail := 0, pool := 0xFFFF, body := .zero })]

/-- A DRAW refused with a pool named: the answer of R62, with one refusal handed to the Meter Unit against that pool. -/
def RefusedNaming (s t : State) (d : DrawDecision) (r : Result) (p : Nat) : Prop :=
  t = { s with xi := t.xi, decision := none, mu := { s.mu with inbox := s.mu.inbox ++ [.raise .refusals p] } } ∧ AnsweredFrame s t ∧
    Answered s t [(d.cell, { result := r, detail := 0, pool := BitVec.ofNat 16 p, body := .zero })]

/-- R51, section 1.3: no lease record is FREE. -/
def State.TableFull (s : State) : Prop := ∀ i, i < 4096 → (s.lease i).st ≠ .free

/-- Section 1.3: a structural candidate: ACTIVE or DRAINING, listing the feature, its scope matching the key. -/
def State.IsCandidate (s : State) (p feature : Nat) (key : Word) : Prop :=
  p < 512 ∧ ((s.pool p).st = .active ∨ (s.pool p).st = .draining) ∧ feature ∈ (s.params p).features ∧
    (key ^^^ (s.params p).scopeValue) &&& (s.params p).scopeMask = 0

/-- R32, R33: the limit of a pool for a client key. -/
def limitFor (p : Params) (reserveInUse : Nat) (key : Word) : Nat :=
  if (key ^^^ p.reserveValue) &&& p.reserveMask = 0 then p.capacity else p.capacity - (p.reserve - reserveInUse)

/-- R17, R36, R38: a grant of a charge for a key passes on a pool: ACTIVE or DRAINING, the token and seat conditions, and record `i` the
FREE record of lowest index. -/
def State.GrantPasses (s : State) (p charge i : Nat) (key : Word) : Prop :=
  ((s.pool p).st = .active ∨ (s.pool p).st = .draining) ∧
    (s.pool p).inUse + charge ≤ limitFor (s.params p) (s.pool p).reserveInUse key ∧
    ((s.params p).seatCap = 0 ∨ (s.pool p).leaseCount + 1 ≤ (s.params p).seatCap) ∧
    i < 4096 ∧ (s.lease i).st = .free ∧ ∀ j, j < i → (s.lease j).st ≠ .free

/-- R17, R56, R55, R149: what a passed grant leaves at the Entitlement Table, the Lease Table and the Meter Unit's inbox; its sender changes
only its own part and the Exchange Interface. -/
def GrantMade (s t : State) (p charge i feature request : Nat) (key : Word) : Prop :=
  ∃ (period : Nat) (flag : Bool),
    period = (if request = 0 then (s.params p).periodDefault
      else if request < (s.params p).periodMin then (s.params p).periodMin
      else if (s.params p).periodMax < request then (s.params p).periodMax else request) ∧
    flag = decide ((key ^^^ (s.params p).reserveValue) &&& (s.params p).reserveMask = 0) ∧
    t.lease i = { st := .held, generation := (s.lease i).generation, pool := p, feature := feature, key := key, charge := charge,
                  inReserve := flag, period := period, counter := period } ∧
    (∀ j, j ≠ i → t.lease j = s.lease j) ∧
    t.pool p = { s.pool p with
      inUse := (s.pool p).inUse + charge
      reserveInUse := (s.pool p).reserveInUse + (if flag then charge else 0)
      leaseCount := (s.pool p).leaseCount + 1 } ∧
    (∀ q, q ≠ p → t.pool q = s.pool q) ∧ t.et.floor = s.et.floor ∧
    t.mu = { s.mu with inbox := s.mu.inbox ++ [.raise .grants p, .peak p ((s.pool p).inUse + charge)] } ∧
    t = { s with xi := t.xi, et := t.et, lt := t.lt, mu := t.mu, wu := t.wu, decision := t.decision }

/-- R57, Table 4-2: the GRANTED answer of the lease in record `i`. -/
def grantAnswer (t : State) (p i charge : Nat) : Answer :=
  { result := .granted, detail := 0, pool := BitVec.ofNat 16 p, body := .lease i (t.lease i).generation charge (t.lease i).period }

/-! ### Terms of the statements about ticks and installs -/

/-- R92, R93, R94, R18, R76, R112: a lease tick taken while aging runs and no grace hold withholds it. Every HELD and LINGERING counter falls
by 1. A HELD record that reaches 0 is LAPSED, with its LAPSE notice handed in rising record index and one lapse counted; a LINGERING one
is FREE, its generation kept; all of them are freed in one event. FREE and LAPSED records stand. -/
def LeaseTickTaken (s t : State) : Prop :=
  ∃ (lapsing ended freed : List (Nat × Lease)),
    lapsing = s.records.filter (fun e => decide (e.2.st = .held ∧ e.2.counter ≤ 1)) ∧
    ended = s.records.filter (fun e => decide (e.2.st = .lingering ∧ e.2.counter ≤ 1)) ∧
    freed = s.records.filter (fun e => decide ((e.2.st = .held ∨ e.2.st = .lingering) ∧ e.2.counter ≤ 1)) ∧
    (∀ i l, (i, l) ∈ lapsing → t.lease i = { l with st := .lapsed, counter := 0 }) ∧
    (∀ i l, (i, l) ∈ ended → t.lease i = { l with st := .free, counter := 0 }) ∧
    (∀ i, ((s.lease i).st = .held ∨ (s.lease i).st = .lingering) → 1 < (s.lease i).counter →
      t.lease i = { s.lease i with counter := (s.lease i).counter - 1 }) ∧
    (∀ i, (s.lease i).st = .free ∨ (s.lease i).st = .lapsed → t.lease i = s.lease i) ∧
    t.xi = { s.xi with notices := s.xi.notices ++ lapsing.map (fun e => .lapse e.1 e.2.generation e.2.pool) } ∧
    t.mu = { s.mu with inbox := s.mu.inbox ++ lapsing.map (fun e => .raise .lapses e.2.pool) } ∧
    FreeTaken s t (freed.map Prod.snd) ∧ OnlyDue s t ∧
    DueJoined s t (fun p => (∃ e ∈ freed, e.2.pool = p) ∨ ended ≠ [] ∧ p ∈ s.wu.stall) ∧
    t = { s with
      xi := t.xi
      et := t.et
      lt := t.lt
      wu := t.wu
      su := t.su
      mu := t.mu
      tb := { s.tb with leaseCount := 0, leaseInterval := leasePeriod s.tb.leaseSel } }

/-- R79, R80: what a housekeeping tick that counts deadlines does at the Wait Unit: every deadline falls by 1, every entry that reaches 0 is
removed and answered WAIT_EXPIRED in rising cell number, with one wait-expiry counted for its home pool, and every pool whose head was
removed becomes due. -/
def DeadlinesCounted (s t : State) : Prop :=
  ∃ expired : List (Nat × Waiter),
    (∀ p w, (p, w) ∈ expired ↔ w ∈ s.queue p ∧ w.deadline ≤ 1) ∧
    (expired.map (fun e => e.2.cell)).Pairwise (· ≤ ·) ∧
    expired.length = (s.wu.queues.flatMap (fun q => q.2.filter (fun w => decide (w.deadline ≤ 1)))).length ∧
    (∀ p, t.queue p = ((s.queue p).filter (fun w => decide (1 < w.deadline))).map (fun w => { w with deadline := w.deadline - 1 })) ∧
    Answered s t (expired.map (fun e => (e.2.cell, plainAnswer .waitExpired (BitVec.ofNat 16 e.1)))) ∧
    t.mu = { s.mu with inbox := s.mu.inbox ++ expired.map (fun e => .raise .waitExpiries e.1) } ∧
    DueJoined s t (fun p => ∃ w, (s.queue p).head? = some w ∧ w.deadline ≤ 1) ∧
    { t.wu with queues := s.wu.queues, due := s.wu.due } = s.wu

/-- R79, R80: a housekeeping tick that counts deadlines, with nothing else changed. -/
def TickCounted (s t : State) : Prop :=
  DeadlinesCounted s t ∧ AnsweredFrame s t ∧ t = { s with xi := t.xi, wu := t.wu, mu := t.mu }

/-- R70, R79, R86, log entry 19: the housekeeping ticks held during an examination are taken one after another, each counting deadlines
where aging runs and changing nothing in HOLD and STILL. -/
def HeldTicksTaken : Nat → State → State → Prop
  | 0, s, t => t = s
  | n + 1, s, t => ∃ u,
      ((s.xi.engine = .offline ∨ s.xi.engine = .run ∨ s.xi.engine = .faulted) → TickCounted s u) ∧
      ((s.xi.engine = .hold ∨ s.xi.engine = .still) → u = s) ∧ HeldTicksTaken n u t

/-- R75, R70: the examination of pool `p` ends, with its table-stall mark set or clear, and the ticks held meanwhile are taken. -/
def ExamOver (s t : State) (p : Nat) (stalled : Bool) : Prop :=
  ∃ u : State, u = { s with wu := { s.wu with exam := none, heldTicks := 0, stall := u.wu.stall } } ∧
    (∀ q, q ∈ u.wu.stall ↔ if q = p then stalled = true else q ∈ s.wu.stall) ∧
    (stalled = false → u.wu.stall = s.wu.stall.filter (fun q => decide (q ≠ p))) ∧
    HeldTicksTaken s.wu.heldTicks u t

/-- R71, R72, R85: the whole queue of pool `p` is answered with `flush`, in queue order, one refusal counted for each EXPIRED, and the
examination ends with the mark clear. -/
def QueueFlushed (s t : State) (p : Nat) (flush : Result) : Prop :=
  ∃ u : State, u = { s with
      xi := u.xi
      wu := { s.wu with queues := u.wu.queues }
      mu := { s.mu with
        inbox := s.mu.inbox ++ (if flush = .expired then (s.queue p).map (fun _ => MeterCount.raise .refusals p) else []) } } ∧
    AnsweredFrame s u ∧ Answered s u ((s.queue p).map (fun w => (w.cell, plainAnswer flush (BitVec.ofNat 16 p)))) ∧
    u.queue p = [] ∧ (∀ q, q ≠ p → u.queue q = s.queue q) ∧ ExamOver u t p false

/-- R69, R77, R152: a slot start or frame start handed on: every pool whose queue is not empty becomes due, and one slot end is handed to the
Meter Unit. -/
def SlotChangeHanded (s t : State) : Prop :=
  OnlyDue s t ∧ DueJoined s t (fun p => s.queue p ≠ []) ∧ t.mu = { s.mu with slotEnds := s.mu.slotEnds + 1 }

/-- R124 steps 2 and 3: staged content becomes active: the staged schedule if present, and each staged mask present. -/
def StagedApplied (s t : State) : Prop :=
  t.su.active = s.su.staged.getD s.su.active ∧ t.su.staged = none ∧
    (∀ p, t.activeMask p = (s.stagedMask p).getD (s.activeMask p)) ∧ ∀ p, t.stagedMask p = none

/-- R136: the image CRC, register start, eight shifts a byte, and end, over a list of bytes. -/
def imageCrc (bytes : List Byte) : Word :=
  (bytes.foldl (fun crc b =>
    (List.range 8).foldl (fun r _ => if r.getLsbD 0 then (r >>> 1) ^^^ 0xEDB88320 else r >>> 1) (crc ^^^ b.setWidth 32))
    0xFFFFFFFF) ^^^ 0xFFFFFFFF

/-- R134, R136: the bytes the unit holds and its CRC register agree: the register has run over every byte from 0Ah on. -/
def ImageRead.crcAgrees (im : ImageRead) : Prop := crcFinal im.crc = imageCrc (im.bytes.drop 10)

/-- R137: checks 1 and 2 pass on the header bytes, for the request's image length. -/
def HeaderGood (bytes : List Byte) (len : Nat) : Prop :=
  readBE bytes 0 4 = 0x4B543431 ∧ readBE bytes 4 2 = 1 ∧ readBE bytes 20 4 = len ∧
    readBE bytes 20 4 = 128 + 96 * readBE bytes 14 2

/-- R138 check 6: the five tests of a record, given the pool numbers of the earlier records. -/
def RecordGood (earlier : List Nat) (r : List Byte) : Prop :=
  readBE r 0 2 < 512 ∧ readBE r 0 2 ∉ earlier ∧ 1 ≤ (byteAt r 2).toNat ∧ (byteAt r 2).toNat ≤ 8 ∧
    (∀ k, k < (byteAt r 2).toNat → readBE r (4 + 2 * k) 2 ≠ 0) ∧
    ∀ j k, j < k → k < (byteAt r 2).toNat → readBE r (4 + 2 * j) 2 ≠ readBE r (4 + 2 * k) 2

/-! ### Resets -/

/-- R171: the commands that reset the engine. -/
def isReset : Instr → Bool
  | .functionReset _ => true
  | .powerOnReset => true
  | .functionLevelReset => true
  | _ => false

/-- R160: the CONTROL writes that are no function reset. -/
def isControl : Instr → Bool
  | .requestRun _ => true
  | .requestHold _ => true
  | .requestStill _ => true
  | .interruptEnable _ => true
  | _ => false

/-! ### Invariants -/

/-- Log entry 21: every table and number set of the state is in canonical form, and the lease records are those of R87. -/
def State.canonical (s : State) : Bool :=
  Table.canonical Cell.atReset s.xi.cells && Table.canonical Pool.atReset s.et.pools
    && Table.wf Lease.atReset Config.numLeases s.lt.leases && Table.canonical [] s.wu.queues && rising s.wu.stall && rising s.wu.due
    && Table.canonical 0 s.su.activeMasks && Table.canonical none s.su.stagedMasks
    && Table.canonical Meters.atReset s.mu.meters

/-- R158, R159: the exchange base is 4 KiB aligned; it is nonzero outside OFFLINE, and in OFFLINE no transfer is in flight. -/
def State.baseOk (s : State) : Bool :=
  decide (s.xi.base.toNat % 4096 = 0)
    && if s.xi.engine = .offline then s.xi.inFlight.isEmpty else decide (s.xi.base ≠ 0)

/-- R120: the ranges of a schedule. -/
def Schedule.inRange (sched : Schedule) : Bool :=
  decide (1 ≤ sched.slotCount ∧ sched.slotCount ≤ 32 ∧ 1 ≤ sched.slotLength ∧ sched.slotLength ≤ 65535
    ∧ sched.rates.length = 32) && sched.rates.all (fun r => decide (25 ≤ r ∧ r ≤ 400))

/-- R131: the header content the Install Unit has staged, if it is COMMITTING. -/
def InstallUnit.header? : InstallUnit → Option HeaderContent
  | .committing _ _ header _ => some header
  | .reading _ => none
  | .idle => none

/-- R120, R121: the schedules are in range, the position lies within the active geometry, and a clock that is UNSET stands at
frame 0, slot 0, seconds 0 with no staged schedule. -/
def State.positionOk (s : State) : Bool :=
  s.su.active.inRange && s.su.staged.all Schedule.inRange && s.install.header?.all (fun h => h.schedule.inRange)
    && decide (s.su.slot < s.su.active.slotCount) && decide (s.su.seconds < s.su.active.slotLength)
    && (s.su.clockSet || (decide (s.su.frame = 0 ∧ s.su.slot = 0 ∧ s.su.seconds = 0) && s.su.staged.isNone))

/-- R13: an ACTIVE pool is within its capacity and its seat cap. -/
def State.limitsKept (s : State) : Prop := ∀ p, (s.pool p).st = .active → withinLimits (s.params p) (s.pool p) = true

/-- R19, R138: an image staged and not yet committed has a sequence above the floor. -/
def State.floorBelowStaged (s : State) : Bool :=
  match s.install with
  | .committing _ _ header none => decide (s.et.floor.toNat < header.sequence.toNat)
  | .committing _ _ _ (some _) => true
  | .reading _ => true
  | .idle => true

/-- R66: every wait queue is ordered by class, most urgent first. -/
def State.queuesOrdered (s : State) : Bool :=
  s.wu.queues.all (fun q => decide ((q.2.map Waiter.cls).Pairwise (· ≤ ·)))

/-- How many transfers in flight or held for retry are of some kind. -/
def State.countTransfers (s : State) (p : TransferKind → Bool) : Nat :=
  ((s.xi.inFlight ++ s.xi.retry).filter (fun t => p t.kind)).length

/-- A write of a notice entry. -/
def TransferKind.isNoticeEntry : TransferKind → Bool
  | .noticeEntry _ => true
  | _ => false

/-- A write of the notices-written count. -/
def TransferKind.isNoticeCount : TransferKind → Bool
  | .noticeCount _ => true
  | _ => false

/-- A read of the consumed count. -/
def TransferKind.isConsumedRead : TransferKind → Bool
  | .consumedRead => true
  | _ => false

/-- R166, R167: the engine never writes past the entries the host has consumed: the notices-written count is at most 1024 above the
cached consumed count, and below that while a notice write is begun. One write at most of the front notice is out, and the
consumed count is read only while no notice write is begun and the list is full; R169, R170: only in STILL and FAULTED is the retry
list not empty. -/
def State.noticeRoomKept (s : State) : Bool :=
  decide ((s.xi.written - s.xi.cached).toNat ≤ Config.noticeListSize)
    && (decide (s.xi.noticeStage = .notBegun) || decide (0 < s.room))
    && decide (s.countTransfers TransferKind.isNoticeEntry ≤ if s.xi.noticeStage = .first then 1 else 0)
    && decide (s.countTransfers TransferKind.isNoticeCount ≤ if s.xi.noticeStage = .second then 1 else 0)
    && decide (s.countTransfers TransferKind.isConsumedRead ≤ if s.xi.noticeStage = .notBegun ∧ s.room = 0 then 1 else 0)
    && (s.xi.retry.isEmpty || decide (s.xi.engine = .still ∨ s.xi.engine = .faulted))

/-- Table 1-1: the ranges of a parameter set. -/
def Params.inRange (p : Params) : Bool :=
  decide (p.rank ≤ 255 ∧ 1 ≤ p.features.length ∧ p.features.length ≤ 8 ∧ p.features.Nodup ∧ p.capacity ≤ 65535
    ∧ p.reserve ≤ p.capacity ∧ p.seatCap ≤ 4096 ∧ p.baseCost ≤ 4095 ∧ p.unitCost ≤ 1023 ∧ p.includedUnits ≤ 1024
    ∧ 1 ≤ p.periodMin ∧ p.periodMin ≤ p.periodDefault ∧ p.periodDefault ≤ p.periodMax ∧ p.periodMax ≤ 65535 ∧ p.linger ≤ 255)
  && p.features.all (fun f => decide (1 ≤ f ∧ f ≤ 65535))

/-- R139: the staged pool image is in range. -/
def InstallUnit.stagedInRange : InstallUnit → Bool
  | .committing _ staged _ _ => staged.all (fun e => e.2.all (fun p => p.params.inRange))
  | .reading _ => true
  | .idle => true

/-- R11, R139: every parameter set committed or staged lies within the ranges of Table 1-1. -/
def State.paramsInRange (s : State) : Bool :=
  s.et.pools.all (fun e => e.2.params.all Params.inRange) && s.install.stagedInRange

/-- The pools a DRAW decision names. -/
def DrawStage.pools : DrawStage → List Nat
  | .clock => []
  | .lookup => []
  | .qualify found => found.map FoundRecord.pool
  | .reviving _ _ => []
  | .tableFull => []
  | .gather => []
  | .divide cs => cs.map Candidate.pool
  | .trial left tried => left ++ tried.map TrialRecord.pool
  | .granting p _ _ left tried => p :: (left ++ tried.map TrialRecord.pool)

/-- The pools the cell being decided names. -/
def Decision.pools : Decision → List Nat
  | .draw d => d.stage.pools
  | .withdraw _ _ => []
  | .inspect _ p => [p]
  | .clearFloor _ => []

/-- R1: every pool number a block holds is below 512. -/
def State.poolsBelow (s : State) : Bool :=
  (s.lt.leases.map (fun e => e.2.pool) ++ (s.decision.map Decision.pools).getD [] ++ s.wu.queues.map Prod.fst ++ s.wu.due
    ++ s.wu.stall ++ s.wu.parkInbox.map ParkingEvent.home ++ (s.wu.exam.map Examination.pool).toList
    ++ s.wu.commitReports.flatMap (fun r => r.kept ++ r.leaving)).all (fun p => decide (p < Config.numPools))

/-- R81, R67: the cell is in the wait queue of pool `p` and of no other. -/
def State.WaitsOn (s : State) (cell p : Nat) : Prop :=
  ∀ q, (∃ w ∈ s.queue q, w.cell = cell) ↔ q = p

/-- R81: what a WITHDRAW taken by the Wait Unit makes of its target: removed and answered WITHDRAWN before the WITHDRAW is answered OK,
or NOT_WAITING when the target is in no queue. -/
def WithdrawTaken (s t : State) (c target : Nat) : Prop :=
  (∀ p, s.WaitsOn target p →
      Answered s t [(target, plainAnswer .withdrawn (poolField p)), (c, plainAnswer .ok (poolField p))] ∧
        t.queue p = (s.queue p).filter (fun w => decide (w.cell ≠ target)) ∧ (∀ q, q ≠ p → t.queue q = s.queue q) ∧
        DueJoined s t (fun q => q = p ∧ ∃ w, (s.queue p).head? = some w ∧ w.cell = target) ∧
        { t.wu with due := s.wu.due, queues := s.wu.queues } = s.wu) ∧
    ((∀ q, ∀ w ∈ s.queue q, w.cell ≠ target) →
      Answered s t [(c, plainAnswer .notWaiting Config.noPool)] ∧ t.wu = s.wu)

/-- R21, Table 1-9: what an INSPECT_POOL answer reports of a pool. -/
def inspectReport (s : State) (p : Nat) : AnswerBody :=
  if (s.pool p).st = .absent then .inspect .absent false .noValue 0 0 0 0 0 0 0
  else .inspect (s.pool p).st ((s.activeMask p).getLsbD s.su.slot)
    (if (s.params p).validTo.toNat < s.su.frame.toNat then .ended
      else if s.su.frame.toNat < (s.params p).validFrom.toNat then .notYet else .current)
    (s.params p).capacity (s.params p).reserve (s.pool p).inUse (s.pool p).reserveInUse (s.pool p).leaseCount
    (s.params p).seatCap (s.queue p).length

/-- R20, R84, R109, R18: what a CLEAR_FLOOR of cell `c` does at the Wait Unit, the Lease Table, the Entitlement Table and the Schedule Unit,
and its answers. -/
def FloorCleared (s t : State) (c : Nat) : Prop :=
  ∃ (waiters : List (Nat × Waiter)) (freed : List Nat) (held : List (Nat × Lease)),
    waiters = s.wu.queues.flatMap (fun q => q.2.map (fun w => (q.1, w))) ∧
    (∀ i, i ∈ freed ↔ i < 4096 ∧ ((s.lease i).st = .held ∨ (s.lease i).st = .lingering ∨
      (s.lease i).st = .lapsed ∧ ¬ ∃ g p ns, s.xi.notices = .lapse i g p :: ns ∧ s.xi.noticeStage ≠ .notBegun)) ∧ freed.Nodup ∧
    (∀ i ∈ freed, t.lease i = { s.lease i with st := .free, generation := (s.lease i).generation + 1 }) ∧
    (∀ i, i ∉ freed → t.lease i = s.lease i) ∧
    (∀ e, e ∈ held ↔ e ∈ s.records ∧ (e.2.st = .held ∨ e.2.st = .lingering)) ∧ held.Nodup ∧
    FreeTaken s t (held.map Prod.snd) ∧
    (∀ p, t.queue p = []) ∧ t.wu.stall = [] ∧ (∀ p, p ∈ t.wu.due ↔ ∃ e ∈ held, e.2.pool = p) ∧
    { t.wu with queues := s.wu.queues, stall := s.wu.stall, due := s.wu.due } = s.wu ∧
    t.xi.notices = (if s.xi.noticeStage = .notBegun then s.xi.notices.filter (fun n => !n.isLapse)
      else s.xi.notices.take 1 ++ (s.xi.notices.drop 1).filter (fun n => !n.isLapse)) ∧
    { t.xi with
      readAhead := s.xi.readAhead, writeList := s.xi.writeList, cells := s.xi.cells, notices := s.xi.notices } = s.xi ∧
    Answered s t (waiters.map (fun e => (e.2.cell, plainAnswer .cleared (BitVec.ofNat 16 e.1))) ++
      [(c, { result := .ok, detail := 0, pool := 0, body := .clearFloor freed.length waiters.length })])

/-! ### Bytes by offset and width (chapter 10) -/

/-- A field of a table of chapter 10: its offset, its width in bytes, and the number it holds. -/
abbrev LaidField := Nat × Nat × Nat

/-- R172: `width` bytes from `off` on hold the number, the least significant byte at the lowest offset. -/
def FieldHolds (bytes : List Byte) (off width value : Nat) : Prop :=
  ∀ k, k < width → bytes[off + k]? = some (BitVec.ofNat 8 (value / 256 ^ k))

/-- R172: bytes that start at offset `start` of a structure are `len` in number, hold each field at its offset and width, and are 0 wherever
no field lies. -/
def LaidOut (bytes : List Byte) (start len : Nat) (fields : List LaidField) : Prop :=
  bytes.length = len ∧ (∀ f ∈ fields, FieldHolds bytes (f.1 - start) f.2.1 f.2.2) ∧
    ∀ off, off < len → (∀ f ∈ fields, start + off < f.1 ∨ f.1 + f.2.1 ≤ start + off) → bytes[off]? = some 0

/-- R172: the number in `n` bytes from `off` on has its least significant byte at the lowest offset; a byte that is not there reads 0 (log
entry 32). -/
def LittleEndianRead : Prop :=
  ∀ (bytes : List Byte) (off n : Nat), byteAt bytes off = bytes.getD off 0 ∧
    readLE bytes off n = ((List.range n).map (fun k => (bytes.getD (off + k) 0).toNat * 256 ^ k)).sum

/-- R172, R135: the number in `n` bytes of an image from `off` on has its most significant byte at the lowest offset. -/
def BigEndianRead : Prop :=
  ∀ (bytes : List Byte) (off n : Nat), byteAt bytes off = bytes.getD off 0 ∧
    readBE bytes off n = ((List.range n).map (fun k => (bytes.getD (off + k) 0).toNat * 256 ^ (n - 1 - k))).sum

/-- Table 10-4: the fields of an answer body, at their offsets of the cell. -/
def answerFields : AnswerBody → List LaidField
  | .zero => []
  | .lease index generation charge period =>
    [(0x2C, 2, index), (0x2E, 2, generation.toNat), (0x30, 2, charge), (0x32, 2, period)]
  | .returnMatching records => [(0x34, 2, records)]
  | .clearFloor records waiters => [(0x34, 2, records), (0x36, 2, waiters)]
  | .inspect st windowOpen validity capacity reserve inUse reserveInUse leaseCount seatCap waiters =>
    [(0x2C, 1, st.code), (0x2D, 1, if windowOpen then 1 else 0), (0x2E, 1, validity.code), (0x30, 2, capacity), (0x32, 2, reserve),
      (0x34, 2, inUse), (0x36, 2, reserveInUse), (0x38, 2, leaseCount), (0x3A, 2, seatCap), (0x3C, 2, waiters)]
  | .install created kept retiring removed floor =>
    [(0x34, 2, created), (0x36, 2, kept), (0x38, 2, retiring), (0x3A, 2, removed), (0x3C, 4, floor.toNat)]
  | .imageOld sequence floor => [(0x34, 4, sequence.toNat), (0x3C, 4, floor.toNat)]
  | .clock frame slot seconds => [(0x36, 4, frame.toNat), (0x3A, 1, slot), (0x3C, 2, seconds)]
  | .tune leaseSel hkSel graceCount interval => [(0x36, 1, leaseSel), (0x37, 1, hkSel), (0x38, 2, graceCount), (0x3A, 1, interval)]

/-- Table 10-8: the fields of a notice entry. -/
def noticeFields (pages : Word) : Notice → List LaidField
  | .answer cell result pool => [(0x00, 1, 1), (0x01, 1, result.code), (0x02, 2, cell), (0x06, 2, pool.toNat)]
  | .lapse index generation pool => [(0x00, 1, 2), (0x02, 2, index), (0x04, 2, generation.toNat), (0x06, 2, pool)]
  | .meter => [(0x00, 1, 3), (0x06, 2, 0xFFFF), (0x08, 4, pages.toNat)]

/-- Table 10-9: the fields of the meter page header. -/
def pageHeaderFields (snap : PageSnapshot) : List LaidField :=
  [(0x00, 1, snap.covered), (0x04, 4, snap.frame.toNat), (0x08, 1, snap.slot), (0x0C, 4, snap.pages.toNat)]

/-- Table 10-10: the fields of the meter page record of pool meters and occupancy. -/
def pageRecordFields (m : Meters) (o : Occupancy) : List LaidField :=
  [(0x00, 4, m.tokenTicks), (0x04, 4, m.grants), (0x08, 2, m.refusals), (0x0A, 2, m.waitExpiries), (0x0C, 2, m.lapses),
    (0x0E, 2, m.peak), (0x10, 2, o.inUse), (0x12, 2, o.leaseCount), (0x14, 1, o.st.code),
    (0x15, 1, (if m.satTokenTicks then 1 else 0) + (if m.satGrants then 2 else 0) + (if m.satRefusals then 4 else 0)
      + (if m.satWaitExpiries then 8 else 0) + (if m.satLapses then 16 else 0) + (if m.satPeak then 32 else 0))]

/-! ### What resumes when DMA resumes (R170, R164, R166, R155, R134, R146, log entry 12) -/

/-- A transfer that waits to be issued, without its tag. -/
def owed (kind : TransferKind) (addr : HostAddr) (len : Nat) (bytes : List Byte) : Transfer := ⟨0, kind, addr, len, bytes⟩

/-- R164: the status-byte write that waited for DMA. -/
def State.owedStatus (s : State) : List Transfer :=
  match s.xi.writeStage, s.xi.writeList with
  | .firstDone, .final c _ :: _ => [owed (.statusByte c) (s.xi.base + BitVec.ofNat 64 (0xA000 + 64 * c)) 0 [2]]
  | .firstDone, .parked c _ :: _ => [owed (.statusByte c) (s.xi.base + BitVec.ofNat 64 (0xA000 + 64 * c)) 0 [1]]
  | _, _ => []

/-- R166: the notices-written count write that waited for DMA. -/
def State.owedCount (s : State) : List Transfer :=
  match s.xi.noticeStage, s.xi.notices with
  | .firstDone, n :: _ => [owed (.noticeCount n.faultIndex) s.xi.base 0 (bytesLE 4 (s.xi.written + 1).toNat)]
  | _, _ => []

/-- R155: the part of the meter page that waited for DMA: the header, a record, or the owner word as 1. -/
def State.owedPage (s : State) : List Transfer :=
  match s.mu.page with
  | .writing snap 0 false => [owed .pageWrite (s.xi.base + 0x5000) 0 snap.headerBytes]
  | .writing snap (p + 1) false =>
    if p < 512 then [owed .pageWrite (s.xi.base + BitVec.ofNat 64 (0x5040 + 32 * p)) 0 (snap.recordBytes p)]
    else [owed .ownerWrite (s.xi.base + 8) 0 [1, 0, 0, 0]]
  | _ => []

/-- R134, R146: the image read that waited for DMA: from the first byte after a fault, else from the progress reached. -/
def State.owedImage (s : State) : List Transfer :=
  match s.install with
  | .reading im =>
    if im.restart = true then [owed (.imageRead im.cell) im.addr 128 []]
    else if im.readTag = none then
      [owed (.imageRead im.cell) (im.addr + BitVec.ofNat 64 im.bytes.length)
        (if im.bytes.length < 128 then 128 - im.bytes.length else im.len - im.bytes.length) []]
    else []
  | _ => []

/-- R146, R134: the install once its image read has been issued under a tag: after a fault at progress 0, with no byte held and the CRC
register at its start value. -/
def State.installResumed (s : State) (tag : Nat) : InstallUnit :=
  match s.install with
  | .reading im =>
    if im.restart = true then .reading { im with bytes := [], crc := 0xFFFFFFFF, readTag := some tag, restart := false }
    else if im.readTag = none then .reading { im with readTag := some tag }
    else s.install
  | _ => s.install

/-- R170, R117: leaving STILL or FAULTED for a state that permits DMA: the retry list is issued in its order, each transfer in full, then the
writes and reads that waited, in the order of log entry 12; out of STILL the grace hold is loaded. -/
def Resumed (s t : State) (target : EngineState) : Prop :=
  ∀ ahead issued : List Transfer, ahead = s.xi.retry ++ s.owedStatus ++ s.owedCount ++ s.owedPage → issued = ahead ++ s.owedImage →
    t = { s with
      nextTag := s.nextTag + issued.length
      xi := { s.xi with
        engine := target
        retry := []
        inFlight := s.xi.inFlight ++ issued.mapIdx (fun i x => { x with tag := s.nextTag + i })
        writeStage := if s.owedStatus = [] then s.xi.writeStage else .second
        noticeStage := if s.owedCount = [] then s.xi.noticeStage else .second }
      tb := { s.tb with
        graceHold :=
          if s.xi.engine = .faulted then s.tb.graceHold else if s.tb.graceCount = 0 then none else some s.tb.graceCount }
      install := s.installResumed (s.nextTag + ahead.length)
      mu := { s.mu with
        page := match s.mu.page with
          | .writing snap part _ => if s.owedPage = [] then s.mu.page else .writing snap part true
          | _ => s.mu.page } }

/-- R16: how many HELD and LINGERING records a pool has. -/
def leaseTally (leases : Table Lease) (p : Nat) : Nat := (leases.filter (fun e => e.2.holds && decide (e.2.pool = p))).length

/-- R16: the Pool Counters are the sums of chapter 1 over the lease records, and an ABSENT pool holds nothing (R12). -/
def State.accounted (s : State) : Prop :=
  ∀ p,
    (s.pool p).inUse = chargeSum s.lt.leases (fun l => decide (l.pool = p)) ∧
      (s.pool p).reserveInUse = reserveSum s.lt.leases p ∧ (s.pool p).leaseCount = leaseTally s.lt.leases p ∧
        ((s.pool p).st = .absent → s.pool p = Pool.atReset)

/-- R16 with what keeps it: canonical tables and pool numbers in range. -/
def State.ledgerOk (s : State) : Prop := s.canonical = true ∧ s.poolsBelow = true ∧ s.accounted

/-! ### Where a cell stands, and what the Notice Queue holds (R65, R68, R161, R165) -/

/-- R46: the cell of a decision in hand. -/
def Decision.cell : Decision → Nat
  | .draw d => d.cell
  | .withdraw cell _ => cell
  | .inspect cell _ => cell
  | .clearFloor cell => cell

/-- R131: the cell of the install in flight. -/
def InstallUnit.cells : InstallUnit → List Nat
  | .idle => []
  | .reading im => [im.cell]
  | .committing im _ _ _ => [im.cell]

/-- R164: the cell an entry of the write list answers; a PARKED mark answers none. -/
def WriteEntry.answers : WriteEntry → Option Nat
  | .final c _ => some c
  | .parked _ _ => none

/-- R165: the cell an ANSWER notice names. -/
def Notice.answers : Notice → Option Nat
  | .answer c _ _ => some c
  | .lapse _ _ _ => none
  | .meter => none

/-- R165: the lease record a LAPSE notice names. -/
def Notice.lapses : Notice → Option Nat
  | .lapse i _ _ => some i
  | .answer _ _ _ => none
  | .meter => none

/-- The cell a fetch brings. -/
def TransferKind.fetches : TransferKind → Option Nat
  | .fetch c => some c
  | _ => none

/-- R162, R70: the cells taken from their slots and not yet decided or parked: of the decision in hand, and of the parking events handed. -/
def State.takenCells (s : State) : List Nat :=
  (s.decision.map Decision.cell).toList ++ s.wu.parkInbox.map (fun e => e.waiter.cell)

/-- R65: the cells of the wait queues, an entry at a time. -/
def State.waitingCells (s : State) : List Nat := s.wu.queues.flatMap (fun q => q.2.map Waiter.cell)

/-- R161: every place of a cell outside IDLE and PENDING: a slot, the decision or a parking event, the Install Unit, a wait queue, the write
list, the Notice Queue. -/
def State.cellPlaces (s : State) : List Nat :=
  s.xi.readAhead ++ s.takenCells ++ s.install.cells ++ s.waitingCells ++ s.xi.writeList.filterMap WriteEntry.answers
    ++ s.xi.notices.filterMap Notice.answers

/-- The cells whose fetch is in flight or to be retried. -/
def State.fetchedCells (s : State) : List Nat := (s.xi.inFlight ++ s.xi.retry).filterMap (fun t => t.kind.fetches)

/-- R161: all these cells are in one of these states. -/
def State.cellsAre (s : State) (cells : List Nat) (sts : List CellState) : Bool := cells.all (fun c => decide ((s.cell c).st ∈ sts))

/-- R65, R68, R161, R162, R164: each cell outside IDLE and PENDING stands in exactly one place, the one its cell state names, and a fetch is
out for FETCHING cells only. -/
def State.cellsPlaced (s : State) : Bool :=
  s.xi.cells.all (fun e => decide (e.1 < 1024)) && decide s.cellPlaces.Nodup
    && s.cellsAre s.xi.readAhead [.fetching, .ready] && s.cellsAre s.takenCells [.ready] && s.cellsAre s.install.cells [.working]
    && s.cellsAre s.waitingCells [.waiting] && s.cellsAre (s.xi.writeList.filterMap WriteEntry.answers) [.answering]
    && s.cellsAre (s.xi.notices.filterMap Notice.answers) [.notifying]
    && s.xi.cells.all (fun e => decide (e.2.st = .idle ∨ e.2.st = .pending ∨ e.1 ∈ s.cellPlaces))
    && decide s.fetchedCells.Nodup && s.cellsAre s.fetchedCells [.fetching]

/-- R165, R93, R156: a LAPSE notice names a LAPSED record, each record once, and behind the entry whose write has begun there is at most one
METER entry. -/
def State.noticesBounded (s : State) : Bool :=
  decide (s.xi.notices.filterMap Notice.lapses).Nodup
    && (s.xi.notices.filterMap Notice.lapses).all (fun i => decide ((s.lease i).st = .lapsed))
    && decide ((s.xi.notices.drop (if s.xi.noticeStage = .notBegun then 0 else 1)).count .meter ≤ 1)

/-- R65, R68, R161, R165: the places of the cells and the bounds of the Notice Queue, in a state whose tables are canonical. -/
def State.placesKept (s : State) : Bool := s.canonical && s.cellsPlaced && s.noticesBounded

/-! ### The Evaluator's rows -/

/-- R162, R163: the rows that take a cell. -/
def isRequest : Instr → Bool
  | .draw _ => true
  | .renew => true
  | .returnLease => true
  | .returnMatching => true
  | .withdraw => true
  | .inspectPool => true
  | .install => true
  | .setClock => true
  | .tune => true
  | .clearFloor => true
  | .unknownRequestKind => true
  | _ => false

/-- Log entries 5 and 20: the row goes on with this decision in hand. -/
def Decision.goesOn : Decision → Instr → Bool
  | .draw _, .draw _ => true
  | .withdraw _ _, .withdraw => true
  | .inspect _ _, .inspectPool => true
  | .clearFloor _, .clearFloor => true
  | _, _ => false

/-- R162: at most eight read-ahead slots are occupied. -/
def State.readAheadKept (s : State) : Bool := decide (s.xi.readAhead.length ≤ Config.readAheadSlots)

end Sys2Proof.Machine
end

