-- ==== Sys2Proof/Certificates/Slice0/Obligations.lean ====
section
/-! DEFINITION. The statements for the provers. Each docstring names the rule or section of spec/ it formalises; where a clause rests
on a choice of the model, it names the log entry. -/

open Sys2Proof Sys2Proof.Machine

/-! ### The machine -/

/-- The command at the front of the queue is the one a step runs, with the rest left waiting (the form of the model, asked of a
block that takes commands). -/
def Obligations.StepTakesFrontCommand : Prop :=
  ∀ (c : Instr) (rest : List Instr) (s : State), s.pending = c :: rest → step s = exec c { s with pending := rest }

/-- A command neither reads nor changes the queue of waiting commands. -/
def Obligations.ExecIgnoresQueue : Prop :=
  ∀ (c : Instr) (s t : State), exec c s = .next t →
    t.pending = s.pending ∧ ∀ l : List Instr, exec c { s with pending := l } = .next { t with pending := l }

/-- R112, R113, R114, with the idle step taken as a reference cycle (log entry 2): in STILL time stands; otherwise the divider counts to
25,000, and at a base tick each stream's count rises, or starts again from 0 with the selection standing read for the next interval,
whose length is the period of Table 6-1 or 6-2, the eight of each stated.

R112, R113, R114: the ticks that are due at a base tick take effect. With none due only the counts have risen; with one due the step is
what the tick's command makes of that state: SECOND, LEASE_TICK and then TOKEN_TICKS, or HOUSEKEEPING_TICK; and of several due, that
order is the model's (log entry 2). -/
def Obligations.IdleStepIsReferenceCycle : Prop :=
  (∀ k n, (k, n) ∈ [(0, 100), (1, 200), (2, 500), (3, 1000), (4, 2000), (5, 5000), (6, 10000), (7, 30000)] → leasePeriod k = n) ∧
  (∀ k n, (k, n) ∈ [(0, 10), (1, 20), (2, 50), (3, 100), (4, 200), (5, 500), (6, 1000), (7, 2000)] → hkPeriod k = n) ∧
  ∀ s : State, s.pending = [] →
    (s.xi.engine = .still → step s = .next s) ∧
    (s.xi.engine ≠ .still → s.tb.divider + 1 < 25000 →
      step s = .next { s with tb := { s.tb with divider := s.tb.divider + 1 } }) ∧
    (s.xi.engine ≠ .still → 25000 ≤ s.tb.divider + 1 →
      ∃ t, step s = .next t ∧ t.xi.engine = s.xi.engine ∧ t.tb.divider = 0 ∧
        t.tb.secCount = (if 1000 ≤ s.tb.secCount + 1 then 0 else s.tb.secCount + 1) ∧
        t.tb.leaseCount = (if s.tb.leaseInterval ≤ s.tb.leaseCount + 1 then 0 else s.tb.leaseCount + 1) ∧
        t.tb.leaseInterval = (if s.tb.leaseInterval ≤ s.tb.leaseCount + 1 then leasePeriod s.tb.leaseSel else s.tb.leaseInterval) ∧
        t.tb.hkCount = (if s.tb.hkInterval ≤ s.tb.hkCount + 1 then 0 else s.tb.hkCount + 1) ∧
        t.tb.hkInterval = (if s.tb.hkInterval ≤ s.tb.hkCount + 1 then hkPeriod s.tb.hkSel else s.tb.hkInterval) ∧
        t.tb.leaseSel = s.tb.leaseSel ∧ t.tb.hkSel = s.tb.hkSel ∧ t.tb.graceCount = s.tb.graceCount ∧
        ∀ counted : State, counted = { s with tb := { s.tb with
            divider := 0, secCount := s.tb.secCount + 1, leaseCount := s.tb.leaseCount + 1, hkCount := s.tb.hkCount + 1 } } →
          ∃ a b : State,
            (if 1000 ≤ s.tb.secCount + 1 then exec .second counted = .next a else a = counted) ∧
            (if s.tb.leaseInterval ≤ s.tb.leaseCount + 1 then
              ∃ aged : State, exec .leaseTick a = .next aged ∧ exec .tokenTicks aged = .next b
            else b = a) ∧
            (if s.tb.hkInterval ≤ s.tb.hkCount + 1 then exec .housekeepingTick b = .next t else t = b))

/-- R171: the three resets have the same effect, every block takes its reset values, and a completion, arrival or error of a
transfer abandoned at the reset is ignored. The waiting commands, the next tag and the MSI tally are the model's own (log entries
8 and 23). -/
def Obligations.ResetsLeaveResetValues : Prop :=
  ∀ (s : State) (v : Word), ∃ t : State,
    exec .powerOnReset s = .next t ∧ exec (.functionReset v) s = .next t ∧ exec .functionLevelReset s = .next t ∧
    t.xi.base = 0 ∧ t.xi.engine = .offline ∧ t.xi.baseInvalid = false ∧ (∀ c, t.cell c = Cell.atReset) ∧ t.postSet = [] ∧
    t.xi.servicePointer = 1023 ∧ t.xi.readAhead = [] ∧ t.xi.writeList = [] ∧ t.xi.notices = [] ∧ t.xi.retry = [] ∧
    t.xi.inFlight = [] ∧ t.xi.written = 0 ∧ t.xi.cached = 0 ∧ t.xi.causeNotice = false ∧ t.xi.causeFault = false ∧
    t.xi.intEnable = false ∧ t.xi.faultKind = .none ∧ t.xi.faultIndex = 0 ∧ t.xi.faultAddr = 0 ∧ t.decision = none ∧
    (∀ p, t.pool p = Pool.atReset) ∧ t.et.floor = 0 ∧ (∀ i, t.lease i = Lease.atReset) ∧ (∀ p, t.queue p = []) ∧
    t.wu = WaitUnit.atReset ∧ t.tb = TimeBase.atReset ∧ t.su = ScheduleUnit.atReset ∧ t.install = .idle ∧
    t.mu = MeterUnit.atReset ∧ t.pending = s.pending ∧ t.nextTag = s.nextTag ∧ t.msiSent = s.msiSent ∧
    t.readRegister .control = 0 ∧
    ∀ (tag : Nat) (bytes : List Byte) (c : Instr),
      c ∈ [.fetchArrival tag bytes, .answerWriteComplete tag, .poolFieldWriteComplete tag, .statusByteWriteComplete tag,
        .noticeEntryWriteComplete tag, .noticeWritten tag, .consumedReadArrival tag bytes, .imageReadArrival tag bytes,
        .ownerReadArrival tag bytes, .pageWriteComplete tag, .ownerWordWriteComplete tag, .dmaError tag] → exec c t = .next t

/-! ### Registers -/

/-- R158, Table 9-4: a write of EXBASE_LO or EXBASE_HI sets its half of the base in OFFLINE, the low 12 bits ignored, and changes
nothing else; in any other state the base stands, and only the re-read of R160 may follow.

R161: a POST of a number of 1024 or above is discarded; of an IDLE cell makes it PENDING; of a NOTIFYING cell sets its repost
mark; of any other cell is absorbed. Nothing else changes but for the re-read of R160. -/
def Obligations.BaseAndPostWrites : Prop :=
  (∀ (s : State) (v : Word),
     (s.xi.engine = .offline →
       (∃ b : HostAddr, exec (.exbaseLoWrite v) s = .next { s with xi := { s.xi with base := b } } ∧
         b.toNat = s.xi.base.toNat / 2 ^ 32 * 2 ^ 32 + v.toNat / 4096 * 4096) ∧
       (∃ b : HostAddr, exec (.exbaseHiWrite v) s = .next { s with xi := { s.xi with base := b } } ∧
         b.toNat = v.toNat * 2 ^ 32 + s.xi.base.toNat % 2 ^ 32)) ∧
     (s.xi.engine ≠ .offline →
       exec (.exbaseLoWrite v) s = .next s.rereadConsumed ∧ exec (.exbaseHiWrite v) s = .next s.rereadConsumed)) ∧
  (∀ (s : State) (v : Word),
     (1024 ≤ v.toNat → exec (.post v) s = .next s.rereadConsumed) ∧
     (v.toNat < 1024 → (s.cell v.toNat).st = .idle →
       ∃ u, exec (.post v) s = .next u.rereadConsumed ∧ OnlyCell s u v.toNat ∧
         u.cell v.toNat = { s.cell v.toNat with st := .pending }) ∧
     (v.toNat < 1024 → (s.cell v.toNat).st = .notifying →
       ∃ u, exec (.post v) s = .next u.rereadConsumed ∧ OnlyCell s u v.toNat ∧
         u.cell v.toNat = { s.cell v.toNat with repost := true }) ∧
     (v.toNat < 1024 → (s.cell v.toNat).st ≠ .idle → (s.cell v.toNat).st ≠ .notifying →
       exec (.post v) s = .next s.rereadConsumed))

/-- R159 Table 9-2, R160, R117, R170: a request for RUN or HOLD. The enable is taken first. From OFFLINE it is taken when the base is
nonzero and refused with base invalid set otherwise; between RUN and HOLD only the state changes; out of STILL it sets the grace
hold; out of STILL or FAULTED it issues the retry list in order, each transfer in full, before any other transfer, and then every
stream resumes from where it stood: a status-byte, count or page write that waited for DMA is issued, and an install in READING goes on
reading, after a fault from the first byte with nothing held and the CRC register at its start (R146). The order of these behind the
retry list is the model's choice (log entry 12), and so is that a retried transfer carries the bytes it first carried, the pages-written
count of a METER notice among them (log entry 13).

R159 Table 9-2, R170: a request for STILL is taken in RUN, HOLD and FAULTED, where the retry list is kept and the grace hold
stands (R117), and in OFFLINE with a nonzero base; in STILL nothing but the enable changes. -/
def Obligations.EngineStateRequests : Prop :=
  (∀ (s : State) (v : Word) (hold : Bool),
     ∀ c, c = (if hold then Instr.requestHold v else Instr.requestRun v) →
     ∀ target, target = (if hold then EngineState.hold else EngineState.run) →
     ∀ u, u = s.takeEnable (controlEnable v) →
     (s.xi.engine = .offline → s.xi.base ≠ 0 →
       exec c s = .next (State.rereadConsumed { u with xi := { u.xi with engine := target, baseInvalid := false } })) ∧
     (s.xi.engine = .offline → s.xi.base = 0 → exec c s = .next { u with xi := { u.xi with baseInvalid := true } }) ∧
     (s.xi.engine = .run ∨ s.xi.engine = .hold →
       exec c s = .next (State.rereadConsumed { u with xi := { u.xi with engine := target } })) ∧
     (s.xi.engine = .still ∨ s.xi.engine = .faulted →
       u.xi.intEnable = controlEnable v ∧ ∃ t, exec c s = .next t.rereadConsumed ∧ Resumed u t target)) ∧
  (∀ (s : State) (v : Word), ∀ u, u = s.takeEnable (controlEnable v) →
     (s.xi.engine = .offline → s.xi.base ≠ 0 →
       exec (.requestStill v) s = .next { u with xi := { u.xi with engine := .still, baseInvalid := false } }) ∧
     (s.xi.engine = .offline → s.xi.base = 0 →
       exec (.requestStill v) s = .next { u with xi := { u.xi with baseInvalid := true } }) ∧
     (s.xi.engine ≠ .offline → exec (.requestStill v) s = .next { u with xi := { u.xi with engine := .still } }))

/-- R168, R160: INTERRUPT_ENABLE takes the enable, with one MSI when it goes from 0 to 1 while a cause bit is 1; CAUSE_WRITE clears
each bit written as 1; a write to STATUS or FAULT_INFO is ignored. Each may be followed by the re-read of R160.

R160, R167: what a register write re-reads. With a notice waiting at the front, no notice write begun, room 0, DMA permitted and
no such read in flight, one 4-byte read of the consumed count is issued; otherwise nothing happens. -/
def Obligations.OtherRegisterWrites : Prop :=
  (∀ (s : State) (v : Word) (reg : ReadOnlyReg),
     exec (.interruptEnable v) s = .next (State.rereadConsumed
       { s with
         msiSent := s.msiSent +
           (if v.getLsbD 4 = true ∧ s.xi.intEnable = false ∧ (s.xi.causeNotice = true ∨ s.xi.causeFault = true) then 1 else 0)
         xi := { s.xi with intEnable := v.getLsbD 4 } }) ∧
     exec (.causeWrite v) s = .next (State.rereadConsumed
       { s with
         xi := { s.xi with
           causeNotice := if v.getLsbD 0 then false else s.xi.causeNotice
           causeFault := if v.getLsbD 1 then false else s.xi.causeFault } }) ∧
     exec (.registerWriteIgnored reg v) s = .next s.rereadConsumed) ∧
  (∀ (s : State) (reg : ReadOnlyReg) (v : Word),
     (s.xi.notices ≠ [] → s.xi.noticeStage = .notBegun → 1024 ≤ (s.xi.written - s.xi.cached).toNat →
       (s.xi.engine = .run ∨ s.xi.engine = .hold) → (∀ x ∈ s.xi.inFlight, x.kind ≠ .consumedRead) →
       exec (.registerWriteIgnored reg v) s = .next { s with
         nextTag := s.nextTag + 1
         xi := { s.xi with
           inFlight := s.xi.inFlight ++
             [⟨s.nextTag, .consumedRead, s.xi.base + 4, 4, []⟩] } }) ∧
     (s.xi.notices = [] ∨ s.xi.noticeStage ≠ .notBegun ∨ (s.xi.written - s.xi.cached).toNat < 1024 ∨
         (s.xi.engine ≠ .run ∧ s.xi.engine ≠ .hold) ∨ (∃ x ∈ s.xi.inFlight, x.kind = .consumedRead) →
       exec (.registerWriteIgnored reg v) s = .next s))

/-- Table 10-14, Table 10-6, Table 9-4, R173: what the seven registers read as, at their offsets of the window; bits that Table 10-14 does not name read
as 0, and no register stands at any other offset (the read is the model's function of the state, log entry 28). -/
def Obligations.RegisterReads : Prop :=
  ∀ s : State,
    ((s.readRegister .exbaseHi).toNat * 2 ^ 32 + (s.readRegister .exbaseLo).toNat = s.xi.base.toNat) ∧
    (s.canonical = true → s.xi.cells.all (fun e => decide (e.1 < 1024)) = true →
      (s.readRegister .post).toNat = ((List.range 1024).filter (fun c => decide ((s.cell c).st = .pending))).length) ∧
    (∀ i, (s.readRegister .control).getLsbD i = (decide (i = 4) && s.xi.intEnable)) ∧
    ((s.readRegister .status).toNat % 8 = s.xi.engine.code ∧ (s.readRegister .status).getLsbD 3 = false ∧
      (s.readRegister .status).getLsbD 4 = s.su.clockSet ∧ (s.readRegister .status).getLsbD 5 = s.install.busy ∧
      (s.readRegister .status).getLsbD 6 = s.xi.baseInvalid ∧ (s.readRegister .status).getLsbD 7 = false ∧ (s.readRegister .status).toNat / 256 = s.xi.faultKind.code) ∧
    ((s.readRegister .cause).getLsbD 0 = s.xi.causeNotice ∧ (s.readRegister .cause).getLsbD 1 = s.xi.causeFault ∧
      (s.readRegister .cause).toNat < 4) ∧
    (s.xi.faultIndex < 4096 →
      (s.readRegister .faultInfo).toNat % 2 ^ 20 = s.xi.faultAddr.toNat ∧
        (s.readRegister .faultInfo).toNat / 2 ^ 20 = s.xi.faultIndex) ∧
    (s.readWindow 0x00 = some (s.readRegister .exbaseLo) ∧ s.readWindow 0x04 = some (s.readRegister .exbaseHi) ∧
      s.readWindow 0x08 = some (s.readRegister .post) ∧ s.readWindow 0x0C = some (s.readRegister .control) ∧
      s.readWindow 0x10 = some (s.readRegister .status) ∧ s.readWindow 0x14 = some (s.readRegister .cause) ∧
      s.readWindow 0x18 = some (s.readRegister .faultInfo)) ∧
    (∀ off, off ∉ [0x00, 0x04, 0x08, 0x0C, 0x10, 0x14, 0x18] → s.readWindow off = none) ∧
    (∀ e k, (e, k) ∈ [(EngineState.offline, 0), (.run, 1), (.hold, 2), (.still, 3), (.faulted, 4)] → EngineState.code e = k) ∧
    ∀ f k, (f, k) ∈ [(FaultKind.none, 0), (.fetch, 1), (.answer, 2), (.notice, 3), (.consumed, 4), (.image, 5), (.meter, 6)] →
      FaultKind.code f = k

/-- Table 10-14, R160: reading a register write off the window and writing it there agree, both ways. -/
def Obligations.RegisterWindowRoundTrip : Prop :=
  ∀ (c : Instr) (off : Nat) (v : Word),
    (c.wellFormed = true ∧ registerWriteOf c = some (off, v)) ↔ registerWriteCommand off v = some c

/-! ### Cells -/

/-- R162: CELL_PICK takes the PENDING cell of lowest number above the service pointer, or with none above it the lowest one; the cell
becomes FETCHING, takes a slot, sets the pointer, and its bytes 0 to 39 are read. Without a PENDING cell, a free slot or DMA there is
no pick.

R162: a fetch arrival makes the bytes the cell's copy and the cell READY, in every engine state; R171: an arrival that no fetch in
flight waits for is ignored.

R162: every step keeps at most eight read-ahead slots occupied.

R159 Table 9-3, R162, R46: the Evaluator takes no cell in OFFLINE, STILL and FAULTED, with no slot occupied, while the earliest-issued
cell is not READY whatever the later ones are, or while a decision is in hand, with which only its own row goes on (log entry 5). -/
def Obligations.CellsPickedAndFetched : Prop :=
  (∀ s : State, s.canonical = true →
     (∀ c, (s.cell c).st = .pending →
       (∀ c', (s.cell c').st = .pending →
         if s.xi.servicePointer < c then s.xi.servicePointer < c' → c ≤ c' else c' ≤ s.xi.servicePointer ∧ c ≤ c') →
       s.xi.readAhead.length < 8 → (s.xi.engine = .run ∨ s.xi.engine = .hold) →
       ∃ t, exec .cellPick s = .next t ∧ t.cell c = { s.cell c with st := .fetching } ∧
         (∀ c', c' ≠ c → t.cell c' = s.cell c') ∧
         t = { s with
           nextTag := s.nextTag + 1
           xi := { s.xi with
             cells := t.xi.cells
             servicePointer := c
             readAhead := s.xi.readAhead ++ [c]
             inFlight := s.xi.inFlight ++ [⟨s.nextTag, .fetch c, s.xi.base + BitVec.ofNat 64 (0xA000 + 64 * c), 40, []⟩] } }) ∧
     ((∀ c, (s.cell c).st ≠ .pending) ∨ 8 ≤ s.xi.readAhead.length ∨ (s.xi.engine ≠ .run ∧ s.xi.engine ≠ .hold) →
       exec .cellPick s = .next s)) ∧
  (∀ (s : State) (tag : Nat) (bytes : List Byte),
     (∀ x c, s.transfer tag = some x → x.kind = .fetch c → bytes.length = 40 →
       ∃ t, exec (.fetchArrival tag bytes) s = .next t ∧ t.cell c = { s.cell c with st := .ready, copy := bytes } ∧
         (∀ c', c' ≠ c → t.cell c' = s.cell c') ∧
         t = { s with xi := { s.xi with
           cells := t.xi.cells
           inFlight := s.xi.inFlight.filter (fun y => decide (y.tag ≠ tag)) } }) ∧
     ((∀ x ∈ s.xi.inFlight, x.tag ≠ tag) → exec (.fetchArrival tag bytes) s = .next s)) ∧
  (∀ s t : State, s.readAheadKept = true → step s = .next t → t.readAheadKept = true) ∧
  (∀ (s : State) (cmd : Instr), isRequest cmd = true →
     (s.decision = none →
       (s.xi.engine = .offline ∨ s.xi.engine = .still ∨ s.xi.engine = .faulted ∨ s.xi.readAhead = [] ∨
         ∃ first later, s.xi.readAhead = first :: later ∧ (s.cell first).st ≠ .ready) → exec cmd s = .next s) ∧
     (∀ d, s.decision = some d →
       ∃ t, exec cmd s = .next t ∧ t.xi.readAhead = s.xi.readAhead ∧ (Decision.goesOn d cmd = false → t = s)))

/-- R163: the malformation check. A kind of 0 or above 10 answers MALFORMED with detail 01h; for a known kind the first byte of 2 to 39
that holds a nonzero reserved byte or bit answers MALFORMED with its offset. Nothing else changes, and no meter is counted.

R173, Tables 10-1, 10-2 and 10-3: for each kind, the offsets of its fields, which are never judged, and of its flags byte, of which every
bit but bit 0 is; every other byte of 2 to 39 offends when it is not 0; and a request that passes the check has no offending byte. R172:
a cell is read little-endian. -/
def Obligations.MalformedAnswers : Prop :=
  (∀ (kind : Nat) (fields flags : List Nat),
    (kind, fields, flags) ∈ [
      (1, [4, 5, 6, 7, 8, 9, 10, 11, 12, 13, 16, 17, 18, 19], []),
      (2, [4, 5, 6, 7, 8, 9], []),
      (3, [4, 5, 6, 7], [8]),
      (4, [4, 5, 8, 9, 10, 11, 12, 13, 14, 15], [6]),
      (5, [4, 5], []),
      (6, [4, 5], []),
      (7, [8, 9, 10, 11, 12, 13, 14, 15, 16, 17, 18, 19], []),
      (8, [4, 5, 6, 7, 8, 10, 11], []),
      (9, [4, 5, 6, 7, 8], []),
      (10, [], [])] →
    ∀ (copy : List Byte) (off : Nat), 2 ≤ off → off < 40 →
      (reservedOffends kind copy off = true ↔
        off ∉ fields ∧ if off ∈ flags then copy.getD off 0 &&& 0xFE ≠ 0 else copy.getD off 0 ≠ 0)) ∧
  (∀ (kind : Nat) (copy : List Byte),
    firstReserved kind copy = none ↔ ∀ off, 2 ≤ off → off < 40 → reservedOffends kind copy off = false) ∧
  (∀ copy : List Byte, requestKind copy = (copy.getD 1 0).toNat) ∧ LittleEndianRead ∧
  ∀ (s : State) (c : Nat) (copy : List Byte) (rest : List Nat) (steps off : Nat), s.Serves c copy rest →
    ((requestKind copy = 0 ∨ 10 < requestKind copy) ∧ off = 1 ∨
      (1 ≤ requestKind copy ∧ requestKind copy ≤ 10) ∧ 2 ≤ off ∧ off < 40 ∧
        reservedOffends (requestKind copy) copy off = true ∧
        ∀ o, 2 ≤ o → o < off → reservedOffends (requestKind copy) copy o = false) →
    ∃ t, exec (requestCommand (requestKind copy) steps) s = .next t ∧ t = { s with xi := t.xi } ∧
      TakenAndAnswered s t c rest { result := .malformed, detail := off, pool := 0xFFFF, body := .zero }

/-- R164: with DMA permitted and no write begun, the head of the write list is begun: bytes 40 to 63 of the cell for a FINAL answer, the
pool field for a PARKED mark. One entry at a time: while a write of the list is begun, with no entry, or outside RUN and HOLD, nothing is
issued.

R164: when the first write of the head completes, the status byte follows, 2 for a FINAL answer and 1 for a PARKED mark; where DMA
is not permitted it waits (R159).

R164: when the status-byte write completes, the entry leaves the list. For a FINAL answer the cell becomes NOTIFYING and its ANSWER
notice joins the Notice Queue; for a PARKED mark no notice is queued and no cell changes.

R174, R172, Tables 10-1, 10-4, 10-5 and 10-6: the 24 bytes of an answer are its fields at their offsets and widths, and 0 elsewhere; the
two bytes of a PARKED mark are the pool number; and the codes of results, pool states and validities. -/
def Obligations.WriteListWritesCells : Prop :=
  (∀ (s : State) (rest : List WriteEntry) (c p : Nat) (a : Answer),
     (s.xi.engine = .run ∨ s.xi.engine = .hold) → s.xi.writeStage = .notBegun →
     (s.xi.writeList = .final c a :: rest →
       exec .writeListIssue s = .next { s with
         nextTag := s.nextTag + 1
         xi := { s.xi with
           writeStage := .first
           inFlight := s.xi.inFlight ++ [⟨s.nextTag, .answerArea c, s.xi.base + BitVec.ofNat 64 (0xA000 + 64 * c + 40), 0, a.bytes⟩] } }) ∧
     (s.xi.writeList = .parked c p :: rest →
       exec .writeListIssue s = .next { s with
         nextTag := s.nextTag + 1
         xi := { s.xi with
           writeStage := .first
           inFlight := s.xi.inFlight ++
             [⟨s.nextTag, .poolField c, s.xi.base + BitVec.ofNat 64 (0xA000 + 64 * c + 42), 0, bytesLE 2 p⟩] } })) ∧
  (∀ (s : State) (rest : List WriteEntry) (tag c p : Nat) (a : Answer) (x : Transfer), s.transfer tag = some x →
     ∀ (cmd : Instr) (status : Byte),
     (s.xi.writeList = .final c a :: rest ∧ x.kind = .answerArea c ∧ cmd = .answerWriteComplete tag ∧ status = 2 ∨
       s.xi.writeList = .parked c p :: rest ∧ x.kind = .poolField c ∧ cmd = .poolFieldWriteComplete tag ∧ status = 1) →
     ((s.xi.engine = .run ∨ s.xi.engine = .hold) →
       exec cmd s = .next { s with
         nextTag := s.nextTag + 1
         xi := { s.xi with
           writeStage := .second
           inFlight := s.xi.inFlight.filter (fun y => decide (y.tag ≠ tag)) ++
             [⟨s.nextTag, .statusByte c, s.xi.base + BitVec.ofNat 64 (0xA000 + 64 * c), 0, [status]⟩] } }) ∧
     (s.xi.engine ≠ .run → s.xi.engine ≠ .hold →
       exec cmd s = .next { s with
         xi := { s.xi with
           writeStage := .firstDone
           inFlight := s.xi.inFlight.filter (fun y => decide (y.tag ≠ tag)) } })) ∧
  (∀ (s : State) (rest : List WriteEntry) (tag c p : Nat) (a : Answer) (x : Transfer), s.transfer tag = some x →
     x.kind = .statusByte c →
     (s.xi.writeList = .final c a :: rest →
       ∃ t, exec (.statusByteWriteComplete tag) s = .next t ∧ t.cell c = { s.cell c with st := .notifying } ∧
         (∀ c', c' ≠ c → t.cell c' = s.cell c') ∧
         t = { s with xi := { s.xi with
           cells := t.xi.cells
           writeList := rest
           writeStage := .notBegun
           notices := s.xi.notices ++ [.answer c a.result a.pool]
           inFlight := s.xi.inFlight.filter (fun y => decide (y.tag ≠ tag)) } }) ∧
     (s.xi.writeList = .parked c p :: rest →
       exec (.statusByteWriteComplete tag) s = .next { s with xi := { s.xi with
         writeList := rest
         writeStage := .notBegun
         inFlight := s.xi.inFlight.filter (fun y => decide (y.tag ≠ tag)) } })) ∧
  (∀ a : Answer, LaidOut a.bytes 0x28 24
     ((0x28, 1, a.result.code) :: (0x29, 1, a.detail) :: (0x2A, 2, a.pool.toNat) :: answerFields a.body)) ∧
  (∀ p, LaidOut (bytesLE 2 p) 0x2A 2 [(0x2A, 2, p)]) ∧
  (∀ s : State, (s.xi.writeStage ≠ .notBegun ∨ s.xi.writeList = [] ∨ s.xi.engine ≠ .run ∧ s.xi.engine ≠ .hold) →
     exec .writeListIssue s = .next s) ∧
  (∀ r k, (r, k) ∈ [(Result.granted, 1), (.ok, 2), (.noEntitlement, 3), (.expired, 4), (.outOfWindow, 5), (.exhausted, 6),
     (.exceedsCapacity, 7), (.chargeLimit, 8), (.leaseTableFull, 9), (.clockUnset, 10), (.waitExpired, 11), (.withdrawn, 12),
     (.cleared, 13), (.staleHandle, 14), (.lapsed, 15), (.notWaiting, 16), (.malformed, 17), (.badField, 18), (.installBusy, 19),
     (.imageCorrupt, 20), (.imageOld, 21), (.clockBackward, 22), (.poolRetired, 23)] → Result.code r = k) ∧
  (∀ p k, (p, k) ∈ [(PoolState.absent, 0), (.active, 1), (.draining, 2), (.retiring, 3)] → PoolState.code p = k) ∧
  ∀ v k, (v, k) ∈ [(Validity.noValue, 0), (.current, 1), (.notYet, 2), (.ended, 3)] → Validity.code v = k

/-! ### Notices and faults -/

/-- R166, R175: with DMA, room and no notice write begun, the front notice is written at list position w mod 1024; when that write
completes, w + 1 is written into the control block. R159, R166: outside RUN and HOLD no entry write is begun, and one that completes leaves
the count write waiting until DMA is permitted.

One notice at a time: while a write is begun, or with no notice, no entry write is begun. R169: the index a notice's transfers carry is
its cell, its record, or 0.

R175, R172, Tables 10-7 and 10-8: the 16 bytes of a notice entry are the fields of its kind at their offsets and widths, and 0 elsewhere;
the count is written as a 4-byte number.

R167, R172: the value of a consumed-count read, the little-endian number in its four bytes, is taken when it is at most 1024 below the
notices-written count, modulo 2^32, and is stale otherwise. -/
def Obligations.NoticeListWritesAndRoom : Prop :=
  (∀ (s : State) (n : Notice) (rest : List Notice) (tag : Nat) (x : Transfer), s.xi.notices = n :: rest →
     (s.xi.engine = .run ∨ s.xi.engine = .hold) →
     (s.xi.noticeStage = .notBegun → (s.xi.written - s.xi.cached).toNat < 1024 →
       exec .noticeWrite s = .next { s with
         nextTag := s.nextTag + 1
         xi := { s.xi with
           noticeStage := .first
           inFlight := s.xi.inFlight ++
             [⟨s.nextTag, .noticeEntry n.faultIndex, s.xi.base + BitVec.ofNat 64 (0x1000 + 16 * (s.xi.written.toNat % 1024)), 0, n.bytes s.mu.pages⟩] } }) ∧
     (s.xi.noticeStage = .notBegun → 1024 ≤ (s.xi.written - s.xi.cached).toNat → exec .noticeWrite s = .next s) ∧
     (∀ i, s.transfer tag = some x → x.kind = .noticeEntry i →
       exec (.noticeEntryWriteComplete tag) s = .next { s with
         nextTag := s.nextTag + 1
         xi := { s.xi with
           noticeStage := .second
           inFlight := s.xi.inFlight.filter (fun y => decide (y.tag ≠ tag)) ++
             [⟨s.nextTag, .noticeCount n.faultIndex, s.xi.base, 0, bytesLE 4 (s.xi.written + 1).toNat⟩] } })) ∧
  (∀ s : State, s.xi.engine ≠ .run → s.xi.engine ≠ .hold →
     exec .noticeWrite s = .next s ∧
     ∀ (tag i : Nat) (x : Transfer), s.transfer tag = some x → x.kind = .noticeEntry i →
       exec (.noticeEntryWriteComplete tag) s = .next { s with xi := { s.xi with
         noticeStage := .firstDone
         inFlight := s.xi.inFlight.filter (fun y => decide (y.tag ≠ tag)) } }) ∧
  (∀ (s : State) (tag : Nat) (bytes : List Byte) (b0 b1 b2 b3 : Byte) (value : Word) (x : Transfer), s.transfer tag = some x →
     x.kind = .consumedRead → bytes = [b0, b1, b2, b3] → value = b3 ++ b2 ++ b1 ++ b0 →
     ((s.xi.written - value).toNat ≤ 1024 →
       exec (.consumedReadArrival tag bytes) s = .next { s with xi := { s.xi with
         cached := value
         inFlight := s.xi.inFlight.filter (fun y => decide (y.tag ≠ tag)) } }) ∧
     (1024 < (s.xi.written - value).toNat →
       exec (.consumedReadArrival tag bytes) s = .next { s with xi := { s.xi with
         inFlight := s.xi.inFlight.filter (fun y => decide (y.tag ≠ tag)) } })) ∧
  (∀ s : State, s.xi.noticeStage ≠ .notBegun ∨ s.xi.notices = [] → exec .noticeWrite s = .next s) ∧
  (∀ (c i : Nat) (r : Result) (p g : Half) (q : Nat),
     (Notice.answer c r p).faultIndex = c ∧ (Notice.lapse i g q).faultIndex = i ∧ Notice.meter.faultIndex = 0) ∧
  (∀ (n : Notice) (pages : Word), LaidOut (n.bytes pages) 0 16 (noticeFields pages n)) ∧
  ∀ w : Word, LaidOut (bytesLE 4 w.toNat) 0 4 [(0, 4, w.toNat)]

/-- R166, R168, R95, R76: the notice-written event. w rises by 1, the notice leaves the queue and CAUSE NOTICE is set, with one MSI when
it was 0 and enabled. An ANSWER notice makes its cell IDLE, or PENDING with its mark cleared; a LAPSE notice makes a record still
LAPSED with its generation FREE with the generation advanced, and every pool with a table-stall mark due; any other record and any
other cell is as it was; a METER notice does nothing further. -/
def Obligations.NoticeWrittenEvent : Prop :=
  ∀ (s : State) (n : Notice) (rest : List Notice) (tag i : Nat) (x : Transfer), s.xi.notices = n :: rest →
    s.transfer tag = some x → x.kind = .noticeCount i →
    ∃ t, exec (.noticeWritten tag) s = .next t ∧ t.xi.written = s.xi.written + 1 ∧ t.xi.notices = rest ∧
      t.xi.noticeStage = .notBegun ∧ t.xi.causeNotice = true ∧
      t.msiSent = s.msiSent + (if s.xi.intEnable = true ∧ s.xi.causeNotice = false then 1 else 0) ∧
      t = { s with
        msiSent := t.msiSent
        xi := { s.xi with
          written := t.xi.written
          notices := t.xi.notices
          noticeStage := t.xi.noticeStage
          causeNotice := t.xi.causeNotice
          cells := t.xi.cells
          inFlight := s.xi.inFlight.filter (fun y => decide (y.tag ≠ tag)) }
        lt := t.lt
        wu := t.wu } ∧
      (∀ c r p, n = .answer c r p →
        t.cell c = { s.cell c with st := if (s.cell c).repost then .pending else .idle, repost := false } ∧
          (∀ c', c' ≠ c → t.cell c' = s.cell c') ∧ t.lt = s.lt ∧ t.wu = s.wu) ∧
      (∀ j g p, n = .lapse j g p →
        t.xi.cells = s.xi.cells ∧ (∀ j', j' ≠ j → t.lease j' = s.lease j') ∧
          (if (s.lease j).st = .lapsed ∧ (s.lease j).generation = g then
            t.lease j = { s.lease j with st := .free, generation := g + 1 } ∧ OnlyDue s t ∧ DueJoined s t (fun q => q ∈ s.wu.stall)
          else t.lt = s.lt ∧ t.wu = s.wu)) ∧
      (n = .meter → t.xi.cells = s.xi.cells ∧ t.lt = s.lt ∧ t.wu = s.wu)

/-- R169, R117, R146: a DMA error enters FAULTED and puts the transfer on the retry list in issue order. Outside FAULTED it replaces the
fault record and sets CAUSE FAULT, with one MSI when it was 0 and enabled; within FAULTED the record stands. An error taken in STILL
sets the grace hold. An install in READING will start again; everything else the transfer served is held.

R169, Table 9-6: the fault kind and the index of every kind of transfer. -/
def Obligations.DmaErrorFaults : Prop :=
  (∀ i kind fault index, (kind, fault, index) ∈ [
     (TransferKind.fetch i, FaultKind.fetch, i), (.answerArea i, .answer, i), (.poolField i, .answer, i), (.statusByte i, .answer, i),
     (.noticeEntry i, .notice, i), (.noticeCount i, .notice, i), (.consumedRead, .consumed, 0), (.imageRead i, .image, i),
     (.ownerRead, .meter, 0), (.pageWrite, .meter, 0), (.ownerWrite, .meter, 0)] →
     TransferKind.faultKind kind = fault ∧ TransferKind.faultIndex kind = index) ∧
  ∀ (s : State) (tag : Nat) (x : Transfer), s.transfer tag = some x →
    ∃ t, exec (.dmaError tag) s = .next t ∧ t.xi.engine = .faulted ∧
      t.xi.inFlight = s.xi.inFlight.filter (fun y => decide (y.tag ≠ tag)) ∧
      (∀ y, y ∈ t.xi.retry ↔ y = x ∨ y ∈ s.xi.retry) ∧
      ((s.xi.retry.map Transfer.tag).Pairwise (· ≤ ·) → (t.xi.retry.map Transfer.tag).Pairwise (· ≤ ·)) ∧
      (s.xi.engine ≠ .faulted →
        t.xi.faultKind = x.kind.faultKind ∧ t.xi.faultIndex = x.kind.faultIndex ∧ t.xi.faultAddr = x.addr.setWidth 20 ∧
          t.xi.causeFault = true ∧
          t.msiSent = s.msiSent + (if s.xi.intEnable = true ∧ s.xi.causeFault = false then 1 else 0)) ∧
      (s.xi.engine = .faulted →
        t.xi.faultKind = s.xi.faultKind ∧ t.xi.faultIndex = s.xi.faultIndex ∧ t.xi.faultAddr = s.xi.faultAddr ∧
          t.xi.causeFault = s.xi.causeFault ∧ t.msiSent = s.msiSent) ∧
      t.tb = { s.tb with
        graceHold := if s.xi.engine = .still then (if s.tb.graceCount = 0 then none else some s.tb.graceCount)
          else s.tb.graceHold } ∧
      t = { s with
        msiSent := t.msiSent
        tb := t.tb
        install := t.install
        xi := { s.xi with
          engine := t.xi.engine
          inFlight := t.xi.inFlight
          retry := t.xi.retry
          faultKind := t.xi.faultKind
          faultIndex := t.xi.faultIndex
          faultAddr := t.xi.faultAddr
          causeFault := t.xi.causeFault } } ∧
      (∀ im, s.install = .reading im → t.install = .reading { im with readTag := none, restart := true }) ∧
      ((∀ im, s.install ≠ .reading im) → t.install = s.install)

/-! ### Leases by request -/

/-- R97, R98 Table 5-4, R99: RENEW. An index above 4095 is BAD_FIELD. A HELD record of the handle's generation has its counter reloaded
from its granted period, or from the request clamped into the pool's period range, and nothing else of it changes; a LAPSED one is
answered LAPSED; anything else STALE_HANDLE. No pool, waiter, meter or other record changes. For a request of 0, R99 keeps the granted
period where R8 names the pool's default; the statement follows R99 (log entry 34). -/
def Obligations.RenewReloadsCounter : Prop :=
  ∀ (s : State) (c : Nat) (copy : List Byte) (rest : List Nat), s.ServesKind c copy rest 2 →
    ∀ (i r : Nat) (g : Half) (l : Lease) (p : Params), i = readLE copy 4 2 → r = readLE copy 8 2 →
      g = BitVec.ofNat 16 (readLE copy 6 2) → l = s.lease i → p = s.params l.pool →
    ∃ t, exec .renew s = .next t ∧ t = { s with xi := t.xi, lt := t.lt } ∧
      (4096 ≤ i → t.lt = s.lt ∧ TakenAndAnswered s t c rest { result := .badField, detail := 4, pool := 0xFFFF, body := .zero }) ∧
      (i < 4096 → l.st = .held → l.generation = g →
        ∃ period,
          period = (if r = 0 then l.period else if r < p.periodMin then p.periodMin else if p.periodMax < r then p.periodMax else r) ∧
          TakenAndAnswered s t c rest (leaseAnswer .ok (BitVec.ofNat 16 l.pool) copy l.charge period) ∧
          t.lease i = { l with period := period, counter := period } ∧ ∀ j, j ≠ i → t.lease j = s.lease j) ∧
      (i < 4096 → l.st = .lapsed → l.generation = g →
        t.lt = s.lt ∧ TakenAndAnswered s t c rest (leaseAnswer .lapsed (BitVec.ofNat 16 l.pool) copy 0 0)) ∧
      (i < 4096 → ¬ ((l.st = .held ∨ l.st = .lapsed) ∧ l.generation = g) →
        t.lt = s.lt ∧ TakenAndAnswered s t c rest (leaseAnswer .staleHandle 0xFFFF copy 0 0))

/-- R100, R101, R102, R18, R76: RETURN. A HELD record of the handle's generation has the generation advanced. It goes into linger, with
its counter the pool's linger, when that is nonzero and SKIP_LINGER is clear, and no counter of its pool changes; otherwise it is FREE
at once, in a free event of one record that also makes its pool and every stalled pool due. A LAPSED record is answered LAPSED and
anything else STALE_HANDLE, with nothing else changed. -/
def Obligations.ReturnLingersOrFrees : Prop :=
  ∀ (s : State) (c : Nat) (copy : List Byte) (rest : List Nat), s.canonical = true → s.ServesKind c copy rest 3 →
    ∀ (i : Nat) (g : Half) (l : Lease) (linger : Nat) (skip : Bool), i = readLE copy 4 2 → g = BitVec.ofNat 16 (readLE copy 6 2) →
      l = s.lease i → linger = (s.params l.pool).linger → skip = (byteAt copy 8).getLsbD 0 →
    ∃ t, exec .returnLease s = .next t ∧ t = { s with xi := t.xi, lt := t.lt, et := t.et, su := t.su, wu := t.wu } ∧
      (4096 ≤ i → t.lt = s.lt ∧ t.et = s.et ∧ t.su = s.su ∧ t.wu = s.wu ∧
        TakenAndAnswered s t c rest { result := .badField, detail := 4, pool := 0xFFFF, body := .zero }) ∧
      (i < 4096 → l.st = .held → l.generation = g → linger ≠ 0 → skip = false →
        t.lease i = { l with st := .lingering, generation := g + 1, counter := linger } ∧ (∀ j, j ≠ i → t.lease j = s.lease j) ∧
          t.et = s.et ∧ t.su = s.su ∧ t.wu = s.wu ∧
          TakenAndAnswered s t c rest (leaseAnswer .ok (BitVec.ofNat 16 l.pool) copy l.charge linger)) ∧
      (i < 4096 → l.st = .held → l.generation = g → (linger = 0 ∨ skip = true) →
        t.lease i = { l with st := .free, generation := g + 1 } ∧ (∀ j, j ≠ i → t.lease j = s.lease j) ∧ FreeTaken s t [l] ∧
          OnlyDue s t ∧ DueJoined s t (fun q => q = l.pool ∨ q ∈ s.wu.stall) ∧
          TakenAndAnswered s t c rest (leaseAnswer .ok (BitVec.ofNat 16 l.pool) copy l.charge 0)) ∧
      (i < 4096 → ¬ (l.st = .held ∧ l.generation = g) →
        t.lt = s.lt ∧ t.et = s.et ∧ t.su = s.su ∧ t.wu = s.wu ∧
          TakenAndAnswered s t c rest
            (if l.st = .lapsed ∧ l.generation = g then leaseAnswer .lapsed (BitVec.ofNat 16 l.pool) copy 0 0
            else leaseAnswer .staleHandle 0xFFFF copy 0 0))

/-- R103, R104: RETURN_MATCHING. A filter of 512 to FFFEh is BAD_FIELD. Otherwise every selected record is returned, with its generation
advanced, into linger or freed at once; the records freed make one free event; the answer is OK with the count of records returned and
the filter in its pool field. Every other record is as it was, and no meter is counted. -/
def Obligations.ReturnMatchingReturnsSelected : Prop :=
  ∀ (s : State) (c : Nat) (copy : List Byte) (rest : List Nat), s.canonical = true → s.ServesKind c copy rest 4 →
    ∃ t, exec .returnMatching s = .next t ∧ t = { s with xi := t.xi, lt := t.lt, et := t.et, su := t.su, wu := t.wu } ∧
      (512 ≤ readLE copy 4 2 → readLE copy 4 2 ≠ 0xFFFF →
        t.lt = s.lt ∧ t.et = s.et ∧ t.su = s.su ∧ t.wu = s.wu ∧
          TakenAndAnswered s t c rest { result := .badField, detail := 4, pool := 0xFFFF, body := .zero }) ∧
      (readLE copy 4 2 < 512 ∨ readLE copy 4 2 = 0xFFFF →
        ∃ (chosen freed : List (Nat × Lease)),
          (∀ e, e ∈ chosen ↔ e ∈ s.records ∧ ReturnSelected copy e.2) ∧ chosen.Nodup ∧
          (∀ e, e ∈ freed ↔ e ∈ chosen ∧ ¬ s.Lingers copy e.2) ∧ freed.Nodup ∧
          (∀ i l, (i, l) ∈ chosen → s.Lingers copy l →
            t.lease i = { l with st := .lingering, generation := l.generation + 1, counter := (s.params l.pool).linger }) ∧
          (∀ i l, (i, l) ∈ freed → t.lease i = { l with st := .free, generation := l.generation + 1 }) ∧
          (∀ i, (∀ l, (i, l) ∉ chosen) → t.lease i = s.lease i) ∧
          FreeTaken s t (freed.map Prod.snd) ∧ OnlyDue s t ∧
          DueJoined s t (fun q => freed ≠ [] ∧ (q ∈ s.wu.stall ∨ ∃ e ∈ freed, q = e.2.pool)) ∧
          TakenAndAnswered s t c rest
            { result := .ok, detail := 0, pool := BitVec.ofNat 16 (readLE copy 4 2), body := .returnMatching chosen.length })

/-! ### Requests of the Wait Unit and the Entitlement Table -/

/-- R81, R70: WITHDRAW. A target above 1023 is BAD_FIELD. With no examination in hand and the earlier parking events taken, the Wait Unit
takes it at once; otherwise the cell is taken from its slot and the request stays in hand, no other cell changing, and it is taken once the
Wait Unit is free. No pool, lease, schedule or meter changes. -/
def Obligations.WithdrawTakesWaiter : Prop :=
  ∀ (s : State) (c : Nat) (copy : List Byte) (rest : List Nat),
    (s.canonical = true → s.ServesKind c copy rest 5 → 1024 ≤ readLE copy 4 2 →
      ∃ t, exec .withdraw s = .next t ∧ t = { s with xi := t.xi } ∧
        TakenAndAnswered s t c rest { result := .badField, detail := 4, pool := 0xFFFF, body := .zero }) ∧
    (s.canonical = true → s.ServesKind c copy rest 5 → readLE copy 4 2 < 1024 → s.wu.exam = none → s.wu.parkInbox = [] →
      ∃ t, exec .withdraw s = .next t ∧ t = { s with xi := t.xi, wu := t.wu } ∧ TakenFrame s t rest ∧
        WithdrawTaken s t c (readLE copy 4 2)) ∧
    (s.ServesKind c copy rest 5 → readLE copy 4 2 < 1024 → (s.wu.exam ≠ none ∨ s.wu.parkInbox ≠ []) →
      ∃ t, exec .withdraw s = .next t ∧ TakenInHand s t c rest (.withdraw c (readLE copy 4 2))) ∧
    (∀ target, s.decision = some (.withdraw c target) → (s.wu.exam ≠ none ∨ s.wu.parkInbox ≠ []) → exec .withdraw s = .next s) ∧
    (∀ target, s.canonical = true → s.decision = some (.withdraw c target) → s.wu.exam = none → s.wu.parkInbox = [] →
      ∃ t, exec .withdraw s = .next t ∧ t = { s with xi := t.xi, wu := t.wu, decision := none } ∧ AnsweredFrame s t ∧
        WithdrawTaken s t c target)

/-- R21 Table 1-9, R9, R10, R67, R70: INSPECT_POOL. A number above 511 is BAD_FIELD; any other is answered OK with the pool's state, limits,
counters, window, validity and waiter count, all 0 for an ABSENT pool. Nothing else changes. One that meets an examination in hand stays
in hand, with nothing answered, and is answered so once the examination has ended, from the state standing then (log entry 20). -/
def Obligations.InspectPoolReports : Prop :=
  (∀ (s : State) (c p : Nat) (copy : List Byte) (rest : List Nat), s.ServesKind c copy rest 6 → p = readLE copy 4 2 →
    (512 ≤ p → ∃ t, exec .inspectPool s = .next t ∧ t = { s with xi := t.xi } ∧
      TakenAndAnswered s t c rest { result := .badField, detail := 4, pool := 0xFFFF, body := .zero }) ∧
    (p < 512 → s.wu.exam = none → ∃ t, exec .inspectPool s = .next t ∧ t = { s with xi := t.xi } ∧
      TakenAndAnswered s t c rest { result := .ok, detail := 0, pool := BitVec.ofNat 16 p, body := inspectReport s p }) ∧
    (p < 512 → s.wu.exam ≠ none → ∃ t, exec .inspectPool s = .next t ∧ TakenInHand s t c rest (.inspect c p))) ∧
  (∀ (s : State) (c p : Nat), s.decision = some (.inspect c p) →
    (s.wu.exam = none → ∃ t, exec .inspectPool s = .next t ∧ t = { s with xi := t.xi, decision := none } ∧ AnsweredFrame s t ∧
      Answered s t [(c, { result := .ok, detail := 0, pool := BitVec.ofNat 16 p, body := inspectReport s p })]) ∧
    (s.wu.exam ≠ none → exec .inspectPool s = .next s))

/-- R20, R84, R109, R18, R70: CLEAR_FLOOR. Every waiter is answered CLEARED, in rising pool number and queue order, and every queue, mark and
due entry goes; every HELD or LINGERING record, and every LAPSED one whose notice write has not begun, is FREE with its generation
advanced; every LAPSE notice whose write has not begun is dropped; every counter is given back in one free event; and the cell is
answered OK with both counts. Pool parameters, the floor, the schedule and the meters stand, but for the parameter set and the masks of a
RETIRING pool that becomes ABSENT (R15, where R42 would leave both and R120 the masks: the model's choice, log entry 37). One that meets
an examination in hand or a parking event not yet taken stays in hand, with nothing cleared, and does all this once the Wait Unit can
take it (log entry 20). -/
def Obligations.ClearFloorClears : Prop :=
  (∀ (s : State) (c : Nat) (copy : List Byte) (rest : List Nat), s.canonical = true → s.ServesKind c copy rest 10 →
    (s.wu.exam = none → s.wu.parkInbox = [] →
      ∃ t, exec .clearFloor s = .next t ∧ t = { s with xi := t.xi, lt := t.lt, et := t.et, su := t.su, wu := t.wu } ∧
        t.xi.readAhead = rest ∧ FloorCleared s t c) ∧
    ((s.wu.exam ≠ none ∨ s.wu.parkInbox ≠ []) →
      ∃ t, exec .clearFloor s = .next t ∧ TakenInHand s t c rest (.clearFloor c))) ∧
  (∀ (s : State) (c : Nat), s.canonical = true → s.decision = some (.clearFloor c) →
    (s.wu.exam = none → s.wu.parkInbox = [] →
      ∃ t, exec .clearFloor s = .next t ∧
        t = { s with xi := t.xi, lt := t.lt, et := t.et, su := t.su, wu := t.wu, decision := none } ∧
        t.xi.readAhead = s.xi.readAhead ∧ FloorCleared s t c) ∧
    ((s.wu.exam ≠ none ∨ s.wu.parkInbox ≠ []) → exec .clearFloor s = .next s))

/-! ### Draws -/

/-- R43, R44, R45, Table 3-1: the checks of a DRAW. Feature code 0, a quantity of 0 or above 64 and units above 1024 are BAD_FIELD at their
offsets, in that order; any other DRAW is taken, its units of 0 clamped to 1 and its class above 3 to 3, to stand before the clock
check. Nothing else changes.

R47, R48, R51, R52: the first steps of a DRAW, one step each. With the clock UNSET it is refused CLOCK_UNSET; with no FREE record
LEASE_TABLE_FULL, whatever its wait limit; with no structural candidate NO_ENTITLEMENT; otherwise the decision moves on with what the
step read.

R46, log entry 5: the steps of one command. A DRAW of n steps on a READY cell is its take followed by n steps; n + 1 steps are one step
followed by n more while the decision stands, and end with it; and a decision that has presented a grant or a revival waits for it. -/
def Obligations.DrawFirstSteps : Prop :=
  (∀ (s : State) (c : Nat) (copy : List Byte) (rest : List Nat), s.ServesKind c copy rest 1 →
     ∀ (feature quantity units cls : Nat), feature = readLE copy 4 2 → quantity = (byteAt copy 6).toNat →
       cls = (byteAt copy 7).toNat → units = readLE copy 8 2 →
     (feature = 0 ∨ quantity = 0 ∨ 64 < quantity ∨ 1024 < units →
       ∀ steps, ∃ t, exec (.draw steps) s = .next t ∧ t = { s with xi := t.xi } ∧
         TakenAndAnswered s t c rest
           { result := .badField, detail := if feature = 0 then 4 else if quantity = 0 ∨ 64 < quantity then 6 else 8,
             pool := 0xFFFF, body := .zero }) ∧
     (feature ≠ 0 → 1 ≤ quantity → quantity ≤ 64 → units ≤ 1024 →
       ∃ t, exec (.draw 0) s = .next t ∧
         t = { s with
           xi := t.xi
           decision := some (.draw ⟨c, feature, BitVec.ofNat 32 (readLE copy 16 4), quantity, max 1 units, min cls 3,
             readLE copy 10 2, readLE copy 12 2, .clock⟩) } ∧
         TakenFrame s t rest ∧ t.xi.writeList = s.xi.writeList ∧ (∀ c', c' ≠ c → t.cell c' = s.cell c') ∧
         (t.cell c).st = .ready ∧ ∀ n, exec (.draw n) s = exec (.draw n) t)) ∧
  (∀ (s : State) (d : DrawDecision), s.decision = some (.draw d) →
     (d.stage = .clock → s.su.clockSet = false → ∃ t, exec (.draw 1) s = .next t ∧ RefusedUnnamed s t d .clockUnset) ∧
     (d.stage = .clock → s.su.clockSet = true →
       exec (.draw 1) s = .next { s with decision := some (.draw { d with stage := .lookup }) }) ∧
     (d.stage = .lookup → s.canonical = true →
       ∃ found : List FoundRecord, exec (.draw 1) s = .next { s with decision := some (.draw { d with stage := .qualify found }) } ∧
         (found.map FoundRecord.index).Pairwise (· < ·) ∧
         ∀ f, f ∈ found ↔ f.index < 4096 ∧ (s.lease f.index).st = .lingering ∧ (s.lease f.index).key = d.key ∧
           (s.lease f.index).feature = d.feature ∧ f.pool = (s.lease f.index).pool ∧ f.charge = (s.lease f.index).charge ∧
           f.generation = (s.lease f.index).generation) ∧
     (d.stage = .tableFull → s.TableFull → ∃ t, exec (.draw 1) s = .next t ∧ RefusedUnnamed s t d .leaseTableFull) ∧
     (d.stage = .tableFull → ¬ s.TableFull →
       exec (.draw 1) s = .next { s with decision := some (.draw { d with stage := .gather }) }) ∧
     (d.stage = .gather → (∀ p, ¬ s.IsCandidate p d.feature d.key) →
       ∃ t, exec (.draw 1) s = .next t ∧ RefusedUnnamed s t d .noEntitlement)) ∧
  (∀ (s : State) (d : DrawDecision) (n : Nat), s.decision = some (.draw d) →
     exec (.draw 0) s = .next s ∧
     (∃ t, exec (.draw 1) s = .next t ∧
       (t.decision = none ∧ exec (.draw (n + 1)) s = .next t ∨
         (∃ d', t.decision = some (.draw d')) ∧ exec (.draw (n + 1)) s = exec (.draw n) t)) ∧
     (∀ p charge fits left tried, d.stage = .granting p charge fits left tried → exec (.draw n) s = .next s) ∧
     (∀ index generation, d.stage = .reviving index generation → exec (.draw n) s = .next s))

/-- R52, R2, R53, R9: the structural candidates are gathered in candidate order, by rank and then by pool number; those within validity
at the Frame Number remain, in the same order; with none, EXPIRED names the first structural candidate. The division reads the Frame
Number when it is taken, whatever has happened since the gathering (log entry 5). -/
def Obligations.DrawCandidatesInOrder : Prop :=
  (∀ (s : State) (d : DrawDecision) (cs : List Candidate) (remaining : List Nat), s.decision = some (.draw d) → d.stage = .divide cs →
    remaining = (cs.filter (fun a => decide (a.validFrom.toNat ≤ s.su.frame.toNat ∧ s.su.frame.toNat ≤ a.validTo.toNat))).map
      Candidate.pool →
    (remaining ≠ [] →
      exec (.draw 1) s = .next { s with decision := some (.draw { d with stage := .trial remaining [] }) }) ∧
    (∀ a, remaining = [] → cs.head? = some a → ∃ t, exec (.draw 1) s = .next t ∧ RefusedNaming s t d .expired a.pool)) ∧
  ∀ (s : State) (d : DrawDecision), s.decision = some (.draw d) → d.stage = .gather →
    (∃ p, s.IsCandidate p d.feature d.key) →
    ∃ cs : List Candidate,
      (∀ p, p ∈ cs.map Candidate.pool ↔ s.IsCandidate p d.feature d.key) ∧
      cs.Pairwise (fun a b => a.rank < b.rank ∨ a.rank = b.rank ∧ a.pool < b.pool) ∧
      (∀ a ∈ cs, a.rank = (s.params a.pool).rank ∧ a.validFrom = (s.params a.pool).validFrom ∧
        a.validTo = (s.params a.pool).validTo) ∧
      exec (.draw 1) s = .next { s with decision := some (.draw { d with stage := .divide cs }) } ∧
      ∃ remaining : List Nat, remaining.Sublist (cs.map Candidate.pool) ∧
        (∀ a ∈ cs, a.pool ∈ remaining ↔ a.validFrom.toNat ≤ s.su.frame.toNat ∧ s.su.frame.toNat ≤ a.validTo.toNat) ∧
        (remaining ≠ [] →
          exec (.draw 2) s = .next { s with decision := some (.draw { d with stage := .trial remaining [] }) }) ∧
        (remaining = [] → ∃ t a, cs.head? = some a ∧ exec (.draw 2) s = .next t ∧ RefusedNaming s t d .expired a.pool)

/-- R38 conditions 1, 2, 3 and 7, R54, R24 to R28, R37: the trial of one candidate, with no examination in hand. A pool no longer ACTIVE or
DRAINING is dropped. Otherwise its charge is computed, and it fails with WINDOW, CHARGE_LIMIT or CLASS, in that order, which its trial
record keeps with the charge, its fit to capacity and its window; or a grant is presented at that charge. A trial met by an examination in
hand waits for its end, since the class rule reads the wait queue (R70, log entry 20). -/
def Obligations.DrawTrialJudges : Prop :=
  (∀ (s : State) (d : DrawDecision) (p : Nat) (left : List Nat) (tried : List TrialRecord),
    s.decision = some (.draw d) → d.stage = .trial (p :: left) tried → s.wu.exam ≠ none → exec (.draw 1) s = .next s) ∧
  ∀ (s : State) (d : DrawDecision) (p charge : Nat) (left : List Nat) (tried : List TrialRecord),
    s.decision = some (.draw d) → d.stage = .trial (p :: left) tried → s.wu.exam = none →
    charge = (d.quantity * ((s.params p).baseCost + (s.params p).unitCost * (d.units - (s.params p).includedUnits))
      * (if (s.params p).rateExempt then 100 else s.su.active.rates.getD s.su.slot 100) + 99) / 100 →
    ∀ (serving openNow blocked fits : Bool),
      serving = decide ((s.pool p).st = .active ∨ (s.pool p).st = .draining) → openNow = (s.activeMask p).getLsbD s.su.slot →
      blocked = (s.queue p).any (fun w => decide (w.cls ≤ d.cls)) →
      fits = decide (charge ≤ 65535 ∧ charge ≤ (s.params p).capacity) →
    ∀ stage : DrawStage,
      stage =
        (if serving = false then .trial left tried
        else if openNow = false then .trial left (tried ++ [⟨p, charge, fits, openNow, .window⟩])
        else if 65535 < charge then .trial left (tried ++ [⟨p, charge, fits, openNow, .chargeLimit⟩])
        else if blocked = true then .trial left (tried ++ [⟨p, charge, fits, openNow, .classRule⟩])
        else .granting p charge fits left tried) →
      exec (.draw 1) s = .next { s with decision := some (.draw { d with stage := stage }) }

/-- R54, R58, R59, R61 Table 3-3, R62: the end of the search. With no trial record left NO_ENTITLEMENT; with a candidate whose charge fits
capacity and a nonzero wait limit, the cell is handed to the Wait Unit for the first such pool; otherwise it is refused by the first row
of Table 3-3 that holds, naming the first remaining candidate and counting one refusal against it. -/
def Obligations.DrawEndParksOrRefuses : Prop :=
  ∀ (s : State) (d : DrawDecision) (tried : List TrialRecord), s.decision = some (.draw d) → d.stage = .trial [] tried →
    (tried = [] → ∃ t, exec (.draw 1) s = .next t ∧ RefusedUnnamed s t d .noEntitlement) ∧
    (∀ before r after, tried = before ++ r :: after → r.fits = true → (∀ b ∈ before, b.fits = false) → d.waitLimit ≠ 0 →
      exec (.draw 1) s = .next { s with
        decision := none
        wu := { s.wu with parkInbox := s.wu.parkInbox ++ [⟨r.pool, ⟨d.cell, d.key, d.feature, d.quantity, d.units, d.cls, d.period,
          d.waitLimit⟩⟩] } }) ∧
    (∀ first after, tried = first :: after → (d.waitLimit = 0 ∨ ∀ r ∈ tried, r.fits = false) →
      ∃ t, exec (.draw 1) s = .next t ∧
        ((∀ r ∈ tried, 65535 < r.charge) → RefusedNaming s t d .chargeLimit first.pool) ∧
        (¬ (∀ r ∈ tried, 65535 < r.charge) → (∀ r ∈ tried, r.fits = false) → RefusedNaming s t d .exceedsCapacity first.pool) ∧
        ((∃ r ∈ tried, r.fits = true) → (∀ r ∈ tried, r.fits = true → r.windowOpen = false) →
          ¬ (∀ r ∈ tried, 65535 < r.charge) → RefusedNaming s t d .outOfWindow first.pool) ∧
        ((∃ r ∈ tried, r.fits = true ∧ r.windowOpen = true) → ¬ (∀ r ∈ tried, 65535 < r.charge) →
          RefusedNaming s t d .exhausted first.pool))

/-- R48, R49: the records found are judged in rising index, and the first that qualifies is presented for revival: its pool a structural
candidate within validity with its window open, and the charge computed there at most the held charge. With none left the decision goes
on to the table-full check. -/
def Obligations.DrawPresentsFirstQualifying : Prop :=
  ∀ (s : State) (d : DrawDecision) (found : List FoundRecord), s.decision = some (.draw d) → d.stage = .qualify found →
    (found = [] → exec (.draw 1) s = .next { s with decision := some (.draw { d with stage := .tableFull }) }) ∧
    (∀ f rest, found = f :: rest → f.pool < 512 →
      ∀ ok : Prop,
        (ok ↔ s.IsCandidate f.pool d.feature d.key ∧ (s.params f.pool).validFrom.toNat ≤ s.su.frame.toNat ∧
          s.su.frame.toNat ≤ (s.params f.pool).validTo.toNat ∧ (s.activeMask f.pool).getLsbD s.su.slot = true ∧
          s.chargeOn f.pool d.quantity d.units ≤ f.charge) →
        (ok → exec (.draw 1) s = .next { s with decision := some (.draw { d with stage := .reviving f.index f.generation }) }) ∧
        (¬ ok → exec (.draw 1) s = .next { s with decision := some (.draw { d with stage := .qualify rest }) }))

/-! ### The grant event and the revival event -/

/-- R17, R36, R56, R57: the grant a DRAW presented. When it passes, the lease is made in one event and the DRAW is answered GRANTED with
detail 0. When it fails no table changes: with STATE the candidate is dropped, with TOKENS, SEATS or RECORD, the first in that order,
its trial record keeps the kind. -/
def Obligations.AdmissionGrantEvent : Prop :=
  ∀ (s : State) (d : DrawDecision) (p charge : Nat) (fits : Bool) (left : List Nat) (tried : List TrialRecord),
    s.decision = some (.draw d) → d.stage = .granting p charge fits left tried →
    (∀ i, s.GrantPasses p charge i d.key →
      ∃ t, exec (.grantEvent .admissionUnit) s = .next t ∧ GrantMade s t p charge i d.feature d.period d.key ∧
        t.decision = none ∧ t.wu = s.wu ∧ AnsweredFrame s t ∧
        Answered s t [(d.cell, grantAnswer t p i charge)]) ∧
    ((∀ i, ¬ s.GrantPasses p charge i d.key) →
      ∀ (kind : FailKind) (stage : DrawStage),
        kind =
          (if limitFor (s.params p) (s.pool p).reserveInUse d.key < (s.pool p).inUse + charge then .tokens
          else if (s.params p).seatCap ≠ 0 ∧ (s.params p).seatCap < (s.pool p).leaseCount + 1 then .seats
          else .record) →
        stage =
          (if (s.pool p).st ≠ .active ∧ (s.pool p).st ≠ .draining then .trial left tried
          else .trial left (tried ++ [⟨p, charge, fits, true, kind⟩])) →
        exec (.grantEvent .admissionUnit) s = .next { s with decision := some (.draw { d with stage := stage }) })

/-- R49, R50, R105: the revival event. A record still LINGERING with the generation the lookup saw becomes HELD, its granted period and
counter the DRAW's request clamped on its pool, and everything else of it kept; no Pool Counter changes; one grant is counted, and the
DRAW is answered GRANTED with detail REVIVED at the held charge. Otherwise nothing changes and the DRAW goes on to the table-full
check. -/
def Obligations.RevivalEvent : Prop :=
  ∀ (s : State) (d : DrawDecision) (i : Nat) (g : Half) (l : Lease) (p : Params), s.decision = some (.draw d) →
    d.stage = .reviving i g → l = s.lease i → p = s.params l.pool →
    (l.st = .lingering → l.generation = g →
      ∃ t period, period = (if d.period = 0 then p.periodDefault else if d.period < p.periodMin then p.periodMin
          else if p.periodMax < d.period then p.periodMax else d.period) ∧
        exec .revival s = .next t ∧
        t = { s with
          xi := t.xi
          lt := t.lt
          decision := none
          mu := { s.mu with inbox := s.mu.inbox ++ [.raise .grants l.pool] } } ∧
        t.lease i = { l with st := .held, period := period, counter := period } ∧ (∀ j, j ≠ i → t.lease j = s.lease j) ∧
        AnsweredFrame s t ∧
        Answered s t [(d.cell, { result := .granted, detail := 1, pool := BitVec.ofNat 16 l.pool,
                                 body := .lease i g l.charge period })]) ∧
    (¬ (l.st = .lingering ∧ l.generation = g) →
      exec .revival s = .next { s with decision := some (.draw { d with stage := .tableFull }) })

/-! ### The Wait Unit -/

/-- R66, R60, R65: PARKING between examinations takes the oldest parking event. With its home pool ACTIVE or DRAINING the entry goes
directly after the last entry of an equal or more urgent class, or to the front, its cell is WAITING, and its PARKED mark joins the write
list; otherwise the cell is answered POOL_RETIRED. During an examination nothing is taken (R70). -/
def Obligations.ParkingPlacesByClass : Prop :=
  ∀ (s : State) (e : ParkingEvent) (rest : List ParkingEvent), s.wu.parkInbox = e :: rest →
    (s.wu.exam ≠ none → exec .parking s = .next s) ∧
    (s.wu.exam = none → (s.pool e.home).st = .active ∨ (s.pool e.home).st = .draining →
      ∃ t ahead behind, exec .parking s = .next t ∧ s.queue e.home = ahead ++ behind ∧
        t.queue e.home = ahead ++ e.waiter :: behind ∧ (∀ p, p ≠ e.home → t.queue p = s.queue p) ∧
        (∀ w ∈ behind, e.waiter.cls < w.cls) ∧ (∀ w, ahead.getLast? = some w → w.cls ≤ e.waiter.cls) ∧
        (t.cell e.waiter.cell).st = .waiting ∧ (∀ c, c ≠ e.waiter.cell → t.cell c = s.cell c) ∧
        t = { s with
          xi := { s.xi with cells := t.xi.cells, writeList := s.xi.writeList ++ [.parked e.waiter.cell e.home] }
          wu := { s.wu with queues := t.wu.queues, parkInbox := rest } }) ∧
    (s.wu.exam = none → (s.pool e.home).st = .absent ∨ (s.pool e.home).st = .retiring →
      ∃ t, exec .parking s = .next t ∧ t = { s with xi := t.xi, wu := { s.wu with parkInbox := rest } } ∧ AnsweredFrame s t ∧
        Answered s t [(e.waiter.cell, plainAnswer .poolRetired (BitVec.ofNat 16 e.home))])

/-- R70, R71, R72, R85: an EXAMINATION begins with the lowest-numbered due pool and reads its state. A RETIRING or ABSENT pool, or one past
its validity, has its whole queue answered in queue order, POOL_RETIRED or EXPIRED with one refusal counted for each; a pool before its
validity keeps its queue; each of these ends the examination with the table-stall mark clear. At the end of any examination the
housekeeping ticks held meanwhile are taken (R79, log entry 19).

R72, R74, R75: the validity of a pool whose state was read before. One that is ABSENT by now stops the examination with STATE, every entry
left for the commit's report to answer (R78, log entry 35).

R73, R74, R75: the head of the queue examined. Its charge is computed at the current slot. One that does not fit capacity is removed and
answered EXCEEDS_CAPACITY, with one refusal counted, and the examination goes on; with the window closed, the queue empty, or the pool
ABSENT by now, the examination ends with the mark clear; otherwise a grant is presented at that charge.

R70, R71, log entry 5: the steps of one command. The first step, of a due pool or of an examination that stands before it, reads the pool's
state; a command begins an examination only where none is in hand and a pool is due; n + 1 steps are one step followed by n more while the
examination stands, and end with it; and one that has presented a grant waits for it. -/
def Obligations.ExaminationJudgesPoolAndHead : Prop :=
  (∀ (s : State) (p : Nat) (due : List Nat), s.canonical = true → s.wu.exam = none → s.wu.due = p :: due →
     ∀ begun : State, begun = { s with wu := { s.wu with due := due } } →
     ((s.pool p).st = .absent ∨ (s.pool p).st = .retiring →
       ∃ t, exec (.examination 2) s = .next t ∧ QueueFlushed begun t p .poolRetired) ∧
     ((s.pool p).st = .active ∨ (s.pool p).st = .draining →
       ((s.params p).validTo.toNat < s.su.frame.toNat →
         ∃ t, exec (.examination 2) s = .next t ∧ QueueFlushed begun t p .expired) ∧
       (s.su.frame.toNat ≤ (s.params p).validTo.toNat → s.su.frame.toNat < (s.params p).validFrom.toNat →
         ∃ t, exec (.examination 2) s = .next t ∧ ExamOver begun t p false) ∧
       (s.su.frame.toNat ≤ (s.params p).validTo.toNat → (s.params p).validFrom.toNat ≤ s.su.frame.toNat →
         exec (.examination 2) s = .next { s with wu := { s.wu with due := due, exam := some ⟨p, .head⟩ } }))) ∧
  (∀ (s : State) (p : Nat), s.canonical = true → s.wu.exam = some ⟨p, .validity⟩ →
     ((s.pool p).st = .absent → ∃ t, exec (.examination 1) s = .next t ∧ ExamOver s t p false) ∧
     ((s.pool p).st ≠ .absent →
       ((s.params p).validTo.toNat < s.su.frame.toNat → ∃ t, exec (.examination 1) s = .next t ∧ QueueFlushed s t p .expired) ∧
       (s.su.frame.toNat ≤ (s.params p).validTo.toNat → s.su.frame.toNat < (s.params p).validFrom.toNat →
         ∃ t, exec (.examination 1) s = .next t ∧ ExamOver s t p false) ∧
       (s.su.frame.toNat ≤ (s.params p).validTo.toNat → (s.params p).validFrom.toNat ≤ s.su.frame.toNat →
         exec (.examination 1) s = .next { s with wu := { s.wu with exam := some ⟨p, .head⟩ } }))) ∧
  (∀ (s : State) (p : Nat), s.canonical = true → s.wu.exam = some ⟨p, .head⟩ →
     (s.queue p = [] ∨ (s.pool p).st = .absent → ∃ t, exec (.examination 1) s = .next t ∧ ExamOver s t p false) ∧
     (∀ (w : Waiter) (rest : List Waiter) (charge : Nat), s.queue p = w :: rest → (s.pool p).st ≠ .absent →
       charge = s.chargeOn p w.quantity w.units →
       (65535 < charge ∨ (s.params p).capacity < charge →
         ∃ t, exec (.examination 1) s = .next t ∧ AnsweredFrame s t ∧
           Answered s t [(w.cell, plainAnswer .exceedsCapacity (BitVec.ofNat 16 p))] ∧ t.queue p = rest ∧
           (∀ q, q ≠ p → t.queue q = s.queue q) ∧
           t = { s with
             xi := t.xi
             wu := { s.wu with queues := t.wu.queues }
             mu := { s.mu with inbox := s.mu.inbox ++ [.raise .refusals p] } }) ∧
       (charge ≤ 65535 → charge ≤ (s.params p).capacity →
         ((s.activeMask p).getLsbD s.su.slot = true →
           exec (.examination 1) s = .next { s with wu := { s.wu with exam := some ⟨p, .granting charge⟩ } }) ∧
         ((s.activeMask p).getLsbD s.su.slot = false → ∃ t, exec (.examination 1) s = .next t ∧ ExamOver s t p false)))) ∧
  (∀ (s begun : State) (p : Nat) (due : List Nat), s.canonical = true →
     (s.wu.exam = none ∧ s.wu.due = p :: due ∧ begun = { s with wu := { s.wu with due := due } } ∨
       s.wu.exam = some ⟨p, .poolState⟩ ∧ begun = s) →
     ((s.pool p).st = .absent ∨ (s.pool p).st = .retiring →
       ∃ t, exec (.examination 1) s = .next t ∧ QueueFlushed begun t p .poolRetired) ∧
     ((s.pool p).st = .active ∨ (s.pool p).st = .draining →
       exec (.examination 1) s = .next { begun with wu := { begun.wu with exam := some ⟨p, .validity⟩ } })) ∧
  (∀ (s : State) (n : Nat),
     (s.wu.exam = none → s.wu.due = [] → exec (.examination n) s = .next s) ∧
     (∀ p due, s.wu.exam = none → s.wu.due = p :: due →
       exec (.examination n) s =
         exec (.examination n) { s with wu := { s.wu with due := due, exam := some ⟨p, .poolState⟩ } }) ∧
     (s.wu.exam ≠ none → exec (.examination 0) s = .next s ∧
       ∃ t, exec (.examination 1) s = .next t ∧
         (t.wu.exam = none ∧ exec (.examination (n + 1)) s = .next t ∨
           t.wu.exam ≠ none ∧ exec (.examination (n + 1)) s = exec (.examination n) t)) ∧
     (∀ p charge, s.wu.exam = some ⟨p, .granting charge⟩ → exec (.examination n) s = .next s))

/-- R17, R74, R75, Table 4-2: the grant an examination presented for its head. When it passes, the lease is made with the head's fields in
one event, the head is removed and answered GRANTED with detail 0, and the examination goes on to the new head. When it fails no table
changes, and the examination ends, its pool's table-stall mark set when no record was FREE and clear otherwise, and the housekeeping ticks
held meanwhile are taken (R79, log entry 19). -/
def Obligations.WaiterGrantEvent : Prop :=
  ∀ (s : State) (p charge : Nat) (w : Waiter) (rest : List Waiter), s.canonical = true →
    s.wu.exam = some ⟨p, .granting charge⟩ → s.queue p = w :: rest →
    (∀ i, s.GrantPasses p charge i w.key →
      ∃ t, exec (.grantEvent .waitUnit) s = .next t ∧ GrantMade s t p charge i w.feature w.period w.key ∧
        t.decision = s.decision ∧ t.queue p = rest ∧ (∀ q, q ≠ p → t.queue q = s.queue q) ∧
        t.wu = { s.wu with queues := t.wu.queues, exam := some ⟨p, .head⟩ } ∧ AnsweredFrame s t ∧
        Answered s t [(w.cell, grantAnswer t p i charge)]) ∧
    ((∀ i, ¬ s.GrantPasses p charge i w.key) →
      ∀ stalled : Bool,
        (stalled = true ↔
          ((s.pool p).st = .active ∨ (s.pool p).st = .draining) ∧
            (s.pool p).inUse + charge ≤ limitFor (s.params p) (s.pool p).reserveInUse w.key ∧
            ((s.params p).seatCap = 0 ∨ (s.pool p).leaseCount + 1 ≤ (s.params p).seatCap)) →
        ∃ t, exec (.grantEvent .waitUnit) s = .next t ∧ ExamOver s t p stalled)

/-- R78: a commit report, taken between examinations. The waiters of the leaving pools are answered POOL_RETIRED, in the order of the
report and within a pool in queue order, those queues and marks are cleared, and the kept and leaving pools become due. -/
def Obligations.CommitReportFlushesLeavingPools : Prop :=
  ∀ (s : State) (r : CommitReport) (rest : List CommitReport), s.wu.commitReports = r :: rest → r.leaving.Nodup →
    (s.wu.exam ≠ none → exec .commitReport s = .next s) ∧
    (s.wu.exam = none →
      ∃ t, exec .commitReport s = .next t ∧ t = { s with xi := t.xi, wu := t.wu } ∧ AnsweredFrame s t ∧
        Answered s t (r.leaving.flatMap (fun p =>
          (s.queue p).map (fun w => (w.cell, plainAnswer .poolRetired (BitVec.ofNat 16 p))))) ∧
        (∀ p, t.queue p = if p ∈ r.leaving then [] else s.queue p) ∧
        (∀ p, p ∈ t.wu.stall ↔ p ∈ s.wu.stall ∧ p ∉ r.leaving) ∧ DueJoined s t (fun p => p ∈ r.kept ∨ p ∈ r.leaving) ∧
        { t.wu with due := s.wu.due, stall := s.wu.stall, queues := s.wu.queues, commitReports := s.wu.commitReports } = s.wu ∧
        t.wu.commitReports = rest)

/-! ### Ticks -/

/-- R92 to R94, R96, R118: LEASE_TICK, and LAPSE and LINGER_END as the tick that has that outcome (log entry 4). With aging stopped or the
tick withheld, only the stream's count starts again; in STILL nothing happens (R112).

R150, R113, R116, R118: TOKEN_TICKS adds every pool's in-use to its token-ticks meter, with the saturation of R151, when the Meter Unit
takes the lease tick; with aging stopped or the tick withheld nothing changes. -/
def Obligations.LeaseTickEvents : Prop :=
  (∀ (s : State) (i : Nat), s.canonical = true →
     (s.xi.engine = .offline ∨ (s.xi.engine = .run ∨ s.xi.engine = .faulted) ∧ s.tb.graceHold = none →
       (∃ t, exec .leaseTick s = .next t ∧ LeaseTickTaken s t) ∧
       ((s.lease i).st = .held → (s.lease i).counter ≤ 1 → ∃ t, exec (.lapse i) s = .next t ∧ LeaseTickTaken s t) ∧
       ((s.lease i).st = .lingering → (s.lease i).counter ≤ 1 → ∃ t, exec (.lingerEnd i) s = .next t ∧ LeaseTickTaken s t)) ∧
     (s.xi.engine = .hold ∨ (s.xi.engine = .run ∨ s.xi.engine = .faulted) ∧ s.tb.graceHold ≠ none →
       exec .leaseTick s = .next { s with
         tb := { s.tb with leaseCount := 0, leaseInterval := leasePeriod s.tb.leaseSel } }) ∧
     (s.xi.engine = .still → exec .leaseTick s = .next s)) ∧
  (∀ s : State,
     (s.xi.engine = .offline ∨ (s.xi.engine = .run ∨ s.xi.engine = .faulted) ∧ s.tb.graceHold = none →
       ∃ t, exec .tokenTicks s = .next t ∧ t = { s with mu := { s.mu with meters := t.mu.meters } } ∧
         ∀ p, p < 512 → t.metersOf p = { s.metersOf p with
           tokenTicks := min 4294967295 ((s.metersOf p).tokenTicks + (s.pool p).inUse)
           satTokenTicks := (s.metersOf p).satTokenTicks ||
             decide (4294967295 < (s.metersOf p).tokenTicks + (s.pool p).inUse) }) ∧
     (s.xi.engine = .hold ∨ s.xi.engine = .still ∨ (s.xi.engine = .run ∨ s.xi.engine = .faulted) ∧ s.tb.graceHold ≠ none →
       exec .tokenTicks s = .next s))

/-- R114, R79, R118, R167: HOUSEKEEPING_TICK, and WAIT_EXPIRY and GRACE_HOLD_END as the tick that has that outcome (log entry 4). With aging
running and no examination in hand the deadlines are counted; a pending grace hold counts down in RUN and FAULTED, clear at 0; the
consumed count is re-read as at a register write. In HOLD neither deadlines nor hold count; a tick that reaches the Wait Unit during an
examination is held there until its end (R70, log entry 19), with the grace hold and the re-read as at any other tick; in STILL nothing
happens. -/
def Obligations.HousekeepingTickCounts : Prop :=
  ∀ (s : State) (cell : Nat), s.canonical = true →
    ∀ hold : Option Nat,
      hold = (if s.xi.engine = .run ∨ s.xi.engine = .faulted then
          (match s.tb.graceHold with | none => none | some n => if n ≤ 1 then none else some (n - 1))
        else s.tb.graceHold) →
    ∀ counted : State → Prop,
      (∀ t, counted t ↔ ∃ u : State,
        TickCounted { s with tb := { s.tb with hkCount := 0, hkInterval := hkPeriod s.tb.hkSel } } u ∧
        t = { u.rereadConsumed with tb := { u.tb with graceHold := hold } }) →
    ((s.xi.engine = .offline ∨ s.xi.engine = .run ∨ s.xi.engine = .faulted) → s.wu.exam = none →
      (∃ t, exec .housekeepingTick s = .next t ∧ counted t) ∧
      ((∃ p, ∃ w ∈ s.queue p, w.cell = cell ∧ w.deadline ≤ 1) → ∃ t, exec (.waitExpiry cell) s = .next t ∧ counted t) ∧
      (s.xi.engine ≠ .offline → s.tb.graceHold = some 1 → ∃ t, exec .graceHoldEnd s = .next t ∧ counted t ∧ t.tb.graceHold = none)) ∧
    (s.xi.engine ≠ .still → s.wu.exam ≠ none →
      ∃ u, u = State.rereadConsumed { s with
          tb := { s.tb with hkCount := 0, hkInterval := hkPeriod s.tb.hkSel, graceHold := hold }
          wu := { s.wu with heldTicks := s.wu.heldTicks + 1 } } ∧
        exec .housekeepingTick s = .next u) ∧
    (s.xi.engine = .hold → s.wu.exam = none →
      exec .housekeepingTick s = .next (State.rereadConsumed
        { s with tb := { s.tb with hkCount := 0, hkInterval := hkPeriod s.tb.hkSel } })) ∧
    (s.xi.engine = .still → exec .housekeepingTick s = .next s)

/-- R121, R122, R123, R124: SECOND, and SLOT_START and FRAME_START as the second that has that outcome (log entry 4). With the clock UNSET,
and within a slot, only the seconds move. At the end of a slot that is not the last the slot index rises and the seconds are 0, and no
frame, schedule or mask changes; at the end of the last slot the Frame Number rises by 1, FFFFFFFFh staying, and staged content becomes
active. In STILL no second comes. -/
def Obligations.SecondAdvancesClock : Prop :=
  ∀ s : State, s.canonical = true →
    (s.xi.engine = .still → exec .second s = .next s) ∧
    (s.xi.engine ≠ .still →
    ∀ tick : State, tick = { s with tb := { s.tb with secCount := 0 } } →
    (s.su.clockSet = false → exec .second s = .next tick) ∧
    (s.su.clockSet = true → s.su.seconds + 1 < s.su.active.slotLength →
      exec .second s = .next { tick with su := { s.su with seconds := s.su.seconds + 1 } }) ∧
    (s.su.clockSet = true → s.su.active.slotLength ≤ s.su.seconds + 1 → s.su.slot + 1 < s.su.active.slotCount →
      ∃ t, exec .second s = .next t ∧ exec .slotStart s = .next t ∧ SlotChangeHanded s t ∧
        t = { tick with wu := t.wu, mu := t.mu, su := { s.su with slot := s.su.slot + 1, seconds := 0 } }) ∧
    (s.su.clockSet = true → s.su.active.slotLength ≤ s.su.seconds + 1 → s.su.active.slotCount ≤ s.su.slot + 1 →
      ∃ t, exec .second s = .next t ∧ exec .frameStart s = .next t ∧ SlotChangeHanded s t ∧ StagedApplied s t ∧
        t.su.frame.toNat = min (s.su.frame.toNat + 1) 0xFFFFFFFF ∧ t.su.slot = 0 ∧ t.su.seconds = 0 ∧ t.su.clockSet = true ∧
        t = { tick with wu := t.wu, mu := t.mu, su := t.su }))

/-- R127, R128, R129: SET_CLOCK. A target slot at or above the target geometry's slot count is BAD_FIELD; target seconds are clamped below the
slot length. With the clock SET a target below the position is CLOCK_BACKWARD and changes nothing; any other target is taken, and the
clock is SET: a different frame makes one frame start at the target, a different slot of the same frame one slot start, and the same
slot only moves the seconds. The answer carries the position held after the request. The pool field FFFFh of BAD_FIELD is the model's
reading (log entry 36). -/
def Obligations.SetClockMovesPosition : Prop :=
  ∀ (s : State) (c : Nat) (copy : List Byte) (rest : List Nat), s.canonical = true → s.ServesKind c copy rest 8 →
    ∀ (frame : Word) (slot seconds : Nat) (geometry : Schedule), frame = BitVec.ofNat 32 (readLE copy 4 4) →
      slot = (byteAt copy 8).toNat →
      geometry = (if frame ≠ s.su.frame then s.su.staged.getD s.su.active else s.su.active) →
      seconds = min (readLE copy 10 2) (geometry.slotLength - 1) →
    ∀ before : Prop,
      (before ↔ s.su.clockSet = true ∧ (frame.toNat < s.su.frame.toNat ∨ frame = s.su.frame ∧
        (slot < s.su.slot ∨ slot = s.su.slot ∧ seconds < s.su.seconds))) →
    ∃ t, exec .setClock s = .next t ∧ t = { s with xi := t.xi, su := t.su, wu := t.wu, mu := t.mu } ∧
      (geometry.slotCount ≤ slot →
        t.su = s.su ∧ t.wu = s.wu ∧ t.mu = s.mu ∧
          TakenAndAnswered s t c rest { result := .badField, detail := 8, pool := 0xFFFF, body := .zero }) ∧
      (slot < geometry.slotCount → before →
        t.su = s.su ∧ t.wu = s.wu ∧ t.mu = s.mu ∧
          TakenAndAnswered s t c rest
            { result := .clockBackward, detail := 0, pool := 0xFFFF, body := .clock s.su.frame s.su.slot s.su.seconds }) ∧
      (slot < geometry.slotCount → ¬ before →
        t.su.clockSet = true ∧ t.su.frame = frame ∧ t.su.slot = slot ∧ t.su.seconds = seconds ∧
          TakenAndAnswered s t c rest { result := .ok, detail := 0, pool := 0xFFFF, body := .clock frame slot seconds } ∧
          (frame ≠ s.su.frame → SlotChangeHanded s t ∧ StagedApplied s t) ∧
          (frame = s.su.frame →
            t.su = { s.su with clockSet := true, slot := slot, seconds := seconds } ∧
              (slot ≠ s.su.slot → SlotChangeHanded s t) ∧ (slot = s.su.slot → t.wu = s.wu ∧ t.mu = s.mu)))

/-- R119, R115, R117, R152: TUNE. A lease selection or a housekeeping selection above 7 is BAD_FIELD, in that order, and changes nothing; any
other TUNE sets all four values, a meter interval of 0 taken as 1, and reports them as taken. No interval in progress, no count and no
pending hold changes. The pool field FFFFh of BAD_FIELD is the model's reading (log entry 36). -/
def Obligations.TuneSetsFourValues : Prop :=
  ∀ (s : State) (c : Nat) (copy : List Byte) (rest : List Nat), s.ServesKind c copy rest 9 →
    ∀ (lease hk grace interval : Nat), lease = (byteAt copy 4).toNat → hk = (byteAt copy 5).toNat → grace = readLE copy 6 2 →
      interval = max 1 (byteAt copy 8).toNat →
    (7 < lease ∨ 7 < hk →
      ∃ t, exec .tune s = .next t ∧ t = { s with xi := t.xi } ∧
        TakenAndAnswered s t c rest
          { result := .badField, detail := if 7 < lease then 4 else 5, pool := 0xFFFF, body := .zero }) ∧
    (lease ≤ 7 → hk ≤ 7 →
      ∃ t, exec .tune s = .next t ∧
        t = { s with
          xi := t.xi
          tb := { s.tb with leaseSel := lease, hkSel := hk, graceCount := grace }
          mu := { s.mu with interval := interval } } ∧
        TakenAndAnswered s t c rest
          { result := .ok, detail := 0, pool := 0xFFFF, body := .tune lease hk grace interval })

/-! ### Installing -/

/-- R132, R133, R134: INSTALL. An address not 8-byte aligned or a length outside 128 to 49,280 is BAD_FIELD, in that order; with an install in
flight the answer is INSTALL_BUSY and it goes on unchanged; otherwise the cell is WORKING, the unit READING at progress 0 with the CRC
register at its start, and the 128 header bytes are read from the address. -/
def Obligations.InstallTaken : Prop :=
  ∀ (s : State) (c : Nat) (copy : List Byte) (rest : List Nat), s.ServesKind c copy rest 7 →
    ∀ (addr len : Nat), addr = readLE copy 8 8 → len = readLE copy 16 4 →
    (addr % 8 ≠ 0 ∨ len < 128 ∨ 49280 < len →
      ∃ t, exec .install s = .next t ∧ t = { s with xi := t.xi } ∧
        TakenAndAnswered s t c rest
          { result := .badField, detail := if addr % 8 ≠ 0 then 8 else 16, pool := 0xFFFF, body := .zero }) ∧
    (addr % 8 = 0 → 128 ≤ len → len ≤ 49280 → s.install ≠ .idle →
      ∃ t, exec .install s = .next t ∧ t = { s with xi := t.xi } ∧
        TakenAndAnswered s t c rest { result := .installBusy, detail := 0, pool := 0xFFFF, body := .zero }) ∧
    (addr % 8 = 0 → 128 ≤ len → len ≤ 49280 → s.install = .idle →
      ∃ t, exec .install s = .next t ∧ (t.cell c).st = .working ∧ (∀ c', c' ≠ c → t.cell c' = s.cell c') ∧
        t = { s with
          nextTag := s.nextTag + 1
          xi := { s.xi with
            readAhead := rest
            cells := t.xi.cells
            inFlight := s.xi.inFlight ++ [⟨s.nextTag, .imageRead c, BitVec.ofNat 64 addr, 128, []⟩] }
          install := .reading ⟨c, BitVec.ofNat 64 addr, len, [], 0xFFFFFFFF, some s.nextTag, false⟩ })

/-- R134, R136, R146: an image read that arrives brings its bytes to the read in flight: progress rises by them and the CRC register runs over
those from 0Ah on; a read made before a fault, or by no install, is discarded. Of an arrival that brings less than was asked, the whole
pieces of 16 bytes are taken, so that no field is split between two reads (R172, log entry 10).

R137, R140: checks 1 and 2, judged when the 128 header bytes have been taken. A wrong magic or version fails check 1; a total length that
is not the request's or not 128 + 96 x pool count fails check 2. The install ends with IMAGE_CORRUPT and the unit is IDLE; nothing else
changes. R135, R172: an image is read big-endian. -/
def Obligations.ImageBytesAndHeaderChecks : Prop :=
  BigEndianRead ∧
  (∀ (s : State) (tag : Nat) (bytes : List Byte) (x : Transfer) (c : Nat), s.transfer tag = some x → x.kind = .imageRead c →
     ∀ landed : State, landed = { s with xi := { s.xi with inFlight := s.xi.inFlight.filter (fun y => decide (y.tag ≠ tag)) } } →
     ((∀ im, s.install = .reading im → im.readTag ≠ some x.tag) → exec (.imageReadArrival tag bytes) s = .next landed) ∧
     (∀ im, s.install = .reading im → im.readTag = some x.tag → im.crcAgrees →
       ∀ taken, taken = im.bytes ++ (if x.len ≤ bytes.length then bytes.take x.len else bytes.take (bytes.length / 16 * 16)) →
       taken.length < im.len → (taken.length < 128 ∨ 128 ≤ im.bytes.length ∨ HeaderGood taken im.len) →
         ∃ t im', exec (.imageReadArrival tag bytes) s = .next t ∧ t.install = .reading im' ∧ im'.bytes = taken ∧ im'.crcAgrees ∧
           (im'.cell, im'.addr, im'.len, im'.restart) = (im.cell, im.addr, im.len, im.restart) ∧
           ((s.xi.engine = .run ∨ s.xi.engine = .hold) →
             im'.readTag = some s.nextTag ∧ t.xi = { landed.xi with
               inFlight := landed.xi.inFlight ++ [⟨s.nextTag, .imageRead im.cell, im.addr + BitVec.ofNat 64 taken.length,
                 if taken.length < 128 then 128 - taken.length else im.len - taken.length, []⟩] }) ∧
           (s.xi.engine ≠ .run → s.xi.engine ≠ .hold → im'.readTag = none ∧ t.xi = landed.xi) ∧
           t = { s with nextTag := t.nextTag, xi := t.xi, install := t.install })) ∧
  (∀ (s : State) (tag : Nat) (bytes : List Byte) (x : Transfer) (c : Nat) (im : ImageRead), s.transfer tag = some x →
     x.kind = .imageRead c → s.install = .reading im → im.readTag = some x.tag →
     ∀ taken, taken = im.bytes ++ (if x.len ≤ bytes.length then bytes.take x.len else bytes.take (bytes.length / 16 * 16)) →
     im.bytes.length < 128 → 128 ≤ taken.length →
     ¬ HeaderGood taken im.len →
       ∀ check : Nat, check = (if readBE taken 0 4 = 0x4B543431 ∧ readBE taken 4 2 = 1 then 2 else 1) →
       ∃ t, exec (.imageReadArrival tag bytes) s = .next t ∧
         t = { s with xi := t.xi, install := .idle } ∧
         { t.xi with writeList := s.xi.writeList, cells := s.xi.cells, inFlight := s.xi.inFlight } = s.xi ∧
         t.xi.inFlight = s.xi.inFlight.filter (fun y => decide (y.tag ≠ tag)) ∧
         Answered s t [(im.cell, { result := .imageCorrupt, detail := check, pool := 0xFFFF, body := .zero })])

/-- R138, R139, R140: checks 3 to 6, judged in order when the last byte of an image has been taken. A wrong CRC is IMAGE_CORRUPT 3; a sequence
not above the floor IMAGE_OLD with both numbers; a slot count outside 1 to 32 or a slot length of 0 IMAGE_CORRUPT 5; a bad record
IMAGE_CORRUPT 6 with the position of the first. Each ends the install with nothing committed. With every check passed the unit is
COMMITTING, and no answer is handed. R135, R172: an image is read big-endian. -/
def Obligations.ImageChecksAtLastByte : Prop :=
  BigEndianRead ∧
  ∀ (s : State) (tag : Nat) (bytes : List Byte) (x : Transfer) (c : Nat) (im : ImageRead), s.transfer tag = some x →
    x.kind = .imageRead c → s.install = .reading im → im.readTag = some x.tag → im.crcAgrees →
    ∀ taken, taken = im.bytes ++ (if x.len ≤ bytes.length then bytes.take x.len else bytes.take (bytes.length / 16 * 16)) →
    taken.length = im.len → (128 ≤ im.bytes.length ∨ HeaderGood taken im.len) →
    ∀ (field : Nat → Nat → Nat) (records : List (List Byte)), field = readBE taken →
      records = (List.range (field 14 2)).map (fun i => (taken.drop (128 + 96 * i)).take 96) →
    ∃ t, exec (.imageReadArrival tag bytes) s = .next t ∧
      t = { s with xi := t.xi, install := t.install } ∧
      { t.xi with writeList := s.xi.writeList, cells := s.xi.cells, inFlight := s.xi.inFlight } = s.xi ∧
      t.xi.inFlight = s.xi.inFlight.filter (fun y => decide (y.tag ≠ tag)) ∧
      ∀ ended : Answer → Prop, (∀ a, ended a ↔ t.install = .idle ∧ Answered s t [(im.cell, a)]) →
      (imageCrc (taken.drop 10) ≠ BitVec.ofNat 32 (field 6 4) →
        ended { result := .imageCorrupt, detail := 3, pool := 0xFFFF, body := .zero }) ∧
      (imageCrc (taken.drop 10) = BitVec.ofNat 32 (field 6 4) → field 10 4 ≤ s.et.floor.toNat →
        ended { result := .imageOld, detail := 0, pool := 0xFFFF, body := .imageOld (BitVec.ofNat 32 (field 10 4)) s.et.floor }) ∧
      (imageCrc (taken.drop 10) = BitVec.ofNat 32 (field 6 4) → s.et.floor.toNat < field 10 4 →
        (field 16 2 < 1 ∨ 32 < field 16 2 ∨ field 18 2 = 0 →
          ended { result := .imageCorrupt, detail := 5, pool := 0xFFFF, body := .zero }) ∧
        (1 ≤ field 16 2 → field 16 2 ≤ 32 → field 18 2 ≠ 0 →
          (∀ before r after, records = before ++ r :: after →
            (∀ b1 b b2, before = b1 ++ b :: b2 → RecordGood (b1.map (fun r => readBE r 0 2)) b) →
            ¬ RecordGood (before.map (fun r => readBE r 0 2)) r →
              ended { result := .imageCorrupt, detail := 6, pool := BitVec.ofNat 16 before.length, body := .zero }) ∧
          ((∀ before r after, records = before ++ r :: after → RecordGood (before.map (fun r => readBE r 0 2)) r) →
            t.xi.writeList = s.xi.writeList ∧ t.xi.cells = s.xi.cells ∧
              ∃ im' staged header, t.install = .committing im' staged header none ∧ im'.cell = im.cell ∧
                header.sequence = BitVec.ofNat 32 (field 10 4) ∧ header.schedule.slotCount = field 16 2 ∧
                header.schedule.slotLength = field 18 2 ∧
                header.schedule.rates = (List.range 32).map (fun k => max 25 (min 400 (field (24 + 2 * k) 2))) ∧
                (∀ r ∈ records, Table.get none staged (readBE r 0 2) = some (recordStaged r)) ∧
                ∀ p, (∀ r ∈ records, readBE r 0 2 ≠ p) → Table.get none staged p = none)))

/-- R11 Table 1-2, Table 10-12: what a record stages, field by field, with the clamps in the order of the table. R135, R172: an image is read big-endian. -/
def Obligations.StagingClamps : Prop :=
  BigEndianRead ∧
  ∀ (r : List Byte) (p : Params), p = recordParams r →
    p.rank = (byteAt r 3).toNat ∧
    p.features = (List.range (byteAt r 2).toNat).map (fun k => readBE r (4 + 2 * k) 2) ∧
    p.scopeValue.toNat = readBE r 20 4 ∧ p.scopeMask.toNat = readBE r 24 4 ∧ p.reserveValue.toNat = readBE r 28 4 ∧
    p.reserveMask.toNat = readBE r 32 4 ∧ p.capacity = readBE r 36 2 ∧
    p.reserve = (if p.capacity < readBE r 38 2 then p.capacity else readBE r 38 2) ∧
    p.seatCap = (if 4096 < readBE r 40 2 then 4096 else readBE r 40 2) ∧
    p.baseCost = (if 4095 < readBE r 42 2 then 4095 else readBE r 42 2) ∧
    p.unitCost = (if 1023 < readBE r 44 2 then 1023 else readBE r 44 2) ∧
    p.includedUnits = (if 1024 < readBE r 46 2 then 1024 else readBE r 46 2) ∧
    (∀ d1 m1 x1 m2 d2, d1 = (if readBE r 48 2 = 0 then 1 else readBE r 48 2) →
      m1 = (if readBE r 50 2 = 0 then 1 else readBE r 50 2) → x1 = (if readBE r 52 2 = 0 then 1 else readBE r 52 2) →
      m2 = (if x1 < m1 then x1 else m1) → d2 = (if d1 < m2 then m2 else d1) →
      p.periodMax = x1 ∧ p.periodMin = m2 ∧ p.periodDefault = (if x1 < d2 then x1 else d2)) ∧
    p.linger = (byteAt r 54).toNat ∧ p.rateExempt = (byteAt r 55).getLsbD 0 ∧ p.validFrom.toNat = readBE r 56 4 ∧
    p.validTo.toNat = readBE r 60 4 ∧ (recordStaged r).mask.toNat = readBE r 64 4

/-- R141 Table 7-2, R142, R143, R144, R108: the commit event. Each pool number goes by its row of Table 7-2, and one in no list, ABSENT and
not in the image, stays as it was; there is no pool above 511 (R1); a kept pool takes its staged
parameter set, keeps in-use and lease count, has reserve-in-use recomputed from the flags formed against the new scope, and is DRAINING
when over its new limits and ACTIVE otherwise; every other field of every record is kept; the floor is the image sequence; and the kept
and leaving pools are reported to the Wait Unit. No cell, mask, schedule, meter or queue changes. -/
def Obligations.CommitByTable72 : Prop :=
  ∀ (s : State) (im : ImageRead) (staged : Table (Option StagedPool)) (header : HeaderContent), s.canonical = true →
    s.install = .committing im staged header none →
    ∀ image : Nat → Option StagedPool, image = Table.get none staged →
    ∃ t o r, exec .installCommit s = .next t ∧ t.et.floor = header.sequence ∧
      t.install = .committing im staged header (some o) ∧ t.wu = { s.wu with commitReports := s.wu.commitReports ++ [r] } ∧
      t = { s with et := t.et, lt := t.lt, install := t.install, wu := t.wu } ∧
      (∀ p, p ∈ o.created ↔ p < 512 ∧ (s.pool p).st = .absent ∧ image p ≠ none) ∧
      (∀ p, p ∈ o.kept ↔ p < 512 ∧ (s.pool p).st ≠ .absent ∧ image p ≠ none) ∧
      (∀ p, p ∈ o.retiring ↔ p < 512 ∧ (s.pool p).st ≠ .absent ∧ image p = none ∧ (s.pool p).leaseCount ≠ 0) ∧
      (∀ p, p ∈ o.removed ↔ p < 512 ∧ (s.pool p).st ≠ .absent ∧ image p = none ∧ (s.pool p).leaseCount = 0) ∧
      o.created.Nodup ∧ o.kept.Nodup ∧ o.retiring.Nodup ∧ o.removed.Nodup ∧
      (∀ p, p ∈ r.kept ↔ p ∈ o.kept) ∧ (∀ p, p ∈ r.leaving ↔ p ∈ o.retiring ∨ p ∈ o.removed) ∧
      r.leaving.Pairwise (· < ·) ∧
      (∀ p entry, p ∈ o.created → image p = some entry →
        t.pool p = { st := .active, params := some entry.params, inUse := 0, reserveInUse := 0, leaseCount := 0 }) ∧
      (∀ p entry, p ∈ o.kept → image p = some entry →
        t.pool p = {
          st :=
            if entry.params.capacity < (s.pool p).inUse ∨
                entry.params.seatCap ≠ 0 ∧ entry.params.seatCap < (s.pool p).leaseCount then .draining
            else .active
          params := some entry.params
          inUse := (s.pool p).inUse
          reserveInUse := ((t.records.filter (fun e => decide ((e.2.st = .held ∨ e.2.st = .lingering) ∧ e.2.pool = p ∧
            e.2.inReserve = true))).map (fun e => e.2.charge)).sum
          leaseCount := (s.pool p).leaseCount }) ∧
      (∀ p, p ∈ o.retiring → t.pool p = { s.pool p with st := .retiring }) ∧
      (∀ p, p ∈ o.removed → t.pool p = Pool.atReset) ∧
      (∀ p, p < 512 → p ∉ o.created → p ∉ o.kept → p ∉ o.retiring → p ∉ o.removed → t.pool p = s.pool p) ∧
      (∀ p, 512 ≤ p → t.pool p = Pool.atReset) ∧
      (∀ i, t.lease i = { s.lease i with inReserve := (t.lease i).inReserve }) ∧
      (∀ i entry, ((s.lease i).st = .held ∨ (s.lease i).st = .lingering) → (s.pool (s.lease i).pool).st ≠ .absent →
        image (s.lease i).pool = some entry →
        (t.lease i).inReserve = decide (((s.lease i).key ^^^ entry.params.reserveValue) &&& entry.params.reserveMask = 0)) ∧
      (∀ i, (s.lease i).st = .free ∨ (s.lease i).st = .lapsed ∨ image (s.lease i).pool = none → t.lease i = s.lease i)

/-- R126, R144, R10: the schedule content at the Schedule Unit, and the answer. With the clock SET the schedule and the kept pools' masks are
staged and the created pools' masks are active at once; with the clock UNSET all of it is active at once. A pool that became RETIRING
loses its staged mask, one that became ABSENT both. Then the INSTALL is answered OK with its four counts and the floor, and the unit is
IDLE; no meter is counted. -/
def Obligations.ScheduleContentTaken : Prop :=
  ∀ (s : State) (im : ImageRead) (staged : Table (Option StagedPool)) (header : HeaderContent) (o : CommitOutcome),
    s.install = .committing im staged header (some o) →
    (∀ p, [p ∈ o.created, p ∈ o.kept, p ∈ o.retiring, p ∈ o.removed].Pairwise (fun a b => ¬ (a ∧ b))) →
    ∃ t, exec .scheduleContent s = .next t ∧ t = { s with xi := t.xi, su := t.su, install := .idle } ∧ AnsweredFrame s t ∧
      Answered s t [(im.cell, { result := .ok, detail := 0, pool := 0xFFFF,
                                body := .install o.created.length o.kept.length o.retiring.length o.removed.length s.et.floor })] ∧
      { t.su with
        active := s.su.active, staged := s.su.staged, activeMasks := s.su.activeMasks, stagedMasks := s.su.stagedMasks } = s.su ∧
      (s.su.clockSet = true → t.su.active = s.su.active ∧ t.su.staged = some header.schedule) ∧
      (s.su.clockSet = false → t.su.active = header.schedule ∧ t.su.staged = none) ∧
      ∀ (p : Nat) (mask : Word), mask = ((Table.get none staged p).map StagedPool.mask).getD 0 →
        (p ∈ o.created ∨ p ∈ o.kept ∧ s.su.clockSet = false → t.activeMask p = mask ∧ t.stagedMask p = none) ∧
        (p ∈ o.kept → s.su.clockSet = true → t.activeMask p = s.activeMask p ∧ t.stagedMask p = some mask) ∧
        (p ∈ o.retiring → t.activeMask p = s.activeMask p ∧ t.stagedMask p = none) ∧
        (p ∈ o.removed → t.activeMask p = 0 ∧ t.stagedMask p = none) ∧
        (p ∉ o.created → p ∉ o.kept → p ∉ o.retiring → p ∉ o.removed →
          t.activeMask p = s.activeMask p ∧ t.stagedMask p = s.stagedMask p)

/-! ### Metering -/

/-- R149, R150, R151: METER_COUNT takes any one count handed and no other. A raise adds 1 to its meter of its pool, or sets the saturation
flag of one at its largest value; a new in-use above the peak becomes the peak, whose flag is set when it reaches 65535 (log entry 17).

R152, R153: a slot end handed to the Meter Unit, and INTERVAL_END as the slot end that ends an interval (log entry 4). The slot-end count
rises by 1; when that reaches the meter interval it returns to 0, the intervals-covered count rises, staying at 255, and the read-due mark
is set unless an owner read is in flight. -/
def Obligations.MeterCountsAndIntervals : Prop :=
  (∀ (s : State) (which p inUse : Nat) (m : Meters), m = s.metersOf p →
     ∀ (c : MeterCount), s.mu.inbox[which]? = some c →
     ∃ t, exec (.meterCount which) s = .next t ∧
       t = { s with mu := { s.mu with inbox := s.mu.inbox.eraseIdx which, meters := t.mu.meters } } ∧
       (c = .raise .grants p →
         t.metersOf p = { m with
           grants := if m.grants < 16777215 then m.grants + 1 else m.grants
           satGrants := m.satGrants || decide (16777215 ≤ m.grants) }) ∧
       (c = .raise .refusals p →
         t.metersOf p = { m with
           refusals := if m.refusals < 65535 then m.refusals + 1 else m.refusals
           satRefusals := m.satRefusals || decide (65535 ≤ m.refusals) }) ∧
       (c = .raise .waitExpiries p →
         t.metersOf p = { m with
           waitExpiries := if m.waitExpiries < 65535 then m.waitExpiries + 1 else m.waitExpiries
           satWaitExpiries := m.satWaitExpiries || decide (65535 ≤ m.waitExpiries) }) ∧
       (c = .raise .lapses p →
         t.metersOf p = { m with
           lapses := if m.lapses < 65535 then m.lapses + 1 else m.lapses
           satLapses := m.satLapses || decide (65535 ≤ m.lapses) }) ∧
       (c = .peak p inUse → inUse ≤ 65535 →
         t.metersOf p = { m with
           peak := max m.peak inUse
           satPeak := m.satPeak || decide (m.peak < 65535 ∧ inUse = 65535) }) ∧
       ((c = .peak p inUse ∨ ∃ k, c = .raise k p) → ∀ q, q ≠ p → t.metersOf q = s.metersOf q)) ∧
  (∀ s : State, 0 < s.mu.slotEnds →
     (s.mu.slotEndCount + 1 < s.mu.interval →
       exec .slotEnd s = .next { s with
         mu := { s.mu with slotEnds := s.mu.slotEnds - 1, slotEndCount := s.mu.slotEndCount + 1 } }) ∧
     (s.mu.interval ≤ s.mu.slotEndCount + 1 →
       ∃ t, exec .slotEnd s = .next t ∧ exec .intervalEnd s = .next t ∧
         t = { s with mu := { s.mu with
           slotEnds := s.mu.slotEnds - 1
           slotEndCount := 0
           covered := if s.mu.covered < 255 then s.mu.covered + 1 else s.mu.covered
           readDue := if s.mu.page = .reading then s.mu.readDue else true } }))

/-- R153, R154, R150, R155, R172: the owner word is read when the operation is IDLE, the mark set and DMA permitted. An arrival of four zero
bytes takes the page snapshot, counts the page, clears every meter but the peak, which is reloaded with the pool's in-use, clears every
flag and the intervals-covered count, and writing begins with the header; any other value merges: the operation is IDLE and nothing is
cleared.

R155, R156: while DMA is permitted the page goes on from write to write: the header, then the records of pools 0 to 511 in order, then the
owner word as 1 (log entry 11). When the owner word is written the operation is IDLE, and a METER notice joins the Notice Queue unless one
whose write has not begun is there. R159: outside RUN and HOLD the snapshot is taken and a completion counts all the same, and the write
that follows waits until DMA is permitted.

R175, R172, Tables 10-9 and 10-10: the 64 bytes of the page header and the 32 bytes of a pool's record are their fields at their offsets
and widths, and 0 elsewhere. -/
def Obligations.MeterPageReadAndWritten : Prop :=
  (∀ (s : State) (tag : Nat) (bytes : List Byte) (b0 b1 b2 b3 : Byte) (x : Transfer), bytes = [b0, b1, b2, b3] →
     ∀ landed : State, landed = { s with xi := { s.xi with inFlight := s.xi.inFlight.filter (fun y => decide (y.tag ≠ tag)) } } →
     (s.mu.page = .idle → s.mu.readDue = true → (s.xi.engine = .run ∨ s.xi.engine = .hold) →
       exec .meterOwnerRead s = .next { s with
         nextTag := s.nextTag + 1
         xi := { s.xi with inFlight := s.xi.inFlight ++ [⟨s.nextTag, .ownerRead, s.xi.base + 8, 4, []⟩] }
         mu := { s.mu with readDue := false, page := .reading } }) ∧
     (s.transfer tag = some x → x.kind = .ownerRead → (b0 ≠ 0 ∨ b1 ≠ 0 ∨ b2 ≠ 0 ∨ b3 ≠ 0) →
       exec (.ownerReadArrival tag bytes) s = .next { landed with mu := { s.mu with page := .idle } }) ∧
     (s.transfer tag = some x → x.kind = .ownerRead → b0 = 0 → b1 = 0 → b2 = 0 → b3 = 0 →
       ∃ t snap, exec (.ownerReadArrival tag bytes) s = .next t ∧
         (∀ p, p < 512 → t.metersOf p = { Meters.atReset with peak := (s.pool p).inUse }) ∧
         snap.covered = s.mu.covered ∧ snap.frame = s.su.frame ∧ snap.slot = s.su.slot ∧ snap.pages = s.mu.pages + 1 ∧
         (∀ p, p < 512 → Table.get Meters.atReset snap.meters p = s.metersOf p ∧
           Table.get Occupancy.atReset snap.pools p = ⟨(s.pool p).st, (s.pool p).inUse, (s.pool p).leaseCount⟩) ∧
         ∀ u : Bool → State, (∀ issued, u issued = { landed with
             mu := { s.mu with
               meters := t.mu.meters, covered := 0, pages := s.mu.pages + 1, page := .writing snap 0 issued } }) →
         ((s.xi.engine = .run ∨ s.xi.engine = .hold) →
           t = { u true with
             nextTag := s.nextTag + 1
             xi := { landed.xi with
               inFlight := landed.xi.inFlight ++ [⟨s.nextTag, .pageWrite, s.xi.base + 0x5000, 0, snap.headerBytes⟩] } }) ∧
         (s.xi.engine ≠ .run → s.xi.engine ≠ .hold → t = u false))) ∧
  (∀ (s : State) (tag part : Nat) (snap : PageSnapshot) (x : Transfer), s.transfer tag = some x →
     ∀ inFlight, inFlight = s.xi.inFlight.filter (fun y => decide (y.tag ≠ tag)) →
     (x.kind = .pageWrite → s.mu.page = .writing snap part true →
       ((s.xi.engine = .run ∨ s.xi.engine = .hold) →
         exec (.pageWriteComplete tag) s = .next { s with
           nextTag := s.nextTag + 1
           mu := { s.mu with page := .writing snap (part + 1) true }
           xi := { s.xi with
             inFlight := inFlight ++
               [if part < 512 then
                 ⟨s.nextTag, .pageWrite, s.xi.base + BitVec.ofNat 64 (0x5040 + 32 * part), 0, snap.recordBytes part⟩
               else ⟨s.nextTag, .ownerWrite, s.xi.base + 8, 0, [1, 0, 0, 0]⟩] } }) ∧
       (s.xi.engine ≠ .run → s.xi.engine ≠ .hold →
         exec (.pageWriteComplete tag) s = .next { s with
           mu := { s.mu with page := .writing snap (part + 1) false }
           xi := { s.xi with inFlight := inFlight } })) ∧
     (x.kind = .ownerWrite →
       ∀ waits : Prop,
         (waits ↔ Notice.meter ∈ s.xi.notices.drop (if s.xi.noticeStage = .notBegun then 0 else 1)) →
       (waits → exec (.ownerWordWriteComplete tag) s = .next { s with
         xi := { s.xi with inFlight := inFlight }
         mu := { s.mu with page := .idle } }) ∧
       (¬ waits → exec (.ownerWordWriteComplete tag) s = .next { s with
         xi := { s.xi with inFlight := inFlight, notices := s.xi.notices ++ [.meter] }
         mu := { s.mu with page := .idle } }))) ∧
  ∀ snap : PageSnapshot, LaidOut snap.headerBytes 0 64 (pageHeaderFields snap) ∧
    ∀ (p : Nat) (m : Meters) (o : Occupancy), m = Table.get Meters.atReset snap.meters p →
      o = Table.get Occupancy.atReset snap.pools p → LaidOut (snap.recordBytes p) 0 32 (pageRecordFields m o)

/-! ### Charge and admission arithmetic -/

/-- R25, R26, R27, R28: extra units, raw charge, scaled charge and the charge, rounded up to the next whole token, with the bounds the rules
give for the ranges of Table 2-1. -/
def Obligations.ChargeArithmetic : Prop :=
  ∀ (quantity units base unit included rate : Nat), 1 ≤ quantity → quantity ≤ 64 → 1 ≤ units → units ≤ 1024 → base ≤ 4095 →
    unit ≤ 1023 → included ≤ 1024 → 25 ≤ rate → rate ≤ 400 →
    ∀ extra raw charge, extra = extraUnits units included → raw = rawCharge quantity units base unit included →
      charge = chargeOf raw rate →
    (included < units → extra + included = units) ∧ (units ≤ included → extra = 0) ∧ extra ≤ 1024 ∧
    unit * extra ≤ 1047552 ∧ (1 ≤ included → unit * extra ≤ 1046529) ∧ base + unit * extra ≤ 1051647 ∧
    raw = quantity * (base + unit * extra) ∧ raw ≤ 67305408 ∧ (base = 0 → unit * extra = 0 → raw = 0) ∧
    raw * rate ≤ 26922163200 ∧
    raw * rate ≤ charge * 100 ∧ charge * 100 < raw * rate + 100 ∧ charge ≤ 269221632 ∧ (raw = 0 ↔ charge = 0) ∧
    (rate = 100 → charge = raw) ∧ ((raw * rate) % 100 = 0 → charge * 100 = raw * rate)

/-- R29, R32, R33, R34, R35: fits capacity, the shortfall, the limit for a client key, the token condition and the seat condition. -/
def Obligations.AdmissionConditions : Prop :=
  ∀ (p : Params) (e : Pool) (key : Word) (charge : Nat),
    (fitsCapacity charge p.capacity = true ↔ charge ≤ 65535 ∧ charge ≤ p.capacity) ∧
    (e.reserveInUse ≤ p.reserve → shortfall p.reserve e.reserveInUse + e.reserveInUse = p.reserve) ∧
    (p.reserve ≤ e.reserveInUse → shortfall p.reserve e.reserveInUse = 0) ∧
    ((∀ i, i < 32 → p.reserveMask.getLsbD i = true → key.getLsbD i = p.reserveValue.getLsbD i) →
      clientLimit p e.reserveInUse key = p.capacity) ∧
    ((∃ i, i < 32 ∧ p.reserveMask.getLsbD i = true ∧ key.getLsbD i ≠ p.reserveValue.getLsbD i) →
      clientLimit p e.reserveInUse key = p.capacity - shortfall p.reserve e.reserveInUse) ∧
    (tokenCondition p e key charge = true ↔ e.inUse + charge ≤ clientLimit p e.reserveInUse key) ∧
    (p.capacity ≤ 65535 → ¬ (charge ≤ 65535 ∧ charge ≤ p.capacity) → tokenCondition p e key charge = false) ∧
    (e.inUse ≤ clientLimit p e.reserveInUse key → tokenCondition p e key 0 = true) ∧
    (seatCondition p e = true ↔ p.seatCap = 0 ∨ e.leaseCount + 1 ≤ p.seatCap)

/-! ### Rules of the whole machine -/

/-- R159 Table 9-3: no transfer is issued outside RUN and HOLD: whatever the command or the idle step, a transfer in flight afterwards was in
flight before, unless the engine is in RUN or HOLD afterwards. -/
def Obligations.DmaOnlyInRunAndHold : Prop :=
  ∀ s t : State, step s = .next t → t.xi.engine ≠ .run → t.xi.engine ≠ .hold → ∀ x ∈ t.xi.inFlight, x ∈ s.xi.inFlight

/-- R168: an MSI is sent when an enabled cause bit goes from 0 to 1, one for each, and when a CONTROL write takes the enable from 0 to 1 with
a cause bit at 1; nothing else sends one, no command and no idle step (the tally is the model's, log entry 23). -/
def Obligations.MsiOnlyAsStated : Prop :=
  (∀ (c : Instr) (s t : State), exec c s = .next t → isReset c = false →
    (isControl c = false →
      t.msiSent = s.msiSent +
        (if s.xi.intEnable = true ∧ s.xi.causeNotice = false ∧ t.xi.causeNotice = true then 1 else 0) +
        (if s.xi.intEnable = true ∧ s.xi.causeFault = false ∧ t.xi.causeFault = true then 1 else 0)) ∧
    (isControl c = true →
      t.msiSent = s.msiSent +
        (if s.xi.intEnable = false ∧ t.xi.intEnable = true ∧ (s.xi.causeNotice = true ∨ s.xi.causeFault = true) then 1 else 0))) ∧
  (∀ s t : State, s.pending = [] → step s = .next t → t.msiSent = s.msiSent)

/-- R31: a lease's held charge, and its pool, feature and client key, never change while its record stays HELD or LINGERING. -/
def Obligations.HeldChargeKept : Prop :=
  ∀ s t : State, s.canonical = true → step s = .next t → ∀ i, (s.lease i).holds = true → (t.lease i).holds = true →
    (t.lease i).charge = (s.lease i).charge ∧ (t.lease i).pool = (s.lease i).pool ∧ (t.lease i).feature = (s.lease i).feature ∧
      (t.lease i).key = (s.lease i).key

/-! ### Invariants that every step keeps -/

/-- Log entry 21: every step keeps the canonical form of every table. -/
def Obligations.CanonicalKept : Prop := ∀ s t : State, s.canonical = true → step s = .next t → t.canonical = true

/-- R158, R159: every step keeps the exchange base 4 KiB aligned, nonzero outside OFFLINE, with nothing in flight in OFFLINE. -/
def Obligations.BaseKept : Prop := ∀ s t : State, s.baseOk = true → step s = .next t → t.baseOk = true

/-- R120, R121: every step keeps the schedules in range and the position within the active geometry. -/
def Obligations.PositionKept : Prop := ∀ s t : State, s.positionOk = true → step s = .next t → t.positionOk = true

/-- R16: every step keeps in-use, reserve-in-use and lease count equal to the sums and the number of the HELD and LINGERING records. -/
def Obligations.LedgerKept : Prop := ∀ s t : State, s.ledgerOk → step s = .next t → t.ledgerOk

/-- R13: every step keeps every ACTIVE pool within its capacity and its seat cap. -/
def Obligations.LimitsKept : Prop := ∀ s t : State, s.limitsKept → step s = .next t → t.limitsKept

/-- R66: every step keeps every wait queue ordered by class.

R65, R68, R161, R162, R165, R156: every step keeps each cell outside IDLE and PENDING in exactly one place, the one its state names, and
the Notice Queue within its bounds. So a cell is WAITING exactly while it is in a wait queue, and then in one queue and once; and the
Notice Queue holds at most one ANSWER per cell, one LAPSE per lease record, two METER entries, and 5122 entries. -/
def Obligations.QueueOrderKept : Prop :=
  (∀ s t : State, s.queuesOrdered = true → step s = .next t → t.queuesOrdered = true) ∧
  (∀ s t : State, s.placesKept = true → step s = .next t → t.placesKept = true) ∧
  ∀ s : State, s.placesKept = true →
    (∀ c, (s.cell c).st = .waiting ↔ ∃ p, ∃ w ∈ s.queue p, w.cell = c) ∧
    (∀ p q v w, v ∈ s.queue p → w ∈ s.queue q → v.cell = w.cell → p = q ∧ v = w) ∧
    (∀ p, ((s.queue p).map Waiter.cell).Nodup) ∧
    (s.xi.notices.filterMap Notice.answers).Nodup ∧ (s.xi.notices.filterMap Notice.lapses).Nodup ∧
    s.xi.notices.count .meter ≤ 2 ∧ s.xi.notices.length ≤ 5122

/-- R166, R167, R170: every step keeps the notices-written count at most 1024 above the cached consumed count. -/
def Obligations.NoticeRoomKept : Prop := ∀ s t : State, s.noticeRoomKept = true → step s = .next t → t.noticeRoomKept = true

/-- R11, R139: every step keeps every parameter set, committed or staged, in the ranges of Table 1-1. -/
def Obligations.ParamsRangeKept : Prop := ∀ s t : State, s.paramsInRange = true → step s = .next t → t.paramsInRange = true

/-- R47, R121, R159: no step but a reset, idle steps among them, makes the clock UNSET or enters OFFLINE.

R19, R124, R128: the install sequence floor and the Frame Number never decrease at a step, unless the command is a reset. -/
def Obligations.NothingGoesBackButByReset : Prop :=
  (∀ s t : State, step s = .next t → (∀ c rest, s.pending = c :: rest → isReset c = false) →
     (s.su.clockSet = true → t.su.clockSet = true) ∧ (s.xi.engine ≠ .offline → t.xi.engine ≠ .offline)) ∧
  (∀ s t : State, s.floorBelowStaged = true → s.positionOk = true → step s = .next t →
     (∀ c rest, s.pending = c :: rest → isReset c = false) →
     t.floorBelowStaged = true ∧ s.et.floor.toNat ≤ t.et.floor.toNat ∧ s.su.frame.toNat ≤ t.su.frame.toNat)

/-- R171 and the reset rules: the reset state meets every invariant above, and at most eight read-ahead slots are occupied. -/
def Obligations.ResetMeetsInvariants : Prop :=
  State.reset.canonical = true ∧ State.reset.baseOk = true ∧ State.reset.positionOk = true ∧ State.reset.ledgerOk ∧
    State.reset.limitsKept ∧ State.reset.queuesOrdered = true ∧ State.reset.noticeRoomKept = true ∧
    State.reset.paramsInRange = true ∧ State.reset.floorBelowStaged = true ∧ State.reset.readAheadKept = true ∧
    State.reset.placesKept = true
end

