-- ==== Sys2Proof/Laws/Tables.lean ====
section
/-! SUPPORT. The laws of the sparse tables: what a read gives after each operation, and that each keeps the canonical form. -/

namespace Sys2Proof.Machine

variable {α : Type}

theorem Table.get_put_self (d : α) (i : Nat) (v : α) (t : Table α) : Table.get d (Table.put i v t) i = v := by
  induction t with
  | nil => simp [Table.put, Table.get]
  | cons e t ih =>
    obtain ⟨k, w⟩ := e
    unfold Table.put
    split_ifs with h1 h2
    · simp [Table.get]
    · simp [Table.get]
    · simp [Table.get, ih, Ne.symm h2]

theorem Table.get_put_other (d : α) {i j : Nat} (h : j ≠ i) (v : α) (t : Table α) :
    Table.get d (Table.put i v t) j = Table.get d t j := by
  induction t with
  | nil => simp [Table.put, Table.get, Ne.symm h]
  | cons e t ih =>
    obtain ⟨k, w⟩ := e
    unfold Table.put
    split_ifs with h1 h2
    · simp [Table.get, Ne.symm h]
    · subst h2; simp [Table.get, Ne.symm h]
    · simp [Table.get, ih]

theorem Table.get_erase_self (d : α) (i : Nat) (t : Table α) : Table.get d (Table.erase i t) i = d := by
  induction t with
  | nil => rfl
  | cons e t ih =>
    obtain ⟨k, w⟩ := e
    by_cases h : k = i
    · simpa [Table.erase, h] using ih
    · simpa [Table.erase, h, Table.get] using ih

theorem Table.get_erase_other (d : α) {i j : Nat} (h : j ≠ i) (t : Table α) :
    Table.get d (Table.erase i t) j = Table.get d t j := by
  induction t with
  | nil => rfl
  | cons e t ih =>
    obtain ⟨k, w⟩ := e
    by_cases hk : k = i
    · have hj : k ≠ j := fun e => h (by omega)
      simpa [Table.erase, hk, Table.get, Ne.symm h] using ih
    · by_cases hkj : k = j
      · simp [Table.erase, Table.get, hkj, h]
      · simpa [Table.erase, hk, Table.get, hkj] using ih

/-- A read after a write to the same number gives the value written. -/
@[simp] theorem Table.get_set_self [DecidableEq α] (d : α) (t : Table α) (i : Nat) (v : α) :
    Table.get d (Table.set d t i v) i = v := by
  unfold Table.set
  split_ifs with h
  · rw [h, Table.get_erase_self]
  · exact Table.get_put_self d i v t

/-- A write leaves every other number as it was. -/
theorem Table.get_set_other [DecidableEq α] (d : α) (t : Table α) {i j : Nat} (h : j ≠ i) (v : α) :
    Table.get d (Table.set d t i v) j = Table.get d t j := by
  unfold Table.set
  split_ifs
  · exact Table.get_erase_other d h t
  · exact Table.get_put_other d h v t

theorem Table.get_set [DecidableEq α] (d : α) (t : Table α) (i j : Nat) (v : α) :
    Table.get d (Table.set d t i v) j = if j = i then v else Table.get d t j := by
  split_ifs with h
  · rw [h, Table.get_set_self]
  · exact Table.get_set_other d t h v

theorem Table.get_of_not_mem (d : α) {t : Table α} {i : Nat} (h : i ∉ t.map Prod.fst) : Table.get d t i = d := by
  induction t with
  | nil => rfl
  | cons e t ih =>
    obtain ⟨k, w⟩ := e
    simp only [List.map_cons, List.mem_cons, not_or] at h
    simp [Table.get, Ne.symm h.1, ih h.2]

/-- What a read of a canonical table gives: the listed entry. -/
theorem Table.get_of_mem [DecidableEq α] (d : α) {t : Table α} (hc : Table.canonical d t = true) {i : Nat} {v : α}
    (h : (i, v) ∈ t) : Table.get d t i = v := by
  have hp : (t.map Prod.fst).Pairwise (· < ·) := by
    simp only [Table.canonical, Bool.and_eq_true, decide_eq_true_eq] at hc
    exact hc.1
  clear hc
  induction t with
  | nil => cases h
  | cons e t ih =>
    obtain ⟨k, w⟩ := e
    simp only [List.map_cons, List.pairwise_cons] at hp
    rcases List.mem_cons.1 h with he | he
    · cases he; simp [Table.get]
    · have : k < i := hp.1 i (List.mem_map.2 ⟨_, he, rfl⟩)
      simp [Table.get, Nat.ne_of_lt this, ih he hp.2]

theorem Table.canonical_iff [DecidableEq α] (d : α) (t : Table α) :
    Table.canonical d t = true ↔ (t.map Prod.fst).Pairwise (· < ·) ∧ ∀ e ∈ t, e.2 ≠ d := by
  simp only [Table.canonical, Bool.and_eq_true, decide_eq_true_eq, List.all_eq_true]

theorem Table.erase_keys (i : Nat) (t : Table α) : ((Table.erase i t).map Prod.fst).Sublist (t.map Prod.fst) :=
  (List.filter_sublist).map _

theorem Table.put_keys_mem (i : Nat) (v : α) (t : Table α) (k : Nat) (h : k ∈ (Table.put i v t).map Prod.fst) :
    k = i ∨ k ∈ t.map Prod.fst := by
  induction t with
  | nil => simpa [Table.put] using h
  | cons e t ih =>
    obtain ⟨l, w⟩ := e
    unfold Table.put at h
    split_ifs at h with h1 h2
    · simpa using h
    · subst h2; right; simpa using h
    · simp only [List.map_cons, List.mem_cons] at h ⊢
      rcases h with h | h
      · exact .inr (.inl h)
      · rcases ih h with h | h
        · exact .inl h
        · exact .inr (.inr h)

theorem Table.put_rising (i : Nat) (v : α) (t : Table α) (h : (t.map Prod.fst).Pairwise (· < ·)) :
    ((Table.put i v t).map Prod.fst).Pairwise (· < ·) := by
  induction t with
  | nil => simp [Table.put]
  | cons e t ih =>
    obtain ⟨k, w⟩ := e
    simp only [List.map_cons, List.pairwise_cons] at h
    unfold Table.put
    split_ifs with h1 h2
    · simp only [List.map_cons, List.pairwise_cons, List.mem_cons]
      exact ⟨fun a ha => ha.elim (fun e => e ▸ h1) (fun ha => lt_trans h1 (h.1 a ha)), h.1, h.2⟩
    · subst h2; simpa using h
    · simp only [List.map_cons, List.pairwise_cons]
      refine ⟨fun a ha => ?_, ih h.2⟩
      rcases Table.put_keys_mem i v t a ha with e | e
      · omega
      · exact h.1 a e

theorem Table.put_values (i : Nat) (v : α) (t : Table α) (e : Nat × α) (h : e ∈ Table.put i v t) : e = (i, v) ∨ e ∈ t := by
  induction t with
  | nil => simpa [Table.put] using h
  | cons f t ih =>
    obtain ⟨k, w⟩ := f
    unfold Table.put at h
    split_ifs at h with h1 h2
    · simpa using h
    · rcases List.mem_cons.1 h with h | h
      · exact .inl h
      · exact .inr (List.mem_cons_of_mem _ h)
    · rcases List.mem_cons.1 h with h | h
      · exact .inr (h ▸ List.mem_cons_self)
      · rcases ih h with h | h
        · exact .inl h
        · exact .inr (List.mem_cons_of_mem _ h)

/-- A write keeps the canonical form. -/
theorem Table.canonical_set [DecidableEq α] (d : α) (t : Table α) (i : Nat) (v : α) (h : Table.canonical d t = true) :
    Table.canonical d (Table.set d t i v) = true := by
  rw [Table.canonical_iff] at h ⊢
  unfold Table.set
  split_ifs with hv
  · exact ⟨h.1.sublist (Table.erase_keys i t), fun e he => h.2 e (List.mem_of_mem_filter he)⟩
  · refine ⟨Table.put_rising i v t h.1, fun e he => ?_⟩
    rcases Table.put_values i v t e he with e1 | e1
    · rw [e1]; exact hv
    · exact h.2 e e1

/-- An entry of a table changed entry by entry comes from an entry of the table. -/
theorem Table.mem_mapEntries [DecidableEq α] (d : α) (f : Nat → α → α) (t : Table α) (i : Nat) (v : α) :
    (i, v) ∈ Table.mapEntries d f t ↔ v ≠ d ∧ ∃ w, (i, w) ∈ t ∧ f i w = v := by
  simp only [Table.mapEntries, List.mem_filterMap]
  constructor
  · rintro ⟨⟨k, w⟩, hk, hf⟩
    split_ifs at hf with hd
    simp only [Option.some.injEq, Prod.mk.injEq] at hf
    obtain ⟨rfl, rfl⟩ := hf
    exact ⟨hd, w, hk, rfl⟩
  · rintro ⟨hv, w, hw, rfl⟩
    exact ⟨(i, w), hw, by simp [hv]⟩

theorem Table.mapEntries_keys [DecidableEq α] (d : α) (f : Nat → α → α) (t : Table α) :
    ((Table.mapEntries d f t).map Prod.fst).Sublist (t.map Prod.fst) := by
  induction t with
  | nil => simp [Table.mapEntries]
  | cons e t ih =>
    by_cases h : f e.1 e.2 = d
    · simpa [Table.mapEntries, List.filterMap_cons, h] using ih.cons e.1
    · simpa [Table.mapEntries, List.filterMap_cons, h] using ih.cons_cons e.1

/-- Changing every entry keeps the canonical form. -/
theorem Table.canonical_mapEntries [DecidableEq α] (d : α) (f : Nat → α → α) (t : Table α) (h : Table.canonical d t = true) :
    Table.canonical d (Table.mapEntries d f t) = true := by
  rw [Table.canonical_iff] at h ⊢
  exact ⟨h.1.sublist (Table.mapEntries_keys d f t), fun e he => ((Table.mem_mapEntries d f t e.1 e.2).1 he).1⟩

/-- A read after changing every entry of a canonical table, for an `f` that keeps what an unlisted number reads as. -/
theorem Table.get_mapEntries [DecidableEq α] (d : α) (f : Nat → α → α) (t : Table α) (h : Table.canonical d t = true) (i : Nat)
    (hd : f i d = d) : Table.get d (Table.mapEntries d f t) i = f i (Table.get d t i) := by
  by_cases hm : i ∈ t.map Prod.fst
  · obtain ⟨⟨k, w⟩, hk, rfl⟩ := List.mem_map.1 hm
    rw [Table.get_of_mem d h hk]
    by_cases hf : f k w = d
    · rw [hf]
      apply Table.get_of_not_mem
      intro hm'
      obtain ⟨⟨k', v⟩, hv, hkk⟩ := List.mem_map.1 hm'
      simp only at hkk
      subst hkk
      obtain ⟨hne, w', hw', hfw⟩ := (Table.mem_mapEntries d f t _ _).1 hv
      have : w' = w := by rw [← Table.get_of_mem d h hw', ← Table.get_of_mem d h hk]
      subst this
      exact hne (hfw ▸ hf)
    · exact Table.get_of_mem d (Table.canonical_mapEntries d f t h) ((Table.mem_mapEntries d f t _ _).2 ⟨hf, w, hk, rfl⟩)
  · rw [Table.get_of_not_mem d hm, hd]
    exact Table.get_of_not_mem d (fun hm' => hm ((Table.mapEntries_keys d f t).subset hm'))

theorem Table.mem_build [DecidableEq α] (d : α) (n : Nat) (f : Nat → α) (i : Nat) (v : α) :
    (i, v) ∈ Table.build d n f ↔ i < n ∧ f i = v ∧ v ≠ d := by
  simp only [Table.build, List.mem_filterMap, List.mem_range]
  constructor
  · rintro ⟨k, hk, hf⟩
    split_ifs at hf with hd
    simp only [Option.some.injEq, Prod.mk.injEq] at hf
    obtain ⟨rfl, rfl⟩ := hf
    exact ⟨hk, rfl, hd⟩
  · rintro ⟨hi, rfl, hv⟩
    exact ⟨i, hi, by simp [hv]⟩

theorem Table.build_rising [DecidableEq α] (d : α) (n : Nat) (f : Nat → α) :
    ((Table.build d n f).map Prod.fst).Pairwise (· < ·) := by
  have hs : ∀ l : List Nat,
      ((l.filterMap (fun i => if f i = d then none else some (i, f i))).map Prod.fst).Sublist l := by
    intro l
    induction l with
    | nil => simp
    | cons a l ih =>
      by_cases h : f a = d
      · simpa [List.filterMap_cons, h] using ih.cons a
      · simpa [List.filterMap_cons, h] using ih.cons_cons a
  exact List.pairwise_lt_range.sublist (hs _)

/-- A table built from a function is canonical. -/
theorem Table.canonical_build [DecidableEq α] (d : α) (n : Nat) (f : Nat → α) : Table.canonical d (Table.build d n f) = true := by
  rw [Table.canonical_iff]
  exact ⟨Table.build_rising d n f, fun e he => ((Table.mem_build d n f e.1 e.2).1 he).2.2⟩

/-- What a read of a table built from a function gives. -/
theorem Table.get_build [DecidableEq α] (d : α) (n : Nat) (f : Nat → α) (i : Nat) :
    Table.get d (Table.build d n f) i = if i < n then f i else d := by
  by_cases h : i < n ∧ f i ≠ d
  · rw [Table.get_of_mem d (Table.canonical_build d n f) ((Table.mem_build d n f i (f i)).2 ⟨h.1, rfl, h.2⟩), if_pos h.1]
  · rw [Table.get_of_not_mem]
    · split_ifs with hi
      · exact (not_not.1 (fun hne => h ⟨hi, hne⟩)).symm
      · rfl
    · intro hm
      obtain ⟨e, he, rfl⟩ := List.mem_map.1 hm
      have := (Table.mem_build d n f e.1 e.2).1 he
      exact h ⟨this.1, this.2.1 ▸ this.2.2⟩

theorem mem_addNumber (i k : Nat) (l : List Nat) : k ∈ addNumber i l ↔ k = i ∨ k ∈ l := by
  induction l with
  | nil => simp [addNumber]
  | cons a l ih =>
    unfold addNumber
    split_ifs with h1 h2
    · simp
    · subst h2; simp
    · simp only [List.mem_cons, ih]; tauto

theorem rising_addNumber (i : Nat) (l : List Nat) (h : rising l = true) : rising (addNumber i l) = true := by
  simp only [rising, decide_eq_true_eq] at h ⊢
  induction l with
  | nil => simp [addNumber]
  | cons a l ih =>
    rw [List.pairwise_cons] at h
    unfold addNumber
    split_ifs with h1 h2
    · rw [List.pairwise_cons, List.pairwise_cons]
      exact ⟨fun b hb => (List.mem_cons.1 hb).elim (fun e => e ▸ h1) (fun hb => lt_trans h1 (h.1 b hb)), h⟩
    · rw [List.pairwise_cons]; exact h
    · rw [List.pairwise_cons]
      refine ⟨fun b hb => ?_, ih h.2⟩
      rcases (mem_addNumber i b l).1 hb with e | e
      · omega
      · exact h.1 b e

theorem mem_addNumbers (is l : List Nat) (k : Nat) : k ∈ addNumbers is l ↔ k ∈ is ∨ k ∈ l := by
  induction is generalizing l with
  | nil => simp [addNumbers]
  | cons i is ih =>
    have := ih (addNumber i l)
    simp only [addNumbers, List.foldl_cons] at this ⊢
    rw [this, mem_addNumber, List.mem_cons]; tauto

theorem rising_addNumbers (is l : List Nat) (h : rising l = true) : rising (addNumbers is l) = true := by
  induction is generalizing l with
  | nil => exact h
  | cons i is ih => exact ih _ (rising_addNumber i l h)

theorem mem_insertByKey (key : α → Nat) (x y : α) (l : List α) : y ∈ insertByKey key x l ↔ y = x ∨ y ∈ l := by
  induction l with
  | nil => simp [insertByKey]
  | cons a l ih =>
    unfold insertByKey
    split_ifs
    · simp
    · simp only [List.mem_cons, ih]; tauto

theorem mem_sortByKey (key : α → Nat) (y : α) (l : List α) : y ∈ sortByKey key l ↔ y ∈ l := by
  have h : ∀ (l acc : List α), y ∈ l.foldl (fun acc x => insertByKey key x acc) acc ↔ y ∈ l ∨ y ∈ acc := by
    intro l
    induction l with
    | nil => simp
    | cons a l ih =>
      intro acc
      rw [List.foldl_cons, ih, mem_insertByKey, List.mem_cons]; tauto
  simpa [sortByKey] using h l []

end Sys2Proof.Machine
end

