-- ==== Sys2Proof/Laws/State.lean ====
section
/-! SUPPORT. One lemma per field per update of the state, each true by unfolding, so that no proof unfolds a record update; and what
each entry reads as after it is written. -/

namespace Sys2Proof.Machine

variable (s : State)

@[simp] theorem State.setCell_pending (c : Nat) (v : Cell) : (s.setCell c v).pending = s.pending := rfl
@[simp] theorem State.setCell_nextTag (c : Nat) (v : Cell) : (s.setCell c v).nextTag = s.nextTag := rfl
@[simp] theorem State.setCell_msiSent (c : Nat) (v : Cell) : (s.setCell c v).msiSent = s.msiSent := rfl
@[simp] theorem State.setCell_decision (c : Nat) (v : Cell) : (s.setCell c v).decision = s.decision := rfl
@[simp] theorem State.setCell_et (c : Nat) (v : Cell) : (s.setCell c v).et = s.et := rfl
@[simp] theorem State.setCell_lt (c : Nat) (v : Cell) : (s.setCell c v).lt = s.lt := rfl
@[simp] theorem State.setCell_wu (c : Nat) (v : Cell) : (s.setCell c v).wu = s.wu := rfl
@[simp] theorem State.setCell_tb (c : Nat) (v : Cell) : (s.setCell c v).tb = s.tb := rfl
@[simp] theorem State.setCell_su (c : Nat) (v : Cell) : (s.setCell c v).su = s.su := rfl
@[simp] theorem State.setCell_install (c : Nat) (v : Cell) : (s.setCell c v).install = s.install := rfl
@[simp] theorem State.setCell_mu (c : Nat) (v : Cell) : (s.setCell c v).mu = s.mu := rfl
@[simp] theorem State.setCell_xi_base (c : Nat) (v : Cell) : (s.setCell c v).xi.base = s.xi.base := rfl
@[simp] theorem State.setCell_xi_engine (c : Nat) (v : Cell) : (s.setCell c v).xi.engine = s.xi.engine := rfl
@[simp] theorem State.setCell_xi_baseInvalid (c : Nat) (v : Cell) : (s.setCell c v).xi.baseInvalid = s.xi.baseInvalid := rfl
@[simp] theorem State.setCell_xi_servicePointer (c : Nat) (v : Cell) : (s.setCell c v).xi.servicePointer = s.xi.servicePointer := rfl
@[simp] theorem State.setCell_xi_readAhead (c : Nat) (v : Cell) : (s.setCell c v).xi.readAhead = s.xi.readAhead := rfl
@[simp] theorem State.setCell_xi_writeList (c : Nat) (v : Cell) : (s.setCell c v).xi.writeList = s.xi.writeList := rfl
@[simp] theorem State.setCell_xi_writeStage (c : Nat) (v : Cell) : (s.setCell c v).xi.writeStage = s.xi.writeStage := rfl
@[simp] theorem State.setCell_xi_notices (c : Nat) (v : Cell) : (s.setCell c v).xi.notices = s.xi.notices := rfl
@[simp] theorem State.setCell_xi_noticeStage (c : Nat) (v : Cell) : (s.setCell c v).xi.noticeStage = s.xi.noticeStage := rfl
@[simp] theorem State.setCell_xi_written (c : Nat) (v : Cell) : (s.setCell c v).xi.written = s.xi.written := rfl
@[simp] theorem State.setCell_xi_cached (c : Nat) (v : Cell) : (s.setCell c v).xi.cached = s.xi.cached := rfl
@[simp] theorem State.setCell_xi_causeNotice (c : Nat) (v : Cell) : (s.setCell c v).xi.causeNotice = s.xi.causeNotice := rfl
@[simp] theorem State.setCell_xi_causeFault (c : Nat) (v : Cell) : (s.setCell c v).xi.causeFault = s.xi.causeFault := rfl
@[simp] theorem State.setCell_xi_intEnable (c : Nat) (v : Cell) : (s.setCell c v).xi.intEnable = s.xi.intEnable := rfl
@[simp] theorem State.setCell_xi_faultKind (c : Nat) (v : Cell) : (s.setCell c v).xi.faultKind = s.xi.faultKind := rfl
@[simp] theorem State.setCell_xi_faultIndex (c : Nat) (v : Cell) : (s.setCell c v).xi.faultIndex = s.xi.faultIndex := rfl
@[simp] theorem State.setCell_xi_faultAddr (c : Nat) (v : Cell) : (s.setCell c v).xi.faultAddr = s.xi.faultAddr := rfl
@[simp] theorem State.setCell_xi_inFlight (c : Nat) (v : Cell) : (s.setCell c v).xi.inFlight = s.xi.inFlight := rfl
@[simp] theorem State.setCell_xi_retry (c : Nat) (v : Cell) : (s.setCell c v).xi.retry = s.xi.retry := rfl

@[simp] theorem State.setCellState_pending (c : Nat) (st : CellState) : (s.setCellState c st).pending = s.pending := rfl
@[simp] theorem State.setCellState_nextTag (c : Nat) (st : CellState) : (s.setCellState c st).nextTag = s.nextTag := rfl
@[simp] theorem State.setCellState_msiSent (c : Nat) (st : CellState) : (s.setCellState c st).msiSent = s.msiSent := rfl
@[simp] theorem State.setCellState_decision (c : Nat) (st : CellState) : (s.setCellState c st).decision = s.decision := rfl
@[simp] theorem State.setCellState_et (c : Nat) (st : CellState) : (s.setCellState c st).et = s.et := rfl
@[simp] theorem State.setCellState_lt (c : Nat) (st : CellState) : (s.setCellState c st).lt = s.lt := rfl
@[simp] theorem State.setCellState_wu (c : Nat) (st : CellState) : (s.setCellState c st).wu = s.wu := rfl
@[simp] theorem State.setCellState_tb (c : Nat) (st : CellState) : (s.setCellState c st).tb = s.tb := rfl
@[simp] theorem State.setCellState_su (c : Nat) (st : CellState) : (s.setCellState c st).su = s.su := rfl
@[simp] theorem State.setCellState_install (c : Nat) (st : CellState) : (s.setCellState c st).install = s.install := rfl
@[simp] theorem State.setCellState_mu (c : Nat) (st : CellState) : (s.setCellState c st).mu = s.mu := rfl
@[simp] theorem State.setCellState_xi_base (c : Nat) (st : CellState) : (s.setCellState c st).xi.base = s.xi.base := rfl
@[simp] theorem State.setCellState_xi_engine (c : Nat) (st : CellState) : (s.setCellState c st).xi.engine = s.xi.engine := rfl
@[simp] theorem State.setCellState_xi_baseInvalid (c : Nat) (st : CellState) : (s.setCellState c st).xi.baseInvalid = s.xi.baseInvalid := rfl
@[simp] theorem State.setCellState_xi_servicePointer (c : Nat) (st : CellState) : (s.setCellState c st).xi.servicePointer = s.xi.servicePointer := rfl
@[simp] theorem State.setCellState_xi_readAhead (c : Nat) (st : CellState) : (s.setCellState c st).xi.readAhead = s.xi.readAhead := rfl
@[simp] theorem State.setCellState_xi_writeList (c : Nat) (st : CellState) : (s.setCellState c st).xi.writeList = s.xi.writeList := rfl
@[simp] theorem State.setCellState_xi_writeStage (c : Nat) (st : CellState) : (s.setCellState c st).xi.writeStage = s.xi.writeStage := rfl
@[simp] theorem State.setCellState_xi_notices (c : Nat) (st : CellState) : (s.setCellState c st).xi.notices = s.xi.notices := rfl
@[simp] theorem State.setCellState_xi_noticeStage (c : Nat) (st : CellState) : (s.setCellState c st).xi.noticeStage = s.xi.noticeStage := rfl
@[simp] theorem State.setCellState_xi_written (c : Nat) (st : CellState) : (s.setCellState c st).xi.written = s.xi.written := rfl
@[simp] theorem State.setCellState_xi_cached (c : Nat) (st : CellState) : (s.setCellState c st).xi.cached = s.xi.cached := rfl
@[simp] theorem State.setCellState_xi_causeNotice (c : Nat) (st : CellState) : (s.setCellState c st).xi.causeNotice = s.xi.causeNotice := rfl
@[simp] theorem State.setCellState_xi_causeFault (c : Nat) (st : CellState) : (s.setCellState c st).xi.causeFault = s.xi.causeFault := rfl
@[simp] theorem State.setCellState_xi_intEnable (c : Nat) (st : CellState) : (s.setCellState c st).xi.intEnable = s.xi.intEnable := rfl
@[simp] theorem State.setCellState_xi_faultKind (c : Nat) (st : CellState) : (s.setCellState c st).xi.faultKind = s.xi.faultKind := rfl
@[simp] theorem State.setCellState_xi_faultIndex (c : Nat) (st : CellState) : (s.setCellState c st).xi.faultIndex = s.xi.faultIndex := rfl
@[simp] theorem State.setCellState_xi_faultAddr (c : Nat) (st : CellState) : (s.setCellState c st).xi.faultAddr = s.xi.faultAddr := rfl
@[simp] theorem State.setCellState_xi_inFlight (c : Nat) (st : CellState) : (s.setCellState c st).xi.inFlight = s.xi.inFlight := rfl
@[simp] theorem State.setCellState_xi_retry (c : Nat) (st : CellState) : (s.setCellState c st).xi.retry = s.xi.retry := rfl

@[simp] theorem State.setPool_pending (p : Nat) (v : Pool) : (s.setPool p v).pending = s.pending := rfl
@[simp] theorem State.setPool_nextTag (p : Nat) (v : Pool) : (s.setPool p v).nextTag = s.nextTag := rfl
@[simp] theorem State.setPool_msiSent (p : Nat) (v : Pool) : (s.setPool p v).msiSent = s.msiSent := rfl
@[simp] theorem State.setPool_xi (p : Nat) (v : Pool) : (s.setPool p v).xi = s.xi := rfl
@[simp] theorem State.setPool_decision (p : Nat) (v : Pool) : (s.setPool p v).decision = s.decision := rfl
@[simp] theorem State.setPool_lt (p : Nat) (v : Pool) : (s.setPool p v).lt = s.lt := rfl
@[simp] theorem State.setPool_wu (p : Nat) (v : Pool) : (s.setPool p v).wu = s.wu := rfl
@[simp] theorem State.setPool_tb (p : Nat) (v : Pool) : (s.setPool p v).tb = s.tb := rfl
@[simp] theorem State.setPool_su (p : Nat) (v : Pool) : (s.setPool p v).su = s.su := rfl
@[simp] theorem State.setPool_install (p : Nat) (v : Pool) : (s.setPool p v).install = s.install := rfl
@[simp] theorem State.setPool_mu (p : Nat) (v : Pool) : (s.setPool p v).mu = s.mu := rfl
@[simp] theorem State.setPool_et_floor (p : Nat) (v : Pool) : (s.setPool p v).et.floor = s.et.floor := rfl

@[simp] theorem State.setLease_pending (i : Nat) (v : Lease) : (s.setLease i v).pending = s.pending := rfl
@[simp] theorem State.setLease_nextTag (i : Nat) (v : Lease) : (s.setLease i v).nextTag = s.nextTag := rfl
@[simp] theorem State.setLease_msiSent (i : Nat) (v : Lease) : (s.setLease i v).msiSent = s.msiSent := rfl
@[simp] theorem State.setLease_xi (i : Nat) (v : Lease) : (s.setLease i v).xi = s.xi := rfl
@[simp] theorem State.setLease_decision (i : Nat) (v : Lease) : (s.setLease i v).decision = s.decision := rfl
@[simp] theorem State.setLease_et (i : Nat) (v : Lease) : (s.setLease i v).et = s.et := rfl
@[simp] theorem State.setLease_wu (i : Nat) (v : Lease) : (s.setLease i v).wu = s.wu := rfl
@[simp] theorem State.setLease_tb (i : Nat) (v : Lease) : (s.setLease i v).tb = s.tb := rfl
@[simp] theorem State.setLease_su (i : Nat) (v : Lease) : (s.setLease i v).su = s.su := rfl
@[simp] theorem State.setLease_install (i : Nat) (v : Lease) : (s.setLease i v).install = s.install := rfl
@[simp] theorem State.setLease_mu (i : Nat) (v : Lease) : (s.setLease i v).mu = s.mu := rfl

@[simp] theorem State.setQueue_pending (p : Nat) (q : List Waiter) : (s.setQueue p q).pending = s.pending := rfl
@[simp] theorem State.setQueue_nextTag (p : Nat) (q : List Waiter) : (s.setQueue p q).nextTag = s.nextTag := rfl
@[simp] theorem State.setQueue_msiSent (p : Nat) (q : List Waiter) : (s.setQueue p q).msiSent = s.msiSent := rfl
@[simp] theorem State.setQueue_xi (p : Nat) (q : List Waiter) : (s.setQueue p q).xi = s.xi := rfl
@[simp] theorem State.setQueue_decision (p : Nat) (q : List Waiter) : (s.setQueue p q).decision = s.decision := rfl
@[simp] theorem State.setQueue_et (p : Nat) (q : List Waiter) : (s.setQueue p q).et = s.et := rfl
@[simp] theorem State.setQueue_lt (p : Nat) (q : List Waiter) : (s.setQueue p q).lt = s.lt := rfl
@[simp] theorem State.setQueue_tb (p : Nat) (q : List Waiter) : (s.setQueue p q).tb = s.tb := rfl
@[simp] theorem State.setQueue_su (p : Nat) (q : List Waiter) : (s.setQueue p q).su = s.su := rfl
@[simp] theorem State.setQueue_install (p : Nat) (q : List Waiter) : (s.setQueue p q).install = s.install := rfl
@[simp] theorem State.setQueue_mu (p : Nat) (q : List Waiter) : (s.setQueue p q).mu = s.mu := rfl
@[simp] theorem State.setQueue_wu_stall (p : Nat) (q : List Waiter) : (s.setQueue p q).wu.stall = s.wu.stall := rfl
@[simp] theorem State.setQueue_wu_due (p : Nat) (q : List Waiter) : (s.setQueue p q).wu.due = s.wu.due := rfl
@[simp] theorem State.setQueue_wu_exam (p : Nat) (q : List Waiter) : (s.setQueue p q).wu.exam = s.wu.exam := rfl
@[simp] theorem State.setQueue_wu_parkInbox (p : Nat) (q : List Waiter) : (s.setQueue p q).wu.parkInbox = s.wu.parkInbox := rfl
@[simp] theorem State.setQueue_wu_commitReports (p : Nat) (q : List Waiter) : (s.setQueue p q).wu.commitReports = s.wu.commitReports := rfl
@[simp] theorem State.setQueue_wu_heldTicks (p : Nat) (q : List Waiter) : (s.setQueue p q).wu.heldTicks = s.wu.heldTicks := rfl

@[simp] theorem State.setActiveMask_pending (p : Nat) (m : Word) : (s.setActiveMask p m).pending = s.pending := rfl
@[simp] theorem State.setActiveMask_nextTag (p : Nat) (m : Word) : (s.setActiveMask p m).nextTag = s.nextTag := rfl
@[simp] theorem State.setActiveMask_msiSent (p : Nat) (m : Word) : (s.setActiveMask p m).msiSent = s.msiSent := rfl
@[simp] theorem State.setActiveMask_xi (p : Nat) (m : Word) : (s.setActiveMask p m).xi = s.xi := rfl
@[simp] theorem State.setActiveMask_decision (p : Nat) (m : Word) : (s.setActiveMask p m).decision = s.decision := rfl
@[simp] theorem State.setActiveMask_et (p : Nat) (m : Word) : (s.setActiveMask p m).et = s.et := rfl
@[simp] theorem State.setActiveMask_lt (p : Nat) (m : Word) : (s.setActiveMask p m).lt = s.lt := rfl
@[simp] theorem State.setActiveMask_wu (p : Nat) (m : Word) : (s.setActiveMask p m).wu = s.wu := rfl
@[simp] theorem State.setActiveMask_tb (p : Nat) (m : Word) : (s.setActiveMask p m).tb = s.tb := rfl
@[simp] theorem State.setActiveMask_install (p : Nat) (m : Word) : (s.setActiveMask p m).install = s.install := rfl
@[simp] theorem State.setActiveMask_mu (p : Nat) (m : Word) : (s.setActiveMask p m).mu = s.mu := rfl
@[simp] theorem State.setActiveMask_su_clockSet (p : Nat) (m : Word) : (s.setActiveMask p m).su.clockSet = s.su.clockSet := rfl
@[simp] theorem State.setActiveMask_su_frame (p : Nat) (m : Word) : (s.setActiveMask p m).su.frame = s.su.frame := rfl
@[simp] theorem State.setActiveMask_su_slot (p : Nat) (m : Word) : (s.setActiveMask p m).su.slot = s.su.slot := rfl
@[simp] theorem State.setActiveMask_su_seconds (p : Nat) (m : Word) : (s.setActiveMask p m).su.seconds = s.su.seconds := rfl
@[simp] theorem State.setActiveMask_su_active (p : Nat) (m : Word) : (s.setActiveMask p m).su.active = s.su.active := rfl
@[simp] theorem State.setActiveMask_su_staged (p : Nat) (m : Word) : (s.setActiveMask p m).su.staged = s.su.staged := rfl
@[simp] theorem State.setActiveMask_su_stagedMasks (p : Nat) (m : Word) : (s.setActiveMask p m).su.stagedMasks = s.su.stagedMasks := rfl

@[simp] theorem State.setStagedMask_pending (p : Nat) (m : Option Word) : (s.setStagedMask p m).pending = s.pending := rfl
@[simp] theorem State.setStagedMask_nextTag (p : Nat) (m : Option Word) : (s.setStagedMask p m).nextTag = s.nextTag := rfl
@[simp] theorem State.setStagedMask_msiSent (p : Nat) (m : Option Word) : (s.setStagedMask p m).msiSent = s.msiSent := rfl
@[simp] theorem State.setStagedMask_xi (p : Nat) (m : Option Word) : (s.setStagedMask p m).xi = s.xi := rfl
@[simp] theorem State.setStagedMask_decision (p : Nat) (m : Option Word) : (s.setStagedMask p m).decision = s.decision := rfl
@[simp] theorem State.setStagedMask_et (p : Nat) (m : Option Word) : (s.setStagedMask p m).et = s.et := rfl
@[simp] theorem State.setStagedMask_lt (p : Nat) (m : Option Word) : (s.setStagedMask p m).lt = s.lt := rfl
@[simp] theorem State.setStagedMask_wu (p : Nat) (m : Option Word) : (s.setStagedMask p m).wu = s.wu := rfl
@[simp] theorem State.setStagedMask_tb (p : Nat) (m : Option Word) : (s.setStagedMask p m).tb = s.tb := rfl
@[simp] theorem State.setStagedMask_install (p : Nat) (m : Option Word) : (s.setStagedMask p m).install = s.install := rfl
@[simp] theorem State.setStagedMask_mu (p : Nat) (m : Option Word) : (s.setStagedMask p m).mu = s.mu := rfl
@[simp] theorem State.setStagedMask_su_clockSet (p : Nat) (m : Option Word) : (s.setStagedMask p m).su.clockSet = s.su.clockSet := rfl
@[simp] theorem State.setStagedMask_su_frame (p : Nat) (m : Option Word) : (s.setStagedMask p m).su.frame = s.su.frame := rfl
@[simp] theorem State.setStagedMask_su_slot (p : Nat) (m : Option Word) : (s.setStagedMask p m).su.slot = s.su.slot := rfl
@[simp] theorem State.setStagedMask_su_seconds (p : Nat) (m : Option Word) : (s.setStagedMask p m).su.seconds = s.su.seconds := rfl
@[simp] theorem State.setStagedMask_su_active (p : Nat) (m : Option Word) : (s.setStagedMask p m).su.active = s.su.active := rfl
@[simp] theorem State.setStagedMask_su_staged (p : Nat) (m : Option Word) : (s.setStagedMask p m).su.staged = s.su.staged := rfl
@[simp] theorem State.setStagedMask_su_activeMasks (p : Nat) (m : Option Word) : (s.setStagedMask p m).su.activeMasks = s.su.activeMasks := rfl

@[simp] theorem State.setMeters_pending (p : Nat) (m : Meters) : (s.setMeters p m).pending = s.pending := rfl
@[simp] theorem State.setMeters_nextTag (p : Nat) (m : Meters) : (s.setMeters p m).nextTag = s.nextTag := rfl
@[simp] theorem State.setMeters_msiSent (p : Nat) (m : Meters) : (s.setMeters p m).msiSent = s.msiSent := rfl
@[simp] theorem State.setMeters_xi (p : Nat) (m : Meters) : (s.setMeters p m).xi = s.xi := rfl
@[simp] theorem State.setMeters_decision (p : Nat) (m : Meters) : (s.setMeters p m).decision = s.decision := rfl
@[simp] theorem State.setMeters_et (p : Nat) (m : Meters) : (s.setMeters p m).et = s.et := rfl
@[simp] theorem State.setMeters_lt (p : Nat) (m : Meters) : (s.setMeters p m).lt = s.lt := rfl
@[simp] theorem State.setMeters_wu (p : Nat) (m : Meters) : (s.setMeters p m).wu = s.wu := rfl
@[simp] theorem State.setMeters_tb (p : Nat) (m : Meters) : (s.setMeters p m).tb = s.tb := rfl
@[simp] theorem State.setMeters_su (p : Nat) (m : Meters) : (s.setMeters p m).su = s.su := rfl
@[simp] theorem State.setMeters_install (p : Nat) (m : Meters) : (s.setMeters p m).install = s.install := rfl
@[simp] theorem State.setMeters_mu_slotEndCount (p : Nat) (m : Meters) : (s.setMeters p m).mu.slotEndCount = s.mu.slotEndCount := rfl
@[simp] theorem State.setMeters_mu_interval (p : Nat) (m : Meters) : (s.setMeters p m).mu.interval = s.mu.interval := rfl
@[simp] theorem State.setMeters_mu_covered (p : Nat) (m : Meters) : (s.setMeters p m).mu.covered = s.mu.covered := rfl
@[simp] theorem State.setMeters_mu_pages (p : Nat) (m : Meters) : (s.setMeters p m).mu.pages = s.mu.pages := rfl
@[simp] theorem State.setMeters_mu_page (p : Nat) (m : Meters) : (s.setMeters p m).mu.page = s.mu.page := rfl
@[simp] theorem State.setMeters_mu_readDue (p : Nat) (m : Meters) : (s.setMeters p m).mu.readDue = s.mu.readDue := rfl
@[simp] theorem State.setMeters_mu_inbox (p : Nat) (m : Meters) : (s.setMeters p m).mu.inbox = s.mu.inbox := rfl
@[simp] theorem State.setMeters_mu_slotEnds (p : Nat) (m : Meters) : (s.setMeters p m).mu.slotEnds = s.mu.slotEnds := rfl

@[simp] theorem State.handAnswer_pending (c : Nat) (a : Answer) : (s.handAnswer c a).pending = s.pending := rfl
@[simp] theorem State.handAnswer_nextTag (c : Nat) (a : Answer) : (s.handAnswer c a).nextTag = s.nextTag := rfl
@[simp] theorem State.handAnswer_msiSent (c : Nat) (a : Answer) : (s.handAnswer c a).msiSent = s.msiSent := rfl
@[simp] theorem State.handAnswer_decision (c : Nat) (a : Answer) : (s.handAnswer c a).decision = s.decision := rfl
@[simp] theorem State.handAnswer_et (c : Nat) (a : Answer) : (s.handAnswer c a).et = s.et := rfl
@[simp] theorem State.handAnswer_lt (c : Nat) (a : Answer) : (s.handAnswer c a).lt = s.lt := rfl
@[simp] theorem State.handAnswer_wu (c : Nat) (a : Answer) : (s.handAnswer c a).wu = s.wu := rfl
@[simp] theorem State.handAnswer_tb (c : Nat) (a : Answer) : (s.handAnswer c a).tb = s.tb := rfl
@[simp] theorem State.handAnswer_su (c : Nat) (a : Answer) : (s.handAnswer c a).su = s.su := rfl
@[simp] theorem State.handAnswer_install (c : Nat) (a : Answer) : (s.handAnswer c a).install = s.install := rfl
@[simp] theorem State.handAnswer_mu (c : Nat) (a : Answer) : (s.handAnswer c a).mu = s.mu := rfl
@[simp] theorem State.handAnswer_xi_base (c : Nat) (a : Answer) : (s.handAnswer c a).xi.base = s.xi.base := rfl
@[simp] theorem State.handAnswer_xi_engine (c : Nat) (a : Answer) : (s.handAnswer c a).xi.engine = s.xi.engine := rfl
@[simp] theorem State.handAnswer_xi_baseInvalid (c : Nat) (a : Answer) : (s.handAnswer c a).xi.baseInvalid = s.xi.baseInvalid := rfl
@[simp] theorem State.handAnswer_xi_servicePointer (c : Nat) (a : Answer) : (s.handAnswer c a).xi.servicePointer = s.xi.servicePointer := rfl
@[simp] theorem State.handAnswer_xi_readAhead (c : Nat) (a : Answer) : (s.handAnswer c a).xi.readAhead = s.xi.readAhead := rfl
@[simp] theorem State.handAnswer_xi_writeStage (c : Nat) (a : Answer) : (s.handAnswer c a).xi.writeStage = s.xi.writeStage := rfl
@[simp] theorem State.handAnswer_xi_notices (c : Nat) (a : Answer) : (s.handAnswer c a).xi.notices = s.xi.notices := rfl
@[simp] theorem State.handAnswer_xi_noticeStage (c : Nat) (a : Answer) : (s.handAnswer c a).xi.noticeStage = s.xi.noticeStage := rfl
@[simp] theorem State.handAnswer_xi_written (c : Nat) (a : Answer) : (s.handAnswer c a).xi.written = s.xi.written := rfl
@[simp] theorem State.handAnswer_xi_cached (c : Nat) (a : Answer) : (s.handAnswer c a).xi.cached = s.xi.cached := rfl
@[simp] theorem State.handAnswer_xi_causeNotice (c : Nat) (a : Answer) : (s.handAnswer c a).xi.causeNotice = s.xi.causeNotice := rfl
@[simp] theorem State.handAnswer_xi_causeFault (c : Nat) (a : Answer) : (s.handAnswer c a).xi.causeFault = s.xi.causeFault := rfl
@[simp] theorem State.handAnswer_xi_intEnable (c : Nat) (a : Answer) : (s.handAnswer c a).xi.intEnable = s.xi.intEnable := rfl
@[simp] theorem State.handAnswer_xi_faultKind (c : Nat) (a : Answer) : (s.handAnswer c a).xi.faultKind = s.xi.faultKind := rfl
@[simp] theorem State.handAnswer_xi_faultIndex (c : Nat) (a : Answer) : (s.handAnswer c a).xi.faultIndex = s.xi.faultIndex := rfl
@[simp] theorem State.handAnswer_xi_faultAddr (c : Nat) (a : Answer) : (s.handAnswer c a).xi.faultAddr = s.xi.faultAddr := rfl
@[simp] theorem State.handAnswer_xi_inFlight (c : Nat) (a : Answer) : (s.handAnswer c a).xi.inFlight = s.xi.inFlight := rfl
@[simp] theorem State.handAnswer_xi_retry (c : Nat) (a : Answer) : (s.handAnswer c a).xi.retry = s.xi.retry := rfl

@[simp] theorem State.handNotice_pending (n : Notice) : (s.handNotice n).pending = s.pending := rfl
@[simp] theorem State.handNotice_nextTag (n : Notice) : (s.handNotice n).nextTag = s.nextTag := rfl
@[simp] theorem State.handNotice_msiSent (n : Notice) : (s.handNotice n).msiSent = s.msiSent := rfl
@[simp] theorem State.handNotice_decision (n : Notice) : (s.handNotice n).decision = s.decision := rfl
@[simp] theorem State.handNotice_et (n : Notice) : (s.handNotice n).et = s.et := rfl
@[simp] theorem State.handNotice_lt (n : Notice) : (s.handNotice n).lt = s.lt := rfl
@[simp] theorem State.handNotice_wu (n : Notice) : (s.handNotice n).wu = s.wu := rfl
@[simp] theorem State.handNotice_tb (n : Notice) : (s.handNotice n).tb = s.tb := rfl
@[simp] theorem State.handNotice_su (n : Notice) : (s.handNotice n).su = s.su := rfl
@[simp] theorem State.handNotice_install (n : Notice) : (s.handNotice n).install = s.install := rfl
@[simp] theorem State.handNotice_mu (n : Notice) : (s.handNotice n).mu = s.mu := rfl
@[simp] theorem State.handNotice_xi_base (n : Notice) : (s.handNotice n).xi.base = s.xi.base := rfl
@[simp] theorem State.handNotice_xi_engine (n : Notice) : (s.handNotice n).xi.engine = s.xi.engine := rfl
@[simp] theorem State.handNotice_xi_baseInvalid (n : Notice) : (s.handNotice n).xi.baseInvalid = s.xi.baseInvalid := rfl
@[simp] theorem State.handNotice_xi_cells (n : Notice) : (s.handNotice n).xi.cells = s.xi.cells := rfl
@[simp] theorem State.handNotice_xi_servicePointer (n : Notice) : (s.handNotice n).xi.servicePointer = s.xi.servicePointer := rfl
@[simp] theorem State.handNotice_xi_readAhead (n : Notice) : (s.handNotice n).xi.readAhead = s.xi.readAhead := rfl
@[simp] theorem State.handNotice_xi_writeList (n : Notice) : (s.handNotice n).xi.writeList = s.xi.writeList := rfl
@[simp] theorem State.handNotice_xi_writeStage (n : Notice) : (s.handNotice n).xi.writeStage = s.xi.writeStage := rfl
@[simp] theorem State.handNotice_xi_noticeStage (n : Notice) : (s.handNotice n).xi.noticeStage = s.xi.noticeStage := rfl
@[simp] theorem State.handNotice_xi_written (n : Notice) : (s.handNotice n).xi.written = s.xi.written := rfl
@[simp] theorem State.handNotice_xi_cached (n : Notice) : (s.handNotice n).xi.cached = s.xi.cached := rfl
@[simp] theorem State.handNotice_xi_causeNotice (n : Notice) : (s.handNotice n).xi.causeNotice = s.xi.causeNotice := rfl
@[simp] theorem State.handNotice_xi_causeFault (n : Notice) : (s.handNotice n).xi.causeFault = s.xi.causeFault := rfl
@[simp] theorem State.handNotice_xi_intEnable (n : Notice) : (s.handNotice n).xi.intEnable = s.xi.intEnable := rfl
@[simp] theorem State.handNotice_xi_faultKind (n : Notice) : (s.handNotice n).xi.faultKind = s.xi.faultKind := rfl
@[simp] theorem State.handNotice_xi_faultIndex (n : Notice) : (s.handNotice n).xi.faultIndex = s.xi.faultIndex := rfl
@[simp] theorem State.handNotice_xi_faultAddr (n : Notice) : (s.handNotice n).xi.faultAddr = s.xi.faultAddr := rfl
@[simp] theorem State.handNotice_xi_inFlight (n : Notice) : (s.handNotice n).xi.inFlight = s.xi.inFlight := rfl
@[simp] theorem State.handNotice_xi_retry (n : Notice) : (s.handNotice n).xi.retry = s.xi.retry := rfl

@[simp] theorem State.handCounts_pending (cs : List MeterCount) : (s.handCounts cs).pending = s.pending := rfl
@[simp] theorem State.handCounts_nextTag (cs : List MeterCount) : (s.handCounts cs).nextTag = s.nextTag := rfl
@[simp] theorem State.handCounts_msiSent (cs : List MeterCount) : (s.handCounts cs).msiSent = s.msiSent := rfl
@[simp] theorem State.handCounts_xi (cs : List MeterCount) : (s.handCounts cs).xi = s.xi := rfl
@[simp] theorem State.handCounts_decision (cs : List MeterCount) : (s.handCounts cs).decision = s.decision := rfl
@[simp] theorem State.handCounts_et (cs : List MeterCount) : (s.handCounts cs).et = s.et := rfl
@[simp] theorem State.handCounts_lt (cs : List MeterCount) : (s.handCounts cs).lt = s.lt := rfl
@[simp] theorem State.handCounts_wu (cs : List MeterCount) : (s.handCounts cs).wu = s.wu := rfl
@[simp] theorem State.handCounts_tb (cs : List MeterCount) : (s.handCounts cs).tb = s.tb := rfl
@[simp] theorem State.handCounts_su (cs : List MeterCount) : (s.handCounts cs).su = s.su := rfl
@[simp] theorem State.handCounts_install (cs : List MeterCount) : (s.handCounts cs).install = s.install := rfl
@[simp] theorem State.handCounts_mu_meters (cs : List MeterCount) : (s.handCounts cs).mu.meters = s.mu.meters := rfl
@[simp] theorem State.handCounts_mu_slotEndCount (cs : List MeterCount) : (s.handCounts cs).mu.slotEndCount = s.mu.slotEndCount := rfl
@[simp] theorem State.handCounts_mu_interval (cs : List MeterCount) : (s.handCounts cs).mu.interval = s.mu.interval := rfl
@[simp] theorem State.handCounts_mu_covered (cs : List MeterCount) : (s.handCounts cs).mu.covered = s.mu.covered := rfl
@[simp] theorem State.handCounts_mu_pages (cs : List MeterCount) : (s.handCounts cs).mu.pages = s.mu.pages := rfl
@[simp] theorem State.handCounts_mu_page (cs : List MeterCount) : (s.handCounts cs).mu.page = s.mu.page := rfl
@[simp] theorem State.handCounts_mu_readDue (cs : List MeterCount) : (s.handCounts cs).mu.readDue = s.mu.readDue := rfl
@[simp] theorem State.handCounts_mu_slotEnds (cs : List MeterCount) : (s.handCounts cs).mu.slotEnds = s.mu.slotEnds := rfl

@[simp] theorem State.landed_pending (tag : Nat) : (s.landed tag).pending = s.pending := rfl
@[simp] theorem State.landed_nextTag (tag : Nat) : (s.landed tag).nextTag = s.nextTag := rfl
@[simp] theorem State.landed_msiSent (tag : Nat) : (s.landed tag).msiSent = s.msiSent := rfl
@[simp] theorem State.landed_decision (tag : Nat) : (s.landed tag).decision = s.decision := rfl
@[simp] theorem State.landed_et (tag : Nat) : (s.landed tag).et = s.et := rfl
@[simp] theorem State.landed_lt (tag : Nat) : (s.landed tag).lt = s.lt := rfl
@[simp] theorem State.landed_wu (tag : Nat) : (s.landed tag).wu = s.wu := rfl
@[simp] theorem State.landed_tb (tag : Nat) : (s.landed tag).tb = s.tb := rfl
@[simp] theorem State.landed_su (tag : Nat) : (s.landed tag).su = s.su := rfl
@[simp] theorem State.landed_install (tag : Nat) : (s.landed tag).install = s.install := rfl
@[simp] theorem State.landed_mu (tag : Nat) : (s.landed tag).mu = s.mu := rfl
@[simp] theorem State.landed_xi_base (tag : Nat) : (s.landed tag).xi.base = s.xi.base := rfl
@[simp] theorem State.landed_xi_engine (tag : Nat) : (s.landed tag).xi.engine = s.xi.engine := rfl
@[simp] theorem State.landed_xi_baseInvalid (tag : Nat) : (s.landed tag).xi.baseInvalid = s.xi.baseInvalid := rfl
@[simp] theorem State.landed_xi_cells (tag : Nat) : (s.landed tag).xi.cells = s.xi.cells := rfl
@[simp] theorem State.landed_xi_servicePointer (tag : Nat) : (s.landed tag).xi.servicePointer = s.xi.servicePointer := rfl
@[simp] theorem State.landed_xi_readAhead (tag : Nat) : (s.landed tag).xi.readAhead = s.xi.readAhead := rfl
@[simp] theorem State.landed_xi_writeList (tag : Nat) : (s.landed tag).xi.writeList = s.xi.writeList := rfl
@[simp] theorem State.landed_xi_writeStage (tag : Nat) : (s.landed tag).xi.writeStage = s.xi.writeStage := rfl
@[simp] theorem State.landed_xi_notices (tag : Nat) : (s.landed tag).xi.notices = s.xi.notices := rfl
@[simp] theorem State.landed_xi_noticeStage (tag : Nat) : (s.landed tag).xi.noticeStage = s.xi.noticeStage := rfl
@[simp] theorem State.landed_xi_written (tag : Nat) : (s.landed tag).xi.written = s.xi.written := rfl
@[simp] theorem State.landed_xi_cached (tag : Nat) : (s.landed tag).xi.cached = s.xi.cached := rfl
@[simp] theorem State.landed_xi_causeNotice (tag : Nat) : (s.landed tag).xi.causeNotice = s.xi.causeNotice := rfl
@[simp] theorem State.landed_xi_causeFault (tag : Nat) : (s.landed tag).xi.causeFault = s.xi.causeFault := rfl
@[simp] theorem State.landed_xi_intEnable (tag : Nat) : (s.landed tag).xi.intEnable = s.xi.intEnable := rfl
@[simp] theorem State.landed_xi_faultKind (tag : Nat) : (s.landed tag).xi.faultKind = s.xi.faultKind := rfl
@[simp] theorem State.landed_xi_faultIndex (tag : Nat) : (s.landed tag).xi.faultIndex = s.xi.faultIndex := rfl
@[simp] theorem State.landed_xi_faultAddr (tag : Nat) : (s.landed tag).xi.faultAddr = s.xi.faultAddr := rfl
@[simp] theorem State.landed_xi_retry (tag : Nat) : (s.landed tag).xi.retry = s.xi.retry := rfl

@[simp] theorem State.makeDue_pending (ps : List Nat) : (s.makeDue ps).pending = s.pending := rfl
@[simp] theorem State.makeDue_nextTag (ps : List Nat) : (s.makeDue ps).nextTag = s.nextTag := rfl
@[simp] theorem State.makeDue_msiSent (ps : List Nat) : (s.makeDue ps).msiSent = s.msiSent := rfl
@[simp] theorem State.makeDue_xi (ps : List Nat) : (s.makeDue ps).xi = s.xi := rfl
@[simp] theorem State.makeDue_decision (ps : List Nat) : (s.makeDue ps).decision = s.decision := rfl
@[simp] theorem State.makeDue_et (ps : List Nat) : (s.makeDue ps).et = s.et := rfl
@[simp] theorem State.makeDue_lt (ps : List Nat) : (s.makeDue ps).lt = s.lt := rfl
@[simp] theorem State.makeDue_tb (ps : List Nat) : (s.makeDue ps).tb = s.tb := rfl
@[simp] theorem State.makeDue_su (ps : List Nat) : (s.makeDue ps).su = s.su := rfl
@[simp] theorem State.makeDue_install (ps : List Nat) : (s.makeDue ps).install = s.install := rfl
@[simp] theorem State.makeDue_mu (ps : List Nat) : (s.makeDue ps).mu = s.mu := rfl
@[simp] theorem State.makeDue_wu_queues (ps : List Nat) : (s.makeDue ps).wu.queues = s.wu.queues := rfl
@[simp] theorem State.makeDue_wu_stall (ps : List Nat) : (s.makeDue ps).wu.stall = s.wu.stall := rfl
@[simp] theorem State.makeDue_wu_exam (ps : List Nat) : (s.makeDue ps).wu.exam = s.wu.exam := rfl
@[simp] theorem State.makeDue_wu_parkInbox (ps : List Nat) : (s.makeDue ps).wu.parkInbox = s.wu.parkInbox := rfl
@[simp] theorem State.makeDue_wu_commitReports (ps : List Nat) : (s.makeDue ps).wu.commitReports = s.wu.commitReports := rfl
@[simp] theorem State.makeDue_wu_heldTicks (ps : List Nat) : (s.makeDue ps).wu.heldTicks = s.wu.heldTicks := rfl

@[simp] theorem State.setStall_pending (p : Nat) (b : Bool) : (s.setStall p b).pending = s.pending := rfl
@[simp] theorem State.setStall_nextTag (p : Nat) (b : Bool) : (s.setStall p b).nextTag = s.nextTag := rfl
@[simp] theorem State.setStall_msiSent (p : Nat) (b : Bool) : (s.setStall p b).msiSent = s.msiSent := rfl
@[simp] theorem State.setStall_xi (p : Nat) (b : Bool) : (s.setStall p b).xi = s.xi := rfl
@[simp] theorem State.setStall_decision (p : Nat) (b : Bool) : (s.setStall p b).decision = s.decision := rfl
@[simp] theorem State.setStall_et (p : Nat) (b : Bool) : (s.setStall p b).et = s.et := rfl
@[simp] theorem State.setStall_lt (p : Nat) (b : Bool) : (s.setStall p b).lt = s.lt := rfl
@[simp] theorem State.setStall_tb (p : Nat) (b : Bool) : (s.setStall p b).tb = s.tb := rfl
@[simp] theorem State.setStall_su (p : Nat) (b : Bool) : (s.setStall p b).su = s.su := rfl
@[simp] theorem State.setStall_install (p : Nat) (b : Bool) : (s.setStall p b).install = s.install := rfl
@[simp] theorem State.setStall_mu (p : Nat) (b : Bool) : (s.setStall p b).mu = s.mu := rfl
@[simp] theorem State.setStall_wu_queues (p : Nat) (b : Bool) : (s.setStall p b).wu.queues = s.wu.queues := rfl
@[simp] theorem State.setStall_wu_due (p : Nat) (b : Bool) : (s.setStall p b).wu.due = s.wu.due := rfl
@[simp] theorem State.setStall_wu_exam (p : Nat) (b : Bool) : (s.setStall p b).wu.exam = s.wu.exam := rfl
@[simp] theorem State.setStall_wu_parkInbox (p : Nat) (b : Bool) : (s.setStall p b).wu.parkInbox = s.wu.parkInbox := rfl
@[simp] theorem State.setStall_wu_commitReports (p : Nat) (b : Bool) : (s.setStall p b).wu.commitReports = s.wu.commitReports := rfl
@[simp] theorem State.setStall_wu_heldTicks (p : Nat) (b : Bool) : (s.setStall p b).wu.heldTicks = s.wu.heldTicks := rfl

@[simp] theorem State.examAt_pending (p : Nat) (g : ExamStage) : (s.examAt p g).pending = s.pending := rfl
@[simp] theorem State.examAt_nextTag (p : Nat) (g : ExamStage) : (s.examAt p g).nextTag = s.nextTag := rfl
@[simp] theorem State.examAt_msiSent (p : Nat) (g : ExamStage) : (s.examAt p g).msiSent = s.msiSent := rfl
@[simp] theorem State.examAt_xi (p : Nat) (g : ExamStage) : (s.examAt p g).xi = s.xi := rfl
@[simp] theorem State.examAt_decision (p : Nat) (g : ExamStage) : (s.examAt p g).decision = s.decision := rfl
@[simp] theorem State.examAt_et (p : Nat) (g : ExamStage) : (s.examAt p g).et = s.et := rfl
@[simp] theorem State.examAt_lt (p : Nat) (g : ExamStage) : (s.examAt p g).lt = s.lt := rfl
@[simp] theorem State.examAt_tb (p : Nat) (g : ExamStage) : (s.examAt p g).tb = s.tb := rfl
@[simp] theorem State.examAt_su (p : Nat) (g : ExamStage) : (s.examAt p g).su = s.su := rfl
@[simp] theorem State.examAt_install (p : Nat) (g : ExamStage) : (s.examAt p g).install = s.install := rfl
@[simp] theorem State.examAt_mu (p : Nat) (g : ExamStage) : (s.examAt p g).mu = s.mu := rfl
@[simp] theorem State.examAt_wu_queues (p : Nat) (g : ExamStage) : (s.examAt p g).wu.queues = s.wu.queues := rfl
@[simp] theorem State.examAt_wu_stall (p : Nat) (g : ExamStage) : (s.examAt p g).wu.stall = s.wu.stall := rfl
@[simp] theorem State.examAt_wu_due (p : Nat) (g : ExamStage) : (s.examAt p g).wu.due = s.wu.due := rfl
@[simp] theorem State.examAt_wu_parkInbox (p : Nat) (g : ExamStage) : (s.examAt p g).wu.parkInbox = s.wu.parkInbox := rfl
@[simp] theorem State.examAt_wu_commitReports (p : Nat) (g : ExamStage) : (s.examAt p g).wu.commitReports = s.wu.commitReports := rfl
@[simp] theorem State.examAt_wu_heldTicks (p : Nat) (g : ExamStage) : (s.examAt p g).wu.heldTicks = s.wu.heldTicks := rfl

@[simp] theorem State.reportRecordFree_pending : s.reportRecordFree.pending = s.pending := rfl
@[simp] theorem State.reportRecordFree_nextTag : s.reportRecordFree.nextTag = s.nextTag := rfl
@[simp] theorem State.reportRecordFree_msiSent : s.reportRecordFree.msiSent = s.msiSent := rfl
@[simp] theorem State.reportRecordFree_xi : s.reportRecordFree.xi = s.xi := rfl
@[simp] theorem State.reportRecordFree_decision : s.reportRecordFree.decision = s.decision := rfl
@[simp] theorem State.reportRecordFree_et : s.reportRecordFree.et = s.et := rfl
@[simp] theorem State.reportRecordFree_lt : s.reportRecordFree.lt = s.lt := rfl
@[simp] theorem State.reportRecordFree_tb : s.reportRecordFree.tb = s.tb := rfl
@[simp] theorem State.reportRecordFree_su : s.reportRecordFree.su = s.su := rfl
@[simp] theorem State.reportRecordFree_install : s.reportRecordFree.install = s.install := rfl
@[simp] theorem State.reportRecordFree_mu : s.reportRecordFree.mu = s.mu := rfl
@[simp] theorem State.reportRecordFree_wu_queues : s.reportRecordFree.wu.queues = s.wu.queues := rfl
@[simp] theorem State.reportRecordFree_wu_stall : s.reportRecordFree.wu.stall = s.wu.stall := rfl
@[simp] theorem State.reportRecordFree_wu_exam : s.reportRecordFree.wu.exam = s.wu.exam := rfl
@[simp] theorem State.reportRecordFree_wu_parkInbox : s.reportRecordFree.wu.parkInbox = s.wu.parkInbox := rfl
@[simp] theorem State.reportRecordFree_wu_commitReports : s.reportRecordFree.wu.commitReports = s.wu.commitReports := rfl
@[simp] theorem State.reportRecordFree_wu_heldTicks : s.reportRecordFree.wu.heldTicks = s.wu.heldTicks := rfl

@[simp] theorem State.triggerQueues_pending : s.triggerQueues.pending = s.pending := rfl
@[simp] theorem State.triggerQueues_nextTag : s.triggerQueues.nextTag = s.nextTag := rfl
@[simp] theorem State.triggerQueues_msiSent : s.triggerQueues.msiSent = s.msiSent := rfl
@[simp] theorem State.triggerQueues_xi : s.triggerQueues.xi = s.xi := rfl
@[simp] theorem State.triggerQueues_decision : s.triggerQueues.decision = s.decision := rfl
@[simp] theorem State.triggerQueues_et : s.triggerQueues.et = s.et := rfl
@[simp] theorem State.triggerQueues_lt : s.triggerQueues.lt = s.lt := rfl
@[simp] theorem State.triggerQueues_tb : s.triggerQueues.tb = s.tb := rfl
@[simp] theorem State.triggerQueues_su : s.triggerQueues.su = s.su := rfl
@[simp] theorem State.triggerQueues_install : s.triggerQueues.install = s.install := rfl
@[simp] theorem State.triggerQueues_mu : s.triggerQueues.mu = s.mu := rfl
@[simp] theorem State.triggerQueues_wu_queues : s.triggerQueues.wu.queues = s.wu.queues := rfl
@[simp] theorem State.triggerQueues_wu_stall : s.triggerQueues.wu.stall = s.wu.stall := rfl
@[simp] theorem State.triggerQueues_wu_exam : s.triggerQueues.wu.exam = s.wu.exam := rfl
@[simp] theorem State.triggerQueues_wu_parkInbox : s.triggerQueues.wu.parkInbox = s.wu.parkInbox := rfl
@[simp] theorem State.triggerQueues_wu_commitReports : s.triggerQueues.wu.commitReports = s.wu.commitReports := rfl
@[simp] theorem State.triggerQueues_wu_heldTicks : s.triggerQueues.wu.heldTicks = s.wu.heldTicks := rfl

@[simp] theorem State.loadGrace_pending : s.loadGrace.pending = s.pending := rfl
@[simp] theorem State.loadGrace_nextTag : s.loadGrace.nextTag = s.nextTag := rfl
@[simp] theorem State.loadGrace_msiSent : s.loadGrace.msiSent = s.msiSent := rfl
@[simp] theorem State.loadGrace_xi : s.loadGrace.xi = s.xi := rfl
@[simp] theorem State.loadGrace_decision : s.loadGrace.decision = s.decision := rfl
@[simp] theorem State.loadGrace_et : s.loadGrace.et = s.et := rfl
@[simp] theorem State.loadGrace_lt : s.loadGrace.lt = s.lt := rfl
@[simp] theorem State.loadGrace_wu : s.loadGrace.wu = s.wu := rfl
@[simp] theorem State.loadGrace_su : s.loadGrace.su = s.su := rfl
@[simp] theorem State.loadGrace_install : s.loadGrace.install = s.install := rfl
@[simp] theorem State.loadGrace_mu : s.loadGrace.mu = s.mu := rfl
@[simp] theorem State.loadGrace_tb_divider : s.loadGrace.tb.divider = s.tb.divider := rfl
@[simp] theorem State.loadGrace_tb_secCount : s.loadGrace.tb.secCount = s.tb.secCount := rfl
@[simp] theorem State.loadGrace_tb_leaseCount : s.loadGrace.tb.leaseCount = s.tb.leaseCount := rfl
@[simp] theorem State.loadGrace_tb_hkCount : s.loadGrace.tb.hkCount = s.tb.hkCount := rfl
@[simp] theorem State.loadGrace_tb_leaseInterval : s.loadGrace.tb.leaseInterval = s.tb.leaseInterval := rfl
@[simp] theorem State.loadGrace_tb_hkInterval : s.loadGrace.tb.hkInterval = s.tb.hkInterval := rfl
@[simp] theorem State.loadGrace_tb_leaseSel : s.loadGrace.tb.leaseSel = s.tb.leaseSel := rfl
@[simp] theorem State.loadGrace_tb_hkSel : s.loadGrace.tb.hkSel = s.tb.hkSel := rfl
@[simp] theorem State.loadGrace_tb_graceCount : s.loadGrace.tb.graceCount = s.tb.graceCount := rfl

@[simp] theorem State.restartLeaseStream_pending : s.restartLeaseStream.pending = s.pending := rfl
@[simp] theorem State.restartLeaseStream_nextTag : s.restartLeaseStream.nextTag = s.nextTag := rfl
@[simp] theorem State.restartLeaseStream_msiSent : s.restartLeaseStream.msiSent = s.msiSent := rfl
@[simp] theorem State.restartLeaseStream_xi : s.restartLeaseStream.xi = s.xi := rfl
@[simp] theorem State.restartLeaseStream_decision : s.restartLeaseStream.decision = s.decision := rfl
@[simp] theorem State.restartLeaseStream_et : s.restartLeaseStream.et = s.et := rfl
@[simp] theorem State.restartLeaseStream_lt : s.restartLeaseStream.lt = s.lt := rfl
@[simp] theorem State.restartLeaseStream_wu : s.restartLeaseStream.wu = s.wu := rfl
@[simp] theorem State.restartLeaseStream_su : s.restartLeaseStream.su = s.su := rfl
@[simp] theorem State.restartLeaseStream_install : s.restartLeaseStream.install = s.install := rfl
@[simp] theorem State.restartLeaseStream_mu : s.restartLeaseStream.mu = s.mu := rfl
@[simp] theorem State.restartLeaseStream_tb_divider : s.restartLeaseStream.tb.divider = s.tb.divider := rfl
@[simp] theorem State.restartLeaseStream_tb_secCount : s.restartLeaseStream.tb.secCount = s.tb.secCount := rfl
@[simp] theorem State.restartLeaseStream_tb_hkCount : s.restartLeaseStream.tb.hkCount = s.tb.hkCount := rfl
@[simp] theorem State.restartLeaseStream_tb_hkInterval : s.restartLeaseStream.tb.hkInterval = s.tb.hkInterval := rfl
@[simp] theorem State.restartLeaseStream_tb_leaseSel : s.restartLeaseStream.tb.leaseSel = s.tb.leaseSel := rfl
@[simp] theorem State.restartLeaseStream_tb_hkSel : s.restartLeaseStream.tb.hkSel = s.tb.hkSel := rfl
@[simp] theorem State.restartLeaseStream_tb_graceCount : s.restartLeaseStream.tb.graceCount = s.tb.graceCount := rfl
@[simp] theorem State.restartLeaseStream_tb_graceHold : s.restartLeaseStream.tb.graceHold = s.tb.graceHold := rfl

@[simp] theorem State.restartHkStream_pending : s.restartHkStream.pending = s.pending := rfl
@[simp] theorem State.restartHkStream_nextTag : s.restartHkStream.nextTag = s.nextTag := rfl
@[simp] theorem State.restartHkStream_msiSent : s.restartHkStream.msiSent = s.msiSent := rfl
@[simp] theorem State.restartHkStream_xi : s.restartHkStream.xi = s.xi := rfl
@[simp] theorem State.restartHkStream_decision : s.restartHkStream.decision = s.decision := rfl
@[simp] theorem State.restartHkStream_et : s.restartHkStream.et = s.et := rfl
@[simp] theorem State.restartHkStream_lt : s.restartHkStream.lt = s.lt := rfl
@[simp] theorem State.restartHkStream_wu : s.restartHkStream.wu = s.wu := rfl
@[simp] theorem State.restartHkStream_su : s.restartHkStream.su = s.su := rfl
@[simp] theorem State.restartHkStream_install : s.restartHkStream.install = s.install := rfl
@[simp] theorem State.restartHkStream_mu : s.restartHkStream.mu = s.mu := rfl
@[simp] theorem State.restartHkStream_tb_divider : s.restartHkStream.tb.divider = s.tb.divider := rfl
@[simp] theorem State.restartHkStream_tb_secCount : s.restartHkStream.tb.secCount = s.tb.secCount := rfl
@[simp] theorem State.restartHkStream_tb_leaseCount : s.restartHkStream.tb.leaseCount = s.tb.leaseCount := rfl
@[simp] theorem State.restartHkStream_tb_leaseInterval : s.restartHkStream.tb.leaseInterval = s.tb.leaseInterval := rfl
@[simp] theorem State.restartHkStream_tb_leaseSel : s.restartHkStream.tb.leaseSel = s.tb.leaseSel := rfl
@[simp] theorem State.restartHkStream_tb_hkSel : s.restartHkStream.tb.hkSel = s.tb.hkSel := rfl
@[simp] theorem State.restartHkStream_tb_graceCount : s.restartHkStream.tb.graceCount = s.tb.graceCount := rfl
@[simp] theorem State.restartHkStream_tb_graceHold : s.restartHkStream.tb.graceHold = s.tb.graceHold := rfl

@[simp] theorem State.clearCauses_pending (v : Word) : (s.clearCauses v).pending = s.pending := rfl
@[simp] theorem State.clearCauses_nextTag (v : Word) : (s.clearCauses v).nextTag = s.nextTag := rfl
@[simp] theorem State.clearCauses_msiSent (v : Word) : (s.clearCauses v).msiSent = s.msiSent := rfl
@[simp] theorem State.clearCauses_decision (v : Word) : (s.clearCauses v).decision = s.decision := rfl
@[simp] theorem State.clearCauses_et (v : Word) : (s.clearCauses v).et = s.et := rfl
@[simp] theorem State.clearCauses_lt (v : Word) : (s.clearCauses v).lt = s.lt := rfl
@[simp] theorem State.clearCauses_wu (v : Word) : (s.clearCauses v).wu = s.wu := rfl
@[simp] theorem State.clearCauses_tb (v : Word) : (s.clearCauses v).tb = s.tb := rfl
@[simp] theorem State.clearCauses_su (v : Word) : (s.clearCauses v).su = s.su := rfl
@[simp] theorem State.clearCauses_install (v : Word) : (s.clearCauses v).install = s.install := rfl
@[simp] theorem State.clearCauses_mu (v : Word) : (s.clearCauses v).mu = s.mu := rfl
@[simp] theorem State.clearCauses_xi_base (v : Word) : (s.clearCauses v).xi.base = s.xi.base := rfl
@[simp] theorem State.clearCauses_xi_engine (v : Word) : (s.clearCauses v).xi.engine = s.xi.engine := rfl
@[simp] theorem State.clearCauses_xi_baseInvalid (v : Word) : (s.clearCauses v).xi.baseInvalid = s.xi.baseInvalid := rfl
@[simp] theorem State.clearCauses_xi_cells (v : Word) : (s.clearCauses v).xi.cells = s.xi.cells := rfl
@[simp] theorem State.clearCauses_xi_servicePointer (v : Word) : (s.clearCauses v).xi.servicePointer = s.xi.servicePointer := rfl
@[simp] theorem State.clearCauses_xi_readAhead (v : Word) : (s.clearCauses v).xi.readAhead = s.xi.readAhead := rfl
@[simp] theorem State.clearCauses_xi_writeList (v : Word) : (s.clearCauses v).xi.writeList = s.xi.writeList := rfl
@[simp] theorem State.clearCauses_xi_writeStage (v : Word) : (s.clearCauses v).xi.writeStage = s.xi.writeStage := rfl
@[simp] theorem State.clearCauses_xi_notices (v : Word) : (s.clearCauses v).xi.notices = s.xi.notices := rfl
@[simp] theorem State.clearCauses_xi_noticeStage (v : Word) : (s.clearCauses v).xi.noticeStage = s.xi.noticeStage := rfl
@[simp] theorem State.clearCauses_xi_written (v : Word) : (s.clearCauses v).xi.written = s.xi.written := rfl
@[simp] theorem State.clearCauses_xi_cached (v : Word) : (s.clearCauses v).xi.cached = s.xi.cached := rfl
@[simp] theorem State.clearCauses_xi_intEnable (v : Word) : (s.clearCauses v).xi.intEnable = s.xi.intEnable := rfl
@[simp] theorem State.clearCauses_xi_faultKind (v : Word) : (s.clearCauses v).xi.faultKind = s.xi.faultKind := rfl
@[simp] theorem State.clearCauses_xi_faultIndex (v : Word) : (s.clearCauses v).xi.faultIndex = s.xi.faultIndex := rfl
@[simp] theorem State.clearCauses_xi_faultAddr (v : Word) : (s.clearCauses v).xi.faultAddr = s.xi.faultAddr := rfl
@[simp] theorem State.clearCauses_xi_inFlight (v : Word) : (s.clearCauses v).xi.inFlight = s.xi.inFlight := rfl
@[simp] theorem State.clearCauses_xi_retry (v : Word) : (s.clearCauses v).xi.retry = s.xi.retry := rfl

@[simp] theorem State.issue_pending (k : TransferKind) (a : HostAddr) (n : Nat) (bs : List Byte) :
    (s.issue k a n bs).pending = s.pending := rfl
@[simp] theorem State.issue_msiSent (k : TransferKind) (a : HostAddr) (n : Nat) (bs : List Byte) :
    (s.issue k a n bs).msiSent = s.msiSent := rfl
@[simp] theorem State.issue_decision (k : TransferKind) (a : HostAddr) (n : Nat) (bs : List Byte) :
    (s.issue k a n bs).decision = s.decision := rfl
@[simp] theorem State.issue_et (k : TransferKind) (a : HostAddr) (n : Nat) (bs : List Byte) :
    (s.issue k a n bs).et = s.et := rfl
@[simp] theorem State.issue_lt (k : TransferKind) (a : HostAddr) (n : Nat) (bs : List Byte) :
    (s.issue k a n bs).lt = s.lt := rfl
@[simp] theorem State.issue_wu (k : TransferKind) (a : HostAddr) (n : Nat) (bs : List Byte) :
    (s.issue k a n bs).wu = s.wu := rfl
@[simp] theorem State.issue_tb (k : TransferKind) (a : HostAddr) (n : Nat) (bs : List Byte) :
    (s.issue k a n bs).tb = s.tb := rfl
@[simp] theorem State.issue_su (k : TransferKind) (a : HostAddr) (n : Nat) (bs : List Byte) :
    (s.issue k a n bs).su = s.su := rfl
@[simp] theorem State.issue_install (k : TransferKind) (a : HostAddr) (n : Nat) (bs : List Byte) :
    (s.issue k a n bs).install = s.install := rfl
@[simp] theorem State.issue_mu (k : TransferKind) (a : HostAddr) (n : Nat) (bs : List Byte) :
    (s.issue k a n bs).mu = s.mu := rfl
@[simp] theorem State.issue_xi_base (k : TransferKind) (a : HostAddr) (n : Nat) (bs : List Byte) :
    (s.issue k a n bs).xi.base = s.xi.base := rfl
@[simp] theorem State.issue_xi_engine (k : TransferKind) (a : HostAddr) (n : Nat) (bs : List Byte) :
    (s.issue k a n bs).xi.engine = s.xi.engine := rfl
@[simp] theorem State.issue_xi_baseInvalid (k : TransferKind) (a : HostAddr) (n : Nat) (bs : List Byte) :
    (s.issue k a n bs).xi.baseInvalid = s.xi.baseInvalid := rfl
@[simp] theorem State.issue_xi_cells (k : TransferKind) (a : HostAddr) (n : Nat) (bs : List Byte) :
    (s.issue k a n bs).xi.cells = s.xi.cells := rfl
@[simp] theorem State.issue_xi_servicePointer (k : TransferKind) (a : HostAddr) (n : Nat) (bs : List Byte) :
    (s.issue k a n bs).xi.servicePointer = s.xi.servicePointer := rfl
@[simp] theorem State.issue_xi_readAhead (k : TransferKind) (a : HostAddr) (n : Nat) (bs : List Byte) :
    (s.issue k a n bs).xi.readAhead = s.xi.readAhead := rfl
@[simp] theorem State.issue_xi_writeList (k : TransferKind) (a : HostAddr) (n : Nat) (bs : List Byte) :
    (s.issue k a n bs).xi.writeList = s.xi.writeList := rfl
@[simp] theorem State.issue_xi_writeStage (k : TransferKind) (a : HostAddr) (n : Nat) (bs : List Byte) :
    (s.issue k a n bs).xi.writeStage = s.xi.writeStage := rfl
@[simp] theorem State.issue_xi_notices (k : TransferKind) (a : HostAddr) (n : Nat) (bs : List Byte) :
    (s.issue k a n bs).xi.notices = s.xi.notices := rfl
@[simp] theorem State.issue_xi_noticeStage (k : TransferKind) (a : HostAddr) (n : Nat) (bs : List Byte) :
    (s.issue k a n bs).xi.noticeStage = s.xi.noticeStage := rfl
@[simp] theorem State.issue_xi_written (k : TransferKind) (a : HostAddr) (n : Nat) (bs : List Byte) :
    (s.issue k a n bs).xi.written = s.xi.written := rfl
@[simp] theorem State.issue_xi_cached (k : TransferKind) (a : HostAddr) (n : Nat) (bs : List Byte) :
    (s.issue k a n bs).xi.cached = s.xi.cached := rfl
@[simp] theorem State.issue_xi_causeNotice (k : TransferKind) (a : HostAddr) (n : Nat) (bs : List Byte) :
    (s.issue k a n bs).xi.causeNotice = s.xi.causeNotice := rfl
@[simp] theorem State.issue_xi_causeFault (k : TransferKind) (a : HostAddr) (n : Nat) (bs : List Byte) :
    (s.issue k a n bs).xi.causeFault = s.xi.causeFault := rfl
@[simp] theorem State.issue_xi_intEnable (k : TransferKind) (a : HostAddr) (n : Nat) (bs : List Byte) :
    (s.issue k a n bs).xi.intEnable = s.xi.intEnable := rfl
@[simp] theorem State.issue_xi_faultKind (k : TransferKind) (a : HostAddr) (n : Nat) (bs : List Byte) :
    (s.issue k a n bs).xi.faultKind = s.xi.faultKind := rfl
@[simp] theorem State.issue_xi_faultIndex (k : TransferKind) (a : HostAddr) (n : Nat) (bs : List Byte) :
    (s.issue k a n bs).xi.faultIndex = s.xi.faultIndex := rfl
@[simp] theorem State.issue_xi_faultAddr (k : TransferKind) (a : HostAddr) (n : Nat) (bs : List Byte) :
    (s.issue k a n bs).xi.faultAddr = s.xi.faultAddr := rfl
@[simp] theorem State.issue_xi_retry (k : TransferKind) (a : HostAddr) (n : Nat) (bs : List Byte) :
    (s.issue k a n bs).xi.retry = s.xi.retry := rfl
@[simp] theorem State.issue_nextTag (k : TransferKind) (a : HostAddr) (n : Nat) (bs : List Byte) :
    (s.issue k a n bs).nextTag = s.nextTag + 1 := rfl
@[simp] theorem State.issue_inFlight (k : TransferKind) (a : HostAddr) (n : Nat) (bs : List Byte) :
    (s.issue k a n bs).xi.inFlight = s.xi.inFlight ++ [{ tag := s.nextTag, kind := k, addr := a, len := n, bytes := bs }] := rfl

@[simp] theorem State.drawAt_pending (d : DrawDecision) (g : DrawStage) : (s.drawAt d g).pending = s.pending := rfl
@[simp] theorem State.drawAt_nextTag (d : DrawDecision) (g : DrawStage) : (s.drawAt d g).nextTag = s.nextTag := rfl
@[simp] theorem State.drawAt_msiSent (d : DrawDecision) (g : DrawStage) : (s.drawAt d g).msiSent = s.msiSent := rfl
@[simp] theorem State.drawAt_xi (d : DrawDecision) (g : DrawStage) : (s.drawAt d g).xi = s.xi := rfl
@[simp] theorem State.drawAt_et (d : DrawDecision) (g : DrawStage) : (s.drawAt d g).et = s.et := rfl
@[simp] theorem State.drawAt_lt (d : DrawDecision) (g : DrawStage) : (s.drawAt d g).lt = s.lt := rfl
@[simp] theorem State.drawAt_wu (d : DrawDecision) (g : DrawStage) : (s.drawAt d g).wu = s.wu := rfl
@[simp] theorem State.drawAt_tb (d : DrawDecision) (g : DrawStage) : (s.drawAt d g).tb = s.tb := rfl
@[simp] theorem State.drawAt_su (d : DrawDecision) (g : DrawStage) : (s.drawAt d g).su = s.su := rfl
@[simp] theorem State.drawAt_install (d : DrawDecision) (g : DrawStage) : (s.drawAt d g).install = s.install := rfl
@[simp] theorem State.drawAt_mu (d : DrawDecision) (g : DrawStage) : (s.drawAt d g).mu = s.mu := rfl
@[simp] theorem State.drawAt_decision (d : DrawDecision) (g : DrawStage) :
    (s.drawAt d g).decision = some (.draw { d with stage := g }) := rfl
@[simp] theorem State.handAnswer_writeList (c : Nat) (a : Answer) :
    (s.handAnswer c a).xi.writeList = s.xi.writeList ++ [.final c a] := rfl
@[simp] theorem State.handNotice_notices (n : Notice) : (s.handNotice n).xi.notices = s.xi.notices ++ [n] := rfl
@[simp] theorem State.handCounts_inbox (cs : List MeterCount) : (s.handCounts cs).mu.inbox = s.mu.inbox ++ cs := rfl
@[simp] theorem State.makeDue_due (ps : List Nat) : (s.makeDue ps).wu.due = addNumbers ps s.wu.due := rfl
@[simp] theorem State.examAt_exam (p : Nat) (g : ExamStage) : (s.examAt p g).wu.exam = some { pool := p, stage := g } := rfl

/-! ### Reads after writes -/

theorem State.cell_setCell (c c' : Nat) (v : Cell) : (s.setCell c v).cell c' = if c' = c then v else s.cell c' :=
  Table.get_set _ _ _ _ _
theorem State.cell_setCellState (c c' : Nat) (st : CellState) :
    (s.setCellState c st).cell c' = if c' = c then { s.cell c with st := st } else s.cell c' := Table.get_set _ _ _ _ _
theorem State.cell_handAnswer (c c' : Nat) (a : Answer) :
    (s.handAnswer c a).cell c' =
      if c' = c then { st := .answering, repost := (s.cell c).repost, copy := [] } else s.cell c' :=
  Table.get_set Cell.atReset s.xi.cells c c' { st := .answering, repost := (s.cell c).repost, copy := [] }
theorem State.pool_setPool (p p' : Nat) (v : Pool) : (s.setPool p v).pool p' = if p' = p then v else s.pool p' :=
  Table.get_set _ _ _ _ _
theorem State.lease_setLease (i i' : Nat) (v : Lease) : (s.setLease i v).lease i' = if i' = i then v else s.lease i' :=
  Table.get_set _ _ _ _ _
theorem State.queue_setQueue (p p' : Nat) (q : List Waiter) : (s.setQueue p q).queue p' = if p' = p then q else s.queue p' :=
  Table.get_set _ _ _ _ _
theorem State.activeMask_setActiveMask (p p' : Nat) (m : Word) :
    (s.setActiveMask p m).activeMask p' = if p' = p then m else s.activeMask p' := Table.get_set _ _ _ _ _
theorem State.stagedMask_setStagedMask (p p' : Nat) (m : Option Word) :
    (s.setStagedMask p m).stagedMask p' = if p' = p then m else s.stagedMask p' := Table.get_set _ _ _ _ _
theorem State.metersOf_setMeters (p p' : Nat) (m : Meters) :
    (s.setMeters p m).metersOf p' = if p' = p then m else s.metersOf p' := Table.get_set _ _ _ _ _

/-! ### The reads see only their own block -/

theorem State.cell_congr {s t : State} (h : t.xi.cells = s.xi.cells) (c : Nat) : t.cell c = s.cell c := by
  simp [State.cell, h]
theorem State.pool_congr {s t : State} (h : t.et = s.et) (p : Nat) : t.pool p = s.pool p := by simp [State.pool, h]
theorem State.params_congr {s t : State} (h : t.et = s.et) (p : Nat) : t.params p = s.params p := by
  simp [State.params, State.pool, h]
theorem State.lease_congr {s t : State} (h : t.lt = s.lt) (i : Nat) : t.lease i = s.lease i := by simp [State.lease, h]
theorem State.lowestFree_congr {s t : State} (h : t.lt = s.lt) : t.lowestFree = s.lowestFree := by
  unfold State.lowestFree State.lease
  rw [h]
theorem State.queue_congr {s t : State} (h : t.wu.queues = s.wu.queues) (p : Nat) : t.queue p = s.queue p := by
  simp [State.queue, h]
theorem State.windowOpen_congr {s t : State} (h : t.su = s.su) (p : Nat) : t.windowOpen p = s.windowOpen p := by
  simp [State.windowOpen, State.activeMask, h]
theorem State.chargeOn_congr {s t : State} (he : t.et = s.et) (h : t.su = s.su) (p q n : Nat) :
    t.chargeOn p q n = s.chargeOn p q n := by
  simp [State.chargeOn, State.params_congr he, h]

end Sys2Proof.Machine
end

