-- ==== Sys2Proof/Laws/Ops.lean ====
section
/-! SUPPORT. For each shared operation, one lemma that says once everything it can do; proofs cite it instead of unfolding the
operation. -/

namespace Sys2Proof.Machine

variable {s t : State}

/-! ### The step -/

theorem step_cons {c : Instr} {rest : List Instr} (h : s.pending = c :: rest) : step s = exec c { s with pending := rest } := by
  unfold step
  rw [h]

theorem step_nil (h : s.pending = []) : step s = .next s.referenceCycle := by
  unfold step
  rw [h]

/-- Every command answers a next state: the engine never stops (log entry 27). -/
theorem exec_total (c : Instr) (s : State) : ∃ t, exec c s = .next t := by
  cases c <;>
    simp only [exec, execExbaseLoWrite, execExbaseHiWrite, execPost, execRequestRun, execRequestHold, execRequestStill,
      execInterruptEnable, execFunctionReset, execPowerOnReset, execFunctionLevelReset, execCauseWrite, execRegisterWriteIgnored,
      execCellPick, execFetchArrival, execUnknownRequestKind, execDraw, execGrantEvent, execRevival, execParking, execRenew,
      execReturnLease, execReturnMatching, execWithdraw, execInspectPool, execInstall, execSetClock, execTune, execClearFloor,
      execLeaseTick, execLapse, execLingerEnd, execTokenTicks, execHousekeepingTick, execWaitExpiry, execGraceHoldEnd,
      execExamination, execCommitReport, execSecond, execSlotStart, execFrameStart, execImageReadArrival, execInstallCommit,
      execScheduleContent, execWriteListIssue, execAnswerWriteComplete, execPoolFieldWriteComplete, execStatusByteWriteComplete,
      execNoticeWrite, execNoticeEntryWriteComplete, execNoticeWritten, execConsumedReadArrival, execDmaError, execMeterCount,
      execSlotEnd, execIntervalEnd, execMeterOwnerRead, execOwnerReadArrival, execPageWriteComplete, execOwnerWordWriteComplete] <;>
    (repeat' split) <;> exact ⟨_, rfl⟩

/-! ### Ordered lists -/

theorem insertByKey_pairwise {α : Type} (key : α → Nat) (x : α) (l : List α) (h : (l.map key).Pairwise (· ≤ ·)) :
    ((insertByKey key x l).map key).Pairwise (· ≤ ·) := by
  induction l with
  | nil => simp [insertByKey]
  | cons z l ih =>
    rw [List.map_cons, List.pairwise_cons] at h
    unfold insertByKey
    split_ifs with hlt
    · rw [List.map_cons, List.map_cons, List.pairwise_cons, List.pairwise_cons]
      refine ⟨?_, h⟩
      intro k hk
      rcases List.mem_cons.1 hk with rfl | hk
      · omega
      · exact le_trans (le_of_lt hlt) (h.1 k hk)
    · rw [List.map_cons, List.pairwise_cons]
      refine ⟨?_, ih h.2⟩
      intro k hk
      obtain ⟨y, hy, rfl⟩ := List.mem_map.1 hk
      rcases (mem_insertByKey key x y l).1 hy with rfl | hy
      · omega
      · exact h.1 _ (List.mem_map.2 ⟨y, hy, rfl⟩)

theorem length_insertByKey {α : Type} (key : α → Nat) (x : α) (l : List α) : (insertByKey key x l).length = l.length + 1 := by
  induction l with
  | nil => rfl
  | cons z l ih =>
    unfold insertByKey
    split_ifs
    · rfl
    · simp [ih]

/-- A sorted list's keys rise. -/
theorem sortByKey_pairwise {α : Type} (key : α → Nat) (l : List α) : ((sortByKey key l).map key).Pairwise (· ≤ ·) := by
  have : ∀ acc : List α, (acc.map key).Pairwise (· ≤ ·) →
      ((l.foldl (fun acc x => insertByKey key x acc) acc).map key).Pairwise (· ≤ ·) := by
    induction l with
    | nil => exact fun acc h => h
    | cons x l ih => exact fun acc h => ih _ (insertByKey_pairwise key x acc h)
  exact this [] List.Pairwise.nil

/-- Sorting keeps the length. -/
theorem length_sortByKey {α : Type} (key : α → Nat) (l : List α) : (sortByKey key l).length = l.length := by
  have : ∀ acc : List α, (l.foldl (fun acc x => insertByKey key x acc) acc).length = l.length + acc.length := by
    induction l with
    | nil => simp
    | cons x l ih =>
      intro acc
      rw [List.foldl_cons, ih, length_insertByKey, List.length_cons]
      omega
  simpa [sortByKey] using this []

/-! ### Register writes -/

/-- R167: everything the re-read of the consumed count can do. -/
theorem rereadConsumed_cases (s : State) :
    (s.rereadConsumed = s ∧ ¬ (s.xi.notices ≠ [] ∧ s.xi.noticeStage = .notBegun ∧ s.room = 0 ∧ s.xi.engine.dma = true ∧
      s.consumedInFlight = false)) ∨
    ((s.xi.notices ≠ [] ∧ s.xi.noticeStage = .notBegun ∧ s.room = 0 ∧ s.xi.engine.dma = true ∧ s.consumedInFlight = false) ∧
      s.rereadConsumed = s.issue .consumedRead (exchangeAddr s.xi.base consumedOffset) 4 []) := by
  unfold State.rereadConsumed State.noticeStalled
  by_cases h : s.xi.notices ≠ [] ∧ s.xi.noticeStage = .notBegun ∧ s.room = 0 ∧ s.xi.engine.dma = true ∧ s.consumedInFlight = false
  · refine .inr ⟨h, ?_⟩
    simp [h.1, h.2.1, h.2.2.1, h.2.2.2.1, h.2.2.2.2]
  · refine .inl ⟨?_, h⟩
    rw [if_neg]
    intro hc
    simp only [Bool.and_eq_true, Bool.not_eq_true', decide_eq_true_eq, List.isEmpty_eq_false_iff] at hc
    exact h ⟨hc.1.1.1.1, hc.1.1.1.2, hc.1.1.2, hc.1.2, hc.2⟩

/-! ### Taking a cell and answering it -/

/-- What taking a cell leaves: the slot free, the copy gone. -/
def State.takenFrom (s : State) (c : Nat) (rest : List Nat) : State :=
  { s with
    xi.readAhead := rest
    xi.cells := Table.set Cell.atReset s.xi.cells c { s.cell c with copy := [] } }

theorem takeCell_of_serves {c : Nat} {copy : List Byte} {rest : List Nat} (h : s.Serves c copy rest) :
    s.takeCell = some (c, copy, s.takenFrom c rest) := by
  obtain ⟨h1, h2, h3, h4, h5⟩ := h
  unfold State.takeCell
  simp [h1, h2, h3, h4, h5, State.takenFrom]

theorem takeCell_eq_some {c : Nat} {copy : List Byte} {u : State} (h : s.takeCell = some (c, copy, u)) :
    ∃ rest, s.Serves c copy rest ∧ u = s.takenFrom c rest := by
  unfold State.takeCell at h
  split_ifs at h with hc
  split at h
  · cases h
  · rename_i c' rest hr
    split_ifs at h with hs
    simp only [Option.some.injEq, Prod.mk.injEq] at h
    obtain ⟨rfl, rfl, rfl⟩ := h
    simp only [Bool.and_eq_true, Option.isNone_iff_eq_none] at hc
    exact ⟨rest, ⟨hc.1, hc.2, hr, hs, rfl⟩, rfl⟩

/-- R163: a well-formed request of the kind is decided. -/
theorem withRequest_of_serves {kind c : Nat} {copy : List Byte} {rest : List Nat} (h : s.ServesKind c copy rest kind)
    (f : Nat → List Byte → State → State) : s.withRequest kind f = f c copy (s.takenFrom c rest) := by
  obtain ⟨h1, h2, h3⟩ := h
  unfold State.withRequest
  rw [takeCell_of_serves h1]
  simp [h2, h3]

/-- R163: a malformed request of the kind is answered MALFORMED with the offset. -/
theorem withRequest_of_malformed {kind c off : Nat} {copy : List Byte} {rest : List Nat} (h : s.Serves c copy rest)
    (hk : requestKind copy = kind) (hm : firstReserved kind copy = some off) (f : Nat → List Byte → State → State) :
    s.withRequest kind f = (s.takenFrom c rest).handAnswer c (malformedAnswer off) := by
  unfold State.withRequest
  rw [takeCell_of_serves h]
  simp [hk, hm]

/-- Everything the take of a request of a kind can do. -/
theorem withRequest_cases (s : State) (kind : Nat) (f : Nat → List Byte → State → State) :
    s.withRequest kind f = s ∨
    (∃ c copy rest off, s.Serves c copy rest ∧ requestKind copy = kind ∧ firstReserved kind copy = some off ∧
      s.withRequest kind f = (s.takenFrom c rest).handAnswer c (malformedAnswer off)) ∨
    (∃ c copy rest, s.ServesKind c copy rest kind ∧ s.withRequest kind f = f c copy (s.takenFrom c rest)) := by
  rcases h : s.takeCell with - | ⟨c, copy, u⟩
  · exact .inl (by unfold State.withRequest; rw [h])
  · obtain ⟨rest, hs, rfl⟩ := takeCell_eq_some h
    by_cases hk : requestKind copy = kind
    · rcases hm : firstReserved kind copy with - | off
      · exact .inr (.inr ⟨c, copy, rest, ⟨hs, hk, hm⟩, withRequest_of_serves ⟨hs, hk, hm⟩ f⟩)
      · exact .inr (.inl ⟨c, copy, rest, off, hs, hk, hm, withRequest_of_malformed hs hk hm f⟩)
    · refine .inl ?_
      unfold State.withRequest
      rw [h]
      simp [hk]

@[simp] theorem takenFrom_cell_other {c c' : Nat} (rest : List Nat) (h : c' ≠ c) : (s.takenFrom c rest).cell c' = s.cell c' :=
  Table.get_set_other _ _ h _

@[simp] theorem takenFrom_cell_self (c : Nat) (rest : List Nat) :
    (s.takenFrom c rest).cell c = { s.cell c with copy := [] } := Table.get_set_self _ _ _ _

/-- R162, R164: a taken request is answered at once. -/
theorem taken_answered (s : State) (c : Nat) (rest : List Nat) (a : Answer) :
    TakenAndAnswered s ((s.takenFrom c rest).handAnswer c a) c rest a := by
  refine ⟨⟨rfl, rfl⟩, rfl, ?_, ?_⟩
  · intro e he
    rw [List.mem_singleton] at he
    subst he
    rw [State.cell_handAnswer, if_pos rfl]
  · intro c' h
    have hc : c' ≠ c := fun e => h (c, a) (List.mem_singleton.2 rfl) e.symm
    rw [State.cell_handAnswer, if_neg hc, takenFrom_cell_other rest hc]

/-- R164: one answer handed, with nothing else of the Exchange Interface changed. -/
theorem handAnswer_answered (s : State) (c : Nat) (a : Answer) :
    AnsweredFrame s (s.handAnswer c a) ∧ Answered s (s.handAnswer c a) [(c, a)] := by
  refine ⟨rfl, rfl, ?_, ?_⟩
  · intro e he
    rw [List.mem_singleton] at he
    subst he
    rw [State.cell_handAnswer, if_pos rfl]
  · intro c' h
    rw [State.cell_handAnswer, if_neg (fun e => h (c, a) (List.mem_singleton.2 rfl) e.symm)]

/-- R164: a list of answers handed one after another. -/
def State.handAnswers (s : State) (as : List (Nat × Answer)) : State := as.foldl (fun s e => s.handAnswer e.1 e.2) s

/-- R164: everything handing a list of answers does. -/
theorem handAnswers_answered (s : State) (as : List (Nat × Answer)) :
    AnsweredFrame s (s.handAnswers as) ∧ Answered s (s.handAnswers as) as ∧ s.handAnswers as = { s with xi := (s.handAnswers as).xi } := by
  induction as using List.reverseRecOn with
  | nil => exact ⟨rfl, ⟨by simp [State.handAnswers], by simp, fun _ _ => rfl⟩, rfl⟩
  | append_singleton as a ih =>
    obtain ⟨h1, ⟨h2, h3, h4⟩, h5⟩ := ih
    have hs : s.handAnswers (as ++ [a]) = (s.handAnswers as).handAnswer a.1 a.2 := by simp [State.handAnswers]
    rw [hs]
    refine ⟨?_, ⟨?_, ?_, ?_⟩, ?_⟩
    · exact h1
    · show (s.handAnswers as).xi.writeList ++ _ = _
      rw [h2]
      simp
    · intro e he
      rw [State.cell_handAnswer]
      split_ifs with hc
      · rfl
      · rcases List.mem_append.1 he with he | he
        · exact h3 e he
        · rw [List.mem_singleton] at he
          subst he
          exact absurd rfl hc
    · intro c hc
      rw [State.cell_handAnswer, if_neg (fun e => hc a (by simp) e.symm)]
      exact h4 c (fun e he => hc e (by simp [he]))
    · conv_lhs => rw [h5]
      rfl

/-- R68, R71: flushing a queue is handing its entries' answers, in queue order. -/
theorem flushQueue_eq (s : State) (p : Nat) (r : Result) :
    s.flushQueue p r = (s.setQueue p []).handAnswers ((s.queue p).map (fun w => (w.cell, plainAnswer r (poolField p)))) := by
  unfold State.flushQueue State.handAnswers
  rw [List.foldl_map]
  rfl

end Sys2Proof.Machine
end

