-- ==== Sys2Proof/Laws/Events.lean ====
section
/-! SUPPORT. What the grant event (R17) and the free event (R18) do, each said once. -/

namespace Sys2Proof.Machine

variable {s t : State}

/-! ### The grant event -/

/-- R36: the FREE record of lowest index. -/
theorem lowestFree_eq_some {i : Nat} :
    s.lowestFree = some i ↔ i < 4096 ∧ (s.lease i).st = .free ∧ ∀ j, j < i → (s.lease j).st ≠ .free := by
  unfold State.lowestFree
  rw [List.find?_range_eq_some]
  simp only [List.mem_range, decide_eq_true_eq, Bool.not_eq_true', decide_eq_false_iff_not]
  tauto

/-- R36: no record is FREE. -/
theorem lowestFree_eq_none : s.lowestFree = none ↔ s.TableFull := by
  unfold State.lowestFree State.TableFull
  rw [List.find?_eq_none]
  simp

/-- R33: the limit of the admission test is the one the statements speak of. -/
theorem clientLimit_eq (p : Params) (r : Nat) (key : Word) : clientLimit p r key = limitFor p r key := by
  unfold clientLimit limitFor Params.insider keyMatches shortfall
  simp

/-- R12: the states that serve. -/
theorem serving_iff (st : PoolState) : st.serving = true ↔ st = .active ∨ st = .draining := by
  cases st <;> simp [PoolState.serving]

/-- R38: the grant event passes exactly when its conditions hold. -/
theorem grantVerdict_none_iff {p charge : Nat} {key : Word} :
    s.grantVerdict p key charge = none ↔ ∃ i, s.GrantPasses p charge i key := by
  unfold State.grantVerdict State.GrantPasses
  rw [← clientLimit_eq, ← serving_iff]
  constructor
  · intro h
    split_ifs at h with h1 h2 h3 h4
    rcases hl : s.lowestFree with - | i
    · simp [hl] at h4
    · have := lowestFree_eq_some.1 hl
      refine ⟨i, by simpa using h1, ?_, ?_, this⟩
      · simpa [tokenCondition] using h2
      · by_contra hc
        exact h3 (by simpa only [seatCondition, Bool.not_eq_true', decide_eq_false_iff_not] using hc)
  · rintro ⟨i, h1, h2, h3, h4⟩
    have hl := lowestFree_eq_some.2 h4
    have hs : seatCondition (s.params p) (s.pool p) = true := by simpa only [seatCondition, decide_eq_true_eq] using h3
    simp [h1, tokenCondition, h2, hs, hl]

/-- R38: when the grant event fails, the kind is the first condition that does not hold. -/
theorem grantVerdict_of_fails {p charge : Nat} {key : Word} (h : ∀ i, ¬ s.GrantPasses p charge i key) :
    s.grantVerdict p key charge =
      some (if (s.pool p).st ≠ .active ∧ (s.pool p).st ≠ .draining then .state
        else if limitFor (s.params p) (s.pool p).reserveInUse key < (s.pool p).inUse + charge then .tokens
        else if (s.params p).seatCap ≠ 0 ∧ (s.params p).seatCap < (s.pool p).leaseCount + 1 then .seats
        else .record) := by
  have hn : s.grantVerdict p key charge ≠ none := fun e => by
    obtain ⟨i, hi⟩ := grantVerdict_none_iff.1 e
    exact h i hi
  have hs : (s.pool p).st.serving = true ↔ ¬ ((s.pool p).st ≠ .active ∧ (s.pool p).st ≠ .draining) := by
    rw [serving_iff]
    tauto
  have ht : tokenCondition (s.params p) (s.pool p) key charge = true ↔
      ¬ (limitFor (s.params p) (s.pool p).reserveInUse key < (s.pool p).inUse + charge) := by
    rw [← clientLimit_eq]
    simp [tokenCondition]
  have hq : seatCondition (s.params p) (s.pool p) = true ↔
      ¬ ((s.params p).seatCap ≠ 0 ∧ (s.params p).seatCap < (s.pool p).leaseCount + 1) := by
    simp only [seatCondition, decide_eq_true_eq]
    omega
  unfold State.grantVerdict at hn ⊢
  by_cases h1 : (s.pool p).st.serving = true
  · rw [if_neg (by simp [h1])] at hn ⊢
    rw [if_neg (hs.1 h1)]
    by_cases h2 : tokenCondition (s.params p) (s.pool p) key charge = true
    · rw [if_neg (by simp [h2])] at hn ⊢
      rw [if_neg (ht.1 h2)]
      by_cases h3 : seatCondition (s.params p) (s.pool p) = true
      · rw [if_neg (by simp [h3])] at hn ⊢
        rw [if_neg (hq.1 h3)]
        split_ifs at hn ⊢ with h4
        · rfl
        · exact absurd rfl hn
      · rw [if_pos (by simpa using h3), if_pos (by by_contra hc; exact h3 (hq.2 hc))]
    · rw [if_pos (by simpa using h2), if_pos (by by_contra hc; exact h2 (ht.2 hc))]
  · rw [if_pos (by simpa using h1), if_pos (by by_contra hc; exact h1 (hs.2 hc))]

/-- R17, R56: what a passed grant leaves. -/
theorem makeLease_made (s : State) (p charge i feature request : Nat) (key : Word) :
    GrantMade s (s.makeLease p key feature charge request i) p charge i feature request key := by
  refine ⟨grantedPeriod (s.params p) request, (s.params p).insider key, rfl, rfl, ?_, ?_, ?_, ?_, rfl, rfl, rfl⟩
  · exact (State.lease_setLease s i i _).trans (if_pos rfl)
  · intro j hj
    exact (State.lease_setLease s i j _).trans (if_neg hj)
  · exact (State.pool_setPool s p p _).trans (if_pos rfl)
  · intro q hq
    exact (State.pool_setPool s p q _).trans (if_neg hq)

/-! ### The free event -/

/-- R18 step 1 over several records. -/
theorem lowerAll_pool (ls : List Lease) (s : State) (p : Nat) :
    (ls.foldl State.lowerCounters s).pool p = (s.pool p).lowered (freedFrom ls p) := by
  induction ls generalizing s with
  | nil => simp [freedFrom, Pool.lowered]
  | cons l ls ih =>
    rw [List.foldl_cons, ih]
    unfold State.lowerCounters
    rw [State.pool_setPool]
    by_cases h : p = l.pool
    · subst h
      rw [if_pos rfl]
      have hf : freedFrom (l :: ls) l.pool = l :: freedFrom ls l.pool := by simp [freedFrom]
      rw [hf]
      by_cases hr : l.inReserve = true
      · simp [Pool.lowered, Pool.giveBack, hr, Nat.sub_sub, Nat.add_comm]
      · simp [Pool.lowered, Pool.giveBack, hr, Nat.sub_sub, Nat.add_comm]
    · rw [if_neg h]
      have hf : freedFrom (l :: ls) p = freedFrom ls p := by
        simp [freedFrom, Ne.symm h]
      rw [hf]

/-- R18 step 1 changes the pools only. -/
theorem lowerAll_eq (ls : List Lease) (s : State) :
    ∃ pools, ls.foldl State.lowerCounters s = { s with et := { s.et with pools := pools } } := by
  induction ls generalizing s with
  | nil => exact ⟨_, rfl⟩
  | cons l ls ih =>
    obtain ⟨pools, h⟩ := ih (s.lowerCounters l)
    exact ⟨pools, by rw [List.foldl_cons, h]; rfl⟩

/-- Settling a settled pool changes nothing. -/
theorem settled_settled (e : Pool) : e.settled.settled = e.settled := by
  obtain ⟨st, params, u, r, n⟩ := e
  cases st
  · rfl
  · rfl
  · by_cases h : withinLimits (params.getD Params.none) ⟨.draining, params, u, r, n⟩ = true
    · simp [Pool.settled, h]
    · simp [Pool.settled, h]
  · by_cases h : n = 0
    · simp [Pool.settled, h, Pool.atReset]
    · simp [Pool.settled, h]

/-- R15: the pool is dropped when it is settled. -/
abbrev Pool.drops (e : Pool) : Prop := e.st = .retiring ∧ e.leaseCount = 0

theorem settled_not_drops (e : Pool) : ¬ e.settled.drops := by
  obtain ⟨st, params, u, r, n⟩ := e
  rintro ⟨h1, h2⟩
  cases st
  · cases h1
  · cases h1
  · by_cases h : withinLimits (params.getD Params.none) ⟨.draining, params, u, r, n⟩ = true <;> simp [Pool.settled, h] at h1
  · by_cases h : n = 0
    · simp [Pool.settled, h, Pool.atReset] at h1
    · simp [Pool.settled, h] at h2

/-- R18 steps 2 and 3 for one pool: everything settling does. -/
theorem settlePool_spec (s : State) (p : Nat) :
    (∀ q, (s.settlePool p).pool q = if q = p then (s.pool p).settled else s.pool q) ∧
    (∀ q, (s.settlePool p).activeMask q = if q = p ∧ (s.pool p).drops then 0 else s.activeMask q) ∧
    (∀ q, (s.settlePool p).stagedMask q = if q = p ∧ (s.pool p).drops then none else s.stagedMask q) ∧
    ∃ pools am sm, s.settlePool p = { s with
      et := { s.et with pools := pools }
      su := { s.su with activeMasks := am, stagedMasks := sm } } := by
  unfold State.settlePool
  have same : ∀ (e : Pool), e = s.pool p → e.settled = e → ∀ q, s.pool q = if q = p then (s.pool p).settled else s.pool q := by
    rintro e rfl he q
    split_ifs with h
    · rw [h, he]
    · rfl
  have keep : ∀ (hn : ¬ (s.pool p).drops),
      (∀ q, s.activeMask q = if q = p ∧ (s.pool p).drops then 0 else s.activeMask q) ∧
      (∀ q, s.stagedMask q = if q = p ∧ (s.pool p).drops then none else s.stagedMask q) := by
    intro hn
    exact ⟨fun q => by rw [if_neg (fun h => hn h.2)], fun q => by rw [if_neg (fun h => hn h.2)]⟩
  split
  · rename_i hst
    have hn : ¬ (s.pool p).drops := fun h => by have := h.1; rw [hst] at this; cases this
    by_cases hw : withinLimits (s.params p) (s.pool p) = true
    · rw [if_pos hw]
      refine ⟨?_, (keep hn).1, (keep hn).2, ⟨_, _, _, rfl⟩⟩
      intro q
      rw [State.pool_setPool]
      split_ifs with h
      · unfold Pool.settled
        rw [hst]
        exact (if_pos hw).symm
      · rfl
    · rw [if_neg hw]
      refine ⟨same _ rfl ?_, (keep hn).1, (keep hn).2, ⟨_, _, _, rfl⟩⟩
      unfold Pool.settled
      rw [hst]
      exact if_neg hw
  · rename_i hst
    by_cases h0 : (s.pool p).leaseCount = 0
    · rw [if_pos h0]
      have hd : (s.pool p).drops := ⟨hst, h0⟩
      refine ⟨?_, ?_, ?_, ⟨_, _, _, rfl⟩⟩
      · intro q
        have : (s.dropPool p).pool q = (s.setPool p Pool.atReset).pool q := rfl
        rw [this, State.pool_setPool]
        split_ifs with h
        · unfold Pool.settled
          rw [hst]
          simp only
          rw [if_pos h0]
        · rfl
      · intro q
        have : (s.dropPool p).activeMask q = ((s.setPool p Pool.atReset).setActiveMask p 0).activeMask q := rfl
        rw [this, State.activeMask_setActiveMask]
        by_cases hq : q = p
        · rw [if_pos hq, if_pos ⟨hq, hd⟩]
        · rw [if_neg hq, if_neg (fun h => hq h.1)]
          rfl
      · intro q
        unfold State.dropPool
        rw [State.stagedMask_setStagedMask]
        by_cases hq : q = p
        · rw [if_pos hq, if_pos ⟨hq, hd⟩]
        · rw [if_neg hq, if_neg (fun h => hq h.1)]
          rfl
    · rw [if_neg h0]
      refine ⟨same _ rfl ?_, (keep (fun h => h0 h.2)).1, (keep (fun h => h0 h.2)).2, ⟨_, _, _, rfl⟩⟩
      unfold Pool.settled
      rw [hst]
      simp only
      rw [if_neg h0]
  · rename_i hst
    have hn : ¬ (s.pool p).drops := fun h => by have := h.1; rw [hst] at this; cases this
    refine ⟨same _ rfl ?_, (keep hn).1, (keep hn).2, ⟨_, _, _, rfl⟩⟩
    unfold Pool.settled
    rw [hst]
  · rename_i hst
    have hn : ¬ (s.pool p).drops := fun h => by have := h.1; rw [hst] at this; cases this
    refine ⟨same _ rfl ?_, (keep hn).1, (keep hn).2, ⟨_, _, _, rfl⟩⟩
    unfold Pool.settled
    rw [hst]

/-- R18 steps 2 and 3 over several pools. -/
theorem settleAll_spec (ps : List Nat) (s : State) :
    (∀ q, (ps.foldl State.settlePool s).pool q = if q ∈ ps then (s.pool q).settled else s.pool q) ∧
    (∀ q, (ps.foldl State.settlePool s).activeMask q = if q ∈ ps ∧ (s.pool q).drops then 0 else s.activeMask q) ∧
    (∀ q, (ps.foldl State.settlePool s).stagedMask q = if q ∈ ps ∧ (s.pool q).drops then none else s.stagedMask q) ∧
    ∃ pools am sm, ps.foldl State.settlePool s = { s with
      et := { s.et with pools := pools }
      su := { s.su with activeMasks := am, stagedMasks := sm } } := by
  induction ps generalizing s with
  | nil => exact ⟨fun _ => by simp, fun _ => by simp, fun _ => by simp, ⟨_, _, _, rfl⟩⟩
  | cons p ps ih =>
    obtain ⟨a1, a2, a3, a4⟩ := settlePool_spec s p
    obtain ⟨b1, b2, b3, b4⟩ := ih (s.settlePool p)
    rw [List.foldl_cons]
    refine ⟨?_, ?_, ?_, ?_⟩
    · intro q
      rw [b1, a1]
      by_cases hq : q = p
      · subst hq
        by_cases hm : q ∈ ps <;> simp [hm, settled_settled]
      · by_cases hm : q ∈ ps <;> simp [hm, hq]
    · intro q
      rw [b2, a1, a2]
      by_cases hq : q = p
      · subst hq
        simp [settled_not_drops]
      · simp [hq]
    · intro q
      rw [b3, a1, a3]
      by_cases hq : q = p
      · subst hq
        simp [settled_not_drops]
      · simp [hq]
    · obtain ⟨x, y, z, h⟩ := a4
      obtain ⟨x', y', z', h'⟩ := b4
      exact ⟨x', y', z', by rw [h', h]⟩

theorem freedFrom_ne_nil (ls : List Lease) (p : Nat) : freedFrom ls p ≠ [] ↔ p ∈ ls.map Lease.pool := by
  rw [freedFrom, ne_eq, List.filter_eq_nil_iff]
  simp only [decide_eq_true_eq, List.mem_map, not_forall, not_not]
  constructor
  · rintro ⟨l, hl, h⟩
    exact ⟨l, hl, h⟩
  · rintro ⟨l, hl, h⟩
    exact ⟨l, hl, h⟩

/-- R18: everything a free event does: the pools and masks as `FreeTaken` says, the pools named join the due set, nothing else. -/
theorem freeEvent_taken (s : State) (ls : List Lease) :
    FreeTaken s (s.freeEvent ls) ls ∧ OnlyDue s (s.freeEvent ls) ∧ DueJoined s (s.freeEvent ls) (fun p => p ∈ ls.map Lease.pool) ∧
    s.freeEvent ls = { s with et := (s.freeEvent ls).et, wu := (s.freeEvent ls).wu, su := (s.freeEvent ls).su } := by
  obtain ⟨c1, c2, c3, c4⟩ := settleAll_spec (ls.map Lease.pool) (ls.foldl State.lowerCounters s)
  have hl := lowerAll_pool ls s
  obtain ⟨pl, he⟩ := lowerAll_eq ls s
  obtain ⟨pools, am, sm, c4⟩ := c4
  have hp : ∀ p, (s.freeEvent ls).pool p = ((ls.map Lease.pool).foldl State.settlePool (ls.foldl State.lowerCounters s)).pool p :=
    fun _ => rfl
  have ha : ∀ p, (s.freeEvent ls).activeMask p =
      ((ls.map Lease.pool).foldl State.settlePool (ls.foldl State.lowerCounters s)).activeMask p := fun _ => rfl
  have hg : ∀ p, (s.freeEvent ls).stagedMask p =
      ((ls.map Lease.pool).foldl State.settlePool (ls.foldl State.lowerCounters s)).stagedMask p := fun _ => rfl
  have hm : ∀ p, (ls.foldl State.lowerCounters s).activeMask p = s.activeMask p := fun p => by rw [he]; rfl
  have hn : ∀ p, (ls.foldl State.lowerCounters s).stagedMask p = s.stagedMask p := fun p => by rw [he]; rfl
  have hd : ∀ p, p ∈ ls.map Lease.pool ∧ ((s.pool p).lowered (freedFrom ls p)).drops ↔ s.dropsAt ls p := by
    intro p
    unfold State.dropsAt Pool.drops
    rw [freedFrom_ne_nil]
    simp only [Pool.lowered]
    constructor
    · rintro ⟨h1, h2, h3⟩
      exact ⟨h1, h2, by omega⟩
    · rintro ⟨h1, h2, h3⟩
      exact ⟨h1, h2, by omega⟩
  refine ⟨⟨?_, ?_, ?_, ?_, ?_, ?_⟩, ?_, ?_, ?_⟩
  · intro p h
    have : p ∉ ls.map Lease.pool := fun hc => (freedFrom_ne_nil ls p).2 hc h
    rw [hp, c1, if_neg this, hl, h]
    simp [Pool.lowered]
  · intro p h
    rw [hp, c1, if_pos ((freedFrom_ne_nil ls p).1 h), hl]
  · intro p h
    have := (hd p).2 h
    rw [ha, hg, c2, c3, hl, if_pos this, if_pos this]
    exact ⟨rfl, rfl⟩
  · intro p h
    have := fun hc => h ((hd p).1 hc)
    rw [ha, hg, c2, c3, hl, if_neg this, if_neg this, hm, hn]
    exact ⟨rfl, rfl⟩
  · show ((ls.map Lease.pool).foldl State.settlePool (ls.foldl State.lowerCounters s)).et.floor = _
    rw [c4, he]
  · show { ((ls.map Lease.pool).foldl State.settlePool (ls.foldl State.lowerCounters s)).su with
      activeMasks := s.su.activeMasks, stagedMasks := s.su.stagedMasks } = _
    rw [c4, he]
  · show { ((ls.map Lease.pool).foldl State.settlePool (ls.foldl State.lowerCounters s)).wu with due := s.wu.due } = _
    rw [c4, he]
  · intro p
    show p ∈ addNumbers (ls.map Lease.pool) ((ls.map Lease.pool).foldl State.settlePool (ls.foldl State.lowerCounters s)).wu.due ↔ _
    rw [mem_addNumbers, c4, he]
    tauto
  · unfold State.freeEvent
    simp only
    rw [c4, he]
    rfl

end Sys2Proof.Machine
end

