-- ==== Sys2Proof/Laws/Install.lean ====
section
/-! SUPPORT. Lemmas about the image read: what of an arrival is taken, and that the running CRC register of R136 and the CRC of a
whole list of bytes agree. -/

namespace Sys2Proof.Machine

/-- R136: one byte at the register, as eight shifts in a row. -/
theorem crcByte_eq_fold (crc : Word) (b : Byte) :
    crcByte crc b = (List.range 8).foldl (fun r _ => if r.getLsbD 0 then (r >>> 1) ^^^ 0xEDB88320 else r >>> 1) (crc ^^^ b.setWidth 32) :=
  rfl

/-- R136: the register run over bytes from its start and ended is the image CRC of those bytes. -/
theorem crcFinal_crcBytes (bs : List Byte) : crcFinal (crcBytes crcStart bs) = imageCrc bs := rfl

/-- R134: no more is taken of an arrival than was asked for. -/
theorem arrivedBytes_length_le (asked : Nat) (bs : List Byte) : (arrivedBytes asked bs).length ≤ asked := by
  unfold arrivedBytes imagePiece
  split <;> simp only [List.length_take] <;> omega

/-- R134: an arrival that brings at least what was asked for brings all of it. -/
theorem arrivedBytes_of_le {asked : Nat} {bs : List Byte} (h : asked ≤ bs.length) : arrivedBytes asked bs = bs.take asked := if_pos h

/-- R172, log entry 10: what is taken of an arrival is whole 16-byte pieces wherever a whole number of them was asked for, so that no field
is split. -/
theorem arrivedBytes_pieces {asked : Nat} (bs : List Byte) (h : asked % 16 = 0) : (arrivedBytes asked bs).length % 16 = 0 := by
  unfold arrivedBytes imagePiece
  split <;> simp only [List.length_take] <;> omega

/-- R134: what a read brings is appended. -/
@[simp] theorem ImageRead.take_bytes (im : ImageRead) (bs : List Byte) : (im.take bs).bytes = im.bytes ++ bs := rfl

/-- R136: the register runs over the appended bytes in order. -/
theorem crcBytes_append (crc : Word) (a b : List Byte) : crcBytes crc (a ++ b) = crcBytes (crcBytes crc a) b := by
  simp [crcBytes, List.foldl_append]

/-- R134, R136: a register that agrees with the bytes held agrees with them once more bytes are taken. -/
theorem ImageRead.take_crcAgrees (im : ImageRead) (bs : List Byte) (h : im.crc = crcBytes crcStart (im.bytes.drop 10)) :
    (im.take bs).crc = crcBytes crcStart ((im.take bs).bytes.drop 10) := by
  rw [ImageRead.take_bytes, List.drop_append, crcBytes_append, ← h]
  rfl

end Sys2Proof.Machine
end

