-- ==== Sys2Proof/Laws/Layouts.lean ====
section
/-! SUPPORT. What the byte layouts of chapter 10 are, each said once: what a number read in either byte order is, and that the
bytes of an answer, of a notice entry and of the two parts of the meter page hold the fields of their tables. -/

namespace Sys2Proof.Machine

/-- R172: byte `k` of a number laid out little-endian. -/
theorem bytesLE_getElem? (n v k : Nat) (h : k < n) : (bytesLE n v)[k]? = some (BitVec.ofNat 8 (v / 256 ^ k)) := by
  induction n generalizing v k with
  | zero => omega
  | succ n ih =>
    cases k with
    | zero => simp [bytesLE]
    | succ k =>
      rw [bytesLE, List.getElem?_cons_succ, ih _ _ (by omega), Nat.div_div_eq_div_mul, Nat.pow_succ, Nat.mul_comm]

/-- R172: a number read little-endian has its least significant byte at the lowest offset. -/
theorem readLE_eq_sum (bytes : List Byte) (off n : Nat) :
    readLE bytes off n = ((List.range n).map (fun k => (bytes.getD (off + k) 0).toNat * 256 ^ k)).sum := by
  induction n generalizing off with
  | zero => rfl
  | succ n ih =>
    rw [List.range_succ_eq_map, List.map_cons, List.sum_cons, List.map_map, readLE, ih, ← List.sum_map_mul_left]
    congr 1
    · simp [byteAt]
    · congr 1
      apply List.map_congr_left
      intro k _
      simp only [Function.comp, Nat.pow_succ, Nat.succ_eq_add_one, Nat.add_assoc, Nat.add_comm 1]
      ring

/-- R135, R172: a number read big-endian has its most significant byte at the lowest offset. -/
theorem readBEFrom_eq_sum (acc : Nat) (bytes : List Byte) (off n : Nat) :
    readBEFrom acc bytes off n = acc * 256 ^ n +
      ((List.range n).map (fun k => (bytes.getD (off + k) 0).toNat * 256 ^ (n - 1 - k))).sum := by
  induction n generalizing acc off with
  | zero => simp [readBEFrom]
  | succ n ih =>
    rw [List.range_succ_eq_map, List.map_cons, List.sum_cons, List.map_map, readBEFrom, ih]
    have shifted : List.map (fun k => (bytes.getD (off + 1 + k) 0).toNat * 256 ^ (n - 1 - k)) (List.range n)
        = List.map ((fun k => (bytes.getD (off + k) 0).toNat * 256 ^ (n + 1 - 1 - k)) ∘ Nat.succ) (List.range n) := by
      apply List.map_congr_left
      intro k hk
      have := List.mem_range.1 hk
      simp only [Function.comp, Nat.succ_eq_add_one]
      rw [show off + 1 + k = off + (k + 1) by omega, show n - 1 - k = n + 1 - 1 - (k + 1) by omega]
    rw [shifted]
    simp only [byteAt, Nat.add_zero, Nat.add_sub_cancel, Nat.sub_zero]
    ring

theorem fieldHolds_one {bytes : List Byte} {off v : Nat} : FieldHolds bytes off 1 v ↔ bytes[off]? = some (BitVec.ofNat 8 v) := by
  simp [FieldHolds]

theorem fieldHolds_two {bytes : List Byte} {off v : Nat} :
    FieldHolds bytes off 2 v ↔ bytes[off]? = some (BitVec.ofNat 8 v) ∧ bytes[off + 1]? = some (BitVec.ofNat 8 (v / 256)) := by
  constructor
  · intro h
    exact ⟨by simpa using h 0 (by omega), by simpa using h 1 (by omega)⟩
  · rintro ⟨h0, h1⟩ k hk
    interval_cases k
    · simpa using h0
    · simpa using h1

theorem fieldHolds_four {bytes : List Byte} {off v : Nat} :
    FieldHolds bytes off 4 v ↔
      bytes[off]? = some (BitVec.ofNat 8 v) ∧ bytes[off + 1]? = some (BitVec.ofNat 8 (v / 256)) ∧
        bytes[off + 2]? = some (BitVec.ofNat 8 (v / 256 / 256)) ∧ bytes[off + 3]? = some (BitVec.ofNat 8 (v / 256 / 256 / 256)) := by
  simp only [Nat.div_div_eq_div_mul]
  constructor
  · intro h
    exact ⟨by simpa using h 0 (by omega), by simpa using h 1 (by omega), by simpa using h 2 (by omega), by simpa using h 3 (by omega)⟩
  · rintro ⟨h0, h1, h2, h3⟩ k hk
    interval_cases k
    · simpa using h0
    · simpa using h1
    · simpa using h2
    · simpa using h3

/-- R174, Tables 10-1 and 10-4: the bytes of an answer. -/
theorem Answer.bytes_laidOut (a : Answer) :
    LaidOut a.bytes 0x28 24 ((0x28, 1, a.result.code) :: (0x29, 1, a.detail) :: (0x2A, 2, a.pool.toNat) :: answerFields a.body) := by
  obtain ⟨r, d, p, b⟩ := a
  rcases b <;> refine ⟨rfl, ?_, ?_⟩ <;>
    simp only [answerFields, List.forall_mem_cons, List.not_mem_nil, false_imp_iff, implies_true, and_true, fieldHolds_one,
      fieldHolds_two, fieldHolds_four]
  case inspect.refine_1 =>
    rename_i w _ _ _ _ _ _ _ _
    refine ⟨rfl, rfl, ⟨rfl, rfl⟩, rfl, ?_, rfl, ⟨rfl, rfl⟩, ⟨rfl, rfl⟩, ⟨rfl, rfl⟩, ⟨rfl, rfl⟩, ⟨rfl, rfl⟩, ⟨rfl, rfl⟩, ⟨rfl, rfl⟩⟩
    cases w <;> rfl
  all_goals try (repeat' apply And.intro) <;> rfl
  all_goals
    intro off ho h
    interval_cases off <;> first | (exfalso; omega) | rfl

/-- Table 10-8: the bytes of a notice entry. -/
theorem Notice.bytes_laidOut (n : Notice) (pages : Word) : LaidOut (n.bytes pages) 0 16 (noticeFields pages n) := by
  rcases n <;> refine ⟨rfl, ?_, ?_⟩ <;>
    simp only [noticeFields, List.forall_mem_cons, List.not_mem_nil, false_imp_iff, implies_true, and_true, fieldHolds_one,
      fieldHolds_two, fieldHolds_four]
  all_goals try (repeat' apply And.intro) <;> rfl
  all_goals
    intro off ho h
    interval_cases off <;> first | (exfalso; omega) | rfl

/-- Table 10-9: the bytes of the meter page header. -/
theorem PageSnapshot.headerBytes_laidOut (snap : PageSnapshot) : LaidOut snap.headerBytes 0 64 (pageHeaderFields snap) := by
  refine ⟨rfl, ?_, ?_⟩ <;>
    simp only [pageHeaderFields, List.forall_mem_cons, List.not_mem_nil, false_imp_iff, implies_true, and_true, fieldHolds_one,
      fieldHolds_four]
  · repeat' apply And.intro
    all_goals rfl
  · intro off ho h
    interval_cases off <;> first | (exfalso; omega) | rfl

/-- Table 10-10: the saturation flags as one number. -/
theorem Meters.flagBits_eq (m : Meters) :
    m.flagBits = (if m.satTokenTicks then 1 else 0) + (if m.satGrants then 2 else 0) + (if m.satRefusals then 4 else 0)
      + (if m.satWaitExpiries then 8 else 0) + (if m.satLapses then 16 else 0) + (if m.satPeak then 32 else 0) := rfl

/-- Table 10-10: the bytes of a pool's record. -/
theorem PageSnapshot.recordBytes_laidOut (snap : PageSnapshot) (p : Nat) :
    LaidOut (snap.recordBytes p) 0 32
      (pageRecordFields (Table.get Meters.atReset snap.meters p) (Table.get Occupancy.atReset snap.pools p)) := by
  unfold PageSnapshot.recordBytes
  generalize Table.get Meters.atReset snap.meters p = m
  generalize Table.get Occupancy.atReset snap.pools p = o
  simp only [bytesLE, zeros, byteOf, List.replicate, List.cons_append, List.nil_append, Meters.flagBits_eq]
  refine ⟨rfl, ?_, ?_⟩ <;>
    simp only [pageRecordFields, List.forall_mem_cons, List.not_mem_nil, false_imp_iff, implies_true, and_true, fieldHolds_one,
      fieldHolds_two, fieldHolds_four]
  · repeat' apply And.intro
    all_goals simp only [Nat.sub_zero, Nat.reduceAdd, List.getElem?_cons_succ, List.getElem?_cons_zero]
  · intro off ho h
    interval_cases off <;> first | (exfalso; omega) | simp

end Sys2Proof.Machine
end

