-- ==== Sys2Proof/Laws/Resume.lean ====
section
/-! SUPPORT. What resuming DMA does, said once: the transfers of the retry list and of the streams that waited are issued in order, and
each stream then stands at its write or read (R170, log entry 12). -/

namespace Sys2Proof.Machine

/-- R170: issuing transfers one after another gives each the next tag and puts it in flight, and does nothing else. -/
theorem reissueAll_eq (l : List Transfer) (s : State) :
    l.foldl State.reissue s =
      { s with
        nextTag := s.nextTag + l.length
        xi := { s.xi with inFlight := s.xi.inFlight ++ l.mapIdx (fun i x => { x with tag := s.nextTag + i }) } } := by
  induction l generalizing s with
  | nil => simp
  | cons x l ih =>
    rw [List.foldl_cons, ih]
    simp only [State.reissue, State.issue, List.length_cons, List.mapIdx_cons, List.append_assoc, Nat.add_assoc, Nat.add_comm 1,
      List.singleton_append, Nat.add_zero]

/-- R164, R170: the status-byte write that waited is issued. -/
theorem resumeWriteList_eq (s : State) :
    s.resumeWriteList =
      { s.owedStatus.foldl State.reissue s with
        xi := { (s.owedStatus.foldl State.reissue s).xi with
          writeStage := if s.owedStatus = [] then s.xi.writeStage else .second } } := by
  unfold State.resumeWriteList State.issueStatusWrite State.owedStatus
  cases hs : s.xi.writeStage <;> simp only [reduceCtorEq, if_true, if_false]
  case firstDone =>
    rcases hw : s.xi.writeList with - | ⟨_ | _, _⟩
    · simp [← hs]
    · rfl
    · rfl
  all_goals simp [← hs]

/-- R166, R170: the notices-written count write that waited is issued. -/
theorem resumeNotices_eq (s : State) :
    s.resumeNotices =
      { s.owedCount.foldl State.reissue s with
        xi := { (s.owedCount.foldl State.reissue s).xi with
          noticeStage := if s.owedCount = [] then s.xi.noticeStage else .second } } := by
  unfold State.resumeNotices State.issueNoticeCount State.owedCount
  cases hs : s.xi.noticeStage <;> simp only [reduceCtorEq, if_true, if_false]
  case firstDone =>
    rcases hw : s.xi.notices with - | ⟨_, _⟩
    · simp [← hs]
    · simp [owed, State.reissue, exchangeAddr, writtenOffset, State.issue]
  all_goals simp [← hs]

/-- R155, R170: the part of the meter page that waited is issued. -/
theorem resumePage_eq (s : State) :
    s.resumePage =
      { s.owedPage.foldl State.reissue s with
        mu := { s.mu with
          page := match s.mu.page with
            | .writing snap part _ => if s.owedPage = [] then s.mu.page else .writing snap part true
            | _ => s.mu.page } } := by
  unfold State.resumePage State.issuePagePart State.owedPage
  rcases hs : s.mu.page with - | - | ⟨snap, part, issued⟩
  · simp [← hs]
  · simp [← hs]
  · cases issued
    · rcases part with - | part
      · simp [owed, State.reissue, exchangeAddr, pageOffset, PageSnapshot.partBytes, State.issue]
      · by_cases hp : part < 512
        · have : part + 1 ≤ Config.numPools := hp
          simp [owed, State.reissue, exchangeAddr, pageOffset, PageSnapshot.partBytes, State.issue, hp, this]
        · have : ¬ part + 1 ≤ Config.numPools := hp
          simp [owed, State.reissue, exchangeAddr, ownerOffset, State.issue, hp, this]
          decide
    · rcases part with - | part <;> simp only [List.foldl_nil, if_true] <;> rw [← hs]

/-- R134, R146, R170: the image read goes on, or after a fault starts again at the first byte. -/
theorem resumeImage_eq (s : State) :
    s.resumeImage = { s.owedImage.foldl State.reissue s with install := s.installResumed s.nextTag } := by
  unfold State.resumeImage State.issueImageRead State.owedImage State.installResumed
  rcases hs : s.install with - | im | ⟨_, _, _, _⟩
  · simp [← hs]
  · rcases im with ⟨cell, addr, len, bytes, crc, readTag, restart⟩
    cases restart <;> cases readTag <;>
      simp [owed, State.reissue, State.issue, ImageRead.wanted, Config.headerBytes, crcStart, ← hs]
  · simp [← hs]

/-- R170, R117: leaving STILL or FAULTED for a state that permits DMA, everything it does. -/
theorem requestDmaState_resumed (s : State) (target : EngineState) (h : s.xi.engine = .still ∨ s.xi.engine = .faulted) :
    Resumed s (s.requestDmaState target) target := by
  rintro ahead issued rfl rfl
  have key : ∀ tb : TimeBase, State.resume { s with tb := tb, xi := { s.xi with engine := target } } =
      { s with
        nextTag := s.nextTag + (s.xi.retry ++ s.owedStatus ++ s.owedCount ++ s.owedPage ++ s.owedImage).length
        xi := { s.xi with
          engine := target
          retry := []
          inFlight := s.xi.inFlight ++ (s.xi.retry ++ s.owedStatus ++ s.owedCount ++ s.owedPage ++ s.owedImage).mapIdx
            (fun i x => { x with tag := s.nextTag + i })
          writeStage := if s.owedStatus = [] then s.xi.writeStage else .second
          noticeStage := if s.owedCount = [] then s.xi.noticeStage else .second }
        tb := tb
        install := s.installResumed (s.nextTag + (s.xi.retry ++ s.owedStatus ++ s.owedCount ++ s.owedPage).length)
        mu := { s.mu with
          page := match s.mu.page with
            | .writing snap part _ => if s.owedPage = [] then s.mu.page else .writing snap part true
            | _ => s.mu.page } } := by
    intro tb
    unfold State.resume State.issueRetries
    rw [resumeImage_eq, resumePage_eq, resumeNotices_eq, resumeWriteList_eq]
    have h1 : ∀ u : State, u.xi.writeStage = s.xi.writeStage → u.xi.writeList = s.xi.writeList → u.xi.base = s.xi.base →
        u.owedStatus = s.owedStatus := by
      intro u e1 e2 e3
      unfold State.owedStatus
      rw [e1, e2, e3]
    have h2 : ∀ u : State, u.xi.noticeStage = s.xi.noticeStage → u.xi.notices = s.xi.notices → u.xi.base = s.xi.base →
        u.xi.written = s.xi.written → u.owedCount = s.owedCount := by
      intro u e1 e2 e3 e4
      unfold State.owedCount
      rw [e1, e2, e3, e4]
    have h3 : ∀ u : State, u.mu = s.mu → u.xi.base = s.xi.base → u.owedPage = s.owedPage := by
      intro u e1 e2
      unfold State.owedPage
      rw [e1, e2]
    have h4 : ∀ u : State, u.install = s.install → u.owedImage = s.owedImage := by
      intro u e
      unfold State.owedImage
      rw [e]
    have h5 : ∀ (u : State) (n : Nat), u.install = s.install → u.installResumed n = s.installResumed n := by
      intro u n e
      unfold State.installResumed
      rw [e]
    simp only [reissueAll_eq]
    simp only [h1, h2, h3, h4, h5]
    simp only [List.length_append, List.mapIdx_append, List.append_assoc, Nat.add_assoc, Nat.add_comm, Nat.add_left_comm]
  rcases h with h | h
  · have : s.requestDmaState target = State.resume { s.loadGrace with xi.engine := target } := by
      unfold State.requestDmaState
      rw [h]
    rw [this, h]
    exact key _
  · have : s.requestDmaState target = State.resume { s with xi.engine := target } := by
      unfold State.requestDmaState
      rw [h]
    rw [this, h]
    exact key _

end Sys2Proof.Machine
end

