-- ==== Sys2Proof/Laws/Waiting.lean ====
section
/-! SUPPORT. What the Wait Unit's shared operations do, each said once: the deadline count of a housekeeping tick (R79, R80), the ticks
held during an examination and its end (R70, R75), and the flush of a queue (R71, R72). -/

namespace Sys2Proof.Machine

/-! ### Tables in canonical form -/

/-- An entry of a canonical table is what its number reads as. -/
theorem Table.mem_iff_get {α : Type} [DecidableEq α] (d : α) {t : Table α} (h : Table.canonical d t = true) (i : Nat) (v : α) :
    (i, v) ∈ t ↔ Table.get d t i = v ∧ v ≠ d := by
  constructor
  · intro hm
    exact ⟨Table.get_of_mem d h hm, ((Table.canonical_iff d t).1 h).2 _ hm⟩
  · rintro ⟨rfl, hv⟩
    by_cases hi : i ∈ t.map Prod.fst
    · obtain ⟨⟨j, w⟩, hm, rfl⟩ := List.mem_map.1 hi
      rw [Table.get_of_mem d h hm]
      exact hm
    · exact absurd (Table.get_of_not_mem d hi) hv

/-- Log entry 21: the wait queues of a canonical state are canonical. -/
theorem canonical_queues {s : State} (h : s.canonical = true) : Table.canonical [] s.wu.queues = true := by
  unfold State.canonical at h
  simp only [Bool.and_eq_true] at h
  tauto

/-! ### Deadlines -/

/-- R80: expiring several entries hands their answers in order and counts a wait-expiry for each. -/
theorem expireAll_eq (es : List (Nat × Waiter)) (s : State) :
    es.foldl State.expireWaiter s =
      { s.handAnswers (es.map (fun e => (e.2.cell, plainAnswer .waitExpired (poolField e.1)))) with
        mu := { s.mu with inbox := s.mu.inbox ++ es.map (fun e => .raise .waitExpiries e.1) } } := by
  induction es generalizing s with
  | nil => simp [State.handAnswers]
  | cons e es ih =>
    rw [List.foldl_cons, ih]
    obtain ⟨-, -, hf⟩ := handAnswers_answered (s.expireWaiter e) (es.map (fun e => (e.2.cell, plainAnswer .waitExpired (poolField e.1))))
    obtain ⟨-, -, hg⟩ := handAnswers_answered (s.answerWaiter e.1 .waitExpired e.2)
      (es.map (fun e => (e.2.cell, plainAnswer .waitExpired (poolField e.1))))
    have hx : ∀ (as : List (Nat × Answer)) (a b : State), a.xi = b.xi → (a.handAnswers as).xi = (b.handAnswers as).xi := by
      intro as
      induction as with
      | nil => intro a b h; exact h
      | cons x as ih =>
        intro a b h
        apply ih
        unfold State.handAnswer State.cell
        simp only
        rw [h]
    have hxi := hx (es.map (fun e => (e.2.cell, plainAnswer .waitExpired (poolField e.1)))) (s.expireWaiter e)
      (s.answerWaiter e.1 .waitExpired e.2) rfl
    rw [hf, hxi]
    have : s.handAnswers ((e :: es).map (fun e => (e.2.cell, plainAnswer .waitExpired (poolField e.1)))) =
        (s.answerWaiter e.1 .waitExpired e.2).handAnswers (es.map (fun e => (e.2.cell, plainAnswer .waitExpired (poolField e.1)))) := rfl
    rw [this, hg]
    simp [State.expireWaiter, State.handCounts, State.answerWaiter, State.handAnswer]

/-- R79, R80: a tick that counts deadlines, everything it does. -/
theorem countDeadlines_counted {s : State} (h : s.canonical = true) : TickCounted s s.countDeadlines := by
  have hq := canonical_queues h
  have hm : ∀ p w, (p, w) ∈ s.expiringWaiters ↔ w ∈ s.queue p ∧ w.deadline ≤ 1 := by
    intro p w
    unfold State.expiringWaiters
    rw [mem_sortByKey, List.mem_flatMap]
    simp only [List.mem_map, List.mem_filter, Prod.mk.injEq]
    constructor
    · rintro ⟨⟨q, l⟩, hl, w', ⟨hw, he⟩, rfl, rfl⟩
      have := ((Table.mem_iff_get [] hq q l).1 hl).1
      exact ⟨by unfold State.queue; rw [this]; exact hw, by simpa [Waiter.expiring] using he⟩
    · rintro ⟨hw, he⟩
      refine ⟨(p, s.queue p), (Table.mem_iff_get [] hq p _).2 ⟨rfl, fun hn => ?_⟩, w, ⟨hw, by simpa [Waiter.expiring] using he⟩, rfl, rfl⟩
      rw [hn] at hw
      cases hw
  obtain ⟨u, hu⟩ : ∃ u : State, u = { s with wu := { s.wu with
      queues := Table.mapEntries [] (fun _ q => (q.filter (fun w => !w.expiring)).map Waiter.counted) s.wu.queues } } := ⟨_, rfl⟩
  obtain ⟨ha, hb, hf⟩ := handAnswers_answered u (s.expiringWaiters.map (fun e => (e.2.cell, plainAnswer .waitExpired (poolField e.1))))
  generalize hv : u.handAnswers (s.expiringWaiters.map (fun e => (e.2.cell, plainAnswer .waitExpired (poolField e.1)))) = v at ha hb hf
  have hc : s.countDeadlines = { s with
      xi := v.xi
      wu := { s.wu with
        queues := Table.mapEntries [] (fun _ q => (q.filter (fun w => !w.expiring)).map Waiter.counted) s.wu.queues
        due := addNumbers s.expiringHeads s.wu.due }
      mu := { s.mu with inbox := s.mu.inbox ++ s.expiringWaiters.map (fun e => .raise .waitExpiries e.1) } } := by
    have : s.countDeadlines = (s.expiringWaiters.foldl State.expireWaiter u).makeDue s.expiringHeads := by rw [hu]; rfl
    rw [this, expireAll_eq, hv, hf, hu]
    rfl
  have hxi : u.xi = s.xi := by rw [hu]
  unfold AnsweredFrame at ha
  unfold Answered State.cell at hb
  rw [hxi] at ha hb
  rw [hc]
  refine ⟨⟨s.expiringWaiters, hm, sortByKey_pairwise _ _, ?_, ?_, ?_, rfl, ?_, rfl⟩, ha, rfl⟩
  · unfold State.expiringWaiters
    rw [length_sortByKey]
    simp only [List.length_flatMap, List.length_map]
    rfl
  · intro p
    refine (Table.get_mapEntries [] (fun _ q => (q.filter (fun w => !w.expiring)).map Waiter.counted) _ hq p rfl).trans ?_
    show List.map Waiter.counted (List.filter _ (s.queue p)) = _
    have : (fun w : Waiter => !w.expiring) = (fun w => decide (1 < w.deadline)) := by
      funext w
      unfold Waiter.expiring
      by_cases hd : w.deadline ≤ 1
      · simp [hd]
      · simp [hd, Nat.lt_of_not_le hd]
    rw [this]
    rfl
  · simpa [Answered, State.cell, List.map_map, Function.comp_def, poolField] using hb
  · intro p
    show p ∈ addNumbers s.expiringHeads s.wu.due ↔ _
    rw [mem_addNumbers, or_comm]
    apply or_congr_right
    unfold State.expiringHeads Table.select
    rw [List.mem_map]
    constructor
    · rintro ⟨⟨q, l⟩, hl, rfl⟩
      obtain ⟨hl, he⟩ := List.mem_filter.1 hl
      have := ((Table.mem_iff_get [] hq q l).1 hl).1
      rcases l with - | ⟨w, l⟩
      · simp at he
      · exact ⟨w, by unfold State.queue; rw [this]; rfl, by simpa [Waiter.expiring] using he⟩
    · rintro ⟨w, hw, hd⟩
      refine ⟨(p, s.queue p), List.mem_filter.2 ⟨(Table.mem_iff_get [] hq p _).2 ⟨rfl, fun hn => ?_⟩, ?_⟩, rfl⟩
      · rw [hn] at hw
        cases hw
      · simpa [hw, Waiter.expiring] using hd

/-- Log entry 21: handing an answer keeps the canonical form. -/
theorem canonical_handAnswer {s : State} (h : s.canonical = true) (c : Nat) (a : Answer) : (s.handAnswer c a).canonical = true := by
  unfold State.canonical at *
  simp only [Bool.and_eq_true] at *
  have hc : Table.canonical Cell.atReset (s.handAnswer c a).xi.cells = true := by
    show Table.canonical Cell.atReset (Table.set Cell.atReset s.xi.cells c { s.cell c with st := .answering, copy := [] }) = true
    exact Table.canonical_set _ _ _ _ h.1.1.1.1.1.1.1.1
  exact ⟨⟨⟨⟨⟨⟨⟨⟨hc, h.1.1.1.1.1.1.1.2⟩, h.1.1.1.1.1.1.2⟩, h.1.1.1.1.1.2⟩, h.1.1.1.1.2⟩,
    h.1.1.1.2⟩, h.1.1.2⟩, h.1.2⟩, h.2⟩

/-- Log entry 21: the Wait Unit's tables may be replaced by canonical ones. -/
theorem canonical_withWait {s t : State} (h : s.canonical = true) (ht : t = { s with wu := t.wu, mu := { s.mu with inbox := t.mu.inbox } })
    (hq : Table.canonical [] t.wu.queues = true) (hs : rising t.wu.stall = true) (hd : rising t.wu.due = true) :
    t.canonical = true := by
  rw [ht]
  unfold State.canonical at *
  simp only [Bool.and_eq_true] at *
  exact ⟨⟨⟨⟨⟨⟨⟨⟨h.1.1.1.1.1.1.1.1, h.1.1.1.1.1.1.1.2⟩, h.1.1.1.1.1.1.2⟩, hq⟩, hs⟩, hd⟩, h.1.1.2⟩, h.1.2⟩, h.2⟩

/-- Log entry 21: the marks and the due set of a canonical state are rising. -/
theorem canonical_sets {s : State} (h : s.canonical = true) : rising s.wu.stall = true ∧ rising s.wu.due = true := by
  unfold State.canonical at h
  simp only [Bool.and_eq_true] at h
  tauto

/-- Log entry 21: a tick that counts deadlines keeps the canonical form. -/
theorem canonical_countDeadlines {s : State} (h : s.canonical = true) : s.countDeadlines.canonical = true := by
  have hall : ∀ (es : List (Nat × Waiter)) (u : State), u.canonical = true → (es.foldl State.expireWaiter u).canonical = true := by
    intro es
    induction es with
    | nil => exact fun _ h => h
    | cons e es ih =>
      intro u h
      have ha : (u.answerWaiter e.1 .waitExpired e.2).canonical = true := canonical_handAnswer h _ _
      exact ih _ (canonical_withWait ha rfl (canonical_queues ha) (canonical_sets ha).1 (canonical_sets ha).2)
  have hu := hall s.expiringWaiters
    { s with wu.queues := Table.mapEntries [] (fun _ q => (q.filter (fun w => !w.expiring)).map Waiter.counted) s.wu.queues }
    (canonical_withWait h rfl
      (by exact Table.canonical_mapEntries [] (fun _ q => (q.filter (fun w => !w.expiring)).map Waiter.counted) _ (canonical_queues h))
      (canonical_sets h).1 (canonical_sets h).2)
  exact canonical_withWait hu rfl (canonical_queues hu :) ((canonical_sets hu).1 :) (rising_addNumbers _ _ (canonical_sets hu).2 :)

/-! ### The end of an examination -/

/-- R79, R86: a tick taken by the Wait Unit keeps the canonical form. -/
theorem canonical_waitTick {s : State} (h : s.canonical = true) : s.waitTick.canonical = true := by
  unfold State.waitTick
  split
  · exact canonical_countDeadlines h
  · exact h

/-- R70, R79: the ticks held during an examination are taken one after another. -/
theorem waitTicks_taken (n : Nat) {s : State} (h : s.canonical = true) : HeldTicksTaken n s (State.waitTicks n s) := by
  induction n generalizing s with
  | zero => rfl
  | succ n ih =>
    refine ⟨s.waitTick, ?_, ?_, ih (canonical_waitTick h)⟩
    · rintro (he | he | he) <;> (unfold State.waitTick; rw [he]; exact countDeadlines_counted h)
    · rintro (he | he) <;> (unfold State.waitTick; rw [he]; rfl)

/-- Log entry 21: setting or clearing a table-stall mark keeps the canonical form. -/
theorem canonical_setStall {s : State} (h : s.canonical = true) (p : Nat) (set : Bool) : (s.setStall p set).canonical = true := by
  refine canonical_withWait h rfl (canonical_queues h :) ?_ ((canonical_sets h).2 :)
  have hs := (canonical_sets h).1
  cases set
  · unfold rising at *
    rw [decide_eq_true_eq] at *
    exact hs.filter _
  · exact rising_addNumber _ _ hs

/-- R70, R75: everything the end of an examination does. -/
theorem endExam_over {s : State} (h : s.canonical = true) (p : Nat) (stalled : Bool) : ExamOver s (s.endExam p stalled) p stalled := by
  refine ⟨{ s.setStall p stalled with wu := { (s.setStall p stalled).wu with exam := none, heldTicks := 0 } }, rfl, ?_, ?_, ?_⟩
  · intro q
    cases stalled
    · simp [State.setStall, and_comm]
    · show q ∈ addNumber p s.wu.stall ↔ _
      rw [mem_addNumber]
      by_cases hq : q = p <;> simp [hq]
  · rintro rfl
    rfl
  · exact waitTicks_taken _ (canonical_setStall h p stalled)

/-- R71, R72, R85: everything a flush that ends an examination does. -/
theorem flush_flushed {s : State} (h : s.canonical = true) (p : Nat) :
    QueueFlushed s ((s.flushQueue p .poolRetired).endExam p false) p .poolRetired ∧
    QueueFlushed s (s.examFlushExpired p) p .expired := by
  have key : ∀ r : Result, ∃ u : State, u = s.flushQueue p r ∧ u = { s with xi := u.xi, wu := { s.wu with queues := u.wu.queues } } ∧
      AnsweredFrame s u ∧ Answered s u ((s.queue p).map (fun w => (w.cell, plainAnswer r (BitVec.ofNat 16 p)))) ∧
      u.queue p = [] ∧ (∀ q, q ≠ p → u.queue q = s.queue q) ∧ u.canonical = true := by
    intro r
    refine ⟨_, rfl, ?_⟩
    rw [flushQueue_eq]
    obtain ⟨ha, hb, hf⟩ := handAnswers_answered (s.setQueue p []) ((s.queue p).map (fun w => (w.cell, plainAnswer r (poolField p))))
    have hcanon : ∀ (as : List (Nat × Answer)) (v : State), v.canonical = true → (v.handAnswers as).canonical = true := by
      intro as
      induction as with
      | nil => exact fun _ h => h
      | cons a as ih => exact fun v h => ih _ (canonical_handAnswer h _ _)
    refine ⟨?_, ha, hb, ?_, ?_, hcanon _ _ (canonical_withWait h rfl
      (by exact Table.canonical_set [] s.wu.queues p [] (canonical_queues h)) (canonical_sets h).1 (canonical_sets h).2)⟩
    · conv_lhs => rw [hf]
      rw [hf]
      rfl
    · rw [hf]
      exact Table.get_set_self [] s.wu.queues p []
    · intro q hq
      rw [hf]
      exact Table.get_set_other [] s.wu.queues hq []
  constructor
  · obtain ⟨u, hu, he, ha, hb, h1, h2, hc⟩ := key .poolRetired
    refine ⟨u, ?_, ha, hb, h1, h2, hu ▸ endExam_over hc p false⟩
    rw [he]
    simp
  · obtain ⟨u, hu, he, ha, hb, h1, h2, hc⟩ := key .expired
    refine ⟨u.handCounts ((s.queue p).map (fun _ => MeterCount.raise .refusals p)), ?_, ha, hb, h1, h2, ?_⟩
    · rw [he]
      rfl
    · have hk : (u.handCounts ((s.queue p).map (fun _ => MeterCount.raise .refusals p))).canonical = true :=
        canonical_withWait hc rfl (canonical_queues hc) (canonical_sets hc).1 (canonical_sets hc).2
      have := endExam_over hk p false
      rw [hu] at this ⊢
      exact this

end Sys2Proof.Machine
end

