-- ==== Sys2Proof/Tests/Slice0.lean ====
section
/-! SUPPORT. Tests of the model, each with its source in spec/, and for every statement with hypotheses a theorem that shows a
state and operands that meet them, clause by clause, at boundary values where a clause has a range. -/

namespace Sys2Proof.Tests

open Sys2Proof.Machine

/-! ### Ill-formed commands are refused -/

theorem test_wf_run : (Instr.requestRun 0x12).wellFormed = false := by decide
theorem test_wf_hold : (Instr.requestHold 0x80000002).wellFormed = false := by decide
theorem test_wf_still : (Instr.requestStill 0x10).wellFormed = false := by decide
theorem test_wf_enable : (Instr.interruptEnable 0x11).wellFormed = false := by decide
theorem test_wf_reset : (Instr.functionReset 0x7FFFFFFF).wellFormed = false := by decide
theorem test_wf_fetch : (Instr.fetchArrival 0 [0]).wellFormed = false := by decide
theorem test_wf_image : (Instr.imageReadArrival 0 []).wellFormed = false := by decide
theorem test_wf_image_long (bytes : List Byte) (h : bytes.length = 49281) : (Instr.imageReadArrival 0 bytes).wellFormed = false := by
  simp [Instr.wellFormed, h]
theorem test_wf_consumed : (Instr.consumedReadArrival 0 [1, 2, 3]).wellFormed = false := by decide
theorem test_wf_owner : (Instr.ownerReadArrival 0 [1, 2, 3, 4, 5]).wellFormed = false := by decide
theorem test_wf_lapse : (Instr.lapse 4096).wellFormed = false := by decide
theorem test_wf_linger : (Instr.lingerEnd 4096).wellFormed = false := by decide
theorem test_wf_expiry : (Instr.waitExpiry 1024).wellFormed = false := by decide
theorem test_wf_good : (Instr.requestRun 0x11).wellFormed = true ∧ (Instr.fetchArrival 0 (List.replicate 40 0)).wellFormed = true ∧
    (Instr.lapse 4095).wellFormed = true ∧ (Instr.waitExpiry 1023).wellFormed = true := by decide

/-! ### Words of the register window (Table 10-14) and the table's words -/

/-- CONTROL: enable and RUN, then function reset with every other field given. -/
theorem test_control_words : registerWriteCommand 0x0C 0x11 = some (.requestRun 0x11) ∧
    registerWriteCommand 0x0C 0x02 = some (.requestHold 0x02) ∧ registerWriteCommand 0x0C 0x03 = some (.requestStill 0x03) ∧
    registerWriteCommand 0x0C 0x10 = some (.interruptEnable 0x10) ∧
    registerWriteCommand 0x0C 0x80000013 = some (.functionReset 0x80000013) := by decide

/-- POST, CAUSE, the ignored writes, and no register beyond 18h. -/
theorem test_window_words : registerWriteCommand 0x08 1023 = some (.post 1023) ∧ registerWriteCommand 0x14 3 = some (.causeWrite 3) ∧
    registerWriteCommand 0x10 5 = some (.registerWriteIgnored .status 5) ∧
    registerWriteCommand 0x18 5 = some (.registerWriteIgnored .faultInfo 5) ∧ registerWriteCommand 0x1C 0 = none := by decide

/-- The table of commands gives no bits. -/
theorem test_table_word : decodeTableWord 32 0x12345678 = none := rfl

/-! ### Arithmetic against the tables of chapters 1 and 2 -/

/-- Table 1-3. -/
theorem test_key_matching : keyMatches 0x00120456 0x00100000 0xFFE00000 = true ∧ keyMatches 0x0017FF00 0x00100000 0xFFE00000 = true ∧
    keyMatches 0x00330001 0x00100000 0xFFE00000 = false ∧ keyMatches 0x00120456 0x00120000 0xFFFF0000 = true ∧
    keyMatches 0x0017FF00 0x00120000 0xFFFF0000 = false := by decide

/-- Table 2-2: raw 31 at each rate. -/
theorem test_charge_rates : rawCharge 1 15 9 2 4 = 31 ∧ [25, 50, 75, 100, 125, 400].map (chargeOf 31) = [8, 16, 24, 31, 39, 124] := by
  decide

/-- Table 2-3: the largest inputs; then either side of the ceiling. -/
theorem test_charge_largest : rawCharge 64 1024 4095 1023 0 = 67305408 ∧ chargeOf 67305408 400 = 269221632 ∧
    chargeOf 52428 125 = 65535 ∧ chargeOf 52429 125 = 65537 ∧ chargeOf 16383 400 = 65532 ∧ chargeOf 16384 400 = 65536 := by decide

/-- Table 2-8: the shortfall as a pool of reserve 40 fills. -/
theorem test_shortfall : shortfall 40 0 = 40 ∧ shortfall 40 15 = 25 ∧ shortfall 40 39 = 1 ∧ shortfall 40 54 = 0 := by decide

/-- R136: the CRC over 31h to 39h. -/
theorem test_crc : crcFinal (crcBytes crcStart [0x31, 0x32, 0x33, 0x34, 0x35, 0x36, 0x37, 0x38, 0x39]) = 0xCBF43926 := by decide +kernel

/-- Table 1-2: period fields (default, minimum, maximum) with 0 and with bounds that cross. -/
theorem test_period_clamps : stagedPeriodMin 0 0 = 1 ∧ stagedPeriodMin 9 5 = 5 ∧ stagedPeriodDefault 0 3 5 = 3 ∧
    stagedPeriodDefault 9 3 5 = 5 ∧ stagedPeriodMax 0 = 1 := by decide

/-- Table 10-13: the first bytes of the worked image read as the table says. -/
theorem test_image_header :
    let b : List Byte := [0x4B, 0x54, 0x34, 0x31, 0, 1, 0, 0, 0, 0, 0, 0, 0, 0x12, 0, 3, 0, 4, 3, 0x84, 0, 0, 1, 0xA0]
    readBE b 0 4 = 0x4B543431 ∧ readBE b 4 2 = 1 ∧ readBE b 10 4 = 18 ∧ readBE b 14 2 = 3 ∧ readBE b 16 2 = 4 ∧
      readBE b 18 2 = 900 ∧ readBE b 20 4 = 416 := by decide

/-! ### A small state -/

/-- The state a command leaves. -/
def after (c : Instr) (s : State) : State :=
  match exec c s with
  | .next t => t
  | .fault _ => s
  | .refused _ => s

/-- A number's low `n` bytes as little-endian byte values. -/
def le (n v : Nat) : List Byte := bytesLE n v

/-- A request: the status byte 0, the kind, two zero bytes, and then the fields from offset 04h, filled up to 40 bytes. -/
def request (kind : Nat) (fields : List Byte) : List Byte :=
  [0, BitVec.ofNat 8 kind, 0, 0] ++ fields ++ List.replicate (36 - fields.length) 0

/-- Pool 7 of the tests: capacity 10, reserve 4 for keys with bit 0 set, seat cap 4, base cost 3. -/
def params : Params :=
  { Params.none with
    features := [100]
    capacity := 10
    reserve := 4
    reserveValue := 1
    reserveMask := 1
    seatCap := 4
    baseCost := 3
    periodDefault := 5
    periodMin := 2
    periodMax := 20
    linger := 4
    validFrom := 2
    validTo := 0xFFFFFFFE }

/-- A lease of pool 7. -/
def lease (st : LeaseState) (generation : Half) (charge counter : Nat) : Lease :=
  { st := st, generation := generation, pool := 7, feature := 100, key := 1, charge := charge, inReserve := true, period := 9,
    counter := counter }

/-- Two entries of pool 7's queue. -/
def waiter (cell cls deadline : Nat) : Waiter :=
  { cell := cell, key := 1, feature := 100, quantity := 1, units := 1, cls := cls, period := 0, deadline := deadline }

/-- RUN at frame 10, slot 0 of a frame of two slots of 60 seconds; pool 7 ACTIVE with HELD records 0 and 4095, a LINGERING record 2, a
LAPSED record 3 and two waiters. -/
def demo : State :=
  { State.reset with
    xi.engine := .run
    xi.base := 0x10000
    su.clockSet := true
    su.frame := 10
    su.active := ⟨2, 60, List.replicate 32 100⟩
    su.activeMasks := [(7, 1)]
    et.pools := [(7, ⟨.active, some params, 9, 9, 3⟩)]
    lt.leases := [(0, lease .held 5 3 1), (2, lease .lingering 2 3 1), (3, lease .lapsed 9 0 0), (4095, lease .held 0xFFFF 3 8)]
    wu.queues := [(7, [waiter 20 0 1, waiter 21 2 9])] }

/-- A cell READY with a request, in the first slot. -/
def asking (s : State) (copy : List Byte) : State :=
  { s with xi.readAhead := [5], xi.cells := [(5, ⟨.ready, false, copy⟩)] }

/-- A transfer in flight under tag 0. -/
def flying (s : State) (kind : TransferKind) (len : Nat) : State :=
  { s with nextTag := 1, xi.inFlight := [⟨0, kind, 0x10000, len, []⟩] }

/-- A DRAW in hand at a step: feature 100, key 1, one of quantity, one unit, class 1. -/
def drawing (s : State) (stage : DrawStage) (waitLimit : Nat) : State :=
  { s with decision := some (.draw ⟨5, 100, 1, 1, 1, 1, waitLimit, 0, stage⟩) }

/-- The DRAW decision of `drawing`. -/
def drawn (stage : DrawStage) (waitLimit : Nat) : DrawDecision := ⟨5, 100, 1, 1, 1, 1, waitLimit, 0, stage⟩

/-- A reason that a waiting request can be served: the five facts of taking it. -/
theorem asking_serves (s : State) (copy : List Byte) (kind : Nat) (he : s.xi.engine.evaluates = true) (hd : s.decision = none)
    (hk : requestKind copy = kind) (hr : firstReserved kind copy = none) : (asking s copy).ServesKind 5 copy [] kind :=
  ⟨⟨he, hd, rfl, rfl, rfl⟩, hk, hr⟩

/-! ### The machine, the registers and the cells -/

theorem witness_StepTakesFrontCommand : ({ demo with pending := [.second, .cellPick] } : State).pending = .second :: [.cellPick] := rfl
theorem witness_ExecIgnoresQueue : exec .second demo = .next (after .second demo) := rfl
theorem witness_IdleStepIsReferenceCycle : demo.pending = [] ∧ demo.xi.engine ≠ .still ∧ demo.tb.divider + 1 < 25000 ∧
    ({ demo with xi.engine := .still } : State).xi.engine = .still ∧
    25000 ≤ ({ demo with tb.divider := 24999 } : State).tb.divider + 1 ∧
    (¬ 1000 ≤ demo.tb.secCount + 1 ∧ ¬ demo.tb.leaseInterval ≤ demo.tb.leaseCount + 1 ∧
      ¬ demo.tb.hkInterval ≤ demo.tb.hkCount + 1) ∧
    1000 ≤ ({ demo with tb.secCount := 999 } : State).tb.secCount + 1 ∧
    ({ demo with tb.leaseCount := 999 } : State).tb.leaseInterval ≤ ({ demo with tb.leaseCount := 999 } : State).tb.leaseCount + 1 ∧
    ({ demo with tb.hkCount := 99 } : State).tb.hkInterval ≤ ({ demo with tb.hkCount := 99 } : State).tb.hkCount + 1 := by decide

/-- R112: the lease count of 999 becomes a lease tick at the base tick, and record 0 lapses. -/
theorem test_idle_lease_tick :
    (({ demo with tb.divider := 24999, tb.leaseCount := 999 } : State).referenceCycle.lease 0).st = .lapsed := by decide +kernel

/-- R171: the effect of the function reset on a pool. -/
theorem test_reset : (after (.functionReset 0x80000000) demo).pool 7 = Pool.atReset ∧
    (after .powerOnReset demo).xi.engine = .offline := by decide

theorem witness_BaseAndPostWrites : State.reset.xi.engine = .offline ∧ demo.xi.engine ≠ .offline ∧
    1024 ≤ (1024 : Word).toNat ∧ (1023 : Word).toNat < 1024 ∧ (demo.cell 1023).st = .idle ∧
    (({ demo with xi.cells := [(1023, ⟨.notifying, false, []⟩)] } : State).cell 1023).st = .notifying ∧
    (({ demo with xi.cells := [(0, ⟨.working, false, []⟩)] } : State).cell 0).st = .working := by decide

/-- R158: the low 12 bits written to EXBASE_LO are ignored, and EXBASE_HI keeps the low half. -/
theorem test_exbase : (after (.exbaseHiWrite 0x1) (after (.exbaseLoWrite 0x12345FFF) State.reset)).xi.base = 0x112345000 := by decide

/-- Table 9-7: a POST of a NOTIFYING cell sets its mark. -/
theorem test_post_notifying :
    ((after (.post 5) { demo with xi.cells := [(5, ⟨.notifying, false, []⟩)] }).cell 5).repost = true := by decide

theorem witness_EngineStateRequests :
    State.reset.xi.engine = .offline ∧ State.reset.xi.base = 0 ∧ ({ State.reset with xi.base := 0x1000 } : State).xi.base ≠ 0 ∧
    demo.xi.engine = .run ∧ ({ demo with xi.engine := .hold } : State).xi.engine = .hold ∧
    ({ demo with xi.engine := .still } : State).xi.engine = .still ∧
    ({ demo with xi.engine := .faulted, xi.retry := [⟨0, .fetch 3, 0, 40, []⟩] } : State).xi.engine = .faulted := by decide

/-- R170: a RUN request in FAULTED issues the retried fetch under a new tag. -/
theorem test_retry :
    (after (.requestRun 1) { demo with xi.engine := .faulted, nextTag := 4, xi.retry := [⟨0, .fetch 3, 0x1A0C0, 40, []⟩] }).xi.inFlight
      = [⟨4, .fetch 3, 0x1A0C0, 40, []⟩] := by decide

/-- R146, R164, R170: behind the retried write the status byte that waited is written, and the image is read again from its first byte. -/
theorem test_resume :
    let t := after (.requestRun 1) { demo with
      xi.engine := .faulted, nextTag := 4, xi.retry := [⟨0, .pageWrite, 0x15000, 0, []⟩], xi.writeList := [.parked 21 7]
      xi.writeStage := .firstDone, install := .reading ⟨9, 0x2000, 224, [1, 2], 5, none, true⟩ }
    t.xi.inFlight = [⟨4, .pageWrite, 0x15000, 0, []⟩, ⟨5, .statusByte 21, 0x1A540, 0, [1]⟩, ⟨6, .imageRead 9, 0x2000, 128, []⟩] ∧
      t.install = .reading ⟨9, 0x2000, 224, [], 0xFFFFFFFF, some 6, false⟩ := by decide

/-- R117: leaving STILL loads the grace hold from the grace count. -/
theorem test_grace_loaded : (after (.requestHold 2) { demo with xi.engine := .still }).tb.graceHold = some 300 ∧
    (after (.requestStill 3) demo).xi.engine = .still := by decide

/-- A state whose front notice waits for room. -/
def stalled : State := { demo with xi.written := 1024, xi.notices := [.meter] }

theorem witness_OtherRegisterWrites :
    (stalled.xi.notices ≠ [] ∧ stalled.xi.noticeStage = .notBegun ∧ 1024 ≤ (stalled.xi.written - stalled.xi.cached).toNat ∧
      stalled.xi.engine = .run ∧ ∀ x ∈ stalled.xi.inFlight, x.kind ≠ .consumedRead) ∧
    demo.xi.notices = [] ∧ ({ stalled with xi.noticeStage := .first } : State).xi.noticeStage ≠ .notBegun ∧
    (({ stalled with xi.cached := 1 } : State).xi.written - ({ stalled with xi.cached := 1 } : State).xi.cached).toNat < 1024 ∧
    (∃ x ∈ (flying stalled .consumedRead 4).xi.inFlight, x.kind = .consumedRead) := by
  refine ⟨⟨by decide, rfl, by decide, rfl, by decide⟩, rfl, by decide, by decide, ⟨_, .head _, rfl⟩⟩

/-- R168: enabling the interrupt with CAUSE NOTICE set sends one MSI; a CAUSE write clears the bit written. -/
theorem test_enable_msi : (after (.interruptEnable 0x10) { demo with xi.causeNotice := true }).msiSent = 1 ∧
    (after (.causeWrite 1) { demo with xi.causeNotice := true, xi.causeFault := true }).xi.causeNotice = false := by decide

theorem witness_RegisterReads : demo.canonical = true ∧ demo.xi.cells.all (fun e => decide (e.1 < 1024)) = true ∧
    ({ demo with xi.faultIndex := 4095 } : State).xi.faultIndex < 4096 := by decide +kernel

/-- Table 10-14: the window at CAUSE's offset, and beyond the last register. -/
theorem test_window_read : ({ demo with xi.causeFault := true } : State).readWindow 0x14 = some 2 ∧ demo.readWindow 0x1C = none := by decide

/-- Table 10-14: STATUS of RUN with the clock SET, an install in flight and a fault record of kind METER. -/
theorem test_status : ({ demo with xi.faultKind := .meter } : State).readRegister .status = 0x611 := by decide

/-- A RENEW of an index, a generation and a period request. -/
def renewOf (index generation period : Nat) : List Byte := request 2 (le 2 index ++ le 2 generation ++ le 2 period)

/-- The PENDING cells 3 and 1023, with the pointer at 3. -/
def posted : State :=
  { demo with xi.cells := [(3, ⟨.pending, false, []⟩), (1023, ⟨.pending, false, []⟩)], xi.servicePointer := 3 }

/-- Cell 4 still FETCHING in the first slot, with cell 5 READY behind it. -/
def behind (e : EngineState) : State :=
  { demo with xi.engine := e, xi.readAhead := [4, 5], xi.cells := [(4, ⟨.fetching, false, []⟩), (5, ⟨.ready, false, renewOf 0 5 0⟩)] }

/-- R46, R162: the READY cell behind a FETCHING one is not taken, nor one while a decision is in hand. -/
theorem test_no_take : after .renew (behind .run) = behind .run ∧
    after .renew (drawing (asking demo (renewOf 0 5 0)) .gather 0) = drawing (asking demo (renewOf 0 5 0)) .gather 0 := by
  decide +kernel

theorem witness_CellsPickedAndFetched :
    (posted.canonical = true ∧ (posted.cell 1023).st = .pending ∧
      (∀ c', (posted.cell c').st = .pending →
        if posted.xi.servicePointer < 1023 then posted.xi.servicePointer < c' → 1023 ≤ c'
        else c' ≤ posted.xi.servicePointer ∧ 1023 ≤ c') ∧
      posted.xi.readAhead.length < 8 ∧ posted.xi.engine = .run) ∧
    (∀ c, (demo.cell c).st ≠ .pending) ∧ 8 ≤ ({ posted with xi.readAhead := [1, 2, 4, 5, 6, 7, 8, 9] } : State).xi.readAhead.length ∧
    (flying demo (.fetch 3) 40).transfer 0 = some ⟨0, .fetch 3, 0x10000, 40, []⟩ ∧ (List.replicate 40 (0 : Byte)).length = 40 ∧
    (∀ x ∈ demo.xi.inFlight, x.tag ≠ 0) ∧
    (({ posted with xi.readAhead := [1, 2, 4, 5, 6, 7, 8] } : State).readAheadKept = true ∧
      step posted = .next posted.referenceCycle) ∧
    (isRequest (.draw 1) = true ∧ isRequest .renew = true ∧ (∀ e ∈ [EngineState.offline, .still, .faulted],
      (behind e).decision = none ∧ (behind e).xi.engine = e) ∧ demo.decision = none ∧ demo.xi.readAhead = [] ∧
      (behind .run).xi.readAhead = 4 :: [5] ∧ ((behind .run).cell 4).st ≠ .ready ∧ ((behind .run).cell 5).st = .ready) ∧
    ((drawing (behind .run) .gather 0).decision = some (.draw (drawn .gather 0)) ∧
      Decision.goesOn (.draw (drawn .gather 0)) .renew = false ∧ Decision.goesOn (.draw (drawn .gather 0)) (.draw 1) = true) := by
  refine ⟨⟨by decide +kernel, by decide, ?_, by decide, rfl⟩, ?_, by decide, rfl, rfl, by decide, ⟨by decide, rfl⟩, by decide,
    ⟨rfl, rfl, rfl⟩⟩
  · intro c' h
    have hc : c' = 3 ∨ c' = 1023 := by
      by_contra hne
      have h1 : ¬ 3 = c' := fun e => hne (.inl e.symm)
      have h2 : ¬ 1023 = c' := fun e => hne (.inr e.symm)
      simp [posted, State.cell, Table.get, h1, h2, Cell.atReset] at h
    rcases hc with rfl | rfl <;> decide
  · intro c
    simp [demo, State.reset, ExchangeInterface.atReset, State.cell, Table.get, Cell.atReset]

/-- R162: the pick goes round past 1023 to the lowest cell, and fetches 40 bytes at A000h + 64 x 3. -/
theorem test_pick_wraps : (after .cellPick { posted with xi.servicePointer := 1023 }).xi.inFlight
    = [⟨0, .fetch 3, 0x1A0C0, 40, []⟩] := by decide

theorem witness_MalformedAnswers :
    (asking demo (request 0 [])).Serves 5 (request 0 []) [] ∧ requestKind (request 0 []) = 0 ∧
    (asking demo (request 11 [])).Serves 5 (request 11 []) [] ∧ 10 < requestKind (request 11 []) ∧
    ((asking demo (request 2 (List.replicate 35 0 ++ [1]))).Serves 5 (request 2 (List.replicate 35 0 ++ [1])) [] ∧
      reservedOffends 2 (request 2 (List.replicate 35 0 ++ [1])) 39 = true ∧
      ∀ o, 2 ≤ o → o < 39 → reservedOffends 2 (request 2 (List.replicate 35 0 ++ [1])) o = false) := by
  refine ⟨⟨rfl, rfl, rfl, rfl, rfl⟩, rfl, ⟨rfl, rfl, rfl, rfl, rfl⟩, by decide, ⟨⟨rfl, rfl, rfl, rfl, rfl⟩, by decide, ?_⟩⟩
  intro o h1 h2
  interval_cases o <;> decide

/-- R163: a nonzero reserved bit of RETURN's flags byte answers MALFORMED with detail 08h. -/
theorem test_malformed_flag : (after .returnLease (asking demo (request 3 [0, 0, 5, 0, 2]))).xi.writeList
    = [.final 5 { result := .malformed, detail := 8, pool := 0xFFFF, body := .zero }] := by decide

/-- The head of the write list: a FINAL answer of cell 5. -/
def answering : State :=
  { demo with xi.cells := [(5, ⟨.answering, false, []⟩)], xi.writeList := [.final 5 (plainAnswer .ok 7), .parked 21 7] }

/-- The head of the write list: a PARKED mark of cell 21. -/
def parkedHead : State := { demo with xi.writeList := [.parked 21 7] }

theorem witness_WriteListWritesCells :
    answering.xi.engine = .run ∧ answering.xi.writeStage = .notBegun ∧
    answering.xi.writeList = .final 5 (plainAnswer .ok 7) :: [.parked 21 7] ∧ parkedHead.xi.writeList = .parked 21 7 :: [] ∧
    (flying answering (.answerArea 5) 0).transfer 0 = some ⟨0, .answerArea 5, 0x10000, 0, []⟩ ∧
    (flying parkedHead (.poolField 21) 0).transfer 0 = some ⟨0, .poolField 21, 0x10000, 0, []⟩ ∧
    (flying { answering with xi.engine := .faulted } (.answerArea 5) 0).xi.engine ≠ .run ∧
    (flying answering (.statusByte 5) 0).transfer 0 = some ⟨0, .statusByte 5, 0x10000, 0, []⟩ ∧
    (flying parkedHead (.statusByte 21) 0).transfer 0 = some ⟨0, .statusByte 21, 0x10000, 0, []⟩ ∧
    (after .writeListIssue answering).xi.writeStage ≠ .notBegun ∧ demo.xi.writeList = [] ∧
    (({ answering with xi.engine := .still } : State).xi.engine ≠ .run ∧
      ({ answering with xi.engine := .still } : State).xi.engine ≠ .hold) := by
  refine ⟨rfl, rfl, rfl, rfl, rfl, rfl, by decide, rfl, rfl, by decide, rfl, by decide⟩

/-- R164: the answer area is bytes 40 to 63, the status byte follows, then the ANSWER notice. -/
theorem test_answer_written :
    (after .writeListIssue answering).xi.inFlight = [⟨0, .answerArea 5, 0x1A168, 0, [2, 0, 7, 0] ++ List.replicate 20 0⟩] ∧
    (after (.statusByteWriteComplete 0) (flying answering (.statusByte 5) 0)).xi.notices = [.answer 5 .ok 7] := by decide

/-! ### Notices and faults -/

/-- A notice of each kind at the front of the queue. -/
def noticing (n : Notice) : State := { demo with xi.notices := [n], xi.cells := [(5, ⟨.notifying, true, []⟩)] }

theorem witness_NoticeListWritesAndRoom :
    (noticing .meter).xi.notices = .meter :: [] ∧ (noticing .meter).xi.engine = .run ∧ (noticing .meter).xi.noticeStage = .notBegun ∧
    (({ noticing .meter with xi.written := 1023 } : State).xi.written - (noticing .meter).xi.cached).toNat < 1024 ∧
    1024 ≤ (stalled.xi.written - stalled.xi.cached).toNat ∧
    (flying (noticing .meter) (.noticeEntry 0) 0).transfer 0 = some ⟨0, .noticeEntry 0, 0x10000, 0, []⟩ ∧
    (flying stalled .consumedRead 4).transfer 0 = some ⟨0, .consumedRead, 0x10000, 4, []⟩ ∧
    (stalled.xi.written - (0 : Word)).toNat ≤ 1024 ∧ 1024 < (stalled.xi.written - (0xFFFFFFFF : Word)).toNat ∧
    (∃ s : State, s = { flying (noticing .meter) (.noticeEntry 0) 0 with xi.engine := .still } ∧ s.xi.engine ≠ .run ∧
      s.xi.engine ≠ .hold ∧ s.transfer 0 = some ⟨0, .noticeEntry 0, 0x10000, 0, []⟩) ∧
    (after .noticeWrite (noticing .meter)).xi.noticeStage ≠ .notBegun ∧ demo.xi.notices = [] := by
  refine ⟨rfl, rfl, rfl, by decide, by decide, rfl, rfl, by decide, by decide, ⟨_, rfl, by decide, by decide, rfl⟩, by decide, rfl⟩

/-- R172: the consumed count is little-endian: the bytes 34h 12h 0 0 are 1234h, taken when w is 1300h. -/
theorem test_consumed_bytes :
    (after (.consumedReadArrival 0 [0x34, 0x12, 0, 0]) (flying { demo with xi.written := 0x1300 } .consumedRead 4)).xi.cached = 0x1234 :=
  by decide

/-- Table 9-7: w is 5000; the entry goes to list position 904, and 5100 is stale where 4100 is not. -/
theorem test_notice_position :
    (after .noticeWrite { noticing .meter with xi.written := 5000, xi.cached := 4100 }).xi.inFlight.map Transfer.addr
      = [0x10000 + 0x1000 + 16 * 904] ∧
    ({ demo with xi.written := 5000 } : State).staleConsumed 5100 = true ∧
    ({ demo with xi.written := 5000 } : State).staleConsumed 4100 = false := by decide

theorem witness_NoticeWrittenEvent :
    (flying (noticing (.answer 5 .ok 7)) (.noticeCount 5) 0).xi.notices = .answer 5 .ok 7 :: [] ∧
    (flying (noticing (.lapse 3 9 7)) (.noticeCount 3) 0).xi.notices = .lapse 3 9 7 :: [] ∧
    ((noticing (.lapse 3 9 7)).lease 3).st = .lapsed ∧ ((noticing (.lapse 3 9 7)).lease 3).generation = 9 ∧
    ¬ (((noticing (.lapse 0 9 7)).lease 0).st = .lapsed) ∧
    (flying (noticing .meter) (.noticeCount 0) 0).xi.notices = .meter :: [] ∧
    (flying (noticing .meter) (.noticeCount 0) 0).transfer 0 = some ⟨0, .noticeCount 0, 0x10000, 0, []⟩ := by
  refine ⟨rfl, rfl, by decide, by decide, by decide, rfl, rfl⟩

/-- Table 9-7 and Table 5-6 event 12: the reposted cell is PENDING again; the LAPSED record is FREE with its generation advanced. -/
theorem test_notice_written :
    ((after (.noticeWritten 0) (flying (noticing (.answer 5 .ok 7)) (.noticeCount 5) 0)).cell 5) = ⟨.pending, false, []⟩ ∧
    ((after (.noticeWritten 0) (flying (noticing (.lapse 3 9 7)) (.noticeCount 3) 0)).lease 3).generation = 10 := by decide

/-- An install being read, with its read in flight under tag 0. -/
def installing (bytes : List Byte) (len : Nat) : State :=
  flying { demo with install := .reading ⟨9, 0x2000, len, bytes, crcBytes crcStart (bytes.drop 10), some 0, false⟩ } (.imageRead 9) (len - bytes.length)

theorem witness_DmaErrorFaults :
    (flying demo (.fetch 3) 40).transfer 0 = some ⟨0, .fetch 3, 0x10000, 40, []⟩ ∧
    ((flying demo (.fetch 3) 40).xi.retry.map Transfer.tag).Pairwise (· ≤ ·) ∧
    (flying demo (.fetch 3) 40).xi.engine ≠ .faulted ∧
    (flying { demo with xi.engine := .faulted } (.fetch 3) 40).xi.engine = .faulted ∧
    (flying { demo with xi.engine := .still } (.fetch 3) 40).xi.engine = .still ∧
    (∃ im, (installing [] 128).install = .reading im) := by
  refine ⟨rfl, by decide, by decide, rfl, rfl, ⟨_, rfl⟩⟩

/-- R169, Table 9-6: a failed owner read records METER, index 0 and the low address bits, and sends an MSI when enabled. -/
theorem test_dma_error :
    (after (.dmaError 0) (flying { demo with xi.intEnable := true } .ownerRead 4)).readRegister .status = 0x614 ∧
    (after (.dmaError 0) (flying { demo with xi.intEnable := true } .ownerRead 4)).msiSent = 1 := by decide

/-! ### Leases by request -/

theorem witness_RenewReloadsCounter :
    (asking demo (renewOf 4095 0xFFFF 300)).ServesKind 5 (renewOf 4095 0xFFFF 300) [] 2 ∧
    (demo.lease 4095).st = .held ∧ (demo.lease 4095).generation = 0xFFFF ∧
    (asking demo (renewOf 4096 0 0)).ServesKind 5 (renewOf 4096 0 0) [] 2 ∧ 4096 ≤ readLE (renewOf 4096 0 0) 4 2 ∧
    (asking demo (renewOf 3 9 0)).ServesKind 5 (renewOf 3 9 0) [] 2 ∧ (demo.lease 3).st = .lapsed ∧ (demo.lease 3).generation = 9 ∧
    (asking demo (renewOf 2 2 0)).ServesKind 5 (renewOf 2 2 0) [] 2 ∧
    ¬ (((demo.lease 2).st = .held ∨ (demo.lease 2).st = .lapsed) ∧ (demo.lease 2).generation = 2) := by
  refine ⟨asking_serves _ _ _ rfl rfl rfl rfl, by decide, by decide, asking_serves _ _ _ rfl rfl rfl rfl, by decide,
    asking_serves _ _ _ rfl rfl rfl rfl, by decide, by decide, asking_serves _ _ _ rfl rfl rfl rfl, by decide⟩

/-- R99: a period request of 300 is clamped to the maximum 20; 0 keeps the granted period 9. -/
theorem test_renew : ((after .renew (asking demo (renewOf 4095 0xFFFF 300))).lease 4095).counter = 20 ∧
    ((after .renew (asking demo (renewOf 0 5 0))).lease 0).counter = 9 := by decide

/-- A RETURN of a handle with or without SKIP_LINGER. -/
def returnOf (index generation : Nat) (skip : Byte) : List Byte := request 3 (le 2 index ++ le 2 generation ++ [skip])

theorem witness_ReturnLingersOrFrees :
    (asking demo (returnOf 4095 0xFFFF 0)).canonical = true ∧
    (asking demo (returnOf 4095 0xFFFF 0)).ServesKind 5 (returnOf 4095 0xFFFF 0) [] 3 ∧
    (demo.lease 4095).st = .held ∧ (demo.lease 4095).generation = 0xFFFF ∧ (demo.params 7).linger ≠ 0 ∧
    (byteAt (returnOf 4095 0xFFFF 0) 8).getLsbD 0 = false ∧
    (asking demo (returnOf 4096 0 0)).ServesKind 5 (returnOf 4096 0 0) [] 3 ∧ 4096 ≤ readLE (returnOf 4096 0 0) 4 2 ∧
    (asking demo (returnOf 0 5 1)).ServesKind 5 (returnOf 0 5 1) [] 3 ∧ (byteAt (returnOf 0 5 1) 8).getLsbD 0 = true ∧
    (asking demo (returnOf 3 9 0)).ServesKind 5 (returnOf 3 9 0) [] 3 ∧
    (asking demo (returnOf 0 4 0)).ServesKind 5 (returnOf 0 4 0) [] 3 ∧ ¬ ((demo.lease 0).generation = 4) := by
  refine ⟨by decide +kernel, asking_serves _ _ _ rfl rfl rfl rfl, by decide, by decide, by decide, by decide,
    asking_serves _ _ _ rfl rfl rfl rfl, by decide, asking_serves _ _ _ rfl rfl rfl rfl, by decide,
    asking_serves _ _ _ rfl rfl rfl rfl, asking_serves _ _ _ rfl rfl rfl rfl, by decide⟩

/-- R101, R102, Table 5-6: the generation advances and wraps; the linger is loaded, or the tokens go back at once. -/
theorem test_return :
    ((after .returnLease (asking demo (returnOf 4095 0xFFFF 0))).lease 4095) = lease .lingering 0 3 4 ∧
    ((after .returnLease (asking demo (returnOf 0 5 1))).pool 7).inUse = 6 := by decide

/-- A RETURN_MATCHING of key 1 under mask FFFFFFFFh. -/
def matchingOf (filter : Nat) (skip : Byte) : List Byte := request 4 (le 2 filter ++ [skip, 0] ++ le 4 1 ++ le 4 0xFFFFFFFF)

theorem witness_ReturnMatchingReturnsSelected :
    (asking demo (matchingOf 0xFFFF 1)).canonical = true ∧
    (asking demo (matchingOf 0xFFFF 1)).ServesKind 5 (matchingOf 0xFFFF 1) [] 4 ∧ readLE (matchingOf 0xFFFF 1) 4 2 = 0xFFFF ∧
    (asking demo (matchingOf 511 0)).ServesKind 5 (matchingOf 511 0) [] 4 ∧ readLE (matchingOf 511 0) 4 2 < 512 ∧
    (asking demo (matchingOf 512 0)).ServesKind 5 (matchingOf 512 0) [] 4 ∧ 512 ≤ readLE (matchingOf 512 0) 4 2 ∧
    readLE (matchingOf 512 0) 4 2 ≠ 0xFFFF ∧
    (0, lease .held 5 3 1) ∈ demo.records ∧ ReturnSelected (matchingOf 7 0) (lease .held 5 3 1) ∧
    demo.Lingers (matchingOf 7 0) (lease .held 5 3 1) ∧ ¬ demo.Lingers (matchingOf 7 1) (lease .held 5 3 1) := by
  refine ⟨by decide +kernel, asking_serves _ _ _ rfl rfl rfl rfl, by decide, asking_serves _ _ _ rfl rfl rfl rfl, by decide,
    asking_serves _ _ _ rfl rfl rfl rfl, by decide, by decide, List.mem_map.2 ⟨0, by simp, rfl⟩, by unfold ReturnSelected; decide,
    by unfold State.Lingers; decide, by unfold State.Lingers; decide⟩

/-- R103, R104: both HELD records of key 1 are returned, in one event. -/
theorem test_return_matching :
    ((after .returnMatching (asking demo (matchingOf 7 1))).pool 7).leaseCount = 1 ∧
    (after .returnMatching (asking demo (matchingOf 7 1))).xi.writeList
      = [.final 5 { result := .ok, detail := 0, pool := 7, body := .returnMatching 2 }] := by decide

/-! ### Requests of the Wait Unit and the Entitlement Table -/

/-- A WITHDRAW of a target. -/
def withdrawOf (target : Nat) : List Byte := request 5 (le 2 target)

/-- An examination in hand. -/
def examining (s : State) (stage : ExamStage) : State := { s with wu.exam := some ⟨7, stage⟩ }

theorem witness_WithdrawTakesWaiter :
    ((asking demo (withdrawOf 1024)).canonical = true ∧ (asking demo (withdrawOf 1024)).ServesKind 5 (withdrawOf 1024) [] 5 ∧
      1024 ≤ readLE (withdrawOf 1024) 4 2) ∧
    ((asking demo (withdrawOf 20)).canonical = true ∧ (asking demo (withdrawOf 20)).ServesKind 5 (withdrawOf 20) [] 5 ∧
      readLE (withdrawOf 20) 4 2 < 1024 ∧ (asking demo (withdrawOf 20)).wu.exam = none ∧
      (asking demo (withdrawOf 20)).wu.parkInbox = [] ∧ (asking demo (withdrawOf 20)).WaitsOn 20 7) ∧
    ((asking demo (withdrawOf 1023)).ServesKind 5 (withdrawOf 1023) [] 5 ∧ readLE (withdrawOf 1023) 4 2 < 1024 ∧
      ∀ q, ∀ w ∈ (asking demo (withdrawOf 1023)).queue q, w.cell ≠ 1023) ∧
    ((asking (examining demo .head) (withdrawOf 20)).ServesKind 5 (withdrawOf 20) [] 5 ∧
      (asking (examining demo .head) (withdrawOf 20)).wu.exam ≠ none) ∧
    (({ demo with decision := some (.withdraw 5 20) } : State).canonical = true ∧
      ({ demo with decision := some (.withdraw 5 20) } : State).decision = some (.withdraw 5 20)) ∧
    (({ examining demo .head with decision := some (.withdraw 5 20) } : State).wu.exam ≠ none) := by
  refine ⟨⟨by decide +kernel, asking_serves _ _ _ rfl rfl rfl rfl, by decide⟩,
    ⟨by decide +kernel, asking_serves _ _ _ rfl rfl rfl rfl, by decide, rfl, rfl, ?_⟩,
    ⟨asking_serves _ _ _ rfl rfl rfl rfl, by decide, ?_⟩, ⟨asking_serves _ _ _ rfl rfl rfl rfl, by decide⟩,
    ⟨by decide +kernel, rfl⟩, by decide⟩
  · intro q
    by_cases h : 7 = q
    · subst h
      exact ⟨fun _ => rfl, fun _ => ⟨waiter 20 0 1, .head _, rfl⟩⟩
    · constructor
      · rintro ⟨w, hw, -⟩
        simp [asking, demo, State.queue, Table.get, h] at hw
      · exact fun e => absurd e.symm h
  · intro q w hw
    by_cases h : 7 = q
    · subst h
      revert w
      decide
    · simp [asking, demo, State.queue, Table.get, h] at hw

/-- R81: the target's answer is handed before the WITHDRAW's own. -/
theorem test_withdraw : (after .withdraw (asking demo (withdrawOf 20))).xi.writeList
    = [.final 20 (plainAnswer .withdrawn 7), .final 5 (plainAnswer .ok 7)] ∧
    (after .withdraw (asking demo (withdrawOf 20))).wu.due = [7] := by decide

/-- An INSPECT_POOL of a pool number. -/
def inspectOf (p : Nat) : List Byte := request 6 (le 2 p)

theorem witness_InspectPoolReports :
    (asking demo (inspectOf 7)).ServesKind 5 (inspectOf 7) [] 6 ∧ readLE (inspectOf 7) 4 2 = 7 ∧
    (asking demo (inspectOf 7)).wu.exam = none ∧ (asking demo (inspectOf 512)).ServesKind 5 (inspectOf 512) [] 6 ∧
    512 ≤ readLE (inspectOf 512) 4 2 ∧ (asking demo (inspectOf 511)).ServesKind 5 (inspectOf 511) [] 6 ∧
    readLE (inspectOf 511) 4 2 < 512 ∧
    ((asking (examining demo .head) (inspectOf 511)).ServesKind 5 (inspectOf 511) [] 6 ∧
      (asking (examining demo .head) (inspectOf 511)).wu.exam ≠ none) ∧
    (({ demo with decision := some (.inspect 5 7) } : State).decision = some (.inspect 5 7) ∧
      ({ demo with decision := some (.inspect 5 7) } : State).wu.exam = none) ∧
    ({ examining demo .head with decision := some (.inspect 5 7) } : State).wu.exam ≠ none := by
  refine ⟨asking_serves _ _ _ rfl rfl rfl rfl, by decide, rfl, asking_serves _ _ _ rfl rfl rfl rfl, by decide,
    asking_serves _ _ _ rfl rfl rfl rfl, by decide, ⟨asking_serves _ _ _ rfl rfl rfl rfl, by decide⟩, ⟨rfl, rfl⟩, by decide⟩

/-- Table 1-10: pool 12 before free 1. -/
theorem test_inspect :
    (State.inspectBody
      { demo with
        su.slot := 2
        su.activeMasks := [(12, 4)]
        et.pools := [(12, ⟨.draining, some { params with capacity := 60, reserve := 30, seatCap := 6, validFrom := 0 }, 90, 40, 9⟩)]
        wu.queues := [(12, [waiter 20 0 1, waiter 21 2 9])] } 12)
      = .inspect .draining true .current 60 30 90 40 9 6 2 := by decide

theorem witness_ClearFloorClears :
    (asking demo (request 10 [])).canonical = true ∧ (asking demo (request 10 [])).ServesKind 5 (request 10 []) [] 10 ∧
    (asking demo (request 10 [])).wu.exam = none ∧ (asking demo (request 10 [])).wu.parkInbox = [] ∧
    ((asking (examining demo .head) (request 10 [])).canonical = true ∧
      (asking (examining demo .head) (request 10 [])).ServesKind 5 (request 10 []) [] 10 ∧
      (asking (examining demo .head) (request 10 [])).wu.exam ≠ none) ∧
    (∃ s : State, s = { demo with decision := some (.clearFloor 5) } ∧ s.canonical = true ∧ s.decision = some (.clearFloor 5) ∧
      s.wu.exam = none ∧ s.wu.parkInbox = []) ∧
    (∃ s : State, s = { demo with decision := some (.clearFloor 5), wu.parkInbox := [⟨7, waiter 22 1 9⟩] } ∧ s.canonical = true ∧
      s.decision = some (.clearFloor 5) ∧ s.wu.parkInbox ≠ []) := by
  exact ⟨by decide +kernel, asking_serves _ _ _ rfl rfl rfl rfl, rfl, rfl,
    ⟨by decide +kernel, asking_serves _ _ _ rfl rfl rfl rfl, by decide⟩, ⟨_, rfl, by decide +kernel, rfl, rfl, rfl⟩,
    ⟨_, rfl, by decide +kernel, rfl, by decide⟩⟩

/-- R20, R109: every counter falls to 0, and four records and two waiters are counted. -/
theorem test_clear_floor : ((after .clearFloor (asking demo (request 10 []))).pool 7).inUse = 0 ∧
    (after .clearFloor (asking demo (request 10 []))).xi.writeList.getLast?
      = some (.final 5 { result := .ok, detail := 0, pool := 0, body := .clearFloor 4 2 }) := by decide

/-! ### Draws -/

/-- A DRAW's fields: feature, quantity, class, units. -/
def drawOf (feature : Nat) (quantity cls : Byte) (units : Nat) : List Byte := request 1 (le 2 feature ++ [quantity, cls] ++ le 2 units)

/-- Every lease record is LAPSED. -/
def fullTable : State := { demo with lt.leases := Table.build Lease.atReset 4096 (fun _ => lease .lapsed 0 0 0) }

theorem fullTable_full : fullTable.TableFull := by
  intro i hi
  have : fullTable.lease i = lease .lapsed 0 0 0 := by
    unfold State.lease fullTable
    rw [Table.get_build, if_pos hi]
  rw [this]
  decide

/-- No pool but those the state holds is a candidate. -/
theorem demo_candidate_only (s : State) (hs : s.et = demo.et) (p f : Nat) (k : Word) (h : s.IsCandidate p f k) : p = 7 := by
  by_contra hp
  have hp7 : ¬ 7 = p := fun e => hp e.symm
  have : s.pool p = Pool.atReset := by
    unfold State.pool
    rw [hs]
    simp [demo, Table.get, hp7]
  have h1 := h.2.1
  rw [this] at h1
  revert h1
  decide

theorem demo_candidate : demo.IsCandidate 7 100 1 := by
  unfold State.IsCandidate
  decide

theorem witness_DrawFirstSteps :
    ((asking demo (drawOf 0 1 0 1)).ServesKind 5 (drawOf 0 1 0 1) [] 1 ∧ readLE (drawOf 0 1 0 1) 4 2 = 0) ∧
    ((asking demo (drawOf 65535 65 0 1)).ServesKind 5 (drawOf 65535 65 0 1) [] 1 ∧ 64 < (byteAt (drawOf 65535 65 0 1) 6).toNat) ∧
    ((asking demo (drawOf 1 1 0 1025)).ServesKind 5 (drawOf 1 1 0 1025) [] 1 ∧ 1024 < readLE (drawOf 1 1 0 1025) 8 2) ∧
    ((asking demo (drawOf 65535 64 255 1024)).ServesKind 5 (drawOf 65535 64 255 1024) [] 1 ∧
      readLE (drawOf 65535 64 255 1024) 4 2 ≠ 0 ∧ 1 ≤ (byteAt (drawOf 65535 64 255 1024) 6).toNat ∧
      (byteAt (drawOf 65535 64 255 1024) 6).toNat ≤ 64 ∧ readLE (drawOf 65535 64 255 1024) 8 2 ≤ 1024) ∧
    ((drawing { demo with su.clockSet := false } .clock 0).decision = some (.draw (drawn .clock 0)) ∧
      (drawing { demo with su.clockSet := false } .clock 0).su.clockSet = false ∧ (drawing demo .clock 0).su.clockSet = true) ∧
    (drawing demo .lookup 0).canonical = true ∧
    (drawing fullTable .tableFull 9).TableFull ∧ ¬ (drawing demo .tableFull 9).TableFull ∧
    (drawing { demo with et.pools := [] } .gather 0).decision = some (.draw (drawn .gather 0)) ∧
    ((drawn (.granting 7 3 true [] []) 0).stage = .granting 7 3 true [] [] ∧ (drawn (.reviving 2 2) 0).stage = .reviving 2 2) ∧
    ∀ p, ¬ (drawing { demo with et.pools := [] } .gather 0).IsCandidate p 100 1 := by
  refine ⟨⟨asking_serves _ _ _ rfl rfl rfl rfl, by decide⟩, ⟨asking_serves _ _ _ rfl rfl rfl rfl, by decide⟩,
    ⟨asking_serves _ _ _ rfl rfl rfl rfl, by decide⟩,
    ⟨asking_serves _ _ _ rfl rfl rfl rfl, by decide, by decide, by decide, by decide⟩, ⟨rfl, rfl, rfl⟩, by decide +kernel,
    fullTable_full, fun h => h 1 (by decide) (by decide), rfl, ⟨rfl, rfl⟩, ?_⟩
  intro p h
  have h1 := h.2.1
  simp [drawing, State.pool, Table.get, Pool.atReset] at h1

/-- R46, log entry 5: a run of many steps of a decision ends with it, and takes no other cell; one that presented a revival waits. -/
theorem test_draw_steps :
    (after (.draw 9) { drawing { demo with et.pools := [] } .gather 0 with xi := (asking demo (drawOf 1 1 0 0)).xi }).xi.readAhead = [5] ∧
    exec (.draw 9) (drawing demo (.reviving 2 2) 0) = .next (drawing demo (.reviving 2 2) 0) := ⟨by decide +kernel, rfl⟩

/-- R44, R45: the second field out of range answers its offset; units 0 and class 255 are clamped. -/
theorem test_draw_checks :
    (after (.draw 9) (asking demo (drawOf 1 0 0 1))).xi.writeList
      = [.final 5 { result := .badField, detail := 6, pool := 0xFFFF, body := .zero }] ∧
    (after (.draw 0) (asking demo (drawOf 1 1 255 0))).decision
      = some (.draw { cell := 5, feature := 1, key := 0, quantity := 1, units := 1, cls := 3, waitLimit := 0, period := 0,
                      stage := .clock }) := by decide

/-- Two candidates gathered, both valid to frame 9. -/
def gathered : List Candidate := [⟨7, 0, 2, 9⟩, ⟨8, 1, 2, 9⟩]

theorem witness_DrawCandidatesInOrder :
    (drawing demo .gather 0).decision = some (.draw (drawn .gather 0)) ∧ (drawn .gather 0).stage = .gather ∧
    (∃ p, (drawing demo .gather 0).IsCandidate p (drawn .gather 0).feature (drawn .gather 0).key) ∧
    ((demo.params 7).validFrom.toNat ≤ demo.su.frame.toNat ∧ demo.su.frame.toNat ≤ (demo.params 7).validTo.toNat) ∧
    (∃ p, (drawing { demo with su.frame := 1 } .gather 0).IsCandidate p 100 1) ∧
    (∀ p, (drawing { demo with su.frame := 1 } .gather 0).IsCandidate p 100 1 → p = 7) ∧
    ¬ ((demo.params 7).validFrom.toNat ≤ (1 : Word).toNat) ∧
    ((drawn (.divide gathered) 0).stage = .divide gathered ∧
      (drawing { demo with su.frame := 9 } (.divide gathered) 0).decision = some (.draw (drawn (.divide gathered) 0)) ∧
      (gathered.filter (fun a => decide (a.validFrom.toNat ≤ (9 : Word).toNat ∧ (9 : Word).toNat ≤ a.validTo.toNat))).map
        Candidate.pool = [7, 8]) ∧
    ((drawing { demo with su.frame := 10 } (.divide gathered) 0).decision = some (.draw (drawn (.divide gathered) 0)) ∧
      (gathered.filter (fun a => decide (a.validFrom.toNat ≤ (10 : Word).toNat ∧ (10 : Word).toNat ≤ a.validTo.toNat))).map
        Candidate.pool = [] ∧ gathered.head? = some ⟨7, 0, 2, 9⟩) :=
  ⟨rfl, rfl, ⟨7, demo_candidate⟩, by decide, ⟨7, demo_candidate⟩, fun p h => demo_candidate_only _ rfl p 100 1 h, by decide,
    ⟨rfl, rfl, by decide⟩, ⟨rfl, by decide, rfl⟩⟩

/-- Table 3-5, Draw I: a candidate past validity answers EXPIRED and names it. -/
theorem test_draw_expired : (after (.draw 2) (drawing { demo with su.frame := 1 } (.divide [⟨7, 0, 2, 9⟩]) 0)).xi.writeList
    = [.final 5 (plainAnswer .expired 7)] := by decide

theorem witness_DrawTrialJudges :
    (drawing demo (.trial [7] []) 0).decision = some (.draw (drawn (.trial [7] []) 0)) ∧
    (drawn (.trial [7] []) 0).stage = .trial (7 :: []) [] ∧ (drawing demo (.trial [7] []) 0).wu.exam = none ∧
    ((drawing (examining demo .head) (.trial [7] []) 0).decision = some (.draw (drawn (.trial [7] []) 0)) ∧
      (drawing (examining demo .head) (.trial [7] []) 0).wu.exam ≠ none) := ⟨rfl, rfl, rfl, rfl, by decide⟩

/-- R37, R38: a waiter as urgent holds back the trial; without one a grant is presented at charge 3. -/
theorem test_draw_trial :
    (after (.draw 1) (drawing demo (.trial [7] []) 0)).decision
      = some (.draw (drawn (.trial [] [⟨7, 3, true, true, .classRule⟩]) 0)) ∧
    (after (.draw 1) (drawing { demo with wu.queues := [] } (.trial [7] []) 0)).decision
      = some (.draw (drawn (.granting 7 3 true [] []) 0)) := by decide

/-- Trial records of the four kinds of end. -/
def trialOf (charge : Nat) (fits isOpen : Bool) : TrialRecord := ⟨7, charge, fits, isOpen, .tokens⟩

theorem witness_DrawEndParksOrRefuses :
    (drawing demo (.trial [] []) 0).decision = some (.draw (drawn (.trial [] []) 0)) ∧
    (drawing demo (.trial [] [trialOf 3 true true]) 65535).decision = some (.draw (drawn (.trial [] [trialOf 3 true true]) 65535)) ∧
    [trialOf 11 false true, trialOf 3 true true] = [trialOf 11 false true] ++ trialOf 3 true true :: [] ∧
    (trialOf 3 true true).fits = true ∧ (∀ b ∈ [trialOf 11 false true], b.fits = false) ∧
    (∀ r ∈ [trialOf 65536 false true], 65535 < r.charge) ∧
    (¬ (∀ r ∈ [trialOf 65535 false true], 65535 < r.charge) ∧ ∀ r ∈ [trialOf 65535 false true], r.fits = false) ∧
    ((∃ r ∈ [trialOf 3 true false], r.fits = true) ∧
      ∀ r ∈ [trialOf 3 true false], r.fits = true → r.windowOpen = false) ∧
    (∃ r ∈ [trialOf 3 true true], r.fits = true ∧ r.windowOpen = true) := by
  refine ⟨rfl, rfl, rfl, rfl, ?_⟩
  decide

/-- Table 3-3 and Table 3-5: Draw E with wait limit 0 is OUT_OF_WINDOW, Draw H EXCEEDS_CAPACITY. -/
theorem test_refusal_codes :
    refusalCode [⟨21, 80, false, true, .classRule⟩, ⟨22, 192, true, false, .window⟩] = .outOfWindow ∧
    refusalCode [⟨21, 1280, false, true, .tokens⟩, ⟨22, 199488, false, true, .chargeLimit⟩] = .exceedsCapacity ∧
    homePool [⟨21, 80, false, true, .classRule⟩, ⟨22, 192, true, false, .window⟩] = some 22 := by decide

theorem witness_DrawPresentsFirstQualifying :
    (drawing demo (.qualify []) 0).decision = some (.draw (drawn (.qualify []) 0)) ∧
    (drawing demo (.qualify [⟨2, 7, 3, 2⟩]) 0).decision = some (.draw (drawn (.qualify [⟨2, 7, 3, 2⟩]) 0)) ∧ 7 < 512 ∧
    (demo.IsCandidate 7 100 1 ∧ (demo.params 7).validFrom.toNat ≤ demo.su.frame.toNat ∧
      demo.su.frame.toNat ≤ (demo.params 7).validTo.toNat ∧ (demo.activeMask 7).getLsbD demo.su.slot = true ∧
      demo.chargeOn 7 1 1 ≤ 3) ∧
    ¬ (demo.chargeOn 7 1 1 ≤ 2) :=
  ⟨rfl, rfl, by decide, ⟨demo_candidate, by decide, by decide, by decide, by decide⟩, by decide⟩

/-- Table 3-5, Draw F: a charge at most the held one qualifies, a larger one does not. -/
theorem test_qualify :
    (after (.draw 1) (drawing demo (.qualify [⟨2, 7, 3, 2⟩]) 0)).decision = some (.draw (drawn (.reviving 2 2) 0)) ∧
    (after (.draw 1) (drawing demo (.qualify [⟨2, 7, 2, 2⟩]) 0)).decision = some (.draw (drawn (.qualify []) 0)) := by decide

/-! ### The grant event and the revival event -/

/-- Pool 7 with room: one token in use. -/
def roomy : State := { demo with et.pools := [(7, ⟨.active, some params, 1, 1, 1⟩)] }

theorem roomy_passes (s : State) (h1 : s.et = roomy.et) (h2 : s.lt = roomy.lt) : s.GrantPasses 7 3 1 1 := by
  unfold State.GrantPasses State.pool State.params State.pool State.lease
  rw [h1, h2]
  decide

theorem demo_fails (s : State) (h1 : s.et = demo.et) (k : Word) (i : Nat) : ¬ s.GrantPasses 7 3 i k := by
  rintro ⟨-, ht, -⟩
  have hl : ∀ key : Word, limitFor params 9 key ≤ 10 := by
    intro key
    unfold limitFor
    split_ifs <;> simp [params]
  have e1 : s.pool 7 = ⟨.active, some params, 9, 9, 3⟩ := by
    unfold State.pool
    rw [h1]
    rfl
  have e2 : s.params 7 = params := by
    unfold State.params
    rw [e1]
    rfl
  rw [e1, e2] at ht
  have := hl k
  simp only at ht
  omega

theorem witness_AdmissionGrantEvent :
    (drawing roomy (.granting 7 3 true [] []) 0).decision = some (.draw (drawn (.granting 7 3 true [] []) 0)) ∧
    (drawing roomy (.granting 7 3 true [] []) 0).GrantPasses 7 3 1 1 ∧
    (drawing demo (.granting 7 3 true [] []) 0).decision = some (.draw (drawn (.granting 7 3 true [] []) 0)) ∧
    ∀ i, ¬ (drawing demo (.granting 7 3 true [] []) 0).GrantPasses 7 3 i 1 :=
  ⟨rfl, roomy_passes _ rfl rfl, rfl, fun i => demo_fails _ rfl 1 i⟩

/-- R36, R56: the FREE record of lowest index becomes HELD and the counters rise. -/
theorem test_grant :
    ((after (.grantEvent .admissionUnit) (drawing roomy (.granting 7 3 true [] []) 0)).lease 1).st = .held ∧
    ((after (.grantEvent .admissionUnit) (drawing roomy (.granting 7 3 true [] []) 0)).pool 7).reserveInUse = 4 := by decide +kernel

theorem witness_RevivalEvent :
    (drawing demo (.reviving 2 2) 0).decision = some (.draw (drawn (.reviving 2 2) 0)) ∧
    ((drawing demo (.reviving 2 2) 0).lease 2).st = .lingering ∧ ((drawing demo (.reviving 2 2) 0).lease 2).generation = 2 ∧
    ¬ (((drawing demo (.reviving 0 5) 0).lease 0).st = .lingering) := by
  refine ⟨rfl, ?_⟩
  decide

/-- Table 5-6 event 10: the revived lease keeps its charge, and the counters do not move. -/
theorem test_revival : ((after .revival (drawing demo (.reviving 2 2) 0)).lease 2) = { lease .held 2 3 5 with period := 5 } ∧
    (after .revival (drawing demo (.reviving 2 2) 0)).et = demo.et := by decide

/-! ### The Wait Unit -/

/-- A parking event handed for a pool. -/
def parkingAt (s : State) (home : Nat) : State := { s with wu.parkInbox := [⟨home, waiter 30 1 5⟩] }

theorem witness_ParkingPlacesByClass :
    (parkingAt demo 7).wu.parkInbox = ⟨7, waiter 30 1 5⟩ :: [] ∧ (parkingAt demo 7).wu.exam = none ∧
    ((parkingAt demo 7).pool 7).st = .active ∧ (examining (parkingAt demo 7) .head).wu.exam ≠ none ∧
    ((parkingAt demo 511).pool 511).st = .absent := by
  refine ⟨rfl, rfl, ?_⟩
  decide

/-- Table 4-1: the four placings. -/
theorem test_placing :
    (([(300, 2), (301, 3), (302, 2), (303, 0), (304, 2)] : List (Nat × Nat)).foldl (fun q e => placeWaiter (waiter e.1 e.2 9) q) []).map
      Waiter.cell = [303, 300, 302, 304, 301] := by decide

/-- Pool 7 due, with no examination in hand. -/
def dueAt (s : State) (p : Nat) : State := { s with wu.due := [p] }

/-- The examination of pool 7 at a step, with its pool gone by a commit, at a frame past 0. -/
def examiningGone (stage : ExamStage) : State := examining { demo with et.pools := [] } stage

theorem witness_ExaminationJudgesPoolAndHead :
    ((dueAt demo 7).canonical = true ∧ (dueAt demo 7).wu.exam = none ∧ (dueAt demo 7).wu.due = 7 :: []) ∧
    ((dueAt demo 511).canonical = true ∧ ((dueAt demo 511).pool 511).st = .absent) ∧
    ((dueAt { demo with su.frame := 0xFFFFFFFF } 7).params 7).validTo.toNat
      < (dueAt { demo with su.frame := 0xFFFFFFFF } 7).su.frame.toNat ∧
    (dueAt { demo with su.frame := 1 } 7).su.frame.toNat < ((dueAt { demo with su.frame := 1 } 7).params 7).validFrom.toNat ∧
    (((dueAt demo 7).pool 7).st = .active ∧ (dueAt demo 7).su.frame.toNat ≤ ((dueAt demo 7).params 7).validTo.toNat ∧
      ((dueAt demo 7).params 7).validFrom.toNat ≤ (dueAt demo 7).su.frame.toNat) ∧
    ((examining demo .validity).canonical = true ∧ (examining demo .validity).wu.exam = some ⟨7, .validity⟩) ∧
    ((examiningGone .validity).canonical = true ∧ ((examiningGone .validity).pool 7).st = .absent) ∧
    ((examiningGone .head).canonical = true ∧ ((examiningGone .head).pool 7).st = .absent) ∧
    ((examining demo .head).canonical = true ∧ (examining demo .head).wu.exam = some ⟨7, .head⟩ ∧
      (examining demo .head).queue 7 = waiter 20 0 1 :: [waiter 21 2 9] ∧ ((examining demo .head).pool 7).st ≠ .absent ∧
      (examining demo .head).chargeOn 7 1 1 ≤ 65535 ∧
      (examining demo .head).chargeOn 7 1 1 ≤ ((examining demo .head).params 7).capacity ∧
      ((examining demo .head).activeMask 7).getLsbD (examining demo .head).su.slot = true) ∧
    (({ demo with su.slot := 1 } : State).activeMask 7).getLsbD ({ demo with su.slot := 1 } : State).su.slot = false ∧
    (examining { demo with wu.queues := [] } .head).queue 7 = [] ∧
    ((examining demo .poolState).canonical = true ∧ (examining demo .poolState).wu.exam = some ⟨7, .poolState⟩ ∧
      ((examining demo .poolState).pool 7).st = .active ∧ ((examiningGone .poolState).pool 7).st = .absent ∧
      (examiningGone .poolState).canonical = true) ∧
    (demo.wu.exam = none ∧ demo.wu.due = []) ∧ (examining demo (.granting 3)).wu.exam = some ⟨7, .granting 3⟩ ∧
    (({ demo with et.pools := [(7, ⟨.active, some { params with capacity := 2 }, 0, 0, 0⟩)] } : State).params 7).capacity
      < ({ demo with et.pools := [(7, ⟨.active, some { params with capacity := 2 }, 0, 0, 0⟩)] } : State).chargeOn 7 1 1 := by
  decide +kernel

/-- R74, R75, R78: a pool made ABSENT after its state was read stops the examination with its waiters left; R79: a tick held meanwhile is
then counted. -/
theorem test_examination_gone :
    (after (.examination 1) (examiningGone .validity)).queue 7 = [waiter 20 0 1, waiter 21 2 9] ∧
    (after (.examination 1) (examiningGone .validity)).wu.exam = none ∧
    (after (.examination 1) { examiningGone .validity with wu.heldTicks := 1 }).queue 7 = [waiter 21 2 8] := by decide

/-- Table 4-4: a retired pool's queue is answered front first; the head that does not fit capacity is passed over. -/
theorem test_examination :
    (after (.examination 2) (dueAt { demo with et.pools := [(7, ⟨.retiring, some params, 3, 3, 1⟩)] } 7)).xi.writeList
      = [.final 20 (plainAnswer .poolRetired 7), .final 21 (plainAnswer .poolRetired 7)] ∧
    ((after (.examination 1) (examining { demo with et.pools := [(7, ⟨.active, some { params with capacity := 2 }, 0, 0, 0⟩)] }
      .head)).queue 7) = [waiter 21 2 9] := by decide

theorem witness_WaiterGrantEvent :
    (examining roomy (.granting 3)).wu.exam = some ⟨7, .granting 3⟩ ∧
    (examining roomy (.granting 3)).queue 7 = waiter 20 0 1 :: [waiter 21 2 9] ∧ (examining roomy (.granting 3)).canonical = true ∧
    (examining roomy (.granting 3)).GrantPasses 7 3 1 1 ∧
    (examining demo (.granting 3)).queue 7 = waiter 20 0 1 :: [waiter 21 2 9] ∧ (examining demo (.granting 3)).canonical = true ∧
    ∀ i, ¬ (examining demo (.granting 3)).GrantPasses 7 3 i 1 :=
  ⟨rfl, rfl, by decide +kernel, roomy_passes _ rfl rfl, rfl, by decide +kernel, fun i => demo_fails _ rfl 1 i⟩

/-- Table 4-5: a failure with RECORD sets the table-stall mark. -/
theorem test_stall : (State.examGrant { examining roomy (.granting 3) with wu.queues := [] } 7 3).wu.stall = [] ∧
    (demo.setStall 7 true).wu.stall = [7] := by decide

theorem witness_CommitReportFlushesLeavingPools :
    ({ demo with wu.commitReports := [⟨[9], [7, 511]⟩] } : State).wu.commitReports = ⟨[9], [7, 511]⟩ :: [] ∧
    ([7, 511] : List Nat).Nodup ∧ demo.wu.exam = none ∧ (examining demo .head).wu.exam ≠ none := by
  refine ⟨rfl, ?_⟩
  decide

/-- Section 7.9: the leaving pool's waiters are answered POOL_RETIRED, and every pool of the report becomes due. -/
theorem test_commit_report :
    (after .commitReport { demo with wu.commitReports := [⟨[9], [7]⟩] }).wu.due = [7, 9] ∧
    (after .commitReport { demo with wu.commitReports := [⟨[9], [7]⟩] }).queue 7 = [] := by decide

/-! ### Ticks -/

/-- HOLD, and a pending grace hold in RUN. -/
def held (s : State) : State := { s with xi.engine := .hold }
/-- A pending grace hold of one housekeeping tick. -/
def graced (s : State) : State := { s with tb.graceHold := some 1 }

theorem witness_LeaseTickEvents :
    demo.canonical = true ∧ demo.xi.engine = .run ∧ demo.tb.graceHold = none ∧ ({ demo with xi.engine := .offline } : State).canonical = true ∧
    (demo.lease 0).st = .held ∧ (demo.lease 0).counter ≤ 1 ∧ (demo.lease 2).st = .lingering ∧ (demo.lease 2).counter ≤ 1 ∧
    (held demo).xi.engine = .hold ∧ (graced demo).tb.graceHold ≠ none ∧ (graced demo).canonical = true ∧
    ({ demo with xi.engine := .still } : State).xi.engine = .still := by decide +kernel

/-- Table 5-6 events 6 and 18: record 0 lapses, record 2 ends its linger with its generation kept, and both charges go back. -/
theorem test_lease_tick : ((after .leaseTick demo).lease 0).st = .lapsed ∧ (after .leaseTick demo).lease 2 = lease .free 2 3 0 ∧
    ((after .leaseTick demo).pool 7).inUse = 3 := by decide

/-- R150: nine tokens in use are added at the tick, and none in HOLD. -/
theorem test_token_ticks : ((after .tokenTicks demo).metersOf 7).tokenTicks = 9 ∧
    ((after .tokenTicks (held demo)).metersOf 7).tokenTicks = 0 := by decide +kernel

theorem witness_HousekeepingTickCounts :
    demo.canonical = true ∧ demo.xi.engine = .run ∧ demo.wu.exam = none ∧
    (∃ p, ∃ w ∈ demo.queue p, w.cell = 20 ∧ w.deadline ≤ 1) ∧ (graced demo).tb.graceHold = some 1 ∧
    (examining demo .head).canonical = true ∧ (examining demo .head).wu.exam ≠ none ∧ (held demo).canonical = true ∧
    (held demo).xi.engine = .hold := by
  refine ⟨by decide +kernel, rfl, rfl, ⟨7, waiter 20 0 1, .head _, rfl, by decide⟩, rfl, by decide +kernel, by decide,
    by decide +kernel, rfl⟩

/-- R79, R80: cell 20 expires and becomes due; cell 21 counts down. -/
theorem test_housekeeping : (after .housekeepingTick demo).queue 7 = [waiter 21 2 8] ∧
    (after (.waitExpiry 20) demo).xi.writeList = [.final 20 (plainAnswer .waitExpired 7)] ∧
    (after .graceHoldEnd (graced demo)).tb.graceHold = none := by decide

/-- The last second of a slot. -/
def lastSecond (slot : Nat) : State :=
  { demo with su.seconds := 59, su.slot := slot, su.staged := some ⟨3, 9, List.replicate 32 50⟩, su.stagedMasks := [(7, some 2)] }

theorem witness_SecondAdvancesClock :
    ((lastSecond 0).canonical = true ∧ (lastSecond 0).xi.engine ≠ .still ∧ (lastSecond 0).su.clockSet = true ∧
      (lastSecond 0).su.active.slotLength ≤ (lastSecond 0).su.seconds + 1 ∧
      (lastSecond 0).su.slot + 1 < (lastSecond 0).su.active.slotCount) ∧
    ((lastSecond 1).canonical = true ∧ (lastSecond 1).su.active.slotCount ≤ (lastSecond 1).su.slot + 1) ∧
    demo.su.seconds + 1 < demo.su.active.slotLength ∧ State.reset.su.clockSet = false ∧ State.reset.canonical = true ∧
    { demo with xi := { demo.xi with engine := .still } }.canonical = true := by decide +kernel

/-- R123, R124, Table 6-5: a slot start keeps staged content, a frame start makes it active. -/
theorem test_second : (after .second (lastSecond 0)).su.slot = 1 ∧ (after .slotStart (lastSecond 0)).stagedMask 7 = some 2 ∧
    (after .frameStart (lastSecond 1)).activeMask 7 = 2 ∧ (after .second (lastSecond 1)).su.frame = 11 := by decide

/-- A SET_CLOCK to a position. -/
def setClockOf (frame : Nat) (slot : Byte) (seconds : Nat) : List Byte := request 8 (le 4 frame ++ [slot, 0] ++ le 2 seconds)

theorem witness_SetClockMovesPosition :
    (asking (lastSecond 1) (setClockOf 10 1 59)).canonical = true ∧
    (asking (lastSecond 1) (setClockOf 10 1 59)).ServesKind 5 (setClockOf 10 1 59) [] 8 ∧
    (asking (lastSecond 1) (setClockOf 10 2 0)).ServesKind 5 (setClockOf 10 2 0) [] 8 ∧
    (lastSecond 1).su.active.slotCount ≤ (byteAt (setClockOf 10 2 0) 8).toNat ∧
    (asking (lastSecond 1) (setClockOf 11 2 8)).ServesKind 5 (setClockOf 11 2 8) [] 8 ∧
    (asking (lastSecond 1) (setClockOf 10 0 0)).ServesKind 5 (setClockOf 10 0 0) [] 8 ∧
    ((lastSecond 1).su.clockSet = true ∧ (0 : Nat) < (lastSecond 1).su.slot) ∧
    (asking demo (setClockOf 10 1 0)).ServesKind 5 (setClockOf 10 1 0) [] 8 := by
  refine ⟨by decide +kernel, asking_serves _ _ _ rfl rfl rfl rfl, asking_serves _ _ _ rfl rfl rfl rfl, by decide,
    asking_serves _ _ _ rfl rfl rfl rfl, asking_serves _ _ _ rfl rfl rfl rfl, by decide, asking_serves _ _ _ rfl rfl rfl rfl⟩

/-- Table 6-5: seconds past the slot are clamped, and a target below the position is refused with the position held. -/
theorem test_set_clock : (after .setClock (asking demo (setClockOf 10 1 2000))).su.seconds = 59 ∧
    (after .setClock (asking (lastSecond 1) (setClockOf 10 0 10))).xi.writeList
      = [.final 5 { result := .clockBackward, detail := 0, pool := 0xFFFF, body := .clock 10 1 59 }] := by decide

/-- A TUNE of the four values. -/
def tuneOf (lease hk : Byte) (grace : Nat) (interval : Byte) : List Byte := request 9 ([lease, hk] ++ le 2 grace ++ [interval])

theorem witness_TuneSetsFourValues :
    (asking demo (tuneOf 7 7 65535 0)).ServesKind 5 (tuneOf 7 7 65535 0) [] 9 ∧ (byteAt (tuneOf 7 7 65535 0) 4).toNat ≤ 7 ∧
    (byteAt (tuneOf 7 7 65535 0) 5).toNat ≤ 7 ∧ (asking demo (tuneOf 8 0 0 0)).ServesKind 5 (tuneOf 8 0 0 0) [] 9 ∧
    7 < (byteAt (tuneOf 8 0 0 0) 4).toNat ∧ (asking demo (tuneOf 7 8 0 0)).ServesKind 5 (tuneOf 7 8 0 0) [] 9 ∧
    7 < (byteAt (tuneOf 7 8 0 0) 5).toNat := by
  refine ⟨asking_serves _ _ _ rfl rfl rfl rfl, by decide, by decide, asking_serves _ _ _ rfl rfl rfl rfl, by decide,
    asking_serves _ _ _ rfl rfl rfl rfl, by decide⟩

/-- Table 6-3: a TUNE does not cut the interval in progress. R119: a meter interval of 0 is taken as 1. -/
theorem test_tune : (after .tune (asking demo (tuneOf 0 7 9 0))).tb.leaseInterval = 1000 ∧
    (after .tune (asking demo (tuneOf 0 7 9 0))).tb.leaseSel = 0 ∧
    (after .tune (asking demo (tuneOf 0 7 9 0))).mu.interval = 1 := by decide

/-! ### Installing -/

/-- An INSTALL of an image address and length. -/
def installOf (addr len : Nat) : List Byte := request 7 ([0, 0, 0, 0] ++ le 8 addr ++ le 4 len)

theorem witness_InstallTaken :
    (asking demo (installOf 8 49280)).ServesKind 5 (installOf 8 49280) [] 7 ∧ readLE (installOf 8 49280) 8 8 % 8 = 0 ∧
    128 ≤ readLE (installOf 8 128) 16 4 ∧ readLE (installOf 8 49280) 16 4 ≤ 49280 ∧ (asking demo (installOf 8 49280)).install = .idle ∧
    (asking (installing [] 128) (installOf 8 128)).ServesKind 5 (installOf 8 128) [] 7 ∧
    (asking (installing [] 128) (installOf 8 128)).install ≠ .idle ∧
    (asking demo (installOf 4 128)).ServesKind 5 (installOf 4 128) [] 7 ∧ readLE (installOf 4 128) 8 8 % 8 ≠ 0 ∧
    readLE (installOf 8 127) 16 4 < 128 ∧ 49280 < readLE (installOf 8 49281) 16 4 := by
  refine ⟨asking_serves _ _ _ rfl rfl rfl rfl, by decide, by decide, by decide, rfl, asking_serves _ _ _ rfl rfl rfl rfl, ?_,
    asking_serves _ _ _ rfl rfl rfl rfl, by decide, by decide, by decide⟩
  intro h
  cases h

/-- R132, R133: a misaligned address is BAD_FIELD at 08h; a second INSTALL is answered INSTALL_BUSY. -/
theorem test_install : (after .install (asking demo (installOf 12 128))).xi.writeList
      = [.final 5 { result := .badField, detail := 8, pool := 0xFFFF, body := .zero }] ∧
    (after .install (asking (installing [] 128) (installOf 8 128))).xi.writeList
      = [.final 5 (plainAnswer .installBusy 0xFFFF)] := by decide

/-- A number as `n` big-endian bytes. -/
def be (n v : Nat) : List Byte := (bytesLE n v).reverse

/-- What an image's CRC covers: a sequence, slot count, slot length and records. -/
def covered (sequence slots length : Nat) (records : List (List Byte)) : List Byte :=
  be 4 sequence ++ be 2 records.length ++ be 2 slots ++ be 2 length ++ be 4 (128 + 96 * records.length) ++ List.replicate 104 0
    ++ records.flatten

/-- An image with the CRC field given. -/
def image (crc : Word) (body : List Byte) : List Byte := [0x4B, 0x54, 0x34, 0x31, 0, 1] ++ be 4 crc.toNat ++ body

/-- An image whose CRC field is right. -/
def goodImage (body : List Byte) : List Byte := image (imageCrc body) body

theorem image_drop (crc : Word) (body : List Byte) : (image crc body).drop 10 = body := by
  simp [image, be, bytesLE]

theorem image_crc_field (crc : Word) (body : List Byte) : BitVec.ofNat 32 (readBE (image crc body) 6 4) = crc := by
  apply BitVec.eq_of_toNat_eq
  have := crc.isLt
  simp [image, be, bytesLE, readBE, readBEFrom, byteAt]
  omega

/-- R136: a good image's CRC field agrees with its bytes. -/
theorem goodImage_crc (body : List Byte) :
    imageCrc ((goodImage body).drop 10) = BitVec.ofNat 32 (readBE (goodImage body) 6 4) := by
  rw [goodImage, image_drop, image_crc_field]

/-- An image whose CRC field is wrong. -/
def badImage (body : List Byte) : List Byte := image (~~~ imageCrc body) body

theorem badImage_crc (body : List Byte) :
    imageCrc ((badImage body).drop 10) ≠ BitVec.ofNat 32 (readBE (badImage body) 6 4) := by
  rw [badImage, image_drop, image_crc_field]
  intro h
  have := congrArg (fun w : Word => w.getLsbD 0) h
  simp at this

/-- A field of the header of an image, 0Ah and on, does not depend on the CRC field. -/
theorem image_field (crc : Word) (body : List Byte) (off n : Nat) (h : 10 ≤ off) :
    readBE (image crc body) off n = readBE body (off - 10) n := by
  have hb : ∀ k, byteAt (image crc body) (k + 10) = byteAt body k := by
    intro k
    conv_rhs => rw [← image_drop crc body]
    simp [byteAt, List.getD_eq_getElem?_getD, Nat.add_comm]
  have hr : ∀ (n acc k : Nat), readBEFrom acc (image crc body) (k + 10) n = readBEFrom acc body k n := by
    intro n
    induction n with
    | zero => intros; rfl
    | succ n ih =>
      intro acc k
      simp only [readBEFrom, hb]
      exact ih _ (k + 1)
  obtain ⟨k, rfl⟩ := Nat.exists_eq_add_of_le' h
  simpa [readBE] using hr n 0 k

/-- The unit's running CRC is the CRC of the bytes it has run over. -/
theorem installing_agrees (bytes : List Byte) (len : Nat) :
    ∃ im, (installing bytes len).install = .reading im ∧ im.readTag = some 0 ∧ im.crcAgrees ∧ im.bytes = bytes ∧ im.len = len :=
  ⟨_, rfl, rfl, crcFinal_crcBytes _, rfl, rfl⟩

/-- A pool record of a pool number with the one feature 100, every other field 0. -/
def poolRecord (p : Nat) : List Byte := be 2 p ++ [1, 0, 0, 100] ++ List.replicate 90 0

theorem witness_ImageBytesAndHeaderChecks :
    (installing [] 128).transfer 0 = some ⟨0, .imageRead 9, 0x10000, 128, []⟩ ∧
    (flying demo (.imageRead 9) 128).transfer 0 = some ⟨0, .imageRead 9, 0x10000, 128, []⟩ ∧
    (∀ im, (flying demo (.imageRead 9) 128).install = .reading im → im.readTag ≠ some 0) ∧
    (∃ im, (installing [] 128).install = .reading im ∧ im.readTag = some 0 ∧ im.crcAgrees ∧ im.bytes = [] ∧ im.len = 128) ∧
    (∃ im, (installing (List.replicate 128 0) 224).install = .reading im ∧ im.readTag = some 0 ∧ im.crcAgrees ∧
      im.bytes = List.replicate 128 0 ∧ im.len = 224) ∧
    HeaderGood (image 0 (covered 18 4 900 [])) 128 ∧ ¬ HeaderGood (image 0 (covered 18 4 900 [])) 136 ∧
    ¬ HeaderGood (List.replicate 128 0) 128 := by
  refine ⟨rfl, rfl, ?_, installing_agrees [] 128, installing_agrees _ 224, ?_, ?_, ?_⟩
  · intro im h
    simp [flying, demo, State.reset] at h
  · unfold HeaderGood
    decide +kernel
  · unfold HeaderGood
    decide +kernel
  · unfold HeaderGood
    decide

/-- R137: a wrong magic fails check 1, a wrong length check 2. R134: after 100 bytes of the header the read asks for 28. -/
theorem test_image_header_checks :
    (ImageRead.headerFailure ⟨9, 0, 128, List.replicate 128 0, 0, none, false⟩) = some 1 ∧
    (ImageRead.headerFailure ⟨9, 0, 136, image 0 (covered 18 4 900 []), 0, none, false⟩) = some 2 ∧
    (ImageRead.wanted ⟨9, 0, 224, List.replicate 100 0, 0, none, false⟩) = 28 ∧
    (arrivedBytes 128 (List.replicate 37 0)).length = 32 ∧ (arrivedBytes 100 (List.replicate 128 0)).length = 100 := by decide +kernel

theorem poolRecord_good (p : Nat) (hp : readBE (poolRecord p) 0 2 < 512) (hc : (byteAt (poolRecord p) 2).toNat = 1)
    (hf : readBE (poolRecord p) 4 2 ≠ 0) : RecordGood [] (poolRecord p) := by
  refine ⟨hp, by simp, by omega, by omega, ?_, ?_⟩
  · intro k hk
    have : k = 0 := by omega
    subst this
    exact hf
  · intro j k hj hk
    omega

theorem witness_ImageChecksAtLastByte :
    (∃ im, (installing ((goodImage (covered 18 4 900 [poolRecord 511])).take 223) 224).install = .reading im ∧
      im.readTag = some 0 ∧ im.crcAgrees ∧ im.bytes = (goodImage (covered 18 4 900 [poolRecord 511])).take 223 ∧ im.len = 224) ∧
    (goodImage (covered 18 4 900 [poolRecord 511])).take 223 ++ [0] = goodImage (covered 18 4 900 [poolRecord 511]) ∧
    imageCrc ((badImage (covered 18 4 900 [])).drop 10) ≠ BitVec.ofNat 32 (readBE (badImage (covered 18 4 900 [])) 6 4) ∧
    (imageCrc ((goodImage (covered 0 4 900 [])).drop 10) = BitVec.ofNat 32 (readBE (goodImage (covered 0 4 900 [])) 6 4) ∧
      readBE (goodImage (covered 0 4 900 [])) 10 4 ≤ demo.et.floor.toNat) ∧
    (demo.et.floor.toNat < readBE (goodImage (covered 18 33 900 [])) 10 4 ∧ 32 < readBE (goodImage (covered 18 33 900 [])) 16 2) ∧
    readBE (goodImage (covered 18 0 900 [])) 16 2 < 1 ∧ readBE (goodImage (covered 18 1 0 [])) 18 2 = 0 ∧
    (readBE (goodImage (covered 18 32 900 [poolRecord 512])) 14 2 = 1 ∧ ¬ RecordGood [] (poolRecord 512)) ∧
    (readBE (goodImage (covered 18 32 900 [poolRecord 511])) 14 2 = 1 ∧ RecordGood [] (poolRecord 511) ∧
      1 ≤ readBE (goodImage (covered 18 32 900 [poolRecord 511])) 16 2 ∧
      readBE (goodImage (covered 18 32 900 [poolRecord 511])) 16 2 ≤ 32 ∧
      readBE (goodImage (covered 18 32 900 [poolRecord 511])) 18 2 ≠ 0) := by
  refine ⟨installing_agrees _ _, rfl, ?_, ⟨goodImage_crc _, ?_⟩, ⟨?_, ?_⟩, ?_, ?_, ⟨?_, fun h => absurd h.1 (by decide)⟩,
    ⟨?_, poolRecord_good _ (by decide) (by decide) (by decide), ?_, ?_, ?_⟩⟩
  · exact badImage_crc _
  all_goals
    rw [goodImage, image_field _ _ _ _ (by decide)]
    decide +kernel

/-- R138: checks 3 to 6, with a CRC register whose final value is 0. -/
theorem test_image_checks :
    let judged := fun crc body => ImageRead.imageFailure ⟨9, 0, 320, image crc body, 0xFFFFFFFF, none, false⟩ 17
    judged 1 (covered 18 4 900 []) = some (corruptAnswer 3 0xFFFF) ∧
    judged 0 (covered 17 4 900 []) = some { result := .imageOld, detail := 0, pool := 0xFFFF, body := .imageOld 17 17 } ∧
    judged 0 (covered 18 0 900 []) = some (corruptAnswer 5 0xFFFF) ∧
    judged 0 (covered 18 4 900 [poolRecord 7, poolRecord 7]) = some (corruptAnswer 6 1) ∧
    judged 0 (covered 18 4 900 [poolRecord 7, poolRecord 8]) = none := by decide +kernel

/-- Table 1-2: a record whose fields are out of range: reserve 9 over capacity 5, seat cap 4097, default 1, minimum 9, maximum 4. -/
theorem test_staging :
    let r := poolRecord 7 |>.take 0x24 |> fun h => h ++ be 2 5 ++ be 2 9 ++ be 2 4097 ++ List.replicate 6 0 ++ be 2 1 ++ be 2 9
      ++ be 2 4 ++ List.replicate 42 0
    (recordParams r).reserve = 5 ∧ (recordParams r).seatCap = 4096 ∧ (recordParams r).periodMin = 4 ∧
      (recordParams r).periodDefault = 4 ∧ (recordParams r).features = [100] := by decide +kernel

/-- An install whose commit comes next: pool 7 kept with capacity 5, pool 8 created. -/
def committing (outcome : Option CommitOutcome) : State :=
  { demo with
    install := .committing ⟨9, 0x2000, 320, [], 0, none, false⟩
      [(7, some ⟨{ params with capacity := 5, reserveValue := 0 }, 2⟩), (8, some ⟨params, 4⟩)] ⟨18, Schedule.atReset⟩ outcome }

theorem witness_CommitByTable72 : (committing none).canonical = true ∧
    (∃ im staged header, (committing none).install = .committing im staged header none) := ⟨by decide +kernel, ⟨_, _, _, rfl⟩⟩

/-- Table 7-5: the kept pool over its new capacity is DRAINING, its reserve-in-use recomputed; the created pool is ACTIVE. -/
theorem test_commit : (after .installCommit (committing none)).pool 7
      = ⟨.draining, some { params with capacity := 5, reserveValue := 0 }, 9, 0, 3⟩ ∧
    ((after .installCommit (committing none)).pool 8).st = .active ∧ (after .installCommit (committing none)).pool 511 = Pool.atReset ∧
    (after .installCommit (committing none)).wu.commitReports = [⟨[7], []⟩] := by decide +kernel

theorem witness_ScheduleContentTaken :
    (∃ im staged header, (committing (some ⟨[8], [7], [9], [10]⟩)).install
      = .committing im staged header (some ⟨[8], [7], [9], [10]⟩)) ∧
    (∀ p, [p ∈ [8], p ∈ [7], p ∈ [9], p ∈ [10]].Pairwise (fun a b => ¬ (a ∧ b))) ∧
    (committing none).su.clockSet = true ∧ State.reset.su.clockSet = false := by
  refine ⟨⟨_, _, _, rfl⟩, ?_, rfl, rfl⟩
  intro p
  simp only [List.pairwise_cons, List.mem_cons, List.not_mem_nil, or_false]
  refine ⟨?_, ?_, ?_, ?_, List.Pairwise.nil⟩ <;> intro q hq <;> rcases hq with rfl | rfl | rfl <;> omega

/-- Section 7.9: the kept pool's mask is staged, the created pool's active at once, and the INSTALL is answered with its counts. -/
theorem test_schedule_content :
    (after .scheduleContent (committing (some ⟨[8], [7], [], []⟩))).activeMask 8 = 4 ∧
    (after .scheduleContent (committing (some ⟨[8], [7], [], []⟩))).stagedMask 7 = some 2 ∧
    (after .scheduleContent (committing (some ⟨[8], [7], [], []⟩))).xi.writeList
      = [.final 9 { result := .ok, detail := 0, pool := 0xFFFF, body := .install 1 1 0 0 0 }] := by decide +kernel

/-! ### Metering -/

/-- A state with one count handed. -/
def counting (c : MeterCount) : State := { demo with mu.inbox := [c], mu.slotEnds := 1 }

theorem witness_MeterCountsAndIntervals :
    (counting (.raise .grants 7)).mu.inbox[0]? = some (.raise .grants 7) ∧
    (counting (.raise .refusals 7)).mu.inbox[0]? = some (.raise .refusals 7) ∧
    (counting (.raise .waitExpiries 7)).mu.inbox[0]? = some (.raise .waitExpiries 7) ∧
    (counting (.raise .lapses 7)).mu.inbox[0]? = some (.raise .lapses 7) ∧
    (counting (.peak 7 65535)).mu.inbox[0]? = some (.peak 7 65535) ∧ 0 < (counting (.peak 7 65535)).mu.slotEnds ∧
    (counting (.peak 7 65535)).mu.interval ≤ (counting (.peak 7 65535)).mu.slotEndCount + 1 ∧
    ({ demo with mu.slotEnds := 1, mu.interval := 2 } : State).mu.slotEndCount + 1
      < ({ demo with mu.slotEnds := 1, mu.interval := 2 } : State).mu.interval := by decide

/-- R151, R153: a saturated meter stays and its flag is set; the intervals-covered count stays at 255. -/
theorem test_counts :
    ((({ demo with mu.meters := [(7, { Meters.atReset with refusals := 65535 })] } : State).takeCount (.raise .refusals 7)).metersOf 7)
      = { Meters.atReset with refusals := 65535, satRefusals := true } ∧
    (after .slotEnd { counting (.peak 7 1) with mu.covered := 255 }).mu.covered = 255 ∧
    (after .intervalEnd (counting (.peak 7 1))).mu.readDue = true := by decide

/-- A page being written, with the write of a part in flight. -/
def paging (part : Nat) (kind : TransferKind) : State :=
  flying { demo with mu.page := .writing ⟨3, 411, 0, 7, [], []⟩ part true } kind 0

theorem witness_MeterPageReadAndWritten :
    (({ demo with mu.readDue := true } : State).mu.page = .idle ∧ ({ demo with mu.readDue := true } : State).mu.readDue = true) ∧
    (flying demo .ownerRead 4).transfer 0 = some ⟨0, .ownerRead, 0x10000, 4, []⟩ ∧ (flying demo .ownerRead 4).xi.engine = .run ∧
    ((0 : Byte) ≠ 0 ∨ (0 : Byte) ≠ 0 ∨ (0 : Byte) ≠ 0 ∨ (128 : Byte) ≠ 0) ∧
    (∃ s : State, s = { flying demo .ownerRead 4 with xi.engine := .faulted } ∧ s.transfer 0 = some ⟨0, .ownerRead, 0x10000, 4, []⟩ ∧
      s.xi.engine ≠ .run ∧ s.xi.engine ≠ .hold) ∧
    (∃ s : State, s = { paging 511 .pageWrite with xi.engine := .still } ∧ s.transfer 0 = some ⟨0, .pageWrite, 0x10000, 0, []⟩ ∧
      s.xi.engine ≠ .run ∧ s.xi.engine ≠ .hold) ∧
    ((paging 511 .pageWrite).transfer 0 = some ⟨0, .pageWrite, 0x10000, 0, []⟩ ∧
      ∃ snap, (paging 511 .pageWrite).mu.page = .writing snap 511 true) ∧
    (∃ snap, (paging 512 .pageWrite).mu.page = .writing snap 512 true) ∧
    (paging 513 .ownerWrite).transfer 0 = some ⟨0, .ownerWrite, 0x10000, 0, []⟩ ∧
    Notice.meter ∈ (stalled.xi.notices.drop (if stalled.xi.noticeStage = .notBegun then 0 else 1)) ∧
    Notice.meter ∉ (demo.xi.notices.drop (if demo.xi.noticeStage = .notBegun then 0 else 1)) := by
  refine ⟨⟨rfl, rfl⟩, rfl, rfl, by decide, ⟨_, rfl, rfl, by decide, by decide⟩, ⟨_, rfl, rfl, by decide, by decide⟩,
    ⟨rfl, ⟨_, rfl⟩⟩, ⟨_, rfl⟩, rfl, by decide, by decide⟩

/-- Section 8.6 and Table 10-9: the page header, and the peak reloaded with the in-use of the snapshot. -/
theorem test_page :
    (PageSnapshot.headerBytes ⟨3, 411, 0, 7, [], []⟩).take 16 = [3, 0, 0, 0, 0x9B, 1, 0, 0, 0, 0, 0, 0, 7, 0, 0, 0] ∧
    ((after (.ownerReadArrival 0 [0, 0, 0, 0]) (flying demo .ownerRead 4)).metersOf 7).peak = 9 ∧
    (after (.ownerReadArrival 0 [0, 0, 0, 1]) (flying demo .ownerRead 4)).mu.page = .idle := by decide +kernel

/-- R155, R156: the record of pool 511 lies at 5040h + 32 x 511; the owner word ends the page and hands a METER notice. -/
theorem test_page_parts : (after (.pageWriteComplete 0) (paging 511 .pageWrite)).xi.inFlight.map Transfer.addr = [0x10000 + 0x9020] ∧
    (after (.pageWriteComplete 0) (paging 512 .pageWrite)).xi.inFlight = [⟨1, .ownerWrite, 0x10008, 0, [1, 0, 0, 0]⟩] ∧
    (after (.ownerWordWriteComplete 0) (paging 513 .ownerWrite)).xi.notices = [.meter] := by decide +kernel

/-! ### Arithmetic, whole-machine rules and invariants -/

theorem witness_ChargeArithmetic : 1 ≤ 64 ∧ 64 ≤ 64 ∧ 1 ≤ 1024 ∧ 1024 ≤ 1024 ∧ 4095 ≤ 4095 ∧ 1023 ≤ 1023 ∧ 0 ≤ 1024 ∧ 25 ≤ 400 ∧
    400 ≤ 400 := by decide

theorem witness_AdmissionConditions :
    (∃ e : Pool, e.reserveInUse ≤ params.reserve) ∧ (∃ e : Pool, params.reserve ≤ e.reserveInUse) ∧
    (∀ i, i < 32 → params.reserveMask.getLsbD i = true → (1 : Word).getLsbD i = params.reserveValue.getLsbD i) ∧
    (∃ i, i < 32 ∧ params.reserveMask.getLsbD i = true ∧ (0 : Word).getLsbD i ≠ params.reserveValue.getLsbD i) ∧
    params.capacity ≤ 65535 ∧ ¬ ((11 : Nat) ≤ 65535 ∧ 11 ≤ params.capacity) ∧
    (demo.pool 7).inUse ≤ clientLimit params (demo.pool 7).reserveInUse 0 :=
  ⟨⟨Pool.atReset, by decide⟩, ⟨demo.pool 7, by decide⟩, by decide, ⟨0, by decide⟩, by decide, by decide, by decide⟩

theorem witness_DmaOnlyInRunAndHold :
    step { flying demo (.fetch 3) 40 with pending := [.requestStill 3] } = .next (after (.requestStill 3) (flying demo (.fetch 3) 40)) ∧
    (after (.requestStill 3) (flying demo (.fetch 3) 40)).xi.engine = .still ∧
    (after (.requestStill 3) (flying demo (.fetch 3) 40)).xi.inFlight = (flying demo (.fetch 3) 40).xi.inFlight :=
  ⟨rfl, rfl, rfl⟩

theorem witness_MsiOnlyAsStated :
    exec (.interruptEnable 16) demo = .next (after (.interruptEnable 16) demo) ∧ isReset (.interruptEnable 16) = false ∧
    isControl (.interruptEnable 16) = true ∧ isControl (.causeWrite 1) = false ∧ isReset (.causeWrite 1) = false ∧
    exec (.causeWrite 1) demo = .next (after (.causeWrite 1) demo) ∧ demo.pending = [] ∧ step demo = .next demo.referenceCycle :=
  ⟨rfl, rfl, rfl, rfl, rfl, rfl, rfl, rfl⟩

theorem witness_HeldChargeKept :
    demo.canonical = true ∧ step demo = .next demo.referenceCycle ∧ (demo.lease 0).holds = true ∧
    (demo.referenceCycle.lease 0).holds = true := ⟨by decide +kernel, rfl, by decide, by decide⟩

theorem demo_pool_other (p : Nat) (h : ¬ 7 = p) : demo.pool p = Pool.atReset := by
  simp [demo, State.pool, Table.get, h]

theorem demo_accounted : demo.accounted := by
  intro p
  by_cases h : 7 = p
  · subst h
    decide +kernel
  · rw [demo_pool_other p h]
    simp [demo, chargeSum, reserveSum, leaseTally, lease, Lease.holds, Pool.atReset, h]

/-- The small state meets every invariant, and a step of it answers a next state. -/
theorem witness_invariants : demo.canonical = true ∧ demo.baseOk = true ∧ demo.positionOk = true ∧ demo.ledgerOk ∧
    demo.limitsKept ∧ demo.queuesOrdered = true ∧ demo.noticeRoomKept = true ∧ demo.paramsInRange = true ∧
    demo.floorBelowStaged = true ∧ step demo = .next demo.referenceCycle := by
  refine ⟨by decide +kernel, by decide +kernel, by decide +kernel, ⟨by decide +kernel, by decide +kernel, demo_accounted⟩, ?_,
    by decide +kernel, by decide +kernel, by decide +kernel, by decide +kernel, rfl⟩
  intro p hp
  by_cases h : 7 = p
  · subst h
    decide
  · rw [demo_pool_other p h] at hp
    cases hp

/-- A cell in every place: cell 4 FETCHING and cell 5 READY in slots, cell 6 in hand, 8 parking, 9 with the Install Unit, 20 and 21 in wait
queues, 30 in the write list, 31 in the Notice Queue with a LAPSE and two METER notices, and 1023 PENDING. -/
def placed : State :=
  { demo with
    nextTag := 1
    decision := some (.clearFloor 6)
    install := .reading ⟨9, 0x2000, 128, [], 0xFFFFFFFF, none, false⟩
    wu.queues := [(7, [waiter 20 0 1]), (511, [waiter 21 2 9])]
    wu.parkInbox := [⟨7, waiter 8 1 5⟩]
    xi.inFlight := [⟨0, .fetch 4, 0x1A100, 40, []⟩]
    xi.readAhead := [4, 5]
    xi.writeList := [.parked 20 7, .final 30 (plainAnswer .ok 7)]
    xi.notices := [.meter, .answer 31 .ok 7, .lapse 3 9 7, .meter]
    xi.noticeStage := .first
    xi.cells := [(4, .fetching), (5, .ready), (6, .ready), (8, .ready), (9, .working), (20, .waiting), (21, .waiting), (30, .answering),
      (31, .notifying), (1023, .pending)].map (fun e => (e.1, ⟨e.2, false, []⟩)) }

/-- R65, R68, R165: the places hold there; they do not of a cell in two queues, nor of three METER notices. -/
theorem witness_QueueOrderKept : placed.queuesOrdered = true ∧ placed.placesKept = true ∧ step placed = .next placed.referenceCycle ∧
    ({ placed with wu.queues := [(7, [waiter 20 0 1]), (511, [waiter 20 2 9, waiter 21 2 9])] } : State).placesKept = false ∧
    ({ placed with xi.notices := .meter :: placed.xi.notices } : State).placesKept = false ∧ (placed.cell 21).st = .waiting := by
  refine ⟨by decide +kernel, by decide +kernel, rfl, by decide +kernel, by decide +kernel, by decide +kernel⟩

theorem witness_NothingGoesBackButByReset :
    exec .second demo = .next (after .second demo) ∧ isReset .second = false ∧ demo.su.clockSet = true ∧ demo.xi.engine ≠ .offline ∧
    demo.floorBelowStaged = true ∧ demo.positionOk = true ∧
    (∀ c rest, ({ demo with pending := [.second] } : State).pending = c :: rest → isReset c = false) ∧
    step { demo with pending := [.second] } = .next (after .second demo) ∧ step demo = .next demo.referenceCycle ∧
    ∀ c rest, demo.pending = c :: rest → isReset c = false := by
  refine ⟨rfl, rfl, rfl, by decide, by decide, by decide +kernel, ?_, rfl, rfl, fun c rest h => by cases h⟩
  intro c rest h
  cases h
  rfl

end Sys2Proof.Tests
end

/-! PROOF. The charge of R25 to R28 and the conditions of R29 and R32 to R35: what each function of the arithmetic gives, said
once, and the two statements about them. -/

namespace Sys2Proof.Machine

/-! ### The charge -/

section Charge

/-- R25: beyond the included units, the extra units are what is asked for in excess. -/
theorem extraUnits_add_included {units included : Nat} (h : included < units) : extraUnits units included + included = units :=
  Nat.sub_add_cancel h.le

/-- R25: within the included units there are no extra units. -/
theorem extraUnits_eq_zero {units included : Nat} (h : units ≤ included) : extraUnits units included = 0 :=
  Nat.sub_eq_zero_of_le h

/-- R25: the extra units never pass the units. -/
theorem extraUnits_le_units (units included : Nat) : extraUnits units included ≤ units := Nat.sub_le units included

/-- R26: a pool that includes a unit leaves at least one unit out of the extra. -/
theorem extraUnits_le_pred {units included : Nat} (h : 1 ≤ included) : extraUnits units included ≤ units - 1 :=
  Nat.sub_le_sub_left h units

/-- R26: without base cost and size cost the raw charge is 0. -/
theorem rawCharge_eq_zero {quantity units base unit included : Nat} (hbase : base = 0) (hsize : unit * extraUnits units included = 0) :
    rawCharge quantity units base unit included = 0 := by
  rw [rawCharge, hbase, hsize, Nat.add_zero, Nat.mul_zero]

/-- R28: the charge is the least whole number of tokens that covers the scaled charge. -/
theorem chargeOf_le_iff {raw rate c : Nat} : chargeOf raw rate ≤ c ↔ raw * rate ≤ c * 100 := by
  unfold chargeOf
  omega

/-- R28: the charge covers the scaled charge. -/
theorem scaled_le_chargeOf_mul (raw rate : Nat) : raw * rate ≤ chargeOf raw rate * 100 := chargeOf_le_iff.1 le_rfl

/-- R28: rounding up adds less than one token. -/
theorem chargeOf_mul_lt_scaled_add (raw rate : Nat) : chargeOf raw rate * 100 < raw * rate + 100 := by
  unfold chargeOf
  omega

/-- R28: a division without remainder is exact. -/
theorem chargeOf_exact {raw rate : Nat} (h : raw * rate % 100 = 0) : chargeOf raw rate * 100 = raw * rate := by
  have := scaled_le_chargeOf_mul raw rate
  have := chargeOf_mul_lt_scaled_add raw rate
  omega

/-- R28: at rate 100, that of a rate-exempt pool, the charge is the raw charge. -/
theorem chargeOf_rate_hundred (raw : Nat) : chargeOf raw 100 = raw :=
  Nat.eq_of_mul_eq_mul_right (by decide) (chargeOf_exact (Nat.mul_mod_left raw 100))

/-- R26, R28: at a positive rate the charge is 0 exactly for a raw charge of 0. -/
theorem chargeOf_eq_zero_iff {raw rate : Nat} (h : 0 < rate) : chargeOf raw rate = 0 ↔ raw = 0 := by
  rw [← Nat.le_zero, chargeOf_le_iff, Nat.zero_mul, Nat.le_zero, Nat.mul_eq_zero, or_iff_left h.ne']

/-- Settles O46: the bounds of each stage follow from those of the stage before, as products of bounds, and those of the last
from `chargeOf_le_iff`. -/
theorem chargeArithmetic : Obligations.ChargeArithmetic := by
  unfold Obligations.ChargeArithmetic
  rintro quantity units base unit included rate - hquantity - hunits hbase hunit - hrate hrate' _ _ _ rfl rfl rfl
  have hextra : extraUnits units included ≤ 1024 := (extraUnits_le_units units included).trans hunits
  have hsize : unit * extraUnits units included ≤ 1023 * 1024 := Nat.mul_le_mul hunit hextra
  have hcost : base + unit * extraUnits units included ≤ 4095 + 1023 * 1024 := Nat.add_le_add hbase hsize
  have hraw : rawCharge quantity units base unit included ≤ 64 * (4095 + 1023 * 1024) := Nat.mul_le_mul hquantity hcost
  have hscaled : rawCharge quantity units base unit included * rate ≤ 67305408 * 400 := Nat.mul_le_mul hraw hrate'
  refine ⟨extraUnits_add_included, extraUnits_eq_zero, hextra, hsize, fun hincluded => ?included, hcost, rfl, hraw,
    rawCharge_eq_zero, hscaled, scaled_le_chargeOf_mul _ _, chargeOf_mul_lt_scaled_add _ _, chargeOf_le_iff.2 hscaled,
    (chargeOf_eq_zero_iff (by omega)).symm, ?exempt, chargeOf_exact⟩
  case included =>
    exact Nat.mul_le_mul hunit ((extraUnits_le_pred hincluded).trans (Nat.sub_le_sub_right hunits 1))
  case exempt =>
    rintro rfl
    exact chargeOf_rate_hundred _

end Charge

/-! ### The conditions -/

section Conditions

variable {p : Params} {e : Pool} {key : Word} {charge reserveInUse : Nat}

/-- R4: a key matches a value under a mask exactly when it agrees with it at every bit that the mask selects. -/
theorem keyMatches_iff {value mask : Word} :
    keyMatches key value mask = true ↔ ∀ i, i < 32 → mask.getLsbD i = true → key.getLsbD i = value.getLsbD i := by
  rw [keyMatches, decide_eq_true_eq, BitVec.eq_of_getLsbD_eq_iff]
  refine forall₂_congr fun i _ => ?_
  rw [BitVec.getLsbD_and, BitVec.getLsbD_xor, BitVec.ofNat_eq_ofNat, BitVec.getLsbD_zero]
  cases mask.getLsbD i <;> simp

/-- R29: the charge ceiling is 65535 tokens. -/
theorem fitsCapacity_iff {capacity : Nat} : fitsCapacity charge capacity = true ↔ charge ≤ 65535 ∧ charge ≤ capacity :=
  decide_eq_true_iff

/-- R32: the shortfall is what the reserve in use leaves of the reserve. -/
theorem shortfall_add {reserve : Nat} (h : reserveInUse ≤ reserve) : shortfall reserve reserveInUse + reserveInUse = reserve :=
  Nat.sub_add_cancel h

/-- R32: a reserve that is all in use has no shortfall. -/
theorem shortfall_eq_zero {reserve : Nat} (h : reserve ≤ reserveInUse) : shortfall reserve reserveInUse = 0 :=
  Nat.sub_eq_zero_of_le h

/-- R33: an insider's limit is the capacity. -/
theorem clientLimit_of_insider (h : p.insider key = true) : clientLimit p reserveInUse key = p.capacity := if_pos h

/-- R33: an outsider's limit leaves the shortfall free. -/
theorem clientLimit_of_outsider (h : ¬ p.insider key = true) :
    clientLimit p reserveInUse key = p.capacity - shortfall p.reserve reserveInUse := if_neg h

/-- R33: no limit passes the capacity. -/
theorem clientLimit_le_capacity : clientLimit p reserveInUse key ≤ p.capacity := by
  by_cases h : p.insider key = true
  · exact (clientLimit_of_insider h).le
  · exact (clientLimit_of_outsider h).trans_le (Nat.sub_le _ _)

/-- R34: in-use and the charge together stay within the limit. -/
theorem tokenCondition_iff : tokenCondition p e key charge = true ↔ e.inUse + charge ≤ clientLimit p e.reserveInUse key :=
  decide_eq_true_iff

/-- R34: a charge that passes the token condition is within the capacity. -/
theorem le_capacity_of_tokenCondition (h : tokenCondition p e key charge = true) : charge ≤ p.capacity :=
  calc charge ≤ e.inUse + charge := Nat.le_add_left _ _
    _ ≤ clientLimit p e.reserveInUse key := tokenCondition_iff.1 h
    _ ≤ p.capacity := clientLimit_le_capacity

/-- R29, R34: on a capacity within the charge ceiling, a charge that passes the token condition fits capacity. -/
theorem fits_of_tokenCondition (hcapacity : p.capacity ≤ 65535) (h : tokenCondition p e key charge = true) :
    charge ≤ 65535 ∧ charge ≤ p.capacity :=
  have hcharge := le_capacity_of_tokenCondition h
  ⟨hcharge.trans hcapacity, hcharge⟩

/-- R35: a seat cap of 0 bounds nothing, any other leaves room for one more lease. -/
theorem seatCondition_iff : seatCondition p e = true ↔ p.seatCap = 0 ∨ e.leaseCount + 1 ≤ p.seatCap := decide_eq_true_iff

end Conditions

/-- Settles O47: insider and outsider are told apart bit by bit (`keyMatches_iff`), and a charge above the capacity fails since no
limit passes the capacity. -/
theorem admissionConditions : Obligations.AdmissionConditions := by
  unfold Obligations.AdmissionConditions
  intro p e key charge
  refine ⟨fitsCapacity_iff, shortfall_add, shortfall_eq_zero, fun hagree => ?insider, ?outsider, tokenCondition_iff, ?unfit,
    (tokenCondition_iff (charge := 0)).2, seatCondition_iff⟩
  case insider => exact clientLimit_of_insider (keyMatches_iff.2 hagree)
  case outsider =>
    rintro ⟨i, hi, hmask, hne⟩
    exact clientLimit_of_outsider fun hinsider => hne (keyMatches_iff.1 hinsider i hi hmask)
  case unfit =>
    intro hcapacity hunfit
    exact Bool.eq_false_iff.2 fun htoken => hunfit (fits_of_tokenCondition hcapacity htoken)

end Sys2Proof.Machine

-- ==== Sys2Proof/Proofs/Moves.lean ====
section
/-! SUPPORT. What a step can do, said once. A step is a run of small moves, of which at most one is an event of the Lease Table, of
the engine state or of the interrupt bits. Each move keeps every invariant, so the invariants are derived from the moves and no
proof of an invariant goes through the 59 commands again. -/

namespace Sys2Proof.Machine

/-- R1: the pool numbers the Wait Unit holds. -/
def WaitUnit.named (w : WaitUnit) : List Nat :=
  w.queues.map Prod.fst ++ w.due ++ w.stall ++ w.parkInbox.map ParkingEvent.home ++ (w.exam.map Examination.pool).toList
    ++ w.commitReports.flatMap (fun r => r.kept ++ r.leaving)

/-- R65: the cells of a table of wait queues, an entry at a time. -/
def waitersIn (qs : Table (List Waiter)) : List Nat := qs.flatMap (fun q => q.2.map Waiter.cell)

/-- The transfers that no invariant of the notice list or of the cells counts. -/
def TransferKind.plain : TransferKind → Bool
  | .fetch _ => false
  | .noticeEntry _ => false
  | .noticeCount _ => false
  | .consumedRead => false
  | .answerArea _ => true
  | .poolField _ => true
  | .statusByte _ => true
  | .imageRead _ => true
  | .ownerRead => true
  | .pageWrite => true
  | .ownerWrite => true

/-- R68: entries leave the wait queues `s` for the queues `qs`: the cells that leave are `cells`, and what stays of a queue stays in
its order. -/
structure Leaves (s qs : Table (List Waiter)) (cells : List Nat) : Prop where
  canonical : Table.canonical [] s = true → Table.canonical [] qs = true
  perm : Table.canonical [] s = true → (waitersIn s).Nodup → (waitersIn s).Perm (cells ++ waitersIn qs)
  sub : ∀ q ∈ qs, ∃ l, (q.1, l) ∈ s ∧ (q.2.map Waiter.cls).Sublist (l.map Waiter.cls)

/-- The moves that change no lease record, no pool entry, no engine state, no base and no interrupt bit. -/
inductive Quiet (s : State) : State → Prop
  | time (tb : TimeBase) : Quiet s { s with tb := tb }
  | meter (mu : MeterUnit)
      (canonical : Table.canonical Meters.atReset s.mu.meters = true → Table.canonical Meters.atReset mu.meters = true) :
      Quiet s { s with mu := mu }
  | schedule (su : ScheduleUnit) (position : s.positionOk = true → State.positionOk { s with su := su } = true)
      (masks : Table.canonical 0 s.su.activeMasks = true → Table.canonical 0 su.activeMasks = true)
      (staged : Table.canonical none s.su.stagedMasks = true → Table.canonical none su.stagedMasks = true)
      (clock : s.su.clockSet = true → su.clockSet = true)
      (frame : s.positionOk = true → s.su.frame.toNat ≤ su.frame.toNat) :
      Quiet s { s with su := su }
  | waitUnit (wu : WaitUnit) (queues : wu.queues = s.wu.queues) (parked : wu.parkInbox = s.wu.parkInbox)
      (stall : rising s.wu.stall = true → rising wu.stall = true) (due : rising s.wu.due = true → rising wu.due = true)
      (named : ∀ p ∈ wu.named, p ∈ s.wu.named ∨ p < 512) :
      Quiet s { s with wu := wu }
  | issue (kind : TransferKind) (addr : HostAddr) (len : Nat) (bytes : List Byte) (dma : s.xi.engine.dma = true)
      (plain : kind.plain = true) : Quiet s (s.issue kind addr len bytes)
  | reread : Quiet s s.rereadConsumed
  | land (tag : Nat) : Quiet s (s.landed tag)
  | writeStage (w : WriteStage) : Quiet s { s with xi.writeStage := w }
  | retireWrite : Quiet s s.retireWrite
  | noticeEntry (dma : s.xi.engine.dma = true) (room : 0 < s.room) (stage : s.xi.noticeStage = .notBegun) :
      Quiet s s.issueNoticeEntry
  | noticeCount {tag i : Nat} {x : Transfer} (found : s.transfer tag = some x) (kind : x.kind = .noticeEntry i)
      (dma : s.xi.engine.dma = true) : Quiet s (s.landed tag).issueNoticeCount
  | noticeCountWaits {tag i : Nat} {x : Transfer} (found : s.transfer tag = some x) (kind : x.kind = .noticeEntry i) :
      Quiet s { s.landed tag with xi.noticeStage := .firstDone }
  | consumed {tag : Nat} {x : Transfer} (found : s.transfer tag = some x) (kind : x.kind = .consumedRead) (value : Word) :
      Quiet s ((s.landed tag).takeConsumed value)
  | meterNotice (waits : s.meterNoticeWaits = false) : Quiet s (s.handNotice .meter)
  | pick {c : Nat} (pending : s.canonical = true → (s.cell c).st = .pending) (dma : s.xi.engine.dma = true)
      (room : s.xi.readAhead.length < 8) : Quiet s (s.pickCell c)
  | fetched {tag c : Nat} {x : Transfer} (found : s.transfer tag = some x) (kind : x.kind = .fetch c) (copy : List Byte) :
      Quiet s ((s.landed tag).setCell c { s.cell c with st := .ready, copy := copy })
  | post (c : Nat) : Quiet s (s.postCell c)
  | decide {c : Nat} {copy : List Byte} {rest : List Nat} (serves : s.Serves c copy rest) (d : Decision) (cell : d.cell = c)
      (pools : ∀ p ∈ d.pools, p < 512) : Quiet s { s.takenFrom c rest with decision := some d }
  | answer {c : Nat} {copy : List Byte} {rest : List Nat} (serves : s.Serves c copy rest) (a : Answer) :
      Quiet s ((s.takenFrom c rest).handAnswer c a)
  | redecide {d : Decision} (hand : s.decision = some d) (d' : Decision) (cell : d'.cell = d.cell)
      (pools : ∀ p ∈ d'.pools, p ∈ d.pools ∨ p < 512 ∨ p ∈ s.lt.leases.map (fun e => e.2.pool)) :
      Quiet s { s with decision := some d' }
  | answerHand {d : Decision} (hand : s.decision = some d) (a : Answer) :
      Quiet s (State.handAnswer { s with decision := none } d.cell a)
  | park {d : DrawDecision} (hand : s.decision = some (.draw d)) {home : Nat} (named : home ∈ d.stage.pools) :
      Quiet s (s.handParking d home)
  | place {e : ParkingEvent} {rest : List ParkingEvent} (front : s.wu.parkInbox = e :: rest) :
      Quiet s (State.placeParked { s with wu.parkInbox := rest } e)
  | refuseParking {e : ParkingEvent} {rest : List ParkingEvent} (front : s.wu.parkInbox = e :: rest) (a : Answer) :
      Quiet s (State.handAnswer { s with wu.parkInbox := rest } e.waiter.cell a)
  | dequeue (qs : Table (List Waiter)) (as : List (Nat × Answer)) (leaves : Leaves s.wu.queues qs (as.map Prod.fst)) :
      Quiet s (State.handAnswers { s with wu.queues := qs } as)
  | progress {im im' : ImageRead} (reading : s.install = .reading im) (cell : im'.cell = im.cell) :
      Quiet s { s with install := .reading im' }
  | startInstall {c : Nat} {copy : List Byte} {rest : List Nat} (serves : s.Serves c copy rest) (free : s.install = .idle)
      (im : ImageRead) (cell : im.cell = c) :
      Quiet s { (s.takenFrom c rest).setCellState c .working with install := .reading im }
  | endInstall {c : Nat} (cells : s.install.cells = [c]) (a : Answer) : Quiet s (s.endInstall c a)
  | stage {im im' : ImageRead} (reading : s.install = .reading im) (cell : im'.cell = im.cell)
      (passed : im'.imageFailure s.et.floor = none) :
      Quiet s { s with install := .committing im' im'.stagedPools im'.header none }

/-- A run of quiet moves. -/
abbrev Calm : State → State → Prop := Relation.ReflTransGen Quiet

/-- R159, R160, R168: the moves of the CONTROL writes. -/
inductive Control (s : State) : State → Prop
  | request (enable : Bool) (target : EngineState) (dma : target.dma = true) :
      Control s ((s.takeEnable enable).requestDmaState target)
  | requestStill (enable : Bool) : Control s (s.takeEnable enable).requestStillState
  | enable (enable : Bool) : Control s (s.takeEnable enable)

/-- R159: the moves that change the engine state, with which a step begins: those of the CONTROL writes, and a DMA error (R169). -/
inductive Abrupt (s : State) : State → Prop
  | control {t : State} (h : Control s t) : Abrupt s t
  | fail {tag : Nat} {x : Transfer} (found : s.transfer tag = some x) : Abrupt s (s.failTransfer x)

/-- The other moves that change a lease record, a pool entry, the base or an interrupt bit. -/
inductive Event (s : State) : State → Prop
  | clearCauses (value : Word) : Event s (s.clearCauses value)
  | baseLo (value : Word) : Event s (s.writeBaseLo value)
  | baseHi (value : Word) : Event s (s.writeBaseHi value)
  | notice {tag i : Nat} {x : Transfer} (found : s.transfer tag = some x) (kind : x.kind = .noticeCount i) :
      Event s (s.landed tag).noticeWrittenEvent
  | reload {i : Nat} (below : i < 4096) (held : (s.lease i).st = .held) (period : Nat) :
      Event s (s.setLease i ((s.lease i).reload period))
  | returns (skip : Bool) (chosen : Nat → Lease → Bool) 
      (held : s.canonical = true → ∀ i l, (i, l) ∈ s.lt.leases → chosen i l = true → l.st = .held) :
      Event s (s.returnRecords skip chosen)
  | grant {p charge i : Nat} {key : Word} (feature period : Nat) (passes : s.grantVerdict p key charge = none)
      (lowest : s.lowestFree = some i) (named : p ∈ (s.decision.map Decision.pools).getD [] ∨ p ∈ s.wu.named) :
      Event s (s.makeLease p key feature charge period i)
  | revive {i : Nat} (lingering : (s.lease i).st = .lingering) (period : Nat) :
      Event s (s.setLease i { s.lease i with st := .held, period := period, counter := period })
  | age : Event s s.ageLeases
  | clear : Event s s.clearLeases
  | commit {im : ImageRead} {staged : Table (Option StagedPool)} {header : HeaderContent}
      (committing : s.install = .committing im staged header none) : Event s (s.commit im staged header)

/-- At most one move of a kind between two runs of quiet moves. -/
def Around (e : State → State → Prop) (s t : State) : Prop := ∃ u v, Calm s u ∧ (v = u ∨ e u v) ∧ Calm v t

/-- At most one event between two runs of quiet moves. -/
abbrev Turn (s t : State) : Prop := Around Event s t

end Sys2Proof.Machine
end

