-- ==== Sys2Proof/Proofs/Frames.lean ====
section
/-! SUPPORT. What the folded operations leave unchanged and what they do not depend on. -/

namespace Sys2Proof.Machine

variable {s t : State}

/-! ### Answers handed one after another -/

/-- R164: handing answers changes the Exchange Interface only. -/
theorem handAnswers_eq (s : State) (as : List (Nat × Answer)) : s.handAnswers as = { s with xi := (s.handAnswers as).xi } :=
  (handAnswers_answered s as).2.2

/-- R164: handing answers changes the write list and the cells only. -/
theorem handAnswers_frame (s : State) (as : List (Nat × Answer)) : s.handAnswers as = { s with
    xi.writeList := (s.handAnswers as).xi.writeList, xi.cells := (s.handAnswers as).xi.cells } := by
  induction as generalizing s with
  | nil => rfl
  | cons a as ih =>
    rw [show s.handAnswers (a :: as) = (s.handAnswer a.1 a.2).handAnswers as from rfl, ih]
    rfl

/-- R164: what handing answers makes of the Exchange Interface depends on it alone. -/
theorem handAnswers_xi_congr (as : List (Nat × Answer)) (h : t.xi = s.xi) : (t.handAnswers as).xi = (s.handAnswers as).xi := by
  induction as generalizing s t with
  | nil => exact h
  | cons a as ih =>
    apply ih
    simp only [State.handAnswer, State.cell, h]

/-- R164: answers may be handed before or after the blocks other than the Exchange Interface change. -/
theorem handAnswers_of_xi (as : List (Nat × Answer)) (h : t.xi = s.xi) : t.handAnswers as = { t with xi := (s.handAnswers as).xi } := by
  rw [handAnswers_eq, handAnswers_xi_congr as h]

theorem handAnswers_append (s : State) (as bs : List (Nat × Answer)) :
    s.handAnswers (as ++ bs) = (s.handAnswers as).handAnswers bs := List.foldl_append

/-! ### The free event -/

/-- R18: the free event reads and changes the Entitlement Table, the Schedule Unit and the Wait Unit only. -/
theorem freeEvent_congr (ls : List Lease) (het : t.et = s.et) (hsu : t.su = s.su) (hwu : t.wu = s.wu) :
    t.freeEvent ls = { t with et := (s.freeEvent ls).et, su := (s.freeEvent ls).su, wu := (s.freeEvent ls).wu } := by
  have lower : ∀ (ls : List Lease) (s t : State), t.et = s.et → ls.foldl State.lowerCounters t =
      { t with et := (ls.foldl State.lowerCounters s).et } ∧ (ls.foldl State.lowerCounters s).su = s.su ∧
        (ls.foldl State.lowerCounters s).wu = s.wu := by
    intro ls
    induction ls with
    | nil => exact fun s t h => ⟨by rw [List.foldl_nil, List.foldl_nil, ← h], rfl, rfl⟩
    | cons l ls ih =>
      intro s t h
      obtain ⟨h1, h2, h3⟩ := ih (s.lowerCounters l) (t.lowerCounters l)
        (by simp only [State.lowerCounters, State.setPool, State.pool, h])
      exact ⟨h1, h2, h3⟩
  have settle : ∀ (ps : List Nat) (s t : State), t.et = s.et → t.su = s.su → ps.foldl State.settlePool t =
      { t with et := (ps.foldl State.settlePool s).et, su := (ps.foldl State.settlePool s).su } ∧
        (ps.foldl State.settlePool s).wu = s.wu := by
    intro ps
    induction ps with
    | nil => exact fun s t h1 h2 => ⟨by rw [List.foldl_nil, List.foldl_nil, ← h1, ← h2], rfl⟩
    | cons p ps ih =>
      intro s t h1 h2
      have hp : t.settlePool p = { t with et := (s.settlePool p).et, su := (s.settlePool p).su } ∧ (s.settlePool p).wu = s.wu := by
        obtain ⟨_, _, _, xi, d, et, lt, wu, tb, su, ins, mu⟩ := t
        simp only at h1 h2
        subst h1 h2
        unfold State.settlePool State.params State.pool
        cases (Table.get Pool.atReset s.et.pools p).st with
        | absent => exact ⟨rfl, rfl⟩
        | active => exact ⟨rfl, rfl⟩
        | draining => simp only; split_ifs <;> exact ⟨rfl, rfl⟩
        | retiring => simp only; split_ifs <;> exact ⟨rfl, rfl⟩
      obtain ⟨i1, i2⟩ := ih (s.settlePool p) (t.settlePool p) (by rw [hp.1]) (by rw [hp.1])
      rw [List.foldl_cons, List.foldl_cons]
      refine ⟨?_, i2.trans hp.2⟩
      rw [i1, hp.1]
  obtain ⟨l1, l2, l3⟩ := lower ls s t het
  obtain ⟨m1, m2⟩ := settle (ls.map Lease.pool) (ls.foldl State.lowerCounters s) (ls.foldl State.lowerCounters t)
    (by rw [l1]) (by rw [l1, l2]; exact hsu)
  unfold State.freeEvent
  simp only
  rw [m1, l1]
  simp only [State.makeDue, m2, l3, hwu]

/-- R18: the free event changes the Entitlement Table, the Schedule Unit and the due set only. -/
theorem freeEvent_eq (s : State) (ls : List Lease) :
    s.freeEvent ls = { s with et := (s.freeEvent ls).et, su := (s.freeEvent ls).su, wu := (s.freeEvent ls).wu } :=
  freeEvent_congr ls rfl rfl rfl

/-- R102: the records a return frees are freed in the same three blocks. -/
theorem freeReturned_congr (freed : List Lease) (het : t.et = s.et) (hsu : t.su = s.su) (hwu : t.wu = s.wu) :
    t.freeReturned freed =
      { t with et := (s.freeReturned freed).et, su := (s.freeReturned freed).su, wu := (s.freeReturned freed).wu } := by
  unfold State.freeReturned
  split_ifs
  · rw [← het, ← hsu, ← hwu]
  · rw [freeEvent_congr freed het hsu hwu]
    rfl

theorem freeReturned_lt (s : State) (freed : List Lease) : (s.freeReturned freed).lt = s.lt := by
  rw [freeReturned_congr freed rfl rfl rfl]

/-- R102, R104: a return reads and changes the Entitlement Table, the Lease Table, the Schedule Unit and the Wait Unit only. -/
theorem returnRecords_congr (skip : Bool) (chosen : Nat → Lease → Bool) (het : t.et = s.et) (hlt : t.lt = s.lt) (hsu : t.su = s.su)
    (hwu : t.wu = s.wu) :
    t.returnRecords skip chosen = { t with
      et := (s.returnRecords skip chosen).et
      lt := (s.returnRecords skip chosen).lt
      su := (s.returnRecords skip chosen).su
      wu := (s.returnRecords skip chosen).wu } := by
  have hlease : t.returnedLease skip = s.returnedLease skip := by
    funext l
    rw [State.returnedLease, State.returnedLease, State.params_congr het]
  have hfreed : t.freedByReturn skip = s.freedByReturn skip := by
    funext l
    rw [State.freedByReturn, State.freedByReturn, State.params_congr het]
  unfold State.returnRecords
  rw [hlease, hfreed, hlt, freeReturned_lt]
  exact freeReturned_congr _ het hsu hwu

end Sys2Proof.Machine
end

