-- ==== Sys2Proof/Proofs/TableFacts.lean ====
section
/-! SUPPORT. A sparse table as a multiset of its entries: what a write, a change of every entry and a selection make of it. -/

namespace Sys2Proof.Machine

section General

variable {α : Type} {d : α}

/-- A number that does not read as unlisted is listed. -/
theorem Table.mem_of_get_ne {t : Table α} {i : Nat} (h : Table.get d t i ≠ d) : (i, Table.get d t i) ∈ t := by
  induction t with
  | nil => exact absurd rfl h
  | cons e t ih =>
    obtain ⟨k, v⟩ := e
    by_cases hk : k = i
    · subst hk
      simp [Table.get]
    · simp only [Table.get, if_neg hk] at h ⊢
      exact List.mem_cons_of_mem _ (ih h)

theorem Table.mem_erase {t : Table α} {i : Nat} {e : Nat × α} : e ∈ Table.erase i t ↔ e ∈ t ∧ e.1 ≠ i := by
  simp [Table.erase]

/-- Putting an entry adds it to the entries of the other numbers. -/
theorem Table.put_perm (i : Nat) (v : α) {t : Table α} (h : (t.map Prod.fst).Pairwise (· < ·)) :
    (Table.put i v t).Perm ((i, v) :: Table.erase i t) := by
  induction t with
  | nil => exact .refl _
  | cons e t ih =>
    obtain ⟨k, w⟩ := e
    obtain ⟨hk, ht⟩ := List.pairwise_cons.1 h
    have keep : ∀ j, (∀ a ∈ t.map Prod.fst, a ≠ j) → Table.erase j t = t := by
      intro j hj
      exact List.filter_eq_self.2 fun e he => decide_eq_true (hj _ (List.mem_map.2 ⟨e, he, rfl⟩))
    unfold Table.put
    split_ifs with h1 h2
    · have hi : Table.erase i ((k, w) :: t) = (k, w) :: t := by
        refine List.filter_eq_self.2 fun e he => decide_eq_true ?_
        rcases List.mem_cons.1 he with rfl | he
        · exact h1.ne'
        · exact (h1.trans (hk _ (List.mem_map.2 ⟨e, he, rfl⟩))).ne'
      rw [hi]
    · subst h2
      have hi : Table.erase i ((i, w) :: t) = t := by
        rw [← keep i fun a ha => (hk a ha).ne']
        simp [Table.erase]
      rw [hi]
    · have hi : Table.erase i ((k, w) :: t) = (k, w) :: Table.erase i t := by simp [Table.erase, Ne.symm h2]
      rw [hi]
      exact ((ih ht).cons _).trans (.swap _ _ _)

variable [DecidableEq α]

/-- A canonical table is what it reads at a number together with the entries of the other numbers. -/
theorem Table.perm_of_get_ne {t : Table α} (h : Table.canonical d t = true) {i : Nat} (hi : Table.get d t i ≠ d) :
    t.Perm ((i, Table.get d t i) :: Table.erase i t) := by
  have hr := ((Table.canonical_iff d t).1 h).1
  have hput : Table.put i (Table.get d t i) t = t := by
    clear hr
    have hm := Table.mem_of_get_ne hi
    generalize Table.get d t i = v at hm
    have hr := ((Table.canonical_iff d t).1 h).1
    clear h hi
    induction t with
    | nil => cases hm
    | cons e t ih =>
      obtain ⟨k, w⟩ := e
      obtain ⟨hk, ht⟩ := List.pairwise_cons.1 hr
      rcases List.mem_cons.1 hm with he | he
      · cases he
        simp [Table.put]
      · have hlt : k < i := hk i (List.mem_map.2 ⟨_, he, rfl⟩)
        simp [Table.put, hlt.not_gt, hlt.ne', ih he ht]
  conv_lhs => rw [← hput]
  exact Table.put_perm i _ hr

/-- A number that reads as unlisted has no entry in a canonical table. -/
theorem Table.erase_of_get_eq {t : Table α} (h : Table.canonical d t = true) {i : Nat} (hi : Table.get d t i = d) :
    Table.erase i t = t := by
  refine List.filter_eq_self.2 fun e he => decide_eq_true fun hk => ?_
  subst hk
  exact ((Table.canonical_iff d t).1 h).2 e he ((Table.get_of_mem d h he).symm.trans hi)

/-- What a table lists with a function that gives nothing for the unlisted value: the part of one number and the rest. -/
theorem Table.flatMap_perm {β : Type} (f : Nat → α → List β) (hf : ∀ i, f i d = []) {t : Table α} (h : Table.canonical d t = true)
    (i : Nat) :
    (t.flatMap fun e => f e.1 e.2).Perm (f i (Table.get d t i) ++ (Table.erase i t).flatMap fun e => f e.1 e.2) := by
  by_cases hi : Table.get d t i = d
  · rw [Table.erase_of_get_eq h hi, hi, hf, List.nil_append]
  · exact (Table.perm_of_get_ne h hi).flatMap_right _

/-- The same after a write: the part of the number written is that of the value. -/
theorem Table.flatMap_set_perm {β : Type} (f : Nat → α → List β) (hf : ∀ i, f i d = []) {t : Table α}
    (h : Table.canonical d t = true) (i : Nat) (v : α) :
    ((Table.set d t i v).flatMap fun e => f e.1 e.2).Perm (f i v ++ (Table.erase i t).flatMap fun e => f e.1 e.2) := by
  unfold Table.set
  split_ifs with hv
  · rw [hv, hf, List.nil_append]
  · exact (Table.put_perm i v ((Table.canonical_iff d t).1 h).1).flatMap_right _

/-- What a changed table lists, entry by entry. -/
theorem Table.flatMap_mapEntries {β : Type} (g : α → List β) (hg : g d = []) (f : Nat → α → α) (t : Table α) :
    (Table.mapEntries d f t).flatMap (fun e => g e.2) = t.flatMap fun e => g (f e.1 e.2) := by
  induction t with
  | nil => rfl
  | cons e t ih =>
    unfold Table.mapEntries at ih ⊢
    by_cases he : f e.1 e.2 = d
    · rw [List.filterMap_cons_none (by simp [he]), ih, List.flatMap_cons, he, hg, List.nil_append]
    · simp only [List.filterMap_cons, if_neg he, List.flatMap_cons, ih]

theorem Table.mem_set {t : Table α} {i : Nat} {v : α} {e : Nat × α} (h : e ∈ Table.set d t i v) :
    (e = (i, v) ∧ v ≠ d) ∨ e ∈ t := by
  unfold Table.set at h
  split_ifs at h with hv
  · exact .inr (Table.mem_erase.1 h).1
  · exact (Table.put_values i v t e h).imp_left fun he => ⟨he, hv⟩

end General

end Sys2Proof.Machine
end

