-- ==== Sys2Proof/Proofs/WaitMoves.lean ====
section
/-! SUPPORT. The events of the Wait Unit as runs of quiet moves (R66, R70 to R75, R78 to R81, R84). -/

namespace Sys2Proof.Machine

variable {s t : State}

/-! ### What leaves the queues -/

/-- R68: an entry of a queue is listed. -/
theorem queue_mem {p : Nat} {w : Waiter} (h : w ∈ s.queue p) : (p, s.queue p) ∈ s.wu.queues :=
  Table.mem_of_get_ne fun hn : s.queue p = [] => List.not_mem_nil (hn ▸ h)

/-- R68: entries leave the queue of one pool. -/
theorem leaves_setQueue (s : State) (p : Nat) (kept : List Waiter) (cells : List Nat)
    (hperm : Table.canonical [] s.wu.queues = true → ((s.queue p).map Waiter.cell).Nodup →
      ((s.queue p).map Waiter.cell).Perm (cells ++ kept.map Waiter.cell)) (hsub : kept.Sublist (s.queue p)) :
    Leaves s.wu.queues (Table.set [] s.wu.queues p kept) cells where
  canonical := Table.canonical_set _ _ _ _
  perm hc hnodup := by
    have h1 := Table.flatMap_perm (fun _ (l : List Waiter) => l.map Waiter.cell) (fun _ => rfl) hc p
    have h2 := Table.flatMap_set_perm (fun _ (l : List Waiter) => l.map Waiter.cell) (fun _ => rfl) hc p kept
    refine h1.trans (.trans ?_ (h2.symm.append_left cells))
    rw [← List.append_assoc]
    exact (hperm hc (List.nodup_append.1 (h1.nodup_iff.1 hnodup)).1).append_right _
  sub q hq := by
    rcases Table.mem_set hq with ⟨rfl, hne⟩ | hq
    · obtain ⟨w, hw⟩ := List.exists_mem_of_ne_nil _ hne
      exact ⟨s.queue p, queue_mem (hsub.subset hw), hsub.map _⟩
    · exact ⟨q.2, hq, .refl _⟩

/-- R84: every entry leaves. -/
theorem leaves_all (qs : Table (List Waiter)) : Leaves qs [] (waitersIn qs) where
  canonical _ := rfl
  perm _ _ := by rw [show waitersIn [] = [] from rfl, List.append_nil]
  sub q hq := absurd hq List.not_mem_nil

theorem insertByKey_perm {α : Type} (key : α → Nat) (x : α) (l : List α) : (insertByKey key x l).Perm (x :: l) := by
  induction l with
  | nil => exact .refl _
  | cons y l ih =>
    unfold insertByKey
    split_ifs
    · exact .refl _
    · exact (ih.cons y).trans (.swap _ _ _)

/-- Sorting permutes. -/
theorem sortByKey_perm {α : Type} (key : α → Nat) (l : List α) : (sortByKey key l).Perm l := by
  have h : ∀ acc : List α, (l.foldl (fun acc x => insertByKey key x acc) acc).Perm (acc ++ l) := by
    induction l with
    | nil => exact fun acc => by rw [List.append_nil]; exact .refl _
    | cons x l ih =>
      intro acc
      refine (ih _).trans (((insertByKey_perm key x acc).append_right l).trans ?_)
      exact List.perm_middle.symm
  exact h []

/-- R79: what a tick that counts leaves of a queue. -/
def countedQueue (q : List Waiter) : List Waiter := (q.filter fun w => !w.expiring).map Waiter.counted

/-- R80: the entries that expire leave. -/
theorem leaves_expire (s : State) :
    Leaves s.wu.queues (Table.mapEntries [] (fun _ q => countedQueue q) s.wu.queues)
      (s.expiringWaiters.map fun e => e.2.cell) where
  canonical := Table.canonical_mapEntries _ _ _
  perm _ _ := by
    have hcounted : waitersIn (Table.mapEntries [] (fun _ q => countedQueue q) s.wu.queues) =
        s.wu.queues.flatMap fun q => (q.2.filter fun w => !w.expiring).map Waiter.cell := by
      unfold waitersIn
      rw [Table.flatMap_mapEntries (fun l : List Waiter => l.map Waiter.cell) rfl]
      simp only [countedQueue, List.map_map]
      rfl
    have hexpired : (s.expiringWaiters.map fun e => e.2.cell).Perm
        (s.wu.queues.flatMap fun q => (q.2.filter Waiter.expiring).map Waiter.cell) := by
      refine ((sortByKey_perm _ _).map _).trans ?_
      rw [List.map_flatMap]
      simp only [List.map_map]
      exact .refl _
    rw [hcounted]
    refine .trans ?_ (hexpired.symm.append_right _)
    refine .trans ?_ (List.flatMap_append_perm _ _ _).symm
    refine List.Perm.flatMap_left _ fun q _ => ?_
    rw [← List.map_append]
    exact (List.filter_append_perm _ _).symm.map _
  sub q hq := by
    obtain ⟨-, l, hl, he⟩ := (Table.mem_mapEntries _ _ _ q.1 q.2).1 hq
    refine ⟨l, hl, ?_⟩
    rw [← he, countedQueue, List.map_map]
    exact List.filter_sublist.map Waiter.cls

/-- R68: a flush reads and changes the Exchange Interface and the wait queues only. -/
theorem flushQueue_congr (p : Nat) (r : Result) (hxi : t.xi = s.xi) (hq : t.wu.queues = s.wu.queues) :
    t.flushQueue p r = { t with xi := (s.flushQueue p r).xi, wu.queues := (s.flushQueue p r).wu.queues } := by
  have hs := handAnswers_of_xi (s := s) (t := s.setQueue p []) ((s.queue p).map fun w => (w.cell, plainAnswer r (poolField p))) rfl
  have ht := handAnswers_of_xi (s := s) (t := t.setQueue p []) ((s.queue p).map fun w => (w.cell, plainAnswer r (poolField p))) hxi
  rw [flushQueue_eq, flushQueue_eq, State.queue_congr hq, hs, ht]
  simp only [State.setQueue, hq]

/-! ### Runs of moves -/

/-- The Wait Unit's own parts move with no pool named anew. -/
theorem Calm.waitUnit (s : State) (wu : WaitUnit) (queues : wu.queues = s.wu.queues) (parked : wu.parkInbox = s.wu.parkInbox)
    (stall : rising s.wu.stall = true → rising wu.stall = true) (due : rising s.wu.due = true → rising wu.due = true)
    (named : ∀ p ∈ wu.named, p ∈ s.wu.named ∨ p < 512) : Calm s { s with wu := wu } :=
  .single (.waitUnit wu queues parked stall due named)

theorem Calm.counts (s : State) (cs : List MeterCount) : Calm s (s.handCounts cs) := .single (.meter _ id)

theorem Calm.time (s : State) (tb : TimeBase) : Calm s { s with tb := tb } := .single (.time tb)

theorem Calm.land (s : State) (tag : Nat) : Calm s (s.landed tag) := .single (.land tag)

theorem Calm.reread (s : State) : Calm s s.rereadConsumed := .single .reread

/-- R69: pools the Wait Unit names become due. -/
theorem Calm.makeDue (s : State) (ps : List Nat) (named : ∀ p ∈ ps, p ∈ s.wu.named ∨ p < 512) : Calm s (s.makeDue ps) := by
  refine Calm.waitUnit s _ rfl rfl id (rising_addNumbers _ _) fun p hp => ?_
  simp only [WaitUnit.named, List.mem_append, mem_addNumbers] at hp
  have := named p
  simp only [WaitUnit.named, List.mem_append] at this ⊢
  tauto

/-- R76: the report of a FREE record names stalled pools. -/
theorem Calm.reportRecordFree (s : State) : Calm s s.reportRecordFree :=
  Calm.makeDue s _ fun p hp => .inl (by simp only [WaitUnit.named, List.mem_append]; tauto)

/-- R68: entries leave and are answered. -/
theorem Calm.flush (s : State) (p : Nat) (r : Result) : Calm s (s.flushQueue p r) := by
  rw [flushQueue_eq]
  refine .single (.dequeue _ _ (leaves_setQueue s p [] _ (fun _ _ => ?_) (List.nil_sublist _)))
  rw [List.map_nil, List.append_nil, List.map_map]
  exact .refl _

/-- R70: the end of an examination names no pool anew. -/
theorem named_endExam {p q : Nat} {stalled : Bool} (hp : stalled = true → p ∈ s.wu.named)
    (h : q ∈ WaitUnit.named { (s.setStall p stalled).wu with exam := none, heldTicks := 0 }) : q ∈ s.wu.named := by
  cases stalled <;> simp only [State.setStall, WaitUnit.named, List.mem_append, mem_addNumber, List.mem_filter, if_true, if_false,
    Bool.false_eq_true, true_imp_iff, Option.map_none, Option.toList_none, List.not_mem_nil] at h hp ⊢
  · tauto
  · rcases h with (((((h | h) | rfl | h) | h) | h) | h) <;> tauto

theorem rising_setStall (p : Nat) (set : Bool) (h : rising s.wu.stall = true) : rising (s.setStall p set).wu.stall = true := by
  cases set
  · simp only [rising, decide_eq_true_eq] at h
    exact decide_eq_true (h.filter _)
  · exact rising_addNumber _ _ h

/-- R80: the answers of the entries that expire. -/
def State.expiredAnswers (s : State) : List (Nat × Answer) :=
  s.expiringWaiters.map fun e => (e.2.cell, plainAnswer .waitExpired (poolField e.1))

/-- R79, R80: a tick that counts deadlines, block by block. -/
theorem countDeadlines_eq (s : State) :
    s.countDeadlines = { s with
      xi := (s.handAnswers s.expiredAnswers).xi
      wu.queues := Table.mapEntries [] (fun _ q => countedQueue q) s.wu.queues
      wu.due := addNumbers s.expiringHeads s.wu.due
      mu.inbox := s.mu.inbox ++ s.expiringWaiters.map fun e => .raise .waitExpiries e.1 } := by
  have hxi := handAnswers_of_xi (s := s)
    (t := { s with wu.queues := Table.mapEntries [] (fun _ q => countedQueue q) s.wu.queues }) s.expiredAnswers rfl
  unfold State.countDeadlines
  simp only [expireAll_eq]
  exact congrArg (fun u : State => State.makeDue { u with mu := _ } _) hxi

/-- R79, R80: a tick that counts deadlines. -/
theorem countDeadlines_calm (s : State) : Calm s s.countDeadlines := by
  have heads : Calm s (s.makeDue s.expiringHeads) := Calm.makeDue s _ fun p hp => by
    obtain ⟨q, hq, rfl⟩ := List.mem_map.1 hp
    have : q.1 ∈ s.wu.queues.map Prod.fst := List.mem_map.2 ⟨q, List.mem_of_mem_filter hq, rfl⟩
    simp only [WaitUnit.named, List.mem_append]
    tauto
  obtain ⟨u, hu⟩ : ∃ u, u = State.handAnswers
      { s.makeDue s.expiringHeads with wu.queues := Table.mapEntries [] (fun _ q => countedQueue q) s.wu.queues }
      s.expiredAnswers := ⟨_, rfl⟩
  have hleaves : Calm (s.makeDue s.expiringHeads) u :=
    hu ▸ .single (.dequeue _ _ (by rw [State.expiredAnswers, List.map_map]; exact leaves_expire s))
  have hmove : s.countDeadlines = u.handCounts (s.expiringWaiters.map fun e => .raise .waitExpiries e.1) := by
    rw [countDeadlines_eq, hu.trans (handAnswers_of_xi (s := s) _ rfl)]
    rfl
  rw [hmove]
  exact (heads.trans hleaves).trans (Calm.counts u _)

/-- R79: a housekeeping tick at the Wait Unit. -/
theorem waitTick_calm (s : State) : Calm s s.waitTick := by
  unfold State.waitTick
  split_ifs
  · exact countDeadlines_calm s
  · exact .refl

theorem waitTicks_calm (n : Nat) (s : State) : Calm s (State.waitTicks n s) := by
  induction n generalizing s with
  | zero => exact .refl
  | succ n ih => exact (waitTick_calm s).trans (ih _)

theorem tickWaitUnit_calm (s : State) : Calm s s.tickWaitUnit := by
  unfold State.tickWaitUnit
  split
  · exact waitTick_calm s
  · exact Calm.waitUnit s _ rfl rfl id id fun p hp => .inl hp

/-! ### Examinations -/

/-- R70, R75: the end of an examination. -/
theorem endExam_calm (s : State) (p : Nat) (stalled : Bool) (hp : stalled = true → p ∈ s.wu.named) : Calm s (s.endExam p stalled) :=
  (Calm.waitUnit s { (s.setStall p stalled).wu with exam := none, heldTicks := 0 } rfl rfl (rising_setStall p stalled) id
    fun _ hq => .inl (named_endExam hp hq)).trans (waitTicks_calm _ _)

theorem endExam_calm_clear (s : State) (p : Nat) : Calm s (s.endExam p false) := endExam_calm s p false nofun

theorem exam_named {e : Examination} (h : s.wu.exam = some e) : e.pool ∈ s.wu.named := by
  simp [WaitUnit.named, h]

/-- R71 to R74: the examination moves on for a pool that is named. -/
theorem examAt_calm (s : State) (p : Nat) (stage : ExamStage) (hp : p ∈ s.wu.named) : Calm s (s.examAt p stage) :=
  Calm.waitUnit s _ rfl rfl id id fun q hq => .inl (by
    simp only [WaitUnit.named, List.mem_append, Option.map_some, Option.toList_some, List.mem_singleton] at hq hp ⊢
    rcases hq with (((((h | h) | h) | h) | rfl) | h) <;> tauto)

/-- R68: the head of a queue leaves with an answer. -/
theorem answerHead_calm (s : State) (p : Nat) (w : Waiter) (rest : List Waiter) (a : Answer) (h : s.queue p = w :: rest) :
    Calm s ((s.setQueue p rest).handAnswer w.cell a) :=
  .single (.dequeue (Table.set [] s.wu.queues p rest) [(w.cell, a)]
    (leaves_setQueue s p rest _ (fun _ _ => by rw [h]; exact .refl _) (h ▸ List.sublist_cons_self w rest)))

/-- R71 to R75: one step of an examination. -/
theorem examStep_calm (s : State) : Calm s s.examStep := by
  unfold State.examStep
  split
  · exact .refl
  · rename_i e he
    have hp := exam_named he
    cases e.stage with
    | granting charge => exact .refl
    | poolState =>
      simp only [State.examPoolState]
      split_ifs
      · exact examAt_calm s _ _ hp
      · exact (Calm.flush s _ _).trans (endExam_calm_clear _ _)
    | validity =>
      simp only [State.examValidity, State.examFlushExpired]
      split_ifs
      · exact endExam_calm_clear _ _
      · exact ((Calm.flush s _ _).trans (Calm.counts _ _)).trans (endExam_calm_clear _ _)
      · exact endExam_calm_clear _ _
      · exact examAt_calm s _ _ hp
    | head =>
      simp only [State.examHead]
      split
      · exact endExam_calm_clear _ _
      · rename_i w rest hq
        split_ifs
        · exact endExam_calm_clear _ _
        · exact (answerHead_calm s _ w rest _ hq).trans (Calm.counts _ _)
        · exact examAt_calm s _ _ hp
        · exact endExam_calm_clear _ _

theorem examSteps_calm (n : Nat) (s : State) : Calm s (State.examSteps n s) := by
  induction n generalizing s with
  | zero => exact .refl
  | succ n ih => exact (examStep_calm s).trans (ih _)

/-- R70: an examination begins with a due pool. -/
theorem beginExam_calm (s : State) : Calm s s.beginExam := by
  unfold State.beginExam
  split
  · rename_i p rest hexam hdue
    refine Calm.waitUnit s _ rfl rfl id (fun h => ?_) fun q hq => .inl ?_
    · simp only [rising, decide_eq_true_eq, hdue] at h
      exact decide_eq_true (List.pairwise_cons.1 h).2
    · simp only [WaitUnit.named, List.mem_append, Option.map_some, Option.toList_some, hdue, List.mem_cons, List.not_mem_nil,
        or_false] at hq ⊢
      tauto
  · exact .refl
  · exact .refl

/-! ### Parking, commit reports and withdrawals -/

/-- R60, R66: a parking event is taken. -/
theorem takeParking_calm (s : State) (e : ParkingEvent) (rest : List ParkingEvent) (h : s.wu.parkInbox = e :: rest) :
    Calm s (State.takeParking { s with wu.parkInbox := rest } e) := by
  unfold State.takeParking
  split_ifs
  · exact .single (.place h)
  · exact .single (.refuseParking h _)

/-- R78: a leaving pool's queue and mark are cleared. -/
theorem retireQueue_calm (s : State) (p : Nat) : Calm s (s.retireQueue p) := by
  refine (Calm.flush s p .poolRetired).trans (Calm.waitUnit _ _ rfl rfl (rising_setStall p false) id fun q hq => .inl ?_)
  simp only [WaitUnit.named, List.mem_append, List.mem_filter, Bool.false_eq_true, if_false] at hq ⊢
  tauto

theorem retireQueues_calm (ps : List Nat) (s : State) : Calm s (ps.foldl State.retireQueue s) := by
  induction ps generalizing s with
  | nil => exact .refl
  | cons p ps ih => exact (retireQueue_calm s p).trans (ih _)

/-- R78: which pools are due plays no part in the flush of the leaving pools. -/
theorem retireQueues_due (ps : List Nat) (s : State) (due : List Nat) :
    ps.foldl State.retireQueue { s with wu.due := due } =
      { ps.foldl State.retireQueue s with wu := { (ps.foldl State.retireQueue s).wu with due := due } } := by
  induction ps generalizing s with
  | nil => rfl
  | cons p ps ih =>
    have hone : State.retireQueue { s with wu.due := due } p = { s.retireQueue p with wu.due := due } := by
      have hflush := flushQueue_congr (s := s) (t := { s with wu.due := due }) p .poolRetired rfl rfl
      unfold State.retireQueue
      rw [hflush, flushQueue_congr (t := s) p .poolRetired rfl rfl]
      rfl
    rw [List.foldl_cons, hone, ih]
    rfl

theorem retireQueues_wu_due (ps : List Nat) (s : State) : (ps.foldl State.retireQueue s).wu.due = s.wu.due := by
  rw [show s = { s with wu.due := s.wu.due } from rfl, retireQueues_due]

/-- R78: a commit report is taken: its pools become due, and the leaving ones are flushed. -/
theorem takeCommitReport_calm (s : State) (r : CommitReport) (rest : List CommitReport) (h : s.wu.commitReports = r :: rest) :
    Calm s (State.takeCommitReport { s with wu.commitReports := rest } r) := by
  obtain ⟨due, hdue⟩ : ∃ due, due = addNumbers r.leaving (addNumbers r.kept s.wu.due) := ⟨_, rfl⟩
  have hmove : State.takeCommitReport { s with wu.commitReports := rest } r =
      r.leaving.foldl State.retireQueue { s with wu := { s.wu with commitReports := rest, due := due } } := by
    have := retireQueues_due r.leaving { s with wu := { s.wu with commitReports := rest } } due
    refine .trans ?_ this.symm
    unfold State.takeCommitReport State.makeDue
    simp only [retireQueues_wu_due, hdue]
  rw [hmove]
  refine (Calm.waitUnit s { s.wu with commitReports := rest, due := due } rfl rfl id (fun hr => ?_)
    fun q hq => .inl ?_).trans (retireQueues_calm _ _)
  · exact hdue ▸ rising_addNumbers _ _ (rising_addNumbers _ _ hr)
  · simp only [WaitUnit.named, List.mem_append, hdue, mem_addNumbers, h, List.flatMap_cons] at hq ⊢
    tauto

/-- R67: the pool found holds the cell. -/
theorem homeOf_spec {cell p : Nat} (h : s.homeOf cell = some p) : ∃ l, (p, l) ∈ s.wu.queues ∧ ∃ w ∈ l, w.cell = cell := by
  unfold State.homeOf at h
  obtain ⟨q, hq, rfl⟩ := Option.map_eq_some_iff.1 h
  have hw := List.find?_some hq
  simp only [List.any_eq_true, decide_eq_true_eq] at hw
  exact ⟨q.2, List.mem_of_find?_eq_some hq, hw⟩

/-- R81: the target leaves its queue with an answer. -/
theorem withdrawFrom_calm (s : State) (p target : Nat) (h : s.homeOf target = some p) : Calm s (s.withdrawFrom p target) := by
  obtain ⟨l, hl, w, hw, hwt⟩ := homeOf_spec h
  have hp : p ∈ s.wu.named := by
    have : p ∈ s.wu.queues.map Prod.fst := List.mem_map.2 ⟨_, hl, rfl⟩
    simp only [WaitUnit.named, List.mem_append]
    tauto
  have hleaves : Leaves s.wu.queues (Table.set [] s.wu.queues p ((s.queue p).filter fun w => decide (w.cell ≠ target))) [target] := by
    refine leaves_setQueue s p _ _ (fun hc hnodup => ?_) List.filter_sublist
    have hmem : target ∈ (s.queue p).map Waiter.cell := by
      rw [State.queue, Table.get_of_mem [] hc hl]
      exact List.mem_map.2 ⟨w, hw, hwt⟩
    have herase : ((s.queue p).filter fun w => decide (w.cell ≠ target)).map Waiter.cell = ((s.queue p).map Waiter.cell).erase target := by
      rw [hnodup.erase_eq_filter, List.filter_map]
      congr 2
      funext w
      by_cases hx : w.cell = target <;> simp [hx]
    rw [herase]
    exact List.perm_cons_erase hmem
  have hmove (u : State) (hu : u.wu.queues = s.wu.queues) (a : Answer) :
      Calm u ((u.setQueue p ((s.queue p).filter fun w => decide (w.cell ≠ target))).handAnswer target a) :=
    .single (.dequeue (Table.set [] u.wu.queues p _) [(target, a)] (by rw [hu]; exact hleaves))
  unfold State.withdrawFrom
  simp only
  split_ifs
  · exact (Calm.makeDue s [p] fun q hq => .inl (List.mem_singleton.1 hq ▸ hp)).trans (hmove (s.makeDue [p]) rfl _)
  · exact hmove s rfl _

end Sys2Proof.Machine
end

