-- ==== Sys2Proof/Proofs/RequestMoves.lean ====
section
/-! SUPPORT. The requests and the DRAW decision as runs of moves (chapters 3, 4 and 5). -/

namespace Sys2Proof.Machine

variable {s t : State}

/-! ### The DRAW decision -/

/-- R46: the decision in hand moves to a step whose pools are named already. -/
theorem drawAt_calm {d : DrawDecision} (h : s.decision = some (.draw d)) (stage : DrawStage)
    (pools : ∀ p ∈ stage.pools, p ∈ d.stage.pools ∨ p < 512 ∨ p ∈ s.lt.leases.map (fun e => e.2.pool)) :
    Calm s (s.drawAt d stage) :=
  .single (.redecide h _ rfl pools)

/-- R62: a refusal. -/
theorem refuseDraw_calm {d : DrawDecision} (h : s.decision = some (.draw d)) (r : Result) (pool : Option Nat) :
    Calm s (s.refuseDraw d r pool) := by
  cases pool with
  | none => exact .single (.answerHand h _)
  | some p => exact .tail (.single (.answerHand h _)) (.meter _ id)

/-- R48: the pools of the records found are pools of lease records. -/
theorem revivalLookup_pools {key : Word} {feature p : Nat} (h : p ∈ (s.revivalLookup key feature).map FoundRecord.pool) :
    p ∈ s.lt.leases.map (fun e => e.2.pool) := by
  obtain ⟨f, hf, rfl⟩ := List.mem_map.1 h
  obtain ⟨e, he, rfl⟩ := List.mem_map.1 hf
  exact List.mem_map.2 ⟨e, List.mem_of_mem_filter he, rfl⟩

/-- R52: the candidates gathered are pools. -/
theorem candidates_pools {key : Word} {feature p : Nat} (h : p ∈ (s.candidates key feature).map Candidate.pool) : p < 512 := by
  obtain ⟨c, hc, rfl⟩ := List.mem_map.1 h
  rw [State.candidates, mem_sortByKey] at hc
  obtain ⟨q, hq, rfl⟩ := List.mem_map.1 hc
  exact List.mem_range.1 (List.mem_of_mem_filter hq)

theorem homePool_mem {tried : List TrialRecord} {home : Nat} (h : homePool tried = some home) : home ∈ tried.map TrialRecord.pool := by
  obtain ⟨t, ht, rfl⟩ := Option.map_eq_some_iff.1 h
  exact List.mem_map.2 ⟨t, List.mem_of_find?_eq_some ht, rfl⟩

/-- R54: a trial keeps the pools of the decision. -/
theorem trial_pools {d : DrawDecision} {p : Nat} {rest : List Nat} {tried : List TrialRecord} (hd : d.stage = .trial (p :: rest) tried)
    (r : TrialRecord) (hr : r.pool = p) : ∀ q ∈ (DrawStage.trial rest (tried ++ [r])).pools, q ∈ d.stage.pools := by
  intro q hq
  rw [hd]
  simp only [DrawStage.pools, List.map_append, List.map_cons, List.map_nil, List.mem_append, List.mem_cons, List.not_mem_nil,
    or_false, hr] at hq ⊢
  tauto

/-- Table 3-2: one step of a DRAW decision. -/
theorem drawStep_calm (s : State) : Calm s s.drawStep := by
  unfold State.drawStep
  split
  case h_2 => exact .refl
  rename_i d hd
  split
  case h_1 =>
    unfold State.drawClock
    split_ifs
    · exact drawAt_calm hd _ nofun
    · exact refuseDraw_calm hd _ _
  case h_2 => exact drawAt_calm hd _ fun p hp => .inr (.inr (revivalLookup_pools hp))
  case h_3 found hst =>
    unfold State.drawQualify
    split
    · exact drawAt_calm hd _ nofun
    · split_ifs
      · exact drawAt_calm hd _ nofun
      · exact drawAt_calm hd _ fun p hp => .inl (hst ▸ List.mem_cons_of_mem _ hp)
  case h_4 => exact .refl
  case h_5 =>
    unfold State.drawTableFull
    split_ifs
    · exact refuseDraw_calm hd _ _
    · exact drawAt_calm hd _ nofun
  case h_6 =>
    unfold State.drawGather
    split
    · exact refuseDraw_calm hd _ _
    · rename_i c rest hcs
      exact drawAt_calm hd _ fun p hp => .inr (.inl (candidates_pools (s := s) (key := d.key) (feature := d.feature)
        (by rw [hcs]; exact hp)))
  case h_7 cs hst =>
    unfold State.drawDivide
    split
    · exact refuseDraw_calm hd _ _
    · rename_i p rest hrem
      refine drawAt_calm hd _ fun q hq => .inl ?_
      rw [hst]
      have hq' : q ∈ remainingCandidates s.su.frame cs := by
        rw [hrem]
        simpa [DrawStage.pools] using hq
      obtain ⟨c, hc, rfl⟩ := List.mem_map.1 hq'
      exact List.mem_map.2 ⟨c, List.mem_of_mem_filter hc, rfl⟩
  case h_8 tried hst =>
    unfold State.drawEnd
    split
    · exact refuseDraw_calm hd _ _
    · rename_i t rest
      split
      · rename_i home hh
        split_ifs
        · exact refuseDraw_calm hd _ _
        · exact .single (.park hd (by rw [hst]; exact homePool_mem hh))
      · exact refuseDraw_calm hd _ _
  case h_9 p rest tried hst =>
    split_ifs
    · unfold State.drawTrial
      simp only
      split
      · refine drawAt_calm hd _ fun q hq => .inl ?_
        rw [hst]
        exact hq
      · refine drawAt_calm hd _ fun q hq => .inl ?_
        rw [hst]
        exact List.mem_cons_of_mem _ hq
      all_goals exact drawAt_calm hd _ fun q hq => .inl (trial_pools hst _ rfl q hq)
    · exact .refl
  case h_10 => exact .refl

theorem drawSteps_calm (n : Nat) (s : State) : Calm s (State.drawSteps n s) := by
  induction n generalizing s with
  | zero => exact .refl
  | succ n ih => exact (drawStep_calm s).trans (ih _)

/-! ### Turns -/

theorem Calm.around (e : State → State → Prop) (h : Calm s t) : Around e s t := ⟨t, t, h, .inl rfl, .refl⟩

theorem Calm.turn (h : Calm s t) : Turn s t := h.around Event

theorem Around.of {e : State → State → Prop} {u : State} (h : e s u) (h' : Calm u t) : Around e s t := ⟨s, u, .refl, .inr h, h'⟩

theorem Event.turn {u : State} (h : Event s u) (h' : Calm u t) : Turn s t := .of h h'

theorem Around.calm {e : State → State → Prop} {u : State} (h : Around e s u) (h' : Calm u t) : Around e s t := by
  obtain ⟨a, b, h1, h2, h3⟩ := h
  exact ⟨a, b, h1, h2, h3.trans h'⟩

theorem Around.mono {e e' : State → State → Prop} (he : ∀ a b, e a b → e' a b) (h : Around e s t) : Around e' s t := by
  obtain ⟨a, b, h1, h2, h3⟩ := h
  exact ⟨a, b, h1, h2.imp id (he a b), h3⟩

theorem Calm.trans_turn {e : State → State → Prop} {u : State} (h : Calm s u) (h' : Around e u t) : Around e s t := by
  obtain ⟨a, b, h1, h2, h3⟩ := h'
  exact ⟨a, b, h.trans h1, h2, h3⟩

/-- R162, R163: a request row is a turn where what it makes of a well-formed request is one. -/
theorem withRequest_turn (s : State) (kind : Nat) (f : Nat → List Byte → State → State)
    (h : ∀ c copy rest, s.Serves c copy rest → Turn s (f c copy (s.takenFrom c rest))) : Turn s (s.withRequest kind f) := by
  rcases withRequest_cases s kind f with he | ⟨c, copy, rest, off, hs, -, -, he⟩ | ⟨c, copy, rest, hs, he⟩
  · rw [he]
    exact Calm.turn .refl
  · rw [he]
    exact Calm.turn (.single (.answer hs _))
  · rw [he]
    exact h c copy rest hs.1

/-- The same for a row that only moves quietly. -/
theorem withRequest_calm (s : State) (kind : Nat) (f : Nat → List Byte → State → State)
    (h : ∀ c copy rest, s.Serves c copy rest → Calm s (f c copy (s.takenFrom c rest))) : Calm s (s.withRequest kind f) := by
  rcases withRequest_cases s kind f with he | ⟨c, copy, rest, off, hs, -, -, he⟩ | ⟨c, copy, rest, hs, he⟩
  · rw [he]
  · rw [he]
    exact .single (.answer hs _)
  · rw [he]
    exact h c copy rest hs.1

/-! ### Requests -/

theorem execDraw_calm {steps : Nat} (h : execDraw steps s = .next t) : Calm s t := by
  cases h
  refine (withRequest_calm s _ _ fun c copy rest hs => ?_).trans (drawSteps_calm _ _)
  unfold drawRequestCheck
  split
  · exact .single (.answer hs _)
  · exact .single (.decide hs _ rfl nofun)

theorem serves_congr {c : Nat} {copy : List Byte} {rest : List Nat} (h : s.Serves c copy rest) (hx : t.xi = s.xi)
    (hd : t.decision = s.decision) : t.Serves c copy rest := by
  unfold State.Serves State.cell at *
  rw [hx, hd]
  exact h

/-- R98, R100: a handle that names a live record. -/
theorem handleCase_live {l : Lease} {g : Half} (h : handleCase l g = .live) : l.st = .held ∧ l.generation = g := by
  unfold handleCase at h
  split at h
  case h_1 hst =>
    split_ifs at h with hg
    exact ⟨hst, hg⟩
  case h_2 => split_ifs at h
  all_goals cases h

theorem execRenew_turn (h : execRenew s = .next t) : Turn s t := by
  cases h
  refine withRequest_turn s _ _ fun c copy rest hs => ?_
  unfold renewRequest
  split_ifs with hi
  · exact Calm.turn (.single (.answer hs _))
  · unfold State.renewRecord
    simp only
    split
    · rename_i hcase
      exact Event.turn (.reload (s := s) (Nat.lt_of_not_le hi) (handleCase_live hcase).1 _) (.single (.answer
        (serves_congr (t := s.setLease (handleIndex copy) _) hs rfl rfl) _))
    · exact Calm.turn (.single (.answer hs _))
    · exact Calm.turn (.single (.answer hs _))

/-- R102, R104: records are returned and the request is answered. -/
theorem returnRecords_turn {c : Nat} {copy : List Byte} {rest : List Nat} (hs : s.Serves c copy rest) (skip : Bool)
    (chosen : Nat → Lease → Bool)
    (held : s.canonical = true → ∀ i l, (i, l) ∈ s.lt.leases → chosen i l = true → l.st = .held) (a : Answer) :
    Turn s (((s.takenFrom c rest).returnRecords skip chosen).handAnswer c a) := by
  have h1 := returnRecords_congr (s := s) (t := s) skip chosen rfl rfl rfl rfl
  have h2 : ((s.takenFrom c rest).returnRecords skip chosen) = (s.returnRecords skip chosen).takenFrom c rest := by
    rw [returnRecords_congr (s := s) (t := s.takenFrom c rest) skip chosen rfl rfl rfl rfl, h1]
    rfl
  rw [h2]
  exact Event.turn (.returns skip chosen held) (.single (.answer (serves_congr hs (by rw [h1]) (by rw [h1])) a))

theorem canonical_leases (h : s.canonical = true) : Table.wf Lease.atReset 4096 s.lt.leases = true := by
  unfold State.canonical at h
  simp only [Bool.and_eq_true] at h
  tauto

/-- Log entry 21: a listed record is what its number reads as, and its number is in range. -/
theorem mem_leases (h : s.canonical = true) (i : Nat) (l : Lease) :
    (i, l) ∈ s.lt.leases ↔ i < 4096 ∧ s.lease i = l ∧ l ≠ Lease.atReset := by
  have hw := canonical_leases h
  simp only [Table.wf, Bool.and_eq_true, List.all_eq_true, decide_eq_true_eq] at hw
  rw [Table.mem_iff_get Lease.atReset hw.1]
  refine ⟨fun he => ⟨?_, he⟩, fun he => he.2⟩
  exact hw.2 _ ((Table.mem_iff_get Lease.atReset hw.1 i l).2 he)

theorem execReturnLease_turn (h : execReturnLease s = .next t) : Turn s t := by
  cases h
  refine withRequest_turn s _ _ fun c copy rest hs => ?_
  unfold returnRequest
  split_ifs with hi
  · exact Calm.turn (.single (.answer hs _))
  · unfold State.returnRecord
    simp only
    split
    · rename_i hcase
      refine returnRecords_turn hs _ _ (fun hc i l hm hch => ?_) _
      have hl := ((mem_leases hc i l).1 hm).2.1
      rw [← hl, of_decide_eq_true hch]
      exact (handleCase_live hcase).1
    · exact Calm.turn (.single (.answer hs _))
    · exact Calm.turn (.single (.answer hs _))

theorem execReturnMatching_turn (h : execReturnMatching s = .next t) : Turn s t := by
  cases h
  refine withRequest_turn s _ _ fun c copy rest hs => ?_
  unfold returnMatchingRequest
  simp only
  split_ifs
  · exact Calm.turn (.single (.answer hs _))
  · refine returnRecords_turn hs _ _ (fun _ i l _ hch => ?_) _
    simp only [returnSelects, Bool.and_eq_true, decide_eq_true_eq] at hch
    exact hch.1.1

theorem execWithdraw_calm (h : execWithdraw s = .next t) : Calm s t := by
  cases h
  refine Relation.ReflTransGen.trans (withRequest_calm s kindWithdraw withdrawRequest fun c copy rest hs => ?_) ?_
  · unfold withdrawRequest
    split_ifs
    · exact .single (.answer hs _)
    · exact .single (.decide hs _ rfl nofun)
  · generalize s.withRequest kindWithdraw withdrawRequest = u
    unfold State.finishWithdraw
    split
    case h_2 => exact .refl
    rename_i c target hd
    split_ifs
    case neg => exact .refl
    unfold State.withdrawEvent
    split
    case h_2 => exact .single (.answerHand hd _)
    case h_1 p hp =>
      have hu : State.withdrawFrom { u with decision := none } p target = { u.withdrawFrom p target with decision := none } := by
        unfold State.withdrawFrom State.queue
        simp only
        split_ifs <;> rfl
      have hd' : (u.withdrawFrom p target).decision = u.decision := by
        unfold State.withdrawFrom
        simp only
        split_ifs <;> rfl
      rw [hu]
      exact (withdrawFrom_calm u p target hp).tail (.answerHand (hd'.trans hd) _)

theorem execInspectPool_calm (h : execInspectPool s = .next t) : Calm s t := by
  cases h
  refine Relation.ReflTransGen.trans (withRequest_calm s kindInspectPool inspectRequest fun c copy rest hs => ?_) ?_
  · unfold inspectRequest
    split_ifs with hp
    · exact .single (.answer hs _)
    · exact .single (.decide hs _ rfl fun p h => List.mem_singleton.1 h ▸ Nat.lt_of_not_le hp)
  · generalize s.withRequest kindInspectPool inspectRequest = u
    unfold State.finishInspect
    split
    case h_2 => exact .refl
    rename_i c p hd
    split_ifs
    · exact .single (.answerHand hd _)
    · exact .refl

/-! ### CLEAR_FLOOR -/

/-- R84: the answers of the waiters cleared. -/
def State.clearedAnswers (s : State) : List (Nat × Answer) :=
  s.allWaiters.map fun e => (e.2.cell, plainAnswer .cleared (poolField e.1))

/-- R84: the Wait Unit's part of CLEAR_FLOOR, block by block. -/
theorem clearWaiters_eq (s : State) :
    s.clearWaiters = { s with xi := (s.handAnswers s.clearedAnswers).xi, wu := { s.wu with queues := [], stall := [], due := [] } } := by
  rw [← handAnswers_of_xi (s := s) (t := { s with wu := { s.wu with queues := [], stall := [], due := [] } }) s.clearedAnswers rfl]
  unfold State.clearWaiters State.handAnswers State.clearedAnswers
  rw [List.foldl_map]
  rfl

theorem clearWaiters_calm (s : State) : Calm s s.clearWaiters := by
  have hqueues : Calm s (State.handAnswers { s with wu.queues := [] } s.clearedAnswers) := by
    refine .single (.dequeue [] _ ?_)
    rw [show s.clearedAnswers.map Prod.fst = waitersIn s.wu.queues by
      simp only [State.clearedAnswers, State.allWaiters, waitersIn, List.map_flatMap, List.map_map]; rfl]
    exact leaves_all _
  rw [handAnswers_of_xi (s := s) (t := { s with wu.queues := [] }) s.clearedAnswers rfl] at hqueues
  rw [clearWaiters_eq]
  refine hqueues.trans (Calm.waitUnit _ { s.wu with queues := [], stall := [], due := [] } rfl rfl (fun _ => rfl) (fun _ => rfl)
    fun p hp => .inl ?_)
  simp only [WaitUnit.named, List.mem_append, List.not_mem_nil] at hp ⊢
  tauto

/-- R109: the records and the notices once CLEAR_FLOOR has cleared them. -/
def State.leasesCleared (s : State) : State :=
  { s with
    lt.leases := Table.mapEntries Lease.atReset
      (fun i l => if s.clearedByFloor i l then { l with st := .free, generation := l.generation + 1 } else l) s.lt.leases
    xi.notices := s.noticesKept }

/-- R16: the records that hold tokens and seats. -/
def State.holders (s : State) : List Lease := (Table.select (fun _ l => l.holds) s.lt.leases).map Prod.snd

/-- R109: the Lease Table's part of CLEAR_FLOOR is the clearing, one free event and the report. -/
theorem clearLeases_eq (s : State) :
    s.clearLeases = if (Table.select s.clearedByFloor s.lt.leases).isEmpty then s.leasesCleared.freeEvent s.holders
      else (s.leasesCleared.freeEvent s.holders).reportRecordFree := rfl

/-- R109: the Lease Table's part of CLEAR_FLOOR reads nothing of the decision in hand. -/
theorem clearLeases_decision (s : State) (d : Option Decision) :
    State.clearLeases { s with decision := d } = { s.clearLeases with decision := d } := by
  have hfree : State.freeEvent { s.leasesCleared with decision := d } s.holders =
      { s.leasesCleared.freeEvent s.holders with decision := d } := by
    rw [freeEvent_congr (s := s.leasesCleared) (t := { s.leasesCleared with decision := d }) _ rfl rfl rfl,
      freeEvent_eq s.leasesCleared]
  show (if (Table.select s.clearedByFloor s.lt.leases).isEmpty
    then State.freeEvent { s.leasesCleared with decision := d } s.holders
    else State.reportRecordFree (State.freeEvent { s.leasesCleared with decision := d } s.holders)) = _
  rw [hfree, clearLeases_eq s]
  split_ifs <;> rfl

theorem clearLeases_decision_eq (s : State) : s.clearLeases.decision = s.decision := by
  rw [show s = { s with decision := s.decision } from rfl, clearLeases_decision]

theorem execClearFloor_turn (h : execClearFloor s = .next t) : Turn s t := by
  cases h
  refine Calm.trans_turn (withRequest_calm s kindClearFloor clearFloorRequest fun c copy rest hs => ?_) ?_
  · exact .single (.decide hs _ rfl nofun)
  · generalize s.withRequest kindClearFloor clearFloorRequest = u
    unfold State.finishClearFloor
    split
    case h_2 => exact Calm.turn .refl
    rename_i c hd
    split_ifs
    case neg => exact Calm.turn .refl
    unfold State.clearFloorEvent
    have hw : State.clearWaiters { u with decision := none } = { u.clearWaiters with decision := none } := by
      rw [clearWaiters_eq, clearWaiters_eq u, handAnswers_xi_congr (s := u)]
      · rfl
      · rfl
    have hwd : u.clearWaiters.decision = u.decision := by rw [clearWaiters_eq]
    rw [hw, clearLeases_decision]
    refine (Calm.trans_turn (clearWaiters_calm u) (Event.turn .clear .refl)).calm (.single (.answerHand (d := .clearFloor c) ?_ _))
    rw [clearLeases_decision_eq, hwd, hd]

/-! ### INSTALL, SET_CLOCK, TUNE and cells of an unknown kind -/

/-- R134: the next image read is issued where DMA is permitted. -/
theorem nextImageRead_calm (s : State) : Calm s s.nextImageRead := by
  unfold State.nextImageRead State.issueImageRead
  split_ifs with hdma
  · split
    · rename_i im him
      exact .tail (.single (.issue (.imageRead im.cell) _ _ _ hdma rfl)) (.progress him rfl)
    · exact .refl
    · exact .refl
  · exact .refl

theorem execInstall_calm (h : execInstall s = .next t) : Calm s t := by
  cases h
  refine withRequest_calm s _ _ fun c copy rest hs => ?_
  unfold installRequest
  split
  · exact .single (.answer hs _)
  · unfold State.takeInstall
    split_ifs with hbusy
    · exact .single (.answer hs _)
    · have hidle : s.install = .idle := by
        cases hi : s.install with
        | idle => rfl
        | reading im => exact absurd (show (s.takenFrom c rest).install.busy = true by simp [State.takenFrom, hi, InstallUnit.busy]) hbusy
        | committing im staged header o =>
          exact absurd (show (s.takenFrom c rest).install.busy = true by simp [State.takenFrom, hi, InstallUnit.busy]) hbusy
      exact .trans (.single (.startInstall hs hidle _ rfl)) (nextImageRead_calm _)

/-- A request in front is answered after quiet moves that leave it there. -/
theorem answer_calm {u : State} {c : Nat} {copy : List Byte} {rest : List Nat} (h : Calm s u) (hs : u.Serves c copy rest) (a : Answer) :
    Calm s ((u.takenFrom c rest).handAnswer c a) := .tail h (.answer hs a)

theorem execTune_calm (h : execTune s = .next t) : Calm s t := by
  cases h
  refine withRequest_calm s _ _ fun c copy rest hs => ?_
  unfold tuneRequest
  split
  · exact .single (.answer hs _)
  · refine answer_calm (u := { s with
      tb.leaseSel := (byteAt copy 0x04).toNat, tb.hkSel := (byteAt copy 0x05).toNat, tb.graceCount := readLE copy 0x06 2
      mu.interval := tuneInterval copy }) ?_ (serves_congr hs rfl rfl) _
    exact .tail (.single (.meter { s.mu with interval := tuneInterval copy } id)) (.time _)

theorem execUnknownRequestKind_calm (h : execUnknownRequestKind s = .next t) : Calm s t := by
  unfold execUnknownRequestKind at h
  split at h
  · cases h
    exact .refl
  · rename_i c copy taken htake
    obtain ⟨rest, hs, rfl⟩ := takeCell_eq_some htake
    split_ifs at h <;> cases h
    · exact .single (.answer hs _)
    · exact .refl

end Sys2Proof.Machine
end

