-- ==== Sys2Proof/Proofs/TimeMoves.lean ====
section
/-! SUPPORT. The Time Base, the Schedule Unit, SET_CLOCK and the grant and revival events as runs of moves (chapters 1, 3 and 6). -/

namespace Sys2Proof.Machine

variable {s t : State}

/-! ### The position -/

theorem Schedule.inRange_iff (sched : Schedule) : sched.inRange = true ↔
    (1 ≤ sched.slotCount ∧ sched.slotCount ≤ 32 ∧ 1 ≤ sched.slotLength ∧ sched.slotLength ≤ 65535 ∧ sched.rates.length = 32) ∧
      ∀ r ∈ sched.rates, 25 ≤ r ∧ r ≤ 400 := by
  simp only [Schedule.inRange, Bool.and_eq_true, decide_eq_true_eq, List.all_eq_true]

/-- R120, R121: the invariant of the position, read field by field. -/
structure State.Positioned (s : State) : Prop where
  active : s.su.active.inRange = true
  staged : ∀ sched, s.su.staged = some sched → sched.inRange = true
  header : ∀ h, s.install.header? = some h → h.schedule.inRange = true
  slot : s.su.slot < s.su.active.slotCount
  seconds : s.su.seconds < s.su.active.slotLength
  unset : s.su.clockSet = false → s.su.frame = 0 ∧ s.su.slot = 0 ∧ s.su.seconds = 0 ∧ s.su.staged = none

theorem positionOk_iff (s : State) : s.positionOk = true ↔ s.Positioned := by
  have hunset : (s.su.clockSet || (decide (s.su.frame = 0 ∧ s.su.slot = 0 ∧ s.su.seconds = 0) && s.su.staged.isNone)) = true ↔
      (s.su.clockSet = false → s.su.frame = 0 ∧ s.su.slot = 0 ∧ s.su.seconds = 0 ∧ s.su.staged = none) := by
    cases s.su.clockSet <;> simp [and_assoc]
  simp only [State.positionOk, Bool.and_eq_true, decide_eq_true_eq, Option.all_eq_true, hunset]
  exact ⟨fun ⟨⟨⟨⟨⟨h1, h2⟩, h3⟩, h4⟩, h5⟩, h6⟩ => ⟨h1, h2, h3, h4, h5, h6⟩, fun h => ⟨⟨⟨⟨⟨h.1, h.2⟩, h.3⟩, h.4⟩, h.5⟩, h.6⟩⟩

/-- R120: the schedule that becomes active at a frame start is in range. -/
theorem State.Positioned.next (h : s.Positioned) : (s.su.staged.getD s.su.active).inRange = true := by
  cases hst : s.su.staged with
  | none => exact h.active
  | some sched => exact h.staged sched hst

/-- R124: the masks once the staged ones have become active are a canonical table. -/
theorem canonical_masksApplied (h : Table.canonical 0 s.su.activeMasks = true) : Table.canonical 0 s.masksApplied = true := by
  unfold State.masksApplied
  generalize s.su.activeMasks = masks at h
  induction s.su.stagedMasks generalizing masks with
  | nil => exact h
  | cons e es ih =>
    obtain ⟨i, mask⟩ := e
    cases mask with
    | none => exact ih _ h
    | some m => exact ih _ (Table.canonical_set 0 _ _ _ h)

/-! ### Seconds -/

theorem queues_named {p : Nat} (h : p ∈ s.wu.queues.map Prod.fst) : p ∈ s.wu.named := by
  simp only [WaitUnit.named, List.mem_append]
  tauto

/-- R123, R124: a slot change is handed to the Wait Unit and the Meter Unit. -/
theorem handSlotChange_calm (s : State) : Calm s s.handSlotChange := by
  refine (Calm.makeDue s _ fun p hp => .inl (queues_named ?_)).tail (.meter _ id)
  obtain ⟨e, he, rfl⟩ := List.mem_map.1 hp
  exact List.mem_map.2 ⟨e, List.mem_of_mem_filter he, rfl⟩

theorem le_nextFrame (frame : Word) : frame.toNat ≤ (nextFrame frame).toNat := by
  unfold nextFrame
  split_ifs with h
  · exact le_rfl
  · bv_omega

/-- R124, R129: a frame start at a position within the next geometry. -/
theorem frameStart_calm (s : State) (frame : Word) (slot seconds : Nat)
    (hframe : s.positionOk = true → s.su.frame.toNat ≤ frame.toNat)
    (hslot : s.positionOk = true → slot < (s.su.staged.getD s.su.active).slotCount)
    (hseconds : s.positionOk = true → seconds < (s.su.staged.getD s.su.active).slotLength) :
    Calm s (State.handSlotChange
      { s.applyStaged with su := { s.applyStaged.su with frame := frame, slot := slot, seconds := seconds, clockSet := true } }) := by
  refine .trans (.single (.schedule
    { s.applyStaged.su with frame := frame, slot := slot, seconds := seconds, clockSet := true } (fun h => ?_) canonical_masksApplied
      (fun _ => rfl) (fun _ => rfl) hframe)) (handSlotChange_calm _)
  have hp := (positionOk_iff s).1 h
  exact (positionOk_iff _).2 ⟨hp.next, nofun, hp.header, hslot h, hseconds h, nofun⟩

/-- R123, R129: a slot start at a slot of the active geometry. -/
theorem slotStart_calm (s : State) (slot seconds : Nat) (hslot : s.positionOk = true → slot < s.su.active.slotCount)
    (hseconds : s.positionOk = true → seconds < s.su.active.slotLength) :
    Calm s { s with su := { s.su with slot := slot, seconds := seconds, clockSet := true } } := by
  refine .single (.schedule _ (fun h => ?_) id id (fun _ => rfl) (fun _ => le_rfl))
  have hp := (positionOk_iff s).1 h
  exact (positionOk_iff _).2 ⟨hp.active, hp.staged, hp.header, hslot h, hseconds h, nofun⟩

/-- R122: a second of a clock that is SET. -/
theorem advanceClock_calm (hset : s.su.clockSet = true) : Calm s s.advanceClock := by
  unfold State.advanceClock
  split_ifs with hend hlast
  · have := frameStart_calm s (nextFrame s.su.frame) 0 0 (fun _ => le_nextFrame _)
      (fun h => (((Schedule.inRange_iff _).1 ((positionOk_iff s).1 h).next).1).1)
      (fun h => ((Schedule.inRange_iff _).1 ((positionOk_iff s).1 h).next).1.2.2.1)
    rw [← hset] at this
    exact this
  · have := slotStart_calm s (s.su.slot + 1) 0 (fun _ => by simpa [State.lastSlot] using hlast)
      (fun h => ((Schedule.inRange_iff _).1 ((positionOk_iff s).1 h).active).1.2.2.1)
    rw [← hset] at this
    exact this.trans (handSlotChange_calm _)
  · have := slotStart_calm s s.su.slot (s.su.seconds + 1) (fun h => ((positionOk_iff s).1 h).slot)
      (fun _ => by simpa [State.slotEnding] using hend)
    rw [← hset] at this
    exact this

theorem secondEvent_calm (s : State) : Calm s s.secondEvent := by
  unfold State.secondEvent State.takeSecond
  split_ifs with hstreams hset
  · exact (Calm.time s _).trans (advanceClock_calm hset)
  · exact Calm.time s _
  · exact .refl

/-! ### SET_CLOCK -/

theorem moveClock_calm (frame : Word) (slot seconds : Nat) (hslot : slot < (s.targetSchedule frame).slotCount)
    (hseconds : s.positionOk = true → seconds < (s.targetSchedule frame).slotLength)
    (hahead : s.su.clockSet = true → s.su.frame.toNat ≤ frame.toNat) :
    Calm s { s.moveClock frame slot seconds with su := { (s.moveClock frame slot seconds).su with clockSet := true } } := by
  have hframe : s.positionOk = true → s.su.frame.toNat ≤ frame.toNat := by
    intro h
    cases hset : s.su.clockSet with
    | true => exact hahead hset
    | false => rw [(((positionOk_iff s).1 h).unset hset).1]; exact Nat.zero_le _
  unfold State.targetSchedule at hslot hseconds
  unfold State.moveClock
  split_ifs at hslot hseconds ⊢ with hf hs
  · exact frameStart_calm s frame slot seconds hframe (fun _ => hslot) hseconds
  · exact (slotStart_calm s slot seconds (fun _ => hslot) hseconds).trans (handSlotChange_calm _)
  · have := slotStart_calm s s.su.slot seconds (fun h => ((positionOk_iff s).1 h).slot) hseconds
    exact this

theorem moveClock_takenFrom (c : Nat) (rest : List Nat) (frame : Word) (slot seconds : Nat) :
    (s.takenFrom c rest).moveClock frame slot seconds = (s.moveClock frame slot seconds).takenFrom c rest := by
  unfold State.moveClock State.takenFrom
  split_ifs <;> rfl

theorem moveClock_xi (frame : Word) (slot seconds : Nat) : (s.moveClock frame slot seconds).xi = s.xi := by
  unfold State.moveClock
  split_ifs <;> rfl

theorem moveClock_decision (frame : Word) (slot seconds : Nat) : (s.moveClock frame slot seconds).decision = s.decision := by
  unfold State.moveClock
  split_ifs <;> rfl

theorem execSetClock_calm (h : execSetClock s = .next t) : Calm s t := by
  cases h
  refine withRequest_calm s _ _ fun c copy rest hs => ?_
  unfold setClockRequest
  simp only
  split_ifs with hslot
  · exact .single (.answer hs _)
  unfold State.takeTarget
  split_ifs with hback
  · exact .single (.answer hs _)
  simp only [moveClock_takenFrom]
  generalize hfr : wordField copy 4 = frame at *
  generalize hsl : (byteAt copy 8).toNat = slot at *
  generalize hse : min (readLE copy 10 2) (((s.takenFrom c rest).targetSchedule frame).slotLength - 1) = seconds
  refine answer_calm (u := { s.moveClock frame slot seconds with
    su := { (s.moveClock frame slot seconds).su with clockSet := true } })
    (moveClock_calm frame slot seconds (Nat.lt_of_not_le hslot) (fun h => ?_) (fun hset => ?_))
    (serves_congr hs (moveClock_xi _ _ _) (moveClock_decision _ _ _)) _
  · have hrange : ((s.takenFrom c rest).targetSchedule frame).inRange = true := by
      unfold State.targetSchedule
      split_ifs
      · exact ((positionOk_iff s).1 h).next
      · exact ((positionOk_iff s).1 h).active
    have hpos := ((Schedule.inRange_iff _).1 hrange).1.2.2.1
    have hlen : (s.targetSchedule frame).slotLength = ((s.takenFrom c rest).targetSchedule frame).slotLength := rfl
    omega
  · have hset' : (s.takenFrom c rest).su.clockSet = true := hset
    simp only [hset', Bool.true_and, positionBelow, decide_eq_true_eq, not_or] at hback
    exact Nat.le_of_not_lt hback.1

/-! ### Lease ticks and housekeeping ticks -/

/-- R92: the aging of the Lease Table as a move. -/
def Ages (s t : State) : Prop := t = s.ageLeases

theorem Ages.event (s t : State) (h : Ages s t) : Event s t := h ▸ .age

theorem leaseTickEvent_ages (s : State) : Around Ages s s.leaseTickEvent := by
  unfold State.leaseTickEvent State.tickLeaseTable
  split_ifs
  · exact Calm.trans_turn (Calm.time s _) (.of rfl .refl)
  · exact (Calm.time s _).around Ages
  · exact Calm.around Ages .refl

theorem tickMeterUnit_calm (s : State) : Calm s s.tickMeterUnit := by
  unfold State.tickMeterUnit
  split_ifs
  · unfold State.addTokenTicks
    have hcanonical := Table.canonical_build Meters.atReset Config.numPools (fun p => (s.metersOf p).addTokens (s.pool p).inUse)
    generalize Table.build Meters.atReset Config.numPools _ = meters at *
    exact .single (.meter { s.mu with meters := meters } fun _ => hcanonical)
  · exact .refl

theorem countGrace_calm (s : State) : Calm s s.countGrace := by
  unfold State.countGrace
  split_ifs
  · split
    · exact .refl
    · exact Calm.time s _
  · exact .refl

theorem housekeepingEvent_calm (s : State) : Calm s s.housekeepingEvent := by
  unfold State.housekeepingEvent
  split_ifs
  · exact (((Calm.time s _).trans (tickWaitUnit_calm _)).trans (Calm.reread _)).trans (countGrace_calm _)
  · exact .refl

/-- R112: a cycle of the reference ages the Lease Table at most once. -/
theorem referenceCycle_ages (s : State) : Around Ages s s.referenceCycle := by
  unfold State.referenceCycle State.baseTick
  split_ifs
  · exact (Calm.time s _).around Ages
  · have hsec (u : State) : Calm u u.fallSecond := by
      unfold State.fallSecond
      split_ifs
      · exact secondEvent_calm u
      · exact .refl
    have hlease (u : State) : Around Ages u u.fallLeaseTick := by
      unfold State.fallLeaseTick
      split_ifs
      · exact (leaseTickEvent_ages u).calm (tickMeterUnit_calm _)
      · exact Calm.around Ages .refl
    have hhk (u : State) : Calm u u.fallHkTick := by
      unfold State.fallHkTick
      split_ifs
      · exact housekeepingEvent_calm u
      · exact .refl
    exact (Calm.trans_turn ((Calm.time s _).trans (hsec _)) (hlease _)).calm (hhk _)
  · exact Calm.around Ages .refl

/-! ### The grant and revival events -/

theorem drawGrant_turn {d : DrawDecision} {p charge : Nat} {fits : Bool} {left : List Nat} {tried : List TrialRecord}
    (hd : s.decision = some (.draw d)) (hst : d.stage = .granting p charge fits left tried) :
    Turn s (s.drawGrant d p charge fits left tried) := by
  have hfailed (kind : FailKind) : Turn s (s.drawAt d (.trial left (tried ++ [⟨p, charge, fits, true, kind⟩]))) := by
    refine (drawAt_calm hd _ fun q hq => .inl ?_).turn
    rw [hst]
    simp only [DrawStage.pools, List.map_append, List.map_cons, List.map_nil, List.mem_append, List.mem_cons, List.not_mem_nil,
      or_false] at hq ⊢
    tauto
  unfold State.drawGrant
  simp only
  split
  case h_1 i hv hi =>
    have hmade : (s.makeLease p d.key d.feature charge d.period i).decision = some (.draw d) := hd
    exact Event.turn (.grant d.feature d.period hv hi (.inl (by simp [hd, Decision.pools, hst, DrawStage.pools])))
      (.single (.answerHand hmade _))
  case h_3 =>
    exact (drawAt_calm hd _ fun q hq => .inl (by rw [hst]; exact List.mem_cons_of_mem _ hq)).turn
  all_goals exact hfailed _

theorem examGrant_turn {e : Examination} (he : s.wu.exam = some e) (charge : Nat) : Turn s (s.examGrant e.pool charge) := by
  have hnamed := exam_named he
  have hover (stalled : Bool) : Turn s (s.endExam e.pool stalled) := (endExam_calm s e.pool stalled fun _ => hnamed).turn
  unfold State.examGrant
  split
  · exact hover _
  · rename_i w rest hq
    split
    case h_1 i hv hi =>
      have hmade : (s.makeLease e.pool w.key w.feature charge w.period i).queue e.pool = w :: rest := hq
      exact Event.turn (.grant w.feature w.period hv hi (.inr hnamed))
        ((answerHead_calm _ _ w rest _ hmade).trans (examAt_calm _ _ _ (exam_named (e := e) he)))
    all_goals exact hover _

theorem execGrantEvent_turn {sender : GrantSender} (h : execGrantEvent sender s = .next t) : Turn s t := by
  unfold execGrantEvent at h
  split at h <;> cases h
  · unfold State.admissionGrant
    split
    · rename_i d hd
      split
      · exact drawGrant_turn hd ‹_›
      · exact Calm.turn .refl
    · exact Calm.turn .refl
  · unfold State.waitUnitGrant
    split
    · rename_i e he
      split
      · exact examGrant_turn he _
      all_goals exact Calm.turn .refl
    · exact Calm.turn .refl

theorem execRevival_turn (h : execRevival s = .next t) : Turn s t := by
  unfold execRevival at h
  split at h
  · rename_i d hd
    split at h <;> cases h
    · unfold State.reviveRecord
      simp only
      split_ifs with hl
      · have hmade (l : Lease) (i : Nat) : (s.setLease i l).decision = some (.draw d) := hd
        exact Event.turn (.revive hl.1 _) (.tail (.single (.answerHand (hmade _ _) _)) (.meter _ id))
      · exact (drawAt_calm hd .tableFull nofun).turn
    · exact Calm.turn .refl
  · cases h
    exact Calm.turn .refl

end Sys2Proof.Machine
end

