-- ==== Sys2Proof/Proofs/StepMoves.lean ====
section
/-! SUPPORT. The Install Unit, the register writes, the transfers and the meter page as runs of moves; and with them the whole step:
every command that is no reset is one turn (chapters 7, 8 and 9). -/

namespace Sys2Proof.Machine

variable {s t : State}

/-! ### The image read -/

theorem judgeImage_calm {im im' : ImageRead} (h : s.install = .reading im) (hc : im'.cell = im.cell) : Calm s (s.judgeImage im') := by
  unfold State.judgeImage
  split
  · exact .single (.endInstall (by rw [h, hc]; rfl) _)
  · exact .single (.stage h hc ‹_›)

theorem imageGoesOn_calm {im im' : ImageRead} (h : s.install = .reading im) (hc : im'.cell = im.cell) :
    Calm s (s.imageGoesOn im') := by
  unfold State.imageGoesOn
  split_ifs
  · exact .trans (.single (.progress h hc)) (nextImageRead_calm _)
  · exact judgeImage_calm h hc

theorem imageLanded_calm (s : State) (x : Transfer) (bs : List Byte) : Calm s (s.imageLanded x bs) := by
  unfold State.imageLanded
  split
  · rename_i im h
    split_ifs
    · unfold State.takeImageBytes
      split_ifs
      · split
        · exact .single (.endInstall (by rw [h]; rfl) _)
        · exact imageGoesOn_calm h rfl
      · exact imageGoesOn_calm h rfl
    · exact .refl
  · exact .refl
  · exact .refl

theorem execImageReadArrival_calm {tag : Nat} {bytes : List Byte} (h : execImageReadArrival tag bytes s = .next t) : Calm s t := by
  unfold execImageReadArrival at h
  split at h <;> cases h
  · exact (Calm.land s tag).trans (imageLanded_calm _ _ _)
  · exact .refl

/-! ### The schedule content -/

/-- R126: the Schedule Unit's masks change, and nothing else. -/
def MasksMoved (s t : State) : Prop :=
  t = { s with su.activeMasks := t.su.activeMasks, su.stagedMasks := t.su.stagedMasks } ∧
    (Table.canonical 0 s.su.activeMasks = true → Table.canonical 0 t.su.activeMasks = true) ∧
    (Table.canonical none s.su.stagedMasks = true → Table.canonical none t.su.stagedMasks = true)

theorem MasksMoved.refl (s : State) : MasksMoved s s := ⟨rfl, id, id⟩

theorem MasksMoved.trans {u : State} (h : MasksMoved s t) (h' : MasksMoved t u) : MasksMoved s u :=
  ⟨by rw [h'.1, h.1], h'.2.1 ∘ h.2.1, h'.2.2 ∘ h.2.2⟩

theorem setActiveMask_moved (s : State) (p : Nat) (m : Word) : MasksMoved s (s.setActiveMask p m) :=
  ⟨rfl, Table.canonical_set 0 _ _ _, id⟩

theorem setStagedMask_moved (s : State) (p : Nat) (m : Option Word) : MasksMoved s (s.setStagedMask p m) :=
  ⟨rfl, id, Table.canonical_set none _ _ _⟩

theorem MasksMoved.foldl {f : State → Nat → State} (h : ∀ s p, MasksMoved s (f s p)) (ps : List Nat) (s : State) :
    MasksMoved s (ps.foldl f s) := by
  induction ps generalizing s with
  | nil => exact .refl s
  | cons p ps ih => exact (h s p).trans (ih _)

/-- R126: the masks of a commit, once its schedule has been taken. -/
theorem takeContent_moved (s : State) (staged : Table (Option StagedPool)) (header : HeaderContent) (o : CommitOutcome) :
    MasksMoved (s.takeSchedule header.schedule) (s.takeContent staged header o) := by
  have hactive (u : State) (p : Nat) (m : Word) : MasksMoved u ((u.setActiveMask p m).setStagedMask p none) :=
    (setActiveMask_moved u p m).trans (setStagedMask_moved _ p none)
  have hkept (u : State) : MasksMoved u (u.takeKeptMasks staged o.kept) := by
    unfold State.takeKeptMasks
    split_ifs
    · exact .foldl (fun u p => setStagedMask_moved u p _) _ _
    · exact .foldl (fun u p => hactive u p _) _ _
  exact (((hkept _).trans (.foldl (fun u p => hactive u p _) o.created _)).trans
    (.foldl (fun u p => setStagedMask_moved u p none) o.retiring _)).trans (.foldl (fun u p => hactive u p 0) o.removed _)

/-- R126: the schedule of a commit in hand is taken. -/
theorem takeSchedule_calm {im : ImageRead} {staged : Table (Option StagedPool)} {header : HeaderContent} {o : Option CommitOutcome}
    (h : s.install = .committing im staged header o) : Calm s (s.takeSchedule header.schedule) := by
  have hheader (hp : s.Positioned) : header.schedule.inRange = true := hp.header header (by rw [h]; rfl)
  unfold State.takeSchedule
  split_ifs with hset
  · refine .single (.schedule { s.su with staged := some header.schedule } (fun hp => ?_) id id id fun _ => le_rfl)
    have hp := (positionOk_iff s).1 hp
    exact (positionOk_iff _).2 ⟨hp.active, fun sched hs => by cases hs; exact hheader hp, hp.header, hp.slot, hp.seconds,
      fun hu => absurd hset (by rw [show s.su.clockSet = false from hu]; exact Bool.false_ne_true)⟩
  · refine .single (.schedule { s.su with active := header.schedule, staged := none } (fun hp => ?_) id id id fun _ => le_rfl)
    have hp := (positionOk_iff s).1 hp
    obtain ⟨hf, hs, hn, -⟩ := hp.unset (Bool.eq_false_iff.2 hset)
    have hr := ((Schedule.inRange_iff _).1 (hheader hp)).1
    exact (positionOk_iff _).2 ⟨hheader hp, nofun, hp.header, hs ▸ hr.1, hn ▸ hr.2.2.1, fun _ => ⟨hf, hs, hn, rfl⟩⟩

theorem MasksMoved.calm (h : MasksMoved s t) : Calm s t := by
  rw [h.1]
  refine .single (.schedule { s.su with activeMasks := t.su.activeMasks, stagedMasks := t.su.stagedMasks } (fun hp => ?_) h.2.1 h.2.2
    id fun _ => le_rfl)
  have hp := (positionOk_iff s).1 hp
  exact (positionOk_iff _).2 ⟨hp.active, hp.staged, hp.header, hp.slot, hp.seconds, hp.unset⟩

theorem takeSchedule_install (sched : Schedule) : (s.takeSchedule sched).install = s.install := by
  unfold State.takeSchedule
  split_ifs <;> rfl

theorem takeContent_install (staged : Table (Option StagedPool)) (header : HeaderContent) (o : CommitOutcome) :
    (s.takeContent staged header o).install = s.install := by
  rw [(takeContent_moved s staged header o).1]
  exact takeSchedule_install _

theorem execScheduleContent_calm (h : execScheduleContent s = .next t) : Calm s t := by
  unfold execScheduleContent at h
  split at h <;> cases h
  · rename_i im staged header o hi
    refine ((takeSchedule_calm hi).trans (takeContent_moved s staged header o).calm).tail (.endInstall ?_ _)
    rw [takeContent_install, hi]
    rfl
  all_goals exact .refl

theorem execInstallCommit_turn (h : execInstallCommit s = .next t) : Turn s t := by
  unfold execInstallCommit at h
  split at h <;> cases h
  · exact Event.turn (.commit ‹_›) .refl
  all_goals exact Calm.turn .refl

/-! ### Cells and the write list -/

/-- R162: in a canonical state the next cell picked is PENDING. -/
theorem nextPick_pending {c : Nat} (h : s.nextPick = some c) (hc : s.canonical = true) : (s.cell c).st = .pending := by
  have hmem : c ∈ s.postSet := by
    unfold State.nextPick at h
    split at h
    · cases h
      exact List.mem_of_find?_eq_some ‹_›
    · exact List.mem_of_head? h
  have hcells : Table.canonical Cell.atReset s.xi.cells = true := by
    unfold State.canonical at hc
    simp only [Bool.and_eq_true] at hc
    tauto
  obtain ⟨⟨i, v⟩, hv, rfl⟩ := List.mem_map.1 hmem
  obtain ⟨hv, hst⟩ := List.mem_filter.1 hv
  rw [State.cell, Table.get_of_mem _ hcells hv]
  exact of_decide_eq_true hst

theorem execCellPick_calm (h : execCellPick s = .next t) : Calm s t := by
  unfold execCellPick at h
  split at h
  · rename_i c hpick
    split_ifs at h with hg <;> cases h
    · simp only [Bool.and_eq_true, decide_eq_true_eq] at hg
      exact .single (.pick (nextPick_pending hpick) hg.1 hg.2)
    · exact .refl
  · cases h
    exact .refl

theorem execFetchArrival_calm {tag : Nat} {bytes : List Byte} (h : execFetchArrival tag bytes s = .next t) : Calm s t := by
  unfold execFetchArrival at h
  split at h <;> cases h
  · exact .single (.fetched ‹_› rfl _)
  · exact .refl

/-- R164: a write of the write list is issued. -/
theorem issueWrite_calm (hdma : s.xi.engine.dma = true) (kind : TransferKind) (addr : HostAddr) (bytes : List Byte) (w : WriteStage)
    (hp : kind.plain = true) : Calm s { s.issue kind addr 0 bytes with xi := { (s.issue kind addr 0 bytes).xi with writeStage := w } } :=
  .tail (.single (.issue kind addr 0 bytes hdma hp)) (.writeStage w)

theorem issueFirstWrite_calm (hdma : s.xi.engine.dma = true) : Calm s s.issueFirstWrite := by
  unfold State.issueFirstWrite
  split
  · exact .refl
  all_goals exact issueWrite_calm hdma _ _ _ _ rfl

theorem issueStatusWrite_calm (hdma : s.xi.engine.dma = true) : Calm s s.issueStatusWrite := by
  unfold State.issueStatusWrite
  split
  · exact .refl
  all_goals exact issueWrite_calm hdma _ _ _ _ rfl

theorem firstWriteDone_calm (s : State) : Calm s s.firstWriteDone := by
  unfold State.firstWriteDone
  split_ifs with hdma
  · exact issueStatusWrite_calm hdma
  · exact .single (.writeStage _)

theorem execWriteListIssue_calm (h : execWriteListIssue s = .next t) : Calm s t := by
  unfold execWriteListIssue at h
  split_ifs at h with hg <;> cases h
  · rw [Bool.and_eq_true] at hg
    exact issueFirstWrite_calm hg.1
  · exact .refl

theorem execAnswerWriteComplete_calm {tag : Nat} (h : execAnswerWriteComplete tag s = .next t) : Calm s t := by
  unfold execAnswerWriteComplete at h
  split at h <;> cases h
  · exact (Calm.land s tag).trans (firstWriteDone_calm _)
  · exact .refl

theorem execPoolFieldWriteComplete_calm {tag : Nat} (h : execPoolFieldWriteComplete tag s = .next t) : Calm s t := by
  unfold execPoolFieldWriteComplete at h
  split at h <;> cases h
  · exact (Calm.land s tag).trans (firstWriteDone_calm _)
  · exact .refl

theorem execStatusByteWriteComplete_calm {tag : Nat} (h : execStatusByteWriteComplete tag s = .next t) : Calm s t := by
  unfold execStatusByteWriteComplete at h
  split at h <;> cases h
  · exact (Calm.land s tag).tail .retireWrite
  · exact .refl

/-! ### Notices -/

theorem execNoticeWrite_calm (h : execNoticeWrite s = .next t) : Calm s t := by
  unfold execNoticeWrite at h
  split_ifs at h with hg <;> cases h
  · simp only [Bool.and_eq_true, decide_eq_true_eq] at hg
    exact .single (.noticeEntry hg.1.1 hg.1.2 hg.2)
  · exact .refl

theorem execNoticeEntryWriteComplete_calm {tag : Nat} (h : execNoticeEntryWriteComplete tag s = .next t) : Calm s t := by
  unfold execNoticeEntryWriteComplete at h
  split at h
  · split_ifs at h with hdma <;> cases h
    · exact .single (.noticeCount ‹_› rfl hdma)
    · exact .single (.noticeCountWaits ‹_› rfl)
  · cases h
    exact .refl

theorem execNoticeWritten_turn {tag : Nat} (h : execNoticeWritten tag s = .next t) : Turn s t := by
  unfold execNoticeWritten at h
  split at h <;> cases h
  · exact Event.turn (.notice ‹_› rfl) .refl
  · exact Calm.turn .refl

theorem execConsumedReadArrival_calm {tag : Nat} {bytes : List Byte} (h : execConsumedReadArrival tag bytes s = .next t) :
    Calm s t := by
  unfold execConsumedReadArrival at h
  split at h <;> cases h
  · exact .single (.consumed ‹_› rfl _)
  · exact .refl

theorem execDmaError_fails {tag : Nat} (h : execDmaError tag s = .next t) :
    t = s ∨ ∃ x, s.transfer tag = some x ∧ t = s.failTransfer x := by
  unfold execDmaError at h
  split at h <;> cases h
  · exact .inr ⟨_, ‹_›, rfl⟩
  · exact .inl rfl

/-! ### The Meter Unit -/

theorem takeCount_calm (s : State) (c : MeterCount) (inbox : List MeterCount) :
    Calm s (State.takeCount { s with mu.inbox := inbox } c) := by
  cases c with
  | raise meter p => exact .single (.meter { s.mu with inbox := inbox, meters := _ } (Table.canonical_set _ _ _ _))
  | peak p inUse => exact .single (.meter { s.mu with inbox := inbox, meters := _ } (Table.canonical_set _ _ _ _))

theorem execMeterCount_calm {which : Nat} (h : execMeterCount which s = .next t) : Calm s t := by
  unfold execMeterCount at h
  split at h <;> cases h
  · exact takeCount_calm s _ _
  · exact .refl

theorem takeSlotEnd_calm (s : State) : Calm s s.takeSlotEnd := by
  unfold State.takeSlotEnd
  simp only
  split_ifs
  · exact .single (.meter _ id)
  · exact .single (.meter _ id)

theorem issuePagePart_calm (hdma : s.xi.engine.dma = true) : Calm s s.issuePagePart := by
  unfold State.issuePagePart
  split
  · exact .refl
  · exact .refl
  · split_ifs
    · exact .tail (.single (.issue .pageWrite _ _ _ hdma rfl)) (.meter _ id)
    · exact .tail (.single (.issue .ownerWrite _ _ _ hdma rfl)) (.meter _ id)

theorem nextPagePart_calm (s : State) : Calm s s.nextPagePart := by
  unfold State.nextPagePart
  split_ifs with hdma
  · exact issuePagePart_calm hdma
  · exact .refl

theorem takeOwnerWord_calm (s : State) (word : Word) : Calm s (s.takeOwnerWord word) := by
  unfold State.takeOwnerWord
  split_ifs
  · unfold State.takePage State.metersAfterSnapshot
    have hcanonical := Table.canonical_build Meters.atReset Config.numPools fun p => { Meters.atReset with peak := (s.pool p).inUse }
    generalize Table.build Meters.atReset Config.numPools (fun p => { Meters.atReset with peak := (s.pool p).inUse }) = meters at *
    exact .trans (.single (.meter _ fun _ => hcanonical)) (nextPagePart_calm _)
  · exact .single (.meter _ id)

theorem pageDone_calm (s : State) : Calm s s.pageDone := by
  unfold State.pageDone
  simp only
  split_ifs with hw
  · exact .single (.meter _ id)
  · exact .tail (.single (.meterNotice (Bool.eq_false_iff.2 hw))) (.meter _ id)

theorem pagePartDone_calm (s : State) : Calm s s.pagePartDone := by
  unfold State.pagePartDone
  split
  · rename_i snap part _ _
    exact .trans (.single (.meter { s.mu with page := .writing snap (part + 1) false } id)) (nextPagePart_calm _)
  · exact .refl
  · exact .refl

theorem execMeterOwnerRead_calm (h : execMeterOwnerRead s = .next t) : Calm s t := by
  unfold execMeterOwnerRead at h
  split_ifs at h with hg <;> cases h
  · exact .tail (.single (.issue .ownerRead _ 4 [] hg.2.2 rfl)) (.meter _ id)
  · exact .refl

theorem execOwnerReadArrival_calm {tag : Nat} {bytes : List Byte} (h : execOwnerReadArrival tag bytes s = .next t) : Calm s t := by
  unfold execOwnerReadArrival at h
  split at h <;> cases h
  · exact (Calm.land s tag).trans (takeOwnerWord_calm _ _)
  · exact .refl

theorem execPageWriteComplete_calm {tag : Nat} (h : execPageWriteComplete tag s = .next t) : Calm s t := by
  unfold execPageWriteComplete at h
  split at h <;> cases h
  · exact (Calm.land s tag).trans (pagePartDone_calm _)
  · exact .refl

theorem execOwnerWordWriteComplete_calm {tag : Nat} (h : execOwnerWordWriteComplete tag s = .next t) : Calm s t := by
  unfold execOwnerWordWriteComplete at h
  split at h <;> cases h
  · exact (Calm.land s tag).trans (pageDone_calm _)
  · exact .refl

/-! ### The Wait Unit's commands -/

theorem execParking_calm (h : execParking s = .next t) : Calm s t := by
  unfold execParking at h
  split at h <;> cases h
  · exact takeParking_calm s _ _ ‹_›
  all_goals exact .refl

theorem execCommitReport_calm (h : execCommitReport s = .next t) : Calm s t := by
  unfold execCommitReport at h
  split at h <;> cases h
  · exact takeCommitReport_calm s _ _ ‹_›
  all_goals exact .refl

/-! ### The step -/

/-- A row that does its tick, or nothing. -/
theorem guarded_turn {p : Prop} [Decidable p] {u : State} (hu : Turn s u)
    (h : (if p then (.next u : Outcome) else .next s) = .next t) : Turn s t := by
  split_ifs at h <;> cases h
  · exact hu
  · exact Calm.turn .refl

/-- A CONTROL write is one of its moves. -/
theorem exec_control {c : Instr} (h : exec c s = .next t) (hc : isControl c = true) : ∃ u, Control s u ∧ t = u.rereadConsumed := by
  cases c <;> cases hc <;> cases h
  · exact ⟨_, .request _ .run rfl, rfl⟩
  · exact ⟨_, .request _ .hold rfl, rfl⟩
  · exact ⟨_, .requestStill _, rfl⟩
  · exact ⟨_, .enable _, rfl⟩

/-- Every other command that is no reset is one turn, or a DMA error. -/
theorem exec_turn {c : Instr} (h : exec c s = .next t) (hr : isReset c = false) (hc : isControl c = false) :
    Turn s t ∨ ∃ tag x, s.transfer tag = some x ∧ t = s.failTransfer x := by
  by_cases hd : ∃ tag, c = .dmaError tag
  · obtain ⟨tag, rfl⟩ := hd
    rcases execDmaError_fails h with rfl | ⟨x, hx, rfl⟩
    · exact .inl (Calm.turn .refl)
    · exact .inr ⟨tag, x, hx, rfl⟩
  refine .inl ?_
  have hlease := (leaseTickEvent_ages s).mono Ages.event
  cases c with
  | exbaseLoWrite value => cases h; exact Event.turn (.baseLo value) (Calm.reread _)
  | exbaseHiWrite value => cases h; exact Event.turn (.baseHi value) (Calm.reread _)
  | post value => cases h; exact Calm.turn (.tail (.single (.post value.toNat)) .reread)
  | requestRun value => cases hc
  | requestHold value => cases hc
  | requestStill value => cases hc
  | interruptEnable value => cases hc
  | functionReset value => cases hr
  | powerOnReset => cases hr
  | functionLevelReset => cases hr
  | causeWrite value => cases h; exact Event.turn (.clearCauses value) (Calm.reread _)
  | registerWriteIgnored reg value => cases h; exact (Calm.reread _).turn
  | cellPick => exact (execCellPick_calm h).turn
  | fetchArrival tag bytes => exact (execFetchArrival_calm h).turn
  | unknownRequestKind => exact (execUnknownRequestKind_calm h).turn
  | draw steps => exact (execDraw_calm h).turn
  | grantEvent sender => exact execGrantEvent_turn h
  | revival => exact execRevival_turn h
  | parking => exact (execParking_calm h).turn
  | renew => exact execRenew_turn h
  | returnLease => exact execReturnLease_turn h
  | returnMatching => exact execReturnMatching_turn h
  | withdraw => exact (execWithdraw_calm h).turn
  | inspectPool => exact (execInspectPool_calm h).turn
  | install => exact (execInstall_calm h).turn
  | setClock => exact (execSetClock_calm h).turn
  | tune => exact (execTune_calm h).turn
  | clearFloor => exact execClearFloor_turn h
  | leaseTick => cases h; exact hlease
  | lapse index => exact guarded_turn hlease h
  | lingerEnd index => exact guarded_turn hlease h
  | tokenTicks => cases h; exact (tickMeterUnit_calm s).turn
  | housekeepingTick => cases h; exact (housekeepingEvent_calm s).turn
  | waitExpiry cell => exact guarded_turn (housekeepingEvent_calm s).turn h
  | graceHoldEnd => exact guarded_turn (housekeepingEvent_calm s).turn h
  | examination steps => cases h; exact Calm.turn ((beginExam_calm s).trans (examSteps_calm steps _))
  | commitReport => exact (execCommitReport_calm h).turn
  | second => cases h; exact (secondEvent_calm s).turn
  | slotStart => exact guarded_turn (secondEvent_calm s).turn h
  | frameStart => exact guarded_turn (secondEvent_calm s).turn h
  | imageReadArrival tag bytes => exact (execImageReadArrival_calm h).turn
  | installCommit => exact execInstallCommit_turn h
  | scheduleContent => exact (execScheduleContent_calm h).turn
  | writeListIssue => exact (execWriteListIssue_calm h).turn
  | answerWriteComplete tag => exact (execAnswerWriteComplete_calm h).turn
  | poolFieldWriteComplete tag => exact (execPoolFieldWriteComplete_calm h).turn
  | statusByteWriteComplete tag => exact (execStatusByteWriteComplete_calm h).turn
  | noticeWrite => exact (execNoticeWrite_calm h).turn
  | noticeEntryWriteComplete tag => exact (execNoticeEntryWriteComplete_calm h).turn
  | noticeWritten tag => exact execNoticeWritten_turn h
  | consumedReadArrival tag bytes => exact (execConsumedReadArrival_calm h).turn
  | dmaError tag => exact absurd ⟨tag, rfl⟩ hd
  | meterCount which => exact (execMeterCount_calm h).turn
  | slotEnd => exact guarded_turn (takeSlotEnd_calm s).turn h
  | intervalEnd => exact guarded_turn (takeSlotEnd_calm s).turn h
  | meterOwnerRead => exact (execMeterOwnerRead_calm h).turn
  | ownerReadArrival tag bytes => exact (execOwnerReadArrival_calm h).turn
  | pageWriteComplete tag => exact (execPageWriteComplete_calm h).turn
  | ownerWordWriteComplete tag => exact (execOwnerWordWriteComplete_calm h).turn

/-- R171: a reset leaves the reset values. -/
theorem exec_reset {c : Instr} (h : exec c s = .next t) (hr : isReset c = true) : t = s.afterReset := by
  cases c <;> cases hr <;> cases h <;> rfl

/-- The state once the front command, if any, has been taken from the queue. -/
def State.unqueued (s : State) : State := { s with pending := s.pending.tail }

/-- Everything a step can do: a turn of the state with its front command taken, a change of the engine state, or the effect of a reset. -/
theorem step_cases (h : step s = .next t) :
    (Turn s.unqueued t ∧ ∀ c rest, s.pending = c :: rest → isReset c = false) ∨
    ((∃ u, Abrupt s.unqueued u ∧ Calm u t) ∧ ∀ c rest, s.pending = c :: rest → isReset c = false) ∨
    (∃ c rest, s.pending = c :: rest ∧ isReset c = true) ∧ t = s.unqueued.afterReset := by
  cases hp : s.pending with
  | nil =>
    rw [step_nil hp] at h
    cases h
    have : s.unqueued = s := by
      unfold State.unqueued
      rw [show s.pending.tail = s.pending by rw [hp]; rfl]
    rw [this]
    exact .inl ⟨(referenceCycle_ages s).mono Ages.event, nofun⟩
  | cons c rest =>
    rw [step_cons hp] at h
    have hu : s.unqueued = { s with pending := rest } := by
      unfold State.unqueued
      rw [hp]
      rfl
    rw [← hu] at h
    have hfront (b : Bool) (hb : isReset c = b) : ∀ c' rest', c :: rest = c' :: rest' → isReset c' = b := by
      rintro c' rest' he
      cases he
      exact hb
    cases hr : isReset c with
    | true => exact .inr (.inr ⟨⟨c, rest, rfl, hr⟩, exec_reset h hr⟩)
    | false =>
      cases hc : isControl c with
      | false =>
        rcases exec_turn h hr hc with ht | ⟨tag, x, hx, rfl⟩
        · exact .inl ⟨ht, hfront _ hr⟩
        · exact .inr (.inl ⟨⟨_, .fail hx, .refl⟩, hfront _ hr⟩)
      | true =>
        obtain ⟨u, hu, rfl⟩ := exec_control h hc
        exact .inr (.inl ⟨⟨u, .control hu, Calm.reread u⟩, hfront _ hr⟩)

/-- What quiet moves keep is kept by a run of them. -/
theorem Calm.keeps {P : State → Prop} (hquiet : ∀ s t, Quiet s t → P s → P t) (h : Calm s t) (hs : P s) : P t := by
  induction h with
  | refl => exact hs
  | tail _ hq ih => exact hquiet _ _ hq ih

/-- What quiet moves and a kind of move keep is kept by a run with at most one of that kind. -/
theorem Around.keeps {e : State → State → Prop} {P : State → Prop} (hquiet : ∀ s t, Quiet s t → P s → P t)
    (hmove : ∀ s t, e s t → P s → P t) (h : Around e s t) (hs : P s) : P t := by
  obtain ⟨u, v, h1, h2, h3⟩ := h
  refine h3.keeps hquiet ?_
  rcases h2 with rfl | he
  · exact h1.keeps hquiet hs
  · exact hmove _ _ he (h1.keeps hquiet hs)

/-- What every move keeps is kept by every step that is no reset. -/
theorem step_keeps_unreset {P : State → Prop} (hpending : P s → P s.unqueued) (hquiet : ∀ s t, Quiet s t → P s → P t)
    (hevent : ∀ s t, Event s t → P s → P t) (habrupt : ∀ s t, Abrupt s t → P s → P t) (h : step s = .next t)
    (hr : ∀ c rest, s.pending = c :: rest → isReset c = false) (hs : P s) : P t := by
  rcases step_cases h with ⟨hm, -⟩ | ⟨⟨u, hu, hm⟩, -⟩ | ⟨⟨c, rest, hp, hc⟩, -⟩
  · exact hm.keeps hquiet hevent (hpending hs)
  · exact hm.keeps hquiet (habrupt _ _ hu (hpending hs))
  · exact absurd (hr c rest hp) (by rw [hc]; nofun)

/-- What every move and every reset keeps is kept by every step. -/
theorem step_keeps {P : State → Prop} (hpending : P s → P s.unqueued) (hquiet : ∀ s t, Quiet s t → P s → P t)
    (hevent : ∀ s t, Event s t → P s → P t) (habrupt : ∀ s t, Abrupt s t → P s → P t) (hreset : ∀ s : State, P s.afterReset)
    (h : step s = .next t) (hs : P s) : P t := by
  rcases step_cases h with ⟨hm, -⟩ | ⟨⟨u, hu, hm⟩, -⟩ | ⟨-, rfl⟩
  · exact hm.keeps hquiet hevent (hpending hs)
  · exact hm.keeps hquiet (habrupt _ _ hu (hpending hs))
  · exact hreset _

end Sys2Proof.Machine
end

