-- ==== Sys2Proof/Proofs/MoveFrames.lean ====
section
/-! SUPPORT. What the moves leave as it was; and what follows at once: O48, O49 and O50. -/

namespace Sys2Proof.Machine

variable {s t : State}

/-- What no quiet move changes; and outside RUN and HOLD none puts a transfer in flight. -/
structure Untouched (s t : State) : Prop where
  lt : t.lt = s.lt
  et : t.et = s.et
  engine : t.xi.engine = s.xi.engine
  base : t.xi.base = s.xi.base
  retry : t.xi.retry = s.xi.retry
  notice : t.xi.causeNotice = s.xi.causeNotice
  fault : t.xi.causeFault = s.xi.causeFault
  enable : t.xi.intEnable = s.xi.intEnable
  msi : t.msiSent = s.msiSent
  pending : t.pending = s.pending
  flight : s.xi.engine.dma = false → ∀ x ∈ t.xi.inFlight, x ∈ s.xi.inFlight

theorem Untouched.refl (s : State) : Untouched s s := ⟨rfl, rfl, rfl, rfl, rfl, rfl, rfl, rfl, rfl, rfl, fun _ _ h => h⟩

theorem Untouched.trans {u : State} (h : Untouched s t) (h' : Untouched t u) : Untouched s u where
  lt := h'.lt.trans h.lt
  et := h'.et.trans h.et
  engine := h'.engine.trans h.engine
  base := h'.base.trans h.base
  retry := h'.retry.trans h.retry
  notice := h'.notice.trans h.notice
  fault := h'.fault.trans h.fault
  enable := h'.enable.trans h.enable
  msi := h'.msi.trans h.msi
  pending := h'.pending.trans h.pending
  flight := fun hd x hx => h.flight hd x (h'.flight (h.engine ▸ hd) x hx)

/-- A move of other fields that issues nothing. -/
theorem Untouched.same (lt : t.lt = s.lt) (et : t.et = s.et)
    (xi : t.xi = { s.xi with
      cells := t.xi.cells, servicePointer := t.xi.servicePointer, readAhead := t.xi.readAhead, writeList := t.xi.writeList,
      writeStage := t.xi.writeStage, notices := t.xi.notices, noticeStage := t.xi.noticeStage, cached := t.xi.cached,
      written := t.xi.written }) (msi : t.msiSent = s.msiSent) (pending : t.pending = s.pending) : Untouched s t where
  lt := lt
  et := et
  engine := by rw [xi]
  base := by rw [xi]
  retry := by rw [xi]
  notice := by rw [xi]
  fault := by rw [xi]
  enable := by rw [xi]
  msi := msi
  pending := pending
  flight := fun _ x hx => by rw [xi] at hx; exact hx

theorem untouched_issue (kind : TransferKind) (addr : HostAddr) (len : Nat) (bytes : List Byte) (h : s.xi.engine.dma = true) :
    Untouched s (s.issue kind addr len bytes) :=
  ⟨rfl, rfl, rfl, rfl, rfl, rfl, rfl, rfl, rfl, rfl, fun hd => absurd (h.symm.trans hd) nofun⟩

theorem untouched_landed (tag : Nat) : Untouched s (s.landed tag) :=
  ⟨rfl, rfl, rfl, rfl, rfl, rfl, rfl, rfl, rfl, rfl, fun _ _ hx => List.mem_of_mem_filter hx⟩

theorem untouched_reread (s : State) : Untouched s s.rereadConsumed := by
  rcases rereadConsumed_cases s with ⟨h, -⟩ | ⟨⟨-, -, -, hd, -⟩, h⟩
  · rw [h]
    exact .refl s
  · rw [h]
    exact untouched_issue _ _ _ _ hd

theorem handAnswers_same (s : State) (as : List (Nat × Answer)) : Untouched s (s.handAnswers as) := by
  induction as generalizing s with
  | nil => exact .refl s
  | cons a as ih => exact (Untouched.same (s := s) (t := s.handAnswer a.1 a.2) rfl rfl rfl rfl rfl).trans (ih _)

/-- R162: the cell picked holds its slot, and its fetch is yet to be issued. -/
def State.slotTaken (s : State) (c : Nat) : State :=
  { s.setCellState c .fetching with xi.servicePointer := c, xi.readAhead := s.xi.readAhead ++ [c] }

theorem pickCell_eq (s : State) (c : Nat) : s.pickCell c =
    (s.slotTaken c).issue (.fetch c) (exchangeAddr s.xi.base (cellOffset c)) Config.cellCopyBytes [] := rfl

theorem Quiet.untouched (h : Quiet s t) : Untouched s t := by
  cases h with
  | issue kind addr len bytes dma plain => exact untouched_issue _ _ _ _ dma
  | reread => exact untouched_reread s
  | land tag => exact untouched_landed tag
  | retireWrite =>
    unfold State.retireWrite
    split
    · exact .refl s
    all_goals exact .same rfl rfl rfl rfl rfl
  | noticeEntry dma room stage =>
    unfold State.issueNoticeEntry
    split
    · exact .refl s
    · exact (untouched_issue _ _ _ _ dma).trans (.same rfl rfl rfl rfl rfl)
  | @noticeCount tag i x found kind dma =>
    unfold State.issueNoticeCount
    split
    · exact untouched_landed tag
    · have hdma : (s.landed tag).xi.engine.dma = true := dma
      exact (untouched_landed tag).trans ((untouched_issue _ _ _ _ hdma).trans (.same rfl rfl rfl rfl rfl))
  | @noticeCountWaits tag i x found kind => exact (untouched_landed tag).trans (.same rfl rfl rfl rfl rfl)
  | @consumed tag x found kind value =>
    unfold State.takeConsumed
    split_ifs
    · exact untouched_landed tag
    · exact (untouched_landed tag).trans (.same rfl rfl rfl rfl rfl)
  | @fetched tag c x found kind copy => exact (untouched_landed tag).trans (.same rfl rfl rfl rfl rfl)
  | @pick c pending dma room =>
    have hdma : (s.slotTaken c).xi.engine.dma = true := dma
    exact (Untouched.same (s := s) (t := s.slotTaken c) rfl rfl rfl rfl rfl).trans (untouched_issue _ _ _ _ hdma)
  | post c =>
    unfold State.postCell
    split_ifs
    · exact .refl s
    · split
      · exact .same rfl rfl rfl rfl rfl
      · exact .same rfl rfl rfl rfl rfl
      all_goals exact .refl s
  | dequeue qs as leaves =>
    exact (Untouched.same (s := s) (t := { s with wu.queues := qs }) rfl rfl rfl rfl rfl).trans (handAnswers_same _ _)
  | _ => exact .same rfl rfl rfl rfl rfl

theorem Calm.untouched (h : Calm s t) : Untouched s t := by
  induction h with
  | refl => exact .refl s
  | tail _ hq ih => exact ih.trans hq.untouched

/-! ### What the events leave as it was -/

/-- R168: setting CAUSE NOTICE changes the bit and the tally only. -/
theorem setCauseNotice_eq (s : State) : s.setCauseNotice = { s with
    msiSent := s.msiSent + (if s.xi.intEnable = true ∧ s.xi.causeNotice = false then 1 else 0), xi.causeNotice := true } := by
  unfold State.setCauseNotice State.sendMsi
  cases he : s.xi.intEnable <;> cases hc : s.xi.causeNotice <;> rfl

/-- R168: setting CAUSE FAULT changes the bit and the tally only. -/
theorem setCauseFault_eq (s : State) : s.setCauseFault = { s with
    msiSent := s.msiSent + (if s.xi.intEnable = true ∧ s.xi.causeFault = false then 1 else 0), xi.causeFault := true } := by
  unfold State.setCauseFault State.sendMsi
  cases he : s.xi.intEnable <;> cases hc : s.xi.causeFault <;> rfl

/-- R168: taking the enable changes the enable and the tally only. -/
theorem takeEnable_eq (s : State) (enable : Bool) : s.takeEnable enable = { s with
    msiSent := s.msiSent +
      (if s.xi.intEnable = false ∧ enable = true ∧ (s.xi.causeNotice = true ∨ s.xi.causeFault = true) then 1 else 0)
    xi.intEnable := enable } := by
  unfold State.takeEnable State.sendMsi
  cases enable <;> cases he : s.xi.intEnable <;> cases hn : s.xi.causeNotice <;> cases hf : s.xi.causeFault <;> rfl

/-- What a step that is no CONTROL write, no DMA error and no reset leaves as it was, and the MSIs it sends. -/
structure Steady (s t : State) : Prop where
  engine : t.xi.engine = s.xi.engine
  retry : t.xi.retry = s.xi.retry
  enable : t.xi.intEnable = s.xi.intEnable
  pending : t.pending = s.pending
  flight : s.xi.engine.dma = false → ∀ x ∈ t.xi.inFlight, x ∈ s.xi.inFlight
  tally : t.msiSent = s.msiSent +
    (if s.xi.intEnable = true ∧ s.xi.causeNotice = false ∧ t.xi.causeNotice = true then 1 else 0) +
    (if s.xi.intEnable = true ∧ s.xi.causeFault = false ∧ t.xi.causeFault = true then 1 else 0)

/-- R168: no MSI where no cause bit rises. -/
theorem tally_of_kept (hn : t.xi.causeNotice = true → s.xi.causeNotice = true) (hf : t.xi.causeFault = true → s.xi.causeFault = true)
    (h : t.msiSent = s.msiSent) : t.msiSent = s.msiSent +
      (if s.xi.intEnable = true ∧ s.xi.causeNotice = false ∧ t.xi.causeNotice = true then 1 else 0) +
      (if s.xi.intEnable = true ∧ s.xi.causeFault = false ∧ t.xi.causeFault = true then 1 else 0) := by
  rw [if_neg fun hc => absurd (hn hc.2.2) (by rw [hc.2.1]; nofun), if_neg fun hc => absurd (hf hc.2.2) (by rw [hc.2.1]; nofun), h, Nat.add_zero]

theorem Untouched.steady (h : Untouched s t) : Steady s t :=
  ⟨h.engine, h.retry, h.enable, h.pending, h.flight, tally_of_kept (fun hn => h.notice ▸ hn) (fun hf => h.fault ▸ hf) h.msi⟩

/-- A steady move between two that touch neither the causes nor the enable. -/
theorem Untouched.trans_steady {u : State} (h : Untouched s t) (h' : Steady t u) : Steady s u where
  engine := h'.engine.trans h.engine
  retry := h'.retry.trans h.retry
  enable := h'.enable.trans h.enable
  pending := h'.pending.trans h.pending
  flight := fun hd x hx => h.flight hd x (h'.flight (h.engine ▸ hd) x hx)
  tally := by rw [h'.tally, h.msi, h.notice, h.fault, h.enable]

theorem Steady.trans_untouched {u : State} (h : Steady s t) (h' : Untouched t u) : Steady s u where
  engine := h'.engine.trans h.engine
  retry := h'.retry.trans h.retry
  enable := h'.enable.trans h.enable
  pending := h'.pending.trans h.pending
  flight := fun hd x hx => h.flight hd x (h'.flight (h.engine ▸ hd) x hx)
  tally := by rw [h'.msi, h.tally, h'.notice, h'.fault]

/-- A move of other fields that sends nothing. -/
theorem Steady.same (xi : t.xi = { s.xi with base := t.xi.base, cells := t.xi.cells, notices := t.xi.notices })
    (msi : t.msiSent = s.msiSent) (pending : t.pending = s.pending) : Steady s t where
  engine := by rw [xi]
  retry := by rw [xi]
  enable := by rw [xi]
  pending := pending
  flight := fun _ x hx => by rw [xi] at hx; exact hx
  tally := tally_of_kept (fun h => by rw [xi] at h; exact h) (fun h => by rw [xi] at h; exact h) msi

/-- The blocks of which nothing is said may differ. -/
theorem Steady.congr {u : State} (h : Steady s t) (xi : u.xi = t.xi) (msi : u.msiSent = t.msiSent) (pending : u.pending = t.pending) :
    Steady s u where
  engine := by rw [xi, h.engine]
  retry := by rw [xi, h.retry]
  enable := by rw [xi, h.enable]
  pending := by rw [pending, h.pending]
  flight := fun hd x hx => h.flight hd x (xi ▸ hx)
  tally := by rw [msi, xi, h.tally]

/-! ### The records that give back their tokens -/

/-- R16: the records that stop holding tokens and a seat when every record changes by `f`, as they were. -/
def State.freedBy (s : State) (f : Nat → Lease → Lease) : List Lease :=
  (s.lt.leases.filter fun e => e.2.holds && !(f e.1 e.2).holds).map Prod.snd

/-- R18: every record changes by `f`, notices and counts are queued, the records that stop holding are freed, and a record that has become
FREE is reported where there is one. -/
def State.released (s : State) (f : Nat → Lease → Lease) (notices : List Notice) (inbox : List MeterCount) (freed : List Lease)
    (report : Bool) : State :=
  let ended := State.freeEvent
    { s with lt.leases := Table.mapEntries Lease.atReset f s.lt.leases, xi.notices := notices, mu.inbox := inbox } freed
  if report then ended.reportRecordFree else ended

/-- R18: everything a release changes. -/
theorem released_eq (s : State) (f : Nat → Lease → Lease) (notices : List Notice) (inbox : List MeterCount) (freed : List Lease)
    (report : Bool) : s.released f notices inbox freed report =
      { s with
        lt.leases := Table.mapEntries Lease.atReset f s.lt.leases
        xi.notices := notices
        mu.inbox := inbox
        et := (s.freeEvent freed).et
        su := (s.freeEvent freed).su
        wu := if report then (s.freeEvent freed).reportRecordFree.wu else (s.freeEvent freed).wu } := by
  have h := freeEvent_congr (s := s)
    (t := { s with lt.leases := Table.mapEntries Lease.atReset f s.lt.leases, xi.notices := notices, mu.inbox := inbox })
    freed rfl rfl rfl
  unfold State.released
  simp only [h]
  cases report <;> rfl

/-- R92: aging is a release. -/
theorem ageLeases_eq (s : State) : s.ageLeases = s.released (fun _ l => l.aged)
    (s.xi.notices ++ (Table.select (fun _ l => l.lapsing) s.lt.leases).map lapseNotice)
    (s.mu.inbox ++ (Table.select (fun _ l => l.lapsing) s.lt.leases).map fun e => MeterCount.raise .lapses e.2.pool)
    ((Table.select (fun _ l => l.lapsing || l.lingerEnding) s.lt.leases).map Prod.snd)
    (!(Table.select (fun _ l => l.lingerEnding) s.lt.leases).isEmpty) := by
  unfold State.ageLeases State.released
  simp only
  cases (Table.select (fun _ l => l.lingerEnding) s.lt.leases).isEmpty <;> rfl

/-- R109: the record once CLEAR_FLOOR has been at it. -/
def State.cleared (s : State) (i : Nat) (l : Lease) : Lease :=
  if s.clearedByFloor i l then { l with st := .free, generation := l.generation + 1 } else l

/-- R109: the Lease Table's part of CLEAR_FLOOR is a release. -/
theorem clearLeases_released (s : State) : s.clearLeases = s.released s.cleared s.noticesKept s.mu.inbox s.holders
    (!(Table.select s.clearedByFloor s.lt.leases).isEmpty) := by
  rw [clearLeases_eq]
  unfold State.released
  cases (Table.select s.clearedByFloor s.lt.leases).isEmpty <;> rfl

/-- R104: a return is a release. -/
theorem returnRecords_released (s : State) (skip : Bool) (chosen : Nat → Lease → Bool) :
    s.returnRecords skip chosen = s.released (fun i l => if chosen i l then s.returnedLease skip l else l) s.xi.notices s.mu.inbox
      (((Table.select chosen s.lt.leases).map Prod.snd).filter (s.freedByReturn skip))
      (!(((Table.select chosen s.lt.leases).map Prod.snd).filter (s.freedByReturn skip)).isEmpty) := by
  unfold State.returnRecords State.released State.freeReturned
  cases ((Table.select chosen s.lt.leases).map Prod.snd).filter (s.freedByReturn skip) <;> rfl

/-- R166: what a notice's kind adds to the notice-written event. -/
theorem noticeDelivered_eq (s : State) (n : Notice) : s.noticeDelivered n = { s with
    xi.cells := (s.noticeDelivered n).xi.cells, lt := (s.noticeDelivered n).lt, wu.due := (s.noticeDelivered n).wu.due } := by
  cases n with
  | answer c r p => rfl
  | lapse i g p =>
    simp only [State.noticeDelivered, State.lapseWritten]
    split_ifs <;> rfl
  | meter => rfl

/-- R166, R168: the state once the front notice has left and CAUSE NOTICE is set. -/
def State.noticeTaken (s : State) (rest : List Notice) : State :=
  { s with
    msiSent := s.msiSent + (if s.xi.intEnable = true ∧ s.xi.causeNotice = false then 1 else 0)
    xi.written := s.xi.written + 1
    xi.notices := rest
    xi.noticeStage := .notBegun
    xi.causeNotice := true }

theorem noticeWrittenEvent_of_front {n : Notice} {rest : List Notice} (h : s.xi.notices = n :: rest) :
    s.noticeWrittenEvent = (s.noticeTaken rest).noticeDelivered n := by
  unfold State.noticeWrittenEvent
  rw [h]
  simp only
  rw [setCauseNotice_eq]
  rfl

theorem noticeWrittenEvent_of_nil (h : s.xi.notices = []) : s.noticeWrittenEvent = s := by
  unfold State.noticeWrittenEvent
  rw [h]

/-- R166: everything the notice-written event changes. -/
theorem noticeWrittenEvent_eq (s : State) : s.noticeWrittenEvent = { s with
    msiSent := s.noticeWrittenEvent.msiSent
    xi.written := s.noticeWrittenEvent.xi.written
    xi.notices := s.noticeWrittenEvent.xi.notices
    xi.noticeStage := s.noticeWrittenEvent.xi.noticeStage
    xi.causeNotice := s.noticeWrittenEvent.xi.causeNotice
    xi.cells := s.noticeWrittenEvent.xi.cells
    lt := s.noticeWrittenEvent.lt
    wu.due := s.noticeWrittenEvent.wu.due } := by
  cases hn : s.xi.notices with
  | nil => rw [noticeWrittenEvent_of_nil hn]
  | cons n rest =>
    rw [noticeWrittenEvent_of_front hn, noticeDelivered_eq]
    rfl

/-- R166, R168: a notice written, and its MSI. -/
theorem noticeWrittenEvent_steady (s : State) : Steady s s.noticeWrittenEvent := by
  cases hn : s.xi.notices with
  | nil =>
    rw [noticeWrittenEvent_of_nil hn]
    exact (Untouched.refl s).steady
  | cons n rest =>
    have hbit : Steady s (s.noticeTaken rest) := ⟨rfl, rfl, rfl, rfl, fun _ _ h => h, by
      rw [if_neg (c := _ ∧ _ ∧ (s.noticeTaken rest).xi.causeFault = true) fun hc => absurd hc.2.2
        (by rw [show (s.noticeTaken rest).xi.causeFault = s.xi.causeFault from rfl, hc.2.1]; nofun)]
      simp [State.noticeTaken]⟩
    rw [noticeWrittenEvent_of_front hn, noticeDelivered_eq]
    exact ⟨hbit.1, hbit.2, hbit.3, hbit.4, hbit.5, hbit.6⟩

theorem Event.steady (h : Event s t) : Steady s t := by
  cases h with
  | clearCauses value =>
    exact ⟨rfl, rfl, rfl, rfl, fun _ _ h => h, tally_of_kept (fun h => (Bool.and_eq_true_iff.1 h).1)
      (fun h => (Bool.and_eq_true_iff.1 h).1) rfl⟩
  | baseLo value =>
    unfold State.writeBaseLo
    cases s.xi.engine <;> exact .same rfl rfl rfl
  | baseHi value =>
    unfold State.writeBaseHi
    cases s.xi.engine <;> exact .same rfl rfl rfl
  | @notice tag i x found kind => exact (untouched_landed tag).trans_steady (noticeWrittenEvent_steady _)
  | returns skip chosen held =>
    rw [returnRecords_released, released_eq]
    exact .same rfl rfl rfl
  | age =>
    rw [ageLeases_eq, released_eq]
    exact .same rfl rfl rfl
  | clear =>
    rw [clearLeases_released, released_eq]
    exact .same rfl rfl rfl
  | commit committing =>
    unfold State.commit
    generalize Table.build Pool.atReset Config.numPools _ = pools
    exact .same rfl rfl rfl
  | _ => exact .same rfl rfl rfl

/-- What a turn leaves as it was, and the MSIs it sends. -/
theorem Turn.steady (h : Turn s t) : Steady s t := by
  obtain ⟨u, v, h1, h2, h3⟩ := h
  rcases h2 with rfl | he
  · exact (h1.untouched.trans h3.untouched).steady
  · exact h1.untouched.trans_steady (he.steady.trans_untouched h3.untouched)

/-! ### The changes of the engine state -/

/-- R169: the fields a DMA error changes. -/
theorem failTransfer_eq (s : State) (x : Transfer) : s.failTransfer x = { s with
    msiSent := s.msiSent + (if s.xi.engine ≠ .faulted ∧ s.xi.intEnable = true ∧ s.xi.causeFault = false then 1 else 0)
    xi := { s.xi with
      engine := .faulted
      inFlight := s.xi.inFlight.filter fun y => decide (y.tag ≠ x.tag)
      retry := insertByKey Transfer.tag x s.xi.retry
      causeFault := s.xi.causeFault || decide (s.xi.engine ≠ .faulted)
      faultKind := if s.xi.engine = .faulted then s.xi.faultKind else x.kind.faultKind
      faultIndex := if s.xi.engine = .faulted then s.xi.faultIndex else x.kind.faultIndex
      faultAddr := if s.xi.engine = .faulted then s.xi.faultAddr else x.addr.setWidth 20 }
    tb := if s.xi.engine = .still then s.loadGrace.tb else s.tb
    install := match s.install with
      | .reading im => .reading { im with readTag := none, restart := true }
      | i => i } := by
  unfold State.failTransfer
  simp only [setCauseFault_eq]
  obtain ⟨pending, nextTag, msiSent, xi, decision, et, lt, wu, tb, su, install, mu⟩ := s
  obtain ⟨base, engine, baseInvalid, cells, servicePointer, readAhead, writeList, writeStage, notices, noticeStage, written, cached,
    causeNotice, causeFault, intEnable, faultKind, faultIndex, faultAddr, inFlight, retry⟩ := xi
  cases engine <;> cases install <;> cases causeFault <;> simp [State.landed, State.loadGrace]

/-- R170: what resuming leaves as it was. -/
theorem resumed_frame {target : EngineState} (h : s.xi.engine = .still ∨ s.xi.engine = .faulted) :
    s.requestDmaState target = { s with
      nextTag := (s.requestDmaState target).nextTag
      xi := { s.xi with
        engine := target
        retry := []
        inFlight := (s.requestDmaState target).xi.inFlight
        writeStage := (s.requestDmaState target).xi.writeStage
        noticeStage := (s.requestDmaState target).xi.noticeStage }
      tb := (s.requestDmaState target).tb
      install := (s.requestDmaState target).install
      mu := (s.requestDmaState target).mu } := by
  have := requestDmaState_resumed s target h _ _ rfl rfl
  rw [this]

/-- Table 9-2: the cases of a request for RUN or HOLD. -/
theorem requestDmaState_cases (s : State) (target : EngineState) :
    (s.xi.engine = .offline ∧ s.xi.base = 0 ∧ s.requestDmaState target = { s with xi.baseInvalid := true }) ∨
    (s.xi.engine = .offline ∧ s.xi.base ≠ 0 ∧ s.requestDmaState target = { s with xi.engine := target, xi.baseInvalid := false }) ∨
    ((s.xi.engine = .run ∨ s.xi.engine = .hold) ∧ s.requestDmaState target = { s with xi.engine := target }) ∨
    (s.xi.engine = .still ∨ s.xi.engine = .faulted) := by
  unfold State.requestDmaState State.leaveOffline
  cases s.xi.engine <;> by_cases hb : s.xi.base = 0 <;> simp [hb, Classical.em]

/-- Table 9-2: the cases of a request for STILL. -/
theorem requestStillState_cases (s : State) :
    (s.xi.engine = .offline ∧ s.xi.base = 0 ∧ s.requestStillState = { s with xi.baseInvalid := true }) ∨
    (s.xi.engine = .offline ∧ s.xi.base ≠ 0 ∧ s.requestStillState = { s with xi.engine := .still, xi.baseInvalid := false }) ∨
    (s.xi.engine ≠ .offline ∧ s.requestStillState = { s with xi.engine := .still }) := by
  unfold State.requestStillState State.leaveOffline
  obtain ⟨pending, nextTag, msiSent, xi, decision, et, lt, wu, tb, su, install, mu⟩ := s
  obtain ⟨base, engine, baseInvalid⟩ := xi
  cases engine <;> by_cases hb : base = 0 <;> simp [hb, Classical.em]

/-- R159: outside RUN and HOLD, no change of the engine state puts a transfer in flight. -/
theorem Abrupt.flight (h : Abrupt s t) (hd : t.xi.engine.dma = false) : ∀ x ∈ t.xi.inFlight, x ∈ s.xi.inFlight := by
  cases h with
  | fail found =>
    rw [failTransfer_eq]
    exact fun x hx => List.mem_of_mem_filter hx
  | control h =>
    cases h with
    | request enable target dma =>
      have hs : ∀ x ∈ (s.takeEnable enable).xi.inFlight, x ∈ s.xi.inFlight := by
        rw [takeEnable_eq]
        exact fun x hx => hx
      rcases requestDmaState_cases (s.takeEnable enable) target with ⟨-, -, he⟩ | ⟨-, -, he⟩ | ⟨-, he⟩ | hold
      · rw [he]
        exact hs
      · rw [he]
        exact hs
      · rw [he]
        exact hs
      · rw [resumed_frame hold] at hd
        exact absurd (dma.symm.trans hd) nofun
    | requestStill enable =>
      rcases requestStillState_cases (s.takeEnable enable) with ⟨-, -, he⟩ | ⟨-, -, he⟩ | ⟨-, he⟩ <;>
      · rw [he, takeEnable_eq]
        exact fun x hx => hx
    | enable enable =>
      rw [takeEnable_eq]
      exact fun x hx => hx

/-- Settles O48: outside RUN and HOLD no move issues, and only a CONTROL write enters RUN or HOLD. -/
theorem dmaOnlyInRunAndHold : Obligations.DmaOnlyInRunAndHold := by
  intro s t h hrun hhold
  have hd : t.xi.engine.dma = false := by
    cases he : t.xi.engine with
    | run => exact absurd he hrun
    | hold => exact absurd he hhold
    | offline => rfl
    | still => rfl
    | faulted => rfl
  rcases step_cases h with ⟨hm, -⟩ | ⟨⟨u, hu, hm⟩, -⟩ | ⟨-, rfl⟩
  · exact hm.steady.flight (hm.steady.engine ▸ hd)
  · have hud : u.xi.engine.dma = false := hm.untouched.engine ▸ hd
    exact fun x hx => hu.flight hud x (hm.untouched.flight hud x hx)
  · exact nofun

/-- R168: the MSIs of a DMA error. -/
theorem failTransfer_tally (s : State) (x : Transfer) : (s.failTransfer x).msiSent = s.msiSent +
    (if s.xi.intEnable = true ∧ s.xi.causeNotice = false ∧ (s.failTransfer x).xi.causeNotice = true then 1 else 0) +
    (if s.xi.intEnable = true ∧ s.xi.causeFault = false ∧ (s.failTransfer x).xi.causeFault = true then 1 else 0) := by
  rw [failTransfer_eq]
  cases s.xi.intEnable <;> cases s.xi.causeNotice <;> cases s.xi.causeFault <;> cases s.xi.engine <;> rfl

/-- R168: the MSIs of a CONTROL write. -/
theorem Control.tally (h : Control s t) : t.msiSent = s.msiSent +
    (if s.xi.intEnable = false ∧ t.xi.intEnable = true ∧ (s.xi.causeNotice = true ∨ s.xi.causeFault = true) then 1 else 0) := by
  have hkept {u : State} {enable : Bool} (hm : u.msiSent = (s.takeEnable enable).msiSent)
      (he : u.xi.intEnable = (s.takeEnable enable).xi.intEnable) : u.msiSent = s.msiSent +
      (if s.xi.intEnable = false ∧ u.xi.intEnable = true ∧ (s.xi.causeNotice = true ∨ s.xi.causeFault = true) then 1 else 0) := by
    rw [hm, he, takeEnable_eq]
  cases h with
  | request enable target dma =>
    rcases requestDmaState_cases (s.takeEnable enable) target with ⟨-, -, he⟩ | ⟨-, -, he⟩ | ⟨-, he⟩ | hold
    · exact hkept (by rw [he]) (by rw [he])
    · exact hkept (by rw [he]) (by rw [he])
    · exact hkept (by rw [he]) (by rw [he])
    · exact hkept (by rw [resumed_frame hold]) (by rw [resumed_frame hold])
  | requestStill enable =>
    rcases requestStillState_cases (s.takeEnable enable) with ⟨-, -, he⟩ | ⟨-, -, he⟩ | ⟨-, he⟩ <;>
    · exact hkept (by rw [he]) (by rw [he])
  | enable enable => exact hkept rfl rfl

/-- Settles O49: only the notice-written event and a DMA error raise a cause, only a CONTROL write raises the enable, and a cycle of the
reference does neither. -/
theorem msiOnlyAsStated : Obligations.MsiOnlyAsStated := by
  refine ⟨fun c s t h hr => ⟨fun hc => ?_, fun hc => ?_⟩, fun s t hp h => ?_⟩
  · rcases exec_turn h hr hc with hm | ⟨tag, x, -, rfl⟩
    · exact hm.steady.tally
    · exact failTransfer_tally s x
  · obtain ⟨u, hu, rfl⟩ := exec_control h hc
    rw [(untouched_reread u).msi, (untouched_reread u).enable]
    exact hu.tally
  · rw [step_nil hp] at h
    cases h
    obtain ⟨u, v, h1, h2, h3⟩ := referenceCycle_ages s
    have hv : v.msiSent = u.msiSent := by
      rcases h2 with rfl | rfl
      · rfl
      · rw [ageLeases_eq, released_eq]
    rw [h3.untouched.msi, hv, h1.untouched.msi]

end Sys2Proof.Machine
end

