-- ==== Sys2Proof/Proofs/CanonicalForm.lean ====
section
/-! SUPPORT. Every move keeps the canonical form of every table (log entry 21): O51. -/

namespace Sys2Proof.Machine

variable {s t : State}

/-- Log entry 21, block by block. -/
structure State.Canonical (s : State) : Prop where
  cells : Table.canonical Cell.atReset s.xi.cells = true
  pools : Table.canonical Pool.atReset s.et.pools = true
  leases : Table.wf Lease.atReset Config.numLeases s.lt.leases = true
  queues : Table.canonical [] s.wu.queues = true
  stall : rising s.wu.stall = true
  due : rising s.wu.due = true
  activeMasks : Table.canonical 0 s.su.activeMasks = true
  stagedMasks : Table.canonical none s.su.stagedMasks = true
  meters : Table.canonical Meters.atReset s.mu.meters = true

theorem canonical_iff (s : State) : s.canonical = true ↔ s.Canonical := by
  simp only [State.canonical, Bool.and_eq_true]
  exact ⟨fun ⟨⟨⟨⟨⟨⟨⟨⟨h1, h2⟩, h3⟩, h4⟩, h5⟩, h6⟩, h7⟩, h8⟩, h9⟩ => ⟨h1, h2, h3, h4, h5, h6, h7, h8, h9⟩,
    fun h => ⟨⟨⟨⟨⟨⟨⟨⟨h.1, h.2⟩, h.3⟩, h.4⟩, h.5⟩, h.6⟩, h.7⟩, h.8⟩, h.9⟩⟩

theorem canonical_setCell (h : Table.canonical Cell.atReset s.xi.cells = true) (c : Nat) (v : Cell) :
    Table.canonical Cell.atReset (s.setCell c v).xi.cells = true := Table.canonical_set _ _ _ _ h

theorem canonical_cells_handAnswers (as : List (Nat × Answer)) (h : Table.canonical Cell.atReset s.xi.cells = true) :
    Table.canonical Cell.atReset (s.handAnswers as).xi.cells = true := by
  induction as generalizing s with
  | nil => exact h
  | cons a as ih => exact ih (s := s.handAnswer a.1 a.2) (by dsimp only [State.handAnswer]; exact Table.canonical_set _ _ _ _ h)

theorem rereadConsumed_eq (s : State) : s.rereadConsumed = { s with
    nextTag := s.rereadConsumed.nextTag, xi.inFlight := s.rereadConsumed.xi.inFlight } := by
  rcases rereadConsumed_cases s with ⟨h, -⟩ | ⟨-, h⟩ <;> rw [h]
  rfl

theorem issueNoticeEntry_eq (s : State) : s.issueNoticeEntry = { s with
    nextTag := s.issueNoticeEntry.nextTag
    xi.inFlight := s.issueNoticeEntry.xi.inFlight
    xi.noticeStage := s.issueNoticeEntry.xi.noticeStage } := by
  unfold State.issueNoticeEntry
  split <;> rfl

theorem issueNoticeCount_eq (s : State) : s.issueNoticeCount = { s with
    nextTag := s.issueNoticeCount.nextTag
    xi.inFlight := s.issueNoticeCount.xi.inFlight
    xi.noticeStage := s.issueNoticeCount.xi.noticeStage } := by
  unfold State.issueNoticeCount
  split <;> rfl

theorem takeConsumed_eq (s : State) (value : Word) : s.takeConsumed value = { s with xi.cached := (s.takeConsumed value).xi.cached } := by
  unfold State.takeConsumed
  split_ifs <;> rfl

/-- R161: the cell once it is posted. -/
theorem postCell_eq (s : State) (c : Nat) : s.postCell c = s ∨ s.postCell c = s.setCellState c .pending ∧ (s.cell c).st = .idle ∧ c < 1024 ∨
    s.postCell c = s.setCell c { s.cell c with repost := true } ∧ (s.cell c).st = .notifying ∧ c < 1024 := by
  unfold State.postCell
  split_ifs with hc
  · exact .inl rfl
  · cases hst : (s.cell c).st <;> simp_all [Config.numCells]

/-- Every quiet move keeps the canonical form. -/
theorem Quiet.canonical (h : Quiet s t) (hs : s.Canonical) : t.Canonical := by
  have hcell (c : Nat) (v : Cell) : Table.canonical Cell.atReset (Table.set Cell.atReset s.xi.cells c v) = true :=
    Table.canonical_set _ _ _ _ hs.cells
  cases h with
  | meter mu canonical => exact { hs with meters := canonical hs.meters }
  | schedule su position masks staged clock frame =>
    exact { hs with activeMasks := masks hs.activeMasks, stagedMasks := staged hs.stagedMasks }
  | waitUnit wu queues parked stall due named =>
    exact { hs with queues := queues ▸ hs.queues, stall := stall hs.stall, due := due hs.due }
  | reread =>
    rw [rereadConsumed_eq]
    exact { hs with }
  | retireWrite =>
    unfold State.retireWrite
    split
    · exact hs
    · unfold State.setCellState State.setCell State.handNotice
      exact { hs with cells := by dsimp only; exact hcell _ _ }
    · exact { hs with }
  | noticeEntry dma room stage =>
    rw [issueNoticeEntry_eq]
    exact { hs with }
  | noticeCount found kind dma =>
    rw [issueNoticeCount_eq]
    exact { hs with }
  | consumed found kind value =>
    rw [takeConsumed_eq]
    exact { hs with }
  | pick pending dma room =>
    unfold State.pickCell State.setCellState State.setCell State.issue
    exact { hs with cells := by dsimp only; exact hcell _ _ }
  | fetched found kind copy =>
    unfold State.setCell State.landed
    exact { hs with cells := by dsimp only; exact hcell _ _ }
  | post c =>
    rcases postCell_eq s c with he | ⟨he, -⟩ | ⟨he, -⟩ <;> rw [he]
    · exact hs
    · unfold State.setCellState State.setCell
      exact { hs with cells := by dsimp only; exact hcell _ _ }
    · unfold State.setCell
      exact { hs with cells := by dsimp only; exact hcell _ _ }
  | decide serves d cell pools => exact { hs with cells := by dsimp only; exact hcell _ _ }
  | answer serves a =>
    unfold State.handAnswer State.takenFrom
    exact { hs with cells := by dsimp only; exact Table.canonical_set _ _ _ _ (hcell _ _) }
  | answerHand hand a =>
    unfold State.handAnswer
    exact { hs with cells := by dsimp only; exact hcell _ _ }
  | place front =>
    unfold State.placeParked State.setCellState State.setCell State.setQueue
    exact { hs with cells := by dsimp only; exact hcell _ _, queues := Table.canonical_set _ _ _ _ hs.queues }
  | refuseParking front a =>
    unfold State.handAnswer
    exact { hs with cells := by dsimp only; exact hcell _ _ }
  | dequeue qs as leaves =>
    rw [handAnswers_eq]
    exact { hs with
      cells := canonical_cells_handAnswers (s := { s with wu.queues := qs }) as hs.cells, queues := leaves.canonical hs.queues }
  | startInstall serves free im cell =>
    unfold State.setCellState State.setCell State.takenFrom
    exact { hs with cells := by dsimp only; exact Table.canonical_set _ _ _ _ (hcell _ _) }
  | endInstall cells a =>
    unfold State.endInstall State.handAnswer
    exact { hs with cells := by dsimp only; exact hcell _ _ }
  | _ => exact { hs with }

/-! ### Events -/

theorem wf_set {α : Type} [DecidableEq α] {d : α} {n i : Nat} {ts : Table α} (v : α) (h : Table.wf d n ts = true) (hi : i < n) :
    Table.wf d n (Table.set d ts i v) = true := by
  simp only [Table.wf, Bool.and_eq_true, List.all_eq_true, decide_eq_true_eq] at h ⊢
  refine ⟨Table.canonical_set _ _ _ _ h.1, fun e he => ?_⟩
  rcases Table.mem_set he with ⟨rfl, -⟩ | he
  · exact hi
  · exact h.2 e he

theorem wf_mapEntries {α : Type} [DecidableEq α] {d : α} {n : Nat} {ts : Table α} (f : Nat → α → α) (h : Table.wf d n ts = true) :
    Table.wf d n (Table.mapEntries d f ts) = true := by
  simp only [Table.wf, Bool.and_eq_true, List.all_eq_true, decide_eq_true_eq] at h ⊢
  refine ⟨Table.canonical_mapEntries _ _ _ h.1, fun e he => ?_⟩
  obtain ⟨-, w, hw, -⟩ := (Table.mem_mapEntries d f ts e.1 e.2).1 he
  exact h.2 (e.1, w) hw

theorem State.Canonical.setPool (h : s.Canonical) (p : Nat) (v : Pool) : (s.setPool p v).Canonical :=
  { h with pools := by dsimp only [State.setPool]; exact Table.canonical_set _ _ _ _ h.pools }

theorem State.Canonical.setLease (h : s.Canonical) {i : Nat} (hi : i < 4096) (v : Lease) : (s.setLease i v).Canonical :=
  { h with leases := by dsimp only [State.setLease]; exact wf_set v h.leases hi }

theorem State.Canonical.makeDue (h : s.Canonical) (ps : List Nat) : (s.makeDue ps).Canonical :=
  { h with due := rising_addNumbers _ _ h.due }

/-- What a move of each entry keeps is kept by a fold of it. -/
theorem foldl_keeps {α : Type} {P : State → Prop} {f : State → α → State} (hf : ∀ s a, P s → P (f s a)) (as : List α) (h : P s) :
    P (as.foldl f s) := by
  induction as generalizing s with
  | nil => exact h
  | cons a as ih => exact ih (hf s a h)

theorem State.Canonical.settlePool (h : s.Canonical) (p : Nat) : (s.settlePool p).Canonical := by
  unfold State.settlePool
  split
  · split_ifs
    · exact h.setPool _ _
    · exact h
  · split_ifs
    · unfold State.dropPool
      exact { h.setPool p Pool.atReset with
        activeMasks := by dsimp only [State.setActiveMask, State.setStagedMask, State.setPool]; exact Table.canonical_set _ _ _ _ h.activeMasks
        stagedMasks := by dsimp only [State.setActiveMask, State.setStagedMask, State.setPool]; exact Table.canonical_set _ _ _ _ h.stagedMasks }
    · exact h
  · exact h
  · exact h

/-- R18: the free event keeps the canonical form. -/
theorem State.Canonical.freeEvent (h : s.Canonical) (ls : List Lease) : (s.freeEvent ls).Canonical := by
  have hlowered : (ls.foldl State.lowerCounters s).Canonical := foldl_keeps (fun s l hs => hs.setPool _ _) ls h
  exact (foldl_keeps (fun s p hs => hs.settlePool p) (ls.map Lease.pool) hlowered).makeDue _

theorem State.Canonical.released (h : s.Canonical) (f : Nat → Lease → Lease) (notices : List Notice) (inbox : List MeterCount)
    (freed : List Lease) (report : Bool) : (s.released f notices inbox freed report).Canonical := by
  have hchanged : State.Canonical
      { s with lt.leases := Table.mapEntries Lease.atReset f s.lt.leases, xi.notices := notices, mu.inbox := inbox } :=
    { h with leases := wf_mapEntries f h.leases }
  unfold State.released
  simp only
  split_ifs
  · exact (hchanged.freeEvent freed).makeDue _
  · exact hchanged.freeEvent freed

/-- Log entry 21: a record that is not FREE is listed, so its index is in range. -/
theorem State.Canonical.lease_below (h : s.Canonical) {i : Nat} (hi : (s.lease i).st ≠ .free) : i < 4096 :=
  ((mem_leases ((canonical_iff s).2 h) i (s.lease i)).1 (Table.mem_of_get_ne fun he => hi (by rw [State.lease, he]; rfl))).1

theorem State.Canonical.noticeDelivered (h : s.Canonical) (n : Notice) : (s.noticeDelivered n).Canonical := by
  cases n with
  | answer c r p =>
    unfold State.noticeDelivered State.releaseCell State.setCell
    exact { h with cells := by dsimp only; exact Table.canonical_set _ _ _ _ h.cells }
  | lapse i g p =>
    simp only [State.noticeDelivered, State.lapseWritten]
    split_ifs with hl
    · exact (h.setLease (h.lease_below (by rw [hl.1]; nofun)) _).makeDue _
    · exact h
  | meter => exact h

/-- Every event keeps the canonical form. -/
theorem Event.canonical (h : Event s t) (hs : s.Canonical) : t.Canonical := by
  cases h with
  | clearCauses value => exact { hs with }
  | baseLo value =>
    unfold State.writeBaseLo
    cases s.xi.engine <;> exact { hs with }
  | baseHi value =>
    unfold State.writeBaseHi
    cases s.xi.engine <;> exact { hs with }
  | @notice tag i x found kind =>
    have hlanded : (s.landed tag).Canonical := { hs with }
    cases hn : (s.landed tag).xi.notices with
    | nil => rwa [noticeWrittenEvent_of_nil hn]
    | cons n rest =>
      rw [noticeWrittenEvent_of_front hn]
      have htaken : ((s.landed tag).noticeTaken rest).Canonical := { hlanded with }
      exact htaken.noticeDelivered n
  | reload below held period => exact hs.setLease below _
  | returns skip chosen held =>
    rw [returnRecords_released]
    exact hs.released _ _ _ _ _
  | grant feature period passes lowest named =>
    have hi := (lowestFree_eq_some.1 lowest).1
    exact { (hs.setLease hi _).setPool _ _ with }
  | revive lingering period => exact hs.setLease (hs.lease_below (by rw [lingering]; nofun)) _
  | age =>
    rw [ageLeases_eq]
    exact hs.released _ _ _ _ _
  | clear =>
    rw [clearLeases_released]
    exact hs.released _ _ _ _ _
  | @commit im staged header committing =>
    unfold State.commit State.recomputedLeases
    have hpools := Table.canonical_build Pool.atReset Config.numPools (s.committedPool staged)
    generalize Table.build Pool.atReset Config.numPools (s.committedPool staged) = pools at *
    exact { hs with pools := hpools, leases := by dsimp only; exact wf_mapEntries _ hs.leases }

/-- A change of the engine state changes no table. -/
theorem Abrupt.canonical (h : Abrupt s t) (hs : s.Canonical) : t.Canonical := by
  cases h with
  | fail found =>
    rw [failTransfer_eq]
    exact { hs with }
  | control h =>
    have henable (enable : Bool) : (s.takeEnable enable).Canonical := by
      rw [takeEnable_eq]
      exact { hs with }
    cases h with
    | request enable target dma =>
      rcases requestDmaState_cases (s.takeEnable enable) target with ⟨-, -, he⟩ | ⟨-, -, he⟩ | ⟨-, he⟩ | hold
      · rw [he]
        exact { henable enable with }
      · rw [he]
        exact { henable enable with }
      · rw [he]
        exact { henable enable with }
      · have hres := requestDmaState_resumed (s.takeEnable enable) target hold _ _ rfl rfl
        rw [hres]
        exact { henable enable with }
    | requestStill enable =>
      rcases requestStillState_cases (s.takeEnable enable) with ⟨-, -, he⟩ | ⟨-, -, he⟩ | ⟨-, he⟩ <;>
      · rw [he]
        exact { henable enable with }
    | enable enable => exact henable enable

theorem canonical_reset : State.reset.canonical = true := by decide

/-- Settles O51: every move writes the tables by their own operations, which keep the canonical form. -/
theorem canonicalKept : Obligations.CanonicalKept := by
  intro s t hs h
  rw [canonical_iff] at hs ⊢
  exact step_keeps (P := State.Canonical) (fun h => { h with }) (fun _ _ h => h.canonical) (fun _ _ h => h.canonical)
    (fun _ _ h => h.canonical) (fun _ => { (canonical_iff _).1 canonical_reset with }) h hs

end Sys2Proof.Machine
end

