-- ==== Sys2Proof/Proofs/ImageFacts.lean ====
section
/-! SUPPORT. What an image that passes checks 3 to 6 stages: a sequence above the floor, a schedule in range, parameter sets in range
(R138, R139). -/

namespace Sys2Proof.Machine

/-- R172: a number of `n` bytes is below 256 to the `n`. -/
theorem readBEFrom_lt (acc : Nat) (bs : List Byte) (off n : Nat) : readBEFrom acc bs off n < (acc + 1) * 256 ^ n := by
  induction n generalizing acc off with
  | zero => simp [readBEFrom]
  | succ n ih =>
    have hbyte := (byteAt bs off).isLt
    calc readBEFrom (acc * 256 + (byteAt bs off).toNat) bs (off + 1) n < (acc * 256 + (byteAt bs off).toNat + 1) * 256 ^ n := ih _ _
      _ ≤ ((acc + 1) * 256) * 256 ^ n := Nat.mul_le_mul_right _ (by omega)
      _ = (acc + 1) * 256 ^ (n + 1) := by rw [Nat.pow_succ]; ring

theorem readBE_one_lt (bs : List Byte) (off : Nat) : readBE bs off 1 < 256 := by simpa [readBE] using readBEFrom_lt 0 bs off 1

theorem readBE_two_lt (bs : List Byte) (off : Nat) : readBE bs off 2 < 65536 := by simpa [readBE] using readBEFrom_lt 0 bs off 2

/-- R138: an image that passes checks 3 to 6. -/
structure ImageRead.Passes (im : ImageRead) (floor : Word) : Prop where
  crc : crcFinal im.crc = im.crcField
  sequence : floor.toNat < im.sequence.toNat
  slotCount : 1 ≤ im.slotCount ∧ im.slotCount ≤ 32
  slotLength : im.slotLength ≠ 0
  records : failingRecord 0 [] im.records = none

theorem ImageRead.imageFailure_eq_none {im : ImageRead} {floor : Word} : im.imageFailure floor = none ↔ im.Passes floor := by
  unfold ImageRead.imageFailure
  constructor
  · intro h
    split_ifs at h with h1 h2 h3
    simp only [not_or, Nat.not_lt] at h3
    exact ⟨not_not.1 h1, Nat.lt_of_not_le h2, ⟨h3.1, h3.2.1⟩, h3.2.2, Option.map_eq_none_iff.1 h⟩
  · intro h
    rw [if_neg (not_not.2 h.crc), if_neg (Nat.not_le.2 h.sequence), if_neg, h.records]
    · rfl
    · have := h.slotCount
      have := h.slotLength
      omega

/-- R138 check 6: where no record fails, each passes beside the earlier ones. -/
theorem failingRecord_eq_none {position : Nat} {earlier : List Nat} {rs : List (List Byte)} (h : failingRecord position earlier rs = none)
    {r : List Byte} (hr : r ∈ rs) : ∃ before, recordPasses before r = true := by
  induction rs generalizing position earlier with
  | nil => cases hr
  | cons x rs ih =>
    unfold failingRecord at h
    split_ifs at h with hx
    rcases List.mem_cons.1 hr with rfl | hr
    · exact ⟨earlier, hx⟩
    · exact ih h hr

/-- R139: the rates staged are in range. -/
theorem clampRate_range (rate : Nat) : 25 ≤ clampRate rate ∧ clampRate rate ≤ 400 := by
  unfold clampRate
  omega

/-- R138, R139: the schedule staged by an image that passes is in range. -/
theorem ImageRead.Passes.header_inRange {im : ImageRead} {floor : Word} (h : im.Passes floor) : im.header.schedule.inRange = true := by
  have hlen := readBE_two_lt im.bytes 0x12
  have hnonzero := h.slotLength
  simp only [ImageRead.header, Schedule.inRange, Bool.and_eq_true, decide_eq_true_eq, List.length_map, List.length_range, and_true,
    List.all_eq_true, List.mem_map]
  refine ⟨⟨h.slotCount.1, h.slotCount.2, Nat.pos_of_ne_zero hnonzero, Nat.le_of_lt_succ hlen⟩, ?_⟩
  rintro r ⟨i, -, rfl⟩
  exact clampRate_range _

/-- R138, R139: the parameter set staged from a record that passes is in range. -/
theorem recordParams_inRange {before : List Nat} {r : List Byte} (h : recordPasses before r = true) : (recordParams r).inRange = true := by
  simp only [recordPasses, Bool.and_eq_true, decide_eq_true_eq, List.all_eq_true] at h
  obtain ⟨⟨⟨-, hcount⟩, hnonzero⟩, hnodup⟩ := h
  have hrank := readBE_one_lt r 0x03
  have hcapacity := readBE_two_lt r 0x24
  have hmax := readBE_two_lt r 0x34
  have hlinger := readBE_one_lt r 0x36
  have hlen : (recordFeatures r).length = recordFeatureCount r := by simp [recordFeatures]
  simp only [Params.inRange, recordParams, stagedPeriodDefault, stagedPeriodMin, stagedPeriodMax, Bool.and_eq_true, decide_eq_true_eq,
    List.all_eq_true, hlen]
  refine ⟨⟨by omega, hcount.1, hcount.2, hnodup, by omega, by omega, by omega, by omega, by omega, by omega, by omega, by omega,
    by omega, by omega, by omega⟩, fun f hf => ⟨Nat.pos_of_ne_zero (hnonzero f hf), ?_⟩⟩
  obtain ⟨i, -, rfl⟩ := List.mem_map.1 hf
  exact Nat.le_of_lt_succ (readBE_two_lt r _)

/-- R139: what is staged comes from the records. -/
theorem mem_stagedPools {im : ImageRead} {e : Nat × Option StagedPool} (h : e ∈ im.stagedPools) :
    ∃ r ∈ im.records, e = (recordPool r, some (recordStaged r)) := by
  unfold ImageRead.stagedPools at h
  have hfold : ∀ (rs : List (List Byte)) (ts : Table (Option StagedPool)),
      e ∈ rs.foldl (fun t r => Table.set none t (recordPool r) (some (recordStaged r))) ts →
        e ∈ ts ∨ ∃ r ∈ rs, e = (recordPool r, some (recordStaged r)) := by
    intro rs
    induction rs with
    | nil => exact fun ts hm => .inl hm
    | cons r rs ih =>
      intro ts hm
      rcases ih _ hm with hm | ⟨x, hx, he⟩
      · rcases Table.mem_set hm with ⟨he, -⟩ | hm
        · exact .inr ⟨r, List.mem_cons_self, he⟩
        · exact .inl hm
      · exact .inr ⟨x, List.mem_cons_of_mem _ hx, he⟩
  exact (hfold _ _ h).resolve_left nofun

/-- R139: everything staged by an image that passes is in range. -/
theorem ImageRead.Passes.staged_inRange {im : ImageRead} {floor : Word} (h : im.Passes floor) {e : Nat × Option StagedPool}
    (he : e ∈ im.stagedPools) : ∀ x, e.2 = some x → x.params.inRange = true := by
  obtain ⟨r, hr, rfl⟩ := mem_stagedPools he
  rintro x hx
  cases hx
  obtain ⟨before, hp⟩ := failingRecord_eq_none h.records hr
  exact recordParams_inRange hp

end Sys2Proof.Machine
end

