-- ==== Sys2Proof/Proofs/BlockInvariants.lean ====
section
/-! SUPPORT. The invariants of one block each: the exchange base (O52), the position (O53), the ranges of parameters (O58), and what no
step but a reset lowers (O59). -/

namespace Sys2Proof.Machine

variable {s t : State}

/-! ### The exchange base -/

/-- R158, R159, read field by field. -/
structure State.Based (s : State) : Prop where
  aligned : s.xi.base.toNat % 4096 = 0
  still : s.xi.engine = .offline → s.xi.inFlight = []
  nonzero : s.xi.engine ≠ .offline → s.xi.base ≠ 0

theorem baseOk_iff (s : State) : s.baseOk = true ↔ s.Based := by
  unfold State.baseOk
  by_cases h : s.xi.engine = .offline
  · simp only [h, if_true, Bool.and_eq_true, decide_eq_true_eq, List.isEmpty_iff]
    exact ⟨fun hb => ⟨hb.1, fun _ => hb.2, fun hne => absurd h hne⟩, fun hb => ⟨hb.aligned, hb.still h⟩⟩
  · simp only [h, if_false, Bool.and_eq_true, decide_eq_true_eq]
    exact ⟨fun hb => ⟨hb.1, fun he => absurd he h, fun _ => hb.2⟩, fun hb => ⟨hb.aligned, hb.nonzero h⟩⟩

/-- A move that issues nothing in OFFLINE and keeps the engine state keeps what stands of the base but its alignment. -/
theorem State.Based.steady (h : s.Based) (hs : Steady s t) (aligned : t.xi.base.toNat % 4096 = 0)
    (nonzero : s.xi.engine ≠ .offline → t.xi.base = s.xi.base) : t.Based where
  aligned := aligned
  still he := by
    have hoff : s.xi.engine = .offline := hs.engine.symm.trans he
    exact List.eq_nil_iff_forall_not_mem.2 fun x hx => by
      have := hs.flight (by rw [hoff]; rfl) x hx
      rw [h.still hoff] at this
      cases this
  nonzero he := by
    have hne : s.xi.engine ≠ .offline := hs.engine ▸ he
    rw [nonzero hne]
    exact h.nonzero hne

/-- R158: a base write keeps the base aligned. -/
theorem writeBaseLo_aligned (s : State) (value : Word) (h : s.xi.base.toNat % 4096 = 0) : (s.writeBaseLo value).xi.base.toNat % 4096 = 0 := by
  unfold State.writeBaseLo
  have hlow : ((s.xi.base >>> 32).setWidth 32 ++ (value &&& 0xFFFFF000) : HostAddr).toNat % 4096 = 0 := by
    have hmask : (value &&& 0xFFFFF000).toNat % 2 ^ 12 = 0 := by
      rw [BitVec.toNat_and, Nat.and_mod_two_pow]
      exact Nat.and_zero _
    rw [BitVec.toNat_append, ← Nat.shiftLeft_add_eq_or_of_lt (BitVec.isLt _), Nat.shiftLeft_eq]
    omega
  cases s.xi.engine
  · exact hlow
  all_goals exact h

theorem writeBaseHi_aligned (s : State) (value : Word) (h : s.xi.base.toNat % 4096 = 0) : (s.writeBaseHi value).xi.base.toNat % 4096 = 0 := by
  unfold State.writeBaseHi
  have hlow : (value ++ s.xi.base.setWidth 32 : HostAddr).toNat % 4096 = 0 := by
    have hnat : (value ++ s.xi.base.setWidth 32 : HostAddr).toNat = value.toNat * 4294967296 + s.xi.base.toNat % 4294967296 := by
      rw [BitVec.toNat_append, ← Nat.shiftLeft_add_eq_or_of_lt (BitVec.isLt _)]
      simp [Nat.shiftLeft_eq]
    omega
  cases s.xi.engine
  · exact hlow
  all_goals exact h

theorem Event.based (h : Event s t) (hs : s.Based) : t.Based := by
  have hsteady := h.steady
  have hsame (hb : t.xi.base = s.xi.base) : t.Based := hs.steady hsteady (hb ▸ hs.aligned) fun _ => hb
  cases h with
  | baseLo value =>
    refine hs.steady hsteady (writeBaseLo_aligned s value hs.aligned) fun he => ?_
    unfold State.writeBaseLo
    cases hst : s.xi.engine with
    | offline => exact absurd hst he
    | _ => rfl
  | baseHi value =>
    refine hs.steady hsteady (writeBaseHi_aligned s value hs.aligned) fun he => ?_
    unfold State.writeBaseHi
    cases hst : s.xi.engine with
    | offline => exact absurd hst he
    | _ => rfl
  | notice found kind => exact hsame (by rw [noticeWrittenEvent_eq]; rfl)
  | returns skip chosen held => exact hsame (by rw [returnRecords_released, released_eq])
  | age => exact hsame (by rw [ageLeases_eq, released_eq])
  | clear => exact hsame (by rw [clearLeases_released, released_eq])
  | _ => exact hsame rfl

/-- R159: an engine that leaves OFFLINE has a base; one with a transfer in flight has left it. -/
theorem Abrupt.based (h : Abrupt s t) (hs : s.Based) : t.Based := by
  have henters {e : EngineState} (aligned : t.xi.base.toNat % 4096 = 0) (ht : t.xi.engine = e) (he : e ≠ .offline)
      (hb : t.xi.base ≠ 0) : t.Based := ⟨aligned, fun ho => absurd (ht.symm.trans ho) he, fun _ => hb⟩
  cases h with
  | fail found =>
    rw [failTransfer_eq] at henters ⊢
    refine henters hs.aligned rfl nofun (hs.nonzero fun ho => ?_)
    have := List.mem_of_find?_eq_some found
    rw [hs.still ho] at this
    cases this
  | control h =>
    have henable (enable : Bool) : (s.takeEnable enable).Based := by
      rw [takeEnable_eq]
      exact ⟨hs.aligned, hs.still, hs.nonzero⟩
    cases h with
    | request enable target dma =>
      have hoff : target ≠ .offline := by
        rintro rfl
        cases dma
      obtain ⟨haligned, hstill, hnonzero⟩ := henable enable
      rcases requestDmaState_cases (s.takeEnable enable) target with ⟨-, -, he⟩ | ⟨-, hb, he⟩ | ⟨hst, he⟩ | hst
      · rw [he]
        exact ⟨haligned, hstill, hnonzero⟩
      · rw [he] at henters ⊢
        exact henters haligned rfl hoff hb
      · rw [he] at henters ⊢
        exact henters haligned rfl hoff (hnonzero (by rcases hst with h | h <;> rw [h] <;> nofun))
      · rw [resumed_frame hst] at henters ⊢
        exact henters haligned rfl hoff (hnonzero (by rcases hst with h | h <;> rw [h] <;> nofun))
    | requestStill enable =>
      obtain ⟨haligned, hstill, hnonzero⟩ := henable enable
      rcases requestStillState_cases (s.takeEnable enable) with ⟨-, -, he⟩ | ⟨-, hb, he⟩ | ⟨hst, he⟩
      · rw [he]
        exact ⟨haligned, hstill, hnonzero⟩
      · rw [he] at henters ⊢
        exact henters haligned rfl nofun hb
      · rw [he] at henters ⊢
        exact henters haligned rfl nofun (hnonzero hst)
    | enable enable => exact henable enable

theorem baseOk_reset : State.reset.baseOk = true := by decide

/-- Settles O52: only a base write in OFFLINE changes the base, and an engine leaves OFFLINE only with a base that is not 0. -/
theorem baseKept : Obligations.BaseKept := by
  intro s t hs h
  rw [baseOk_iff] at hs ⊢
  exact step_keeps (P := State.Based) (fun h => ⟨h.1, h.2, h.3⟩)
    (fun s t h hs => hs.steady h.untouched.steady (h.untouched.base ▸ hs.aligned) fun _ => h.untouched.base) (fun _ _ h => h.based)
    (fun _ _ h => h.based) (fun _ => (baseOk_iff _).1 baseOk_reset) h hs

/-! ### The position -/

/-- R18: of the Schedule Unit a free event changes the masks only. -/
theorem freeEvent_su (s : State) (ls : List Lease) :
    (s.freeEvent ls).su = { s.su with activeMasks := (s.freeEvent ls).su.activeMasks, stagedMasks := (s.freeEvent ls).su.stagedMasks } := by
  obtain ⟨⟨-, -, -, -, -, hsu⟩, -⟩ := freeEvent_taken s ls
  calc (s.freeEvent ls).su
      = { { (s.freeEvent ls).su with activeMasks := s.su.activeMasks, stagedMasks := s.su.stagedMasks } with
          activeMasks := (s.freeEvent ls).su.activeMasks, stagedMasks := (s.freeEvent ls).su.stagedMasks } := rfl
    _ = _ := by rw [hsu]

theorem State.Positioned.released (h : s.Positioned) (f : Nat → Lease → Lease) (notices : List Notice) (inbox : List MeterCount)
    (freed : List Lease) (report : Bool) : (s.released f notices inbox freed report).Positioned := by
  rw [released_eq, freeEvent_su]
  exact { h with }

theorem Quiet.positioned (h : Quiet s t) (hs : s.Positioned) : t.Positioned := by
  cases h with
  | schedule su position masks staged clock frame => exact (positionOk_iff _).1 (position ((positionOk_iff s).2 hs))
  | reread =>
    rw [rereadConsumed_eq]
    exact { hs with }
  | retireWrite =>
    unfold State.retireWrite
    split
    · exact hs
    all_goals exact { hs with }
  | noticeEntry dma room stage =>
    rw [issueNoticeEntry_eq]
    exact { hs with }
  | noticeCount found kind dma =>
    rw [issueNoticeCount_eq]
    exact { hs with }
  | consumed found kind value =>
    rw [takeConsumed_eq]
    exact { hs with }
  | post c =>
    rcases postCell_eq s c with he | ⟨he, -⟩ | ⟨he, -⟩ <;> rw [he]
    · exact hs
    all_goals exact { hs with }
  | dequeue qs as leaves =>
    rw [handAnswers_eq]
    exact { hs with }
  | progress reading cell => exact { hs with header := nofun }
  | startInstall serves free im cell => exact { hs with header := nofun }
  | endInstall cells a => exact { hs with header := nofun }
  | stage reading cell passed =>
    have hrange := (ImageRead.imageFailure_eq_none.1 passed).header_inRange
    exact { hs with header := fun h hh => Option.some.inj hh ▸ hrange }
  | _ => exact { hs with }

theorem Event.positioned (h : Event s t) (hs : s.Positioned) : t.Positioned := by
  cases h with
  | baseLo value =>
    unfold State.writeBaseLo
    cases s.xi.engine <;> exact { hs with }
  | baseHi value =>
    unfold State.writeBaseHi
    cases s.xi.engine <;> exact { hs with }
  | notice found kind =>
    rw [noticeWrittenEvent_eq]
    exact { hs with }
  | returns skip chosen held =>
    rw [returnRecords_released]
    exact hs.released _ _ _ _ _
  | age =>
    rw [ageLeases_eq]
    exact hs.released _ _ _ _ _
  | clear =>
    rw [clearLeases_released]
    exact hs.released _ _ _ _ _
  | commit committing =>
    unfold State.commit
    generalize Table.build Pool.atReset Config.numPools _ = pools
    exact { hs with header := fun h hh => hs.header h (by rw [committing]; exact hh) }
  | _ => exact { hs with }

/-- A change of the engine state leaves the position and what is staged. -/
structure Parked (s t : State) : Prop where
  su : t.su = s.su
  et : t.et = s.et
  lt : t.lt = s.lt
  wu : t.wu = s.wu
  decision : t.decision = s.decision
  install : t.install = s.install ∨ ∃ im im', s.install = .reading im ∧ t.install = .reading im' ∧ im'.cell = im.cell

/-- R146: an install in READING goes on as one of the same cell. -/
theorem installResumed_reading (s : State) (tag : Nat) :
    s.installResumed tag = s.install ∨ ∃ im im', s.install = .reading im ∧ s.installResumed tag = .reading im' ∧ im'.cell = im.cell := by
  unfold State.installResumed
  cases hi : s.install with
  | reading im =>
    simp only
    split_ifs
    · exact .inr ⟨im, _, rfl, rfl, rfl⟩
    · exact .inr ⟨im, _, rfl, rfl, rfl⟩
    · exact .inl rfl
  | _ => exact .inl rfl

theorem Abrupt.parked (h : Abrupt s t) : Parked s t := by
  cases h with
  | @fail tag x found =>
    rw [failTransfer_eq]
    refine ⟨rfl, rfl, rfl, rfl, rfl, ?_⟩
    cases hi : s.install with
    | reading im => exact .inr ⟨im, _, rfl, rfl, rfl⟩
    | _ => exact .inl rfl
  | control h =>
    have henable (enable : Bool) : Parked s (s.takeEnable enable) := by
      rw [takeEnable_eq]
      exact ⟨rfl, rfl, rfl, rfl, rfl, .inl rfl⟩
    cases h with
    | request enable target dma =>
      obtain ⟨h1, h2, h3, h4, h5, h6⟩ := henable enable
      rcases requestDmaState_cases (s.takeEnable enable) target with ⟨-, -, he⟩ | ⟨-, -, he⟩ | ⟨-, he⟩ | hold
      · rw [he]
        exact ⟨h1, h2, h3, h4, h5, h6⟩
      · rw [he]
        exact ⟨h1, h2, h3, h4, h5, h6⟩
      · rw [he]
        exact ⟨h1, h2, h3, h4, h5, h6⟩
      · rw [requestDmaState_resumed (s.takeEnable enable) target hold _ _ rfl rfl]
        refine ⟨h1, h2, h3, h4, h5, ?_⟩
        have hi : (s.takeEnable enable).install = s.install := by rw [takeEnable_eq]
        rw [← hi]
        exact installResumed_reading _ _
    | requestStill enable =>
      obtain ⟨h1, h2, h3, h4, h5, h6⟩ := henable enable
      rcases requestStillState_cases (s.takeEnable enable) with ⟨-, -, he⟩ | ⟨-, -, he⟩ | ⟨-, he⟩ <;>
      · rw [he]
        exact ⟨h1, h2, h3, h4, h5, h6⟩
    | enable enable => exact henable enable

theorem Abrupt.positioned (h : Abrupt s t) (hs : s.Positioned) : t.Positioned := by
  obtain ⟨hsu, -, -, -, -, hinstall⟩ := h.parked
  have hheader : t.install.header? = s.install.header? := by
    rcases hinstall with he | ⟨im, im', he, he', -⟩
    · rw [he]
    · rw [he, he']
      rfl
  exact ⟨hsu ▸ hs.active, hsu ▸ hs.staged, hheader ▸ hs.header, hsu ▸ hs.slot, hsu ▸ hs.seconds, hsu ▸ hs.unset⟩

theorem positionOk_reset : State.reset.positionOk = true := by decide

/-- Settles O53: a schedule is staged only from an image that has passed its checks, and the position moves within the geometry that then
stands. -/
theorem positionKept : Obligations.PositionKept := by
  intro s t hs h
  rw [positionOk_iff] at hs ⊢
  exact step_keeps (P := State.Positioned) (fun h => { h with }) (fun _ _ h => h.positioned) (fun _ _ h => h.positioned)
    (fun _ _ h => h.positioned) (fun _ => { (positionOk_iff _).1 positionOk_reset with }) h hs

/-! ### The ranges of parameters -/

/-- R131, R139: what a quiet move makes of the Install Unit: nothing, a unit with nothing staged, or one with what an image that has passed
its checks stages. -/
theorem Quiet.install (h : Quiet s t) : t.install = s.install ∨ t.install = .idle ∨ (∃ im, t.install = .reading im) ∨
    ∃ im, im.Passes s.et.floor ∧ t.install = .committing im im.stagedPools im.header none := by
  cases h with
  | reread => exact .inl (by rw [rereadConsumed_eq])
  | retireWrite =>
    unfold State.retireWrite
    split <;> exact .inl rfl
  | noticeEntry dma room stage => exact .inl (by rw [issueNoticeEntry_eq])
  | noticeCount found kind dma => exact .inl (by rw [issueNoticeCount_eq]; rfl)
  | consumed found kind value => exact .inl (by rw [takeConsumed_eq]; rfl)
  | post c =>
    rcases postCell_eq s c with he | ⟨he, -⟩ | ⟨he, -⟩ <;> rw [he]
    all_goals exact .inl rfl
  | dequeue qs as leaves => exact .inl (by rw [handAnswers_eq])
  | progress reading cell => exact .inr (.inr (.inl ⟨_, rfl⟩))
  | startInstall serves free im cell => exact .inr (.inr (.inl ⟨_, rfl⟩))
  | endInstall cells a => exact .inr (.inl rfl)
  | stage reading cell passed => exact .inr (.inr (.inr ⟨_, ImageRead.imageFailure_eq_none.1 passed, rfl⟩))
  | _ => exact .inl rfl

/-- R11, R139, block by block. -/
structure State.Ranged (s : State) : Prop where
  pools : ∀ e ∈ s.et.pools, ∀ p, e.2.params = some p → p.inRange = true
  staged : s.install.stagedInRange = true

theorem paramsInRange_iff (s : State) : s.paramsInRange = true ↔ s.Ranged := by
  simp only [State.paramsInRange, Bool.and_eq_true, List.all_eq_true, Option.all_eq_true]
  exact ⟨fun h => ⟨h.1, h.2⟩, fun h => ⟨h.1, h.2⟩⟩

/-- R1: the parameter set a pool holds is listed. -/
theorem State.Ranged.pool (h : s.Ranged) {p : Nat} {params : Params} (hp : (s.pool p).params = some params) : params.inRange = true := by
  refine h.pools (p, s.pool p) (Table.mem_of_get_ne fun he => ?_) params hp
  rw [State.pool, he] at hp
  cases hp

theorem State.Ranged.setPool (h : s.Ranged) {p : Nat} {v : Pool} (hv : v.params = (s.pool p).params ∨ v.params = none) :
    (s.setPool p v).Ranged := by
  refine { h with pools := fun e he params hp => ?_ }
  rcases Table.mem_set he with ⟨rfl, -⟩ | he
  · rcases hv with hv | hv
    · exact h.pool (hv ▸ hp)
    · rw [hv] at hp
      cases hp
  · exact h.pools e he params hp

theorem State.Ranged.settlePool (h : s.Ranged) (p : Nat) : (s.settlePool p).Ranged := by
  unfold State.settlePool
  split
  · split_ifs
    · exact h.setPool (.inl rfl)
    · exact h
  · split_ifs
    · exact { h.setPool (p := p) (v := Pool.atReset) (.inr rfl) with }
    · exact h
  · exact h
  · exact h

theorem State.Ranged.freeEvent (h : s.Ranged) (ls : List Lease) : (s.freeEvent ls).Ranged := by
  have hlowered : (ls.foldl State.lowerCounters s).Ranged := foldl_keeps (fun s l hs => hs.setPool (.inl rfl)) ls h
  exact { foldl_keeps (P := State.Ranged) (fun s p hs => hs.settlePool p) (ls.map Lease.pool) hlowered with }

theorem State.Ranged.released (h : s.Ranged) (f : Nat → Lease → Lease) (notices : List Notice) (inbox : List MeterCount)
    (freed : List Lease) (report : Bool) : (s.released f notices inbox freed report).Ranged := by
  rw [released_eq]
  exact ⟨(h.freeEvent freed).pools, h.staged⟩

/-- R141: the parameter set of a committed pool was staged, or stood before. -/
theorem committedPool_params {staged : Table (Option StagedPool)} {p : Nat} {params : Params}
    (h : (s.committedPool staged p).params = some params) :
    (∃ x, stagedEntry staged p = some x ∧ x.params = params) ∨ (s.pool p).params = some params := by
  unfold State.committedPool at h
  cases hx : stagedEntry staged p with
  | some x =>
    rw [hx] at h
    simp only at h
    split_ifs at h
    · exact .inl ⟨x, rfl, Option.some.inj h⟩
    · exact .inl ⟨x, rfl, Option.some.inj h⟩
  | none =>
    rw [hx] at h
    simp only at h
    split_ifs at h
    · cases h
    · exact .inr h
    · exact .inr h

theorem stagedEntry_mem {staged : Table (Option StagedPool)} {p : Nat} {x : StagedPool} (h : stagedEntry staged p = some x) :
    (p, some x) ∈ staged := by
  have := Table.mem_of_get_ne (d := none) (t := staged) (i := p) (by rw [show Table.get none staged p = some x from h]; nofun)
  rwa [show Table.get none staged p = some x from h] at this

theorem Event.ranged (h : Event s t) (hs : s.Ranged) : t.Ranged := by
  cases h with
  | baseLo value =>
    unfold State.writeBaseLo
    cases s.xi.engine <;> exact { hs with }
  | baseHi value =>
    unfold State.writeBaseHi
    cases s.xi.engine <;> exact { hs with }
  | notice found kind =>
    rw [noticeWrittenEvent_eq]
    exact { hs with }
  | returns skip chosen held =>
    rw [returnRecords_released]
    exact hs.released _ _ _ _ _
  | age =>
    rw [ageLeases_eq]
    exact hs.released _ _ _ _ _
  | clear =>
    rw [clearLeases_released]
    exact hs.released _ _ _ _ _
  | @grant p charge i key feature period passes lowest named =>
    have hraised : (s.setPool p (s.grantedPool p key charge)).Ranged := hs.setPool (.inl rfl)
    exact { hraised with }
  | @commit im staged header committing =>
    have hstaged : staged.all (fun e => e.2.all fun p => p.params.inRange) = true := by
      have := hs.staged
      rwa [committing] at this
    have hbuild := Table.mem_build Pool.atReset Config.numPools (s.committedPool staged)
    unfold State.commit
    generalize Table.build Pool.atReset Config.numPools (s.committedPool staged) = pools at *
    refine ⟨fun e he params hp => ?_, hstaged⟩
    obtain ⟨-, hpool, -⟩ := (hbuild e.1 e.2).1 he
    rw [← hpool] at hp
    rcases committedPool_params hp with ⟨x, hx, rfl⟩ | hp
    · have := List.all_eq_true.1 hstaged _ (stagedEntry_mem hx)
      exact this
    · exact hs.pool hp
  | _ => exact { hs with }

theorem Quiet.ranged (h : Quiet s t) (hs : s.Ranged) : t.Ranged := by
  refine ⟨h.untouched.et ▸ hs.pools, ?_⟩
  rcases h.install with he | he | ⟨im, he⟩ | ⟨im, hp, he⟩
  · rw [he]
    exact hs.staged
  · rw [he]
    rfl
  · rw [he]
    rfl
  · rw [he]
    simp only [InstallUnit.stagedInRange, List.all_eq_true, Option.all_eq_true]
    exact fun e he => hp.staged_inRange he

theorem Abrupt.ranged (h : Abrupt s t) (hs : s.Ranged) : t.Ranged := by
  obtain ⟨-, het, -, -, -, hinstall⟩ := h.parked
  refine ⟨het ▸ hs.pools, ?_⟩
  rcases hinstall with he | ⟨im, im', -, he, -⟩
  · rw [he]
    exact hs.staged
  · rw [he]
    rfl

theorem paramsInRange_reset : State.reset.paramsInRange = true := by decide

/-- Settles O58: only an image that has passed check 6 stages a parameter set, and only what is staged is committed. -/
theorem paramsRangeKept : Obligations.ParamsRangeKept := by
  intro s t hs h
  rw [paramsInRange_iff] at hs ⊢
  exact step_keeps (P := State.Ranged) (fun h => { h with }) (fun _ _ h => h.ranged) (fun _ _ h => h.ranged)
    (fun _ _ h => h.ranged) (fun _ => { (paramsInRange_iff _).1 paramsInRange_reset with }) h hs

/-! ### What only a reset takes back -/

/-- R159: no quiet move, event or change of the engine state enters OFFLINE. -/
theorem Abrupt.online (h : Abrupt s t) (hs : s.xi.engine ≠ .offline) : t.xi.engine ≠ .offline := by
  cases h with
  | fail found =>
    rw [failTransfer_eq]
    nofun
  | control h =>
    have henable (enable : Bool) : (s.takeEnable enable).xi.engine = s.xi.engine := by rw [takeEnable_eq]
    cases h with
    | request enable target dma =>
      have htarget : target ≠ .offline := by
        rintro rfl
        cases dma
      rcases requestDmaState_cases (s.takeEnable enable) target with ⟨ho, -, -⟩ | ⟨ho, -, -⟩ | ⟨-, he⟩ | hold
      · exact absurd ((henable enable).symm.trans ho) hs
      · exact absurd ((henable enable).symm.trans ho) hs
      · rw [he]
        exact htarget
      · rw [resumed_frame hold]
        exact htarget
    | requestStill enable =>
      rcases requestStillState_cases (s.takeEnable enable) with ⟨ho, -, -⟩ | ⟨ho, -, -⟩ | ⟨-, he⟩
      · exact absurd ((henable enable).symm.trans ho) hs
      · exact absurd ((henable enable).symm.trans ho) hs
      · rw [he]
        nofun
    | enable enable => exact henable enable ▸ hs

/-- What of the Schedule Unit no event changes. -/
theorem Event.su (h : Event s t) : t.su = { s.su with activeMasks := t.su.activeMasks, stagedMasks := t.su.stagedMasks } := by
  have hrel (f : Nat → Lease → Lease) (notices : List Notice) (inbox : List MeterCount) (freed : List Lease) (report : Bool) :
      (s.released f notices inbox freed report).su = { s.su with
        activeMasks := (s.released f notices inbox freed report).su.activeMasks
        stagedMasks := (s.released f notices inbox freed report).su.stagedMasks } := by
    rw [released_eq]
    exact freeEvent_su s freed
  cases h with
  | baseLo value =>
    unfold State.writeBaseLo
    cases s.xi.engine <;> rfl
  | baseHi value =>
    unfold State.writeBaseHi
    cases s.xi.engine <;> rfl
  | notice found kind =>
    rw [noticeWrittenEvent_eq]
    rfl
  | returns skip chosen held =>
    rw [returnRecords_released]
    exact hrel _ _ _ _ _
  | age =>
    rw [ageLeases_eq]
    exact hrel _ _ _ _ _
  | clear =>
    rw [clearLeases_released]
    exact hrel _ _ _ _ _
  | commit committing =>
    unfold State.commit
    generalize Table.build Pool.atReset Config.numPools _ = pools
    rfl
  | _ => rfl

/-- R121, R124, R128: what a quiet move makes of the clock and of the Frame Number. -/
theorem Quiet.su (h : Quiet s t) : t.su = s.su ∨
    (s.su.clockSet = true → t.su.clockSet = true) ∧ (s.positionOk = true → s.su.frame.toNat ≤ t.su.frame.toNat) := by
  cases h with
  | schedule su position masks staged clock frame => exact .inr ⟨clock, frame⟩
  | reread => exact .inl (by rw [rereadConsumed_eq])
  | retireWrite =>
    unfold State.retireWrite
    split <;> exact .inl rfl
  | noticeEntry dma room stage => exact .inl (by rw [issueNoticeEntry_eq])
  | noticeCount found kind dma => exact .inl (by rw [issueNoticeCount_eq]; rfl)
  | consumed found kind value => exact .inl (by rw [takeConsumed_eq]; rfl)
  | post c =>
    rcases postCell_eq s c with he | ⟨he, -⟩ | ⟨he, -⟩ <;> rw [he]
    all_goals exact .inl rfl
  | dequeue qs as leaves => exact .inl (by rw [handAnswers_eq])
  | _ => exact .inl rfl

theorem Quiet.clock (h : Quiet s t) (hs : s.su.clockSet = true) : t.su.clockSet = true := by
  rcases h.su with he | ⟨hc, -⟩
  · exact he ▸ hs
  · exact hc hs

/-- R19, R138, read on the Install Unit. -/
def FloorBelow (floor : Word) : InstallUnit → Prop
  | .committing _ _ header none => floor.toNat < header.sequence.toNat
  | _ => True

theorem floorBelowStaged_iff (s : State) : s.floorBelowStaged = true ↔ FloorBelow s.et.floor s.install := by
  unfold State.floorBelowStaged
  cases s.install with
  | committing im staged header o => cases o <;> simp [FloorBelow]
  | _ => simp [FloorBelow]

/-- R19, R124, R128: nothing has gone back since a floor and a frame, and nothing will at the next commit. -/
structure Forward (floor₀ frame₀ : Nat) (s : State) : Prop where
  positioned : s.Positioned
  staged : FloorBelow s.et.floor s.install
  floor : floor₀ ≤ s.et.floor.toNat
  frame : frame₀ ≤ s.su.frame.toNat

variable {floor₀ frame₀ : Nat}

theorem Forward.quiet (hs : Forward floor₀ frame₀ s) (h : Quiet s t) : Forward floor₀ frame₀ t := by
  have het := h.untouched.et
  refine ⟨h.positioned hs.positioned, ?_, het ▸ hs.floor, ?_⟩
  · rw [het]
    rcases h.install with he | he | ⟨im, he⟩ | ⟨im, hp, he⟩ <;> rw [he]
    · exact hs.staged
    · trivial
    · trivial
    · exact hp.sequence
  · rcases h.su with he | ⟨-, hf⟩
    · exact he ▸ hs.frame
    · exact hs.frame.trans (hf ((positionOk_iff s).2 hs.positioned))

/-- R19: of the events only the commit changes the floor, and it raises it. -/
theorem Event.floor (h : Event s t) : (t.install = s.install ∧ t.et.floor = s.et.floor) ∨
    ∃ im staged header o, s.install = .committing im staged header none ∧ t.install = .committing im staged header (some o) ∧
      t.et.floor = header.sequence := by
  have hrel (f : Nat → Lease → Lease) (notices : List Notice) (inbox : List MeterCount) (freed : List Lease) (report : Bool) :
      (s.released f notices inbox freed report).install = s.install ∧
        (s.released f notices inbox freed report).et.floor = s.et.floor := by
    rw [released_eq]
    exact ⟨rfl, (freeEvent_taken s freed).1.2.2.2.2.1⟩
  cases h with
  | baseLo value =>
    unfold State.writeBaseLo
    cases s.xi.engine <;> exact .inl ⟨rfl, rfl⟩
  | baseHi value =>
    unfold State.writeBaseHi
    cases s.xi.engine <;> exact .inl ⟨rfl, rfl⟩
  | notice found kind =>
    rw [noticeWrittenEvent_eq]
    exact .inl ⟨rfl, rfl⟩
  | returns skip chosen held =>
    rw [returnRecords_released]
    exact .inl (hrel _ _ _ _ _)
  | age =>
    rw [ageLeases_eq]
    exact .inl (hrel _ _ _ _ _)
  | clear =>
    rw [clearLeases_released]
    exact .inl (hrel _ _ _ _ _)
  | commit committing =>
    unfold State.commit
    generalize Table.build Pool.atReset Config.numPools _ = pools
    exact .inr ⟨_, _, _, _, committing, rfl, rfl⟩
  | _ => exact .inl ⟨rfl, rfl⟩

theorem Forward.event (hs : Forward floor₀ frame₀ s) (h : Event s t) : Forward floor₀ frame₀ t := by
  have hframe : t.su.frame = s.su.frame := by rw [h.su]
  rcases h.floor with ⟨hi, hf⟩ | ⟨im, staged, header, o, hi, ht, hf⟩
  · exact ⟨h.positioned hs.positioned, by rw [hi, hf]; exact hs.staged, hf ▸ hs.floor, hframe ▸ hs.frame⟩
  · have hbelow := hs.staged
    rw [hi] at hbelow
    exact ⟨h.positioned hs.positioned, by rw [ht]; trivial, hf ▸ hs.floor.trans (Nat.le_of_lt hbelow), hframe ▸ hs.frame⟩

theorem Forward.abrupt (hs : Forward floor₀ frame₀ s) (h : Abrupt s t) : Forward floor₀ frame₀ t := by
  obtain ⟨hsu, het, -, -, -, hinstall⟩ := h.parked
  refine ⟨h.positioned hs.positioned, ?_, het ▸ hs.floor, hsu ▸ hs.frame⟩
  rcases hinstall with he | ⟨im, im', -, he, -⟩ <;> rw [he]
  · exact het ▸ hs.staged
  · trivial

/-- Settles O59: no move but a reset makes the clock UNSET or enters OFFLINE; a commit raises the floor, and the Frame Number moves at frame
starts and at a SET_CLOCK that is not below the position. -/
theorem nothingGoesBackButByReset : Obligations.NothingGoesBackButByReset := by
  refine ⟨fun s t h hr => ⟨fun hs => ?_, fun hs => ?_⟩, fun s t hf hp h hr => ?_⟩
  · exact step_keeps_unreset (P := fun s => s.su.clockSet = true) (fun h => h) (fun _ _ h => h.clock)
      (fun _ _ h hs => by rw [h.su]; exact hs) (fun _ _ h hs => by rw [h.parked.su]; exact hs) h hr hs
  · exact step_keeps_unreset (P := fun s => s.xi.engine ≠ .offline) (fun h => h) (fun _ _ h hs => h.untouched.engine ▸ hs)
      (fun _ _ h hs => h.steady.engine ▸ hs) (fun _ _ h => h.online) h hr hs
  · have hforward := step_keeps_unreset (P := Forward s.et.floor.toNat s.su.frame.toNat) (fun h => { h with positioned := { h.positioned with } })
      (fun _ _ h hs => hs.quiet h) (fun _ _ h hs => hs.event h) (fun _ _ h hs => hs.abrupt h) h hr
      ⟨(positionOk_iff s).1 hp, (floorBelowStaged_iff s).1 hf, le_rfl, le_rfl⟩
    exact ⟨(floorBelowStaged_iff t).2 hforward.staged, hforward.floor, hforward.frame⟩

end Sys2Proof.Machine
end

