-- ==== Sys2Proof/Proofs/NoticeRoom.lean ====
section
/-! SUPPORT. The room of the notice list (R166, R167, R170): one write at most of the front notice is out, the consumed count is read only
while the list is full, and the retry list is empty in RUN and HOLD. With it O57. -/

namespace Sys2Proof.Machine

variable {s t : State}

/-! ### Counting transfers -/

/-- A kind of transfer that the notice list's room depends on. -/
def noticeKinds : List (TransferKind → Bool) :=
  [TransferKind.isNoticeEntry, TransferKind.isNoticeCount, TransferKind.isConsumedRead]

theorem plain_uncounted {k : TransferKind} (h : k.plain = true) : ∀ p ∈ noticeKinds, p k = false := by
  simp only [noticeKinds, List.forall_mem_cons, List.not_mem_nil, false_imp_iff, implies_true, and_true]
  cases k <;> simp_all [TransferKind.plain, TransferKind.isNoticeEntry, TransferKind.isNoticeCount, TransferKind.isConsumedRead]

theorem countTransfers_eq (s : State) (p : TransferKind → Bool) :
    s.countTransfers p = s.xi.inFlight.countP (fun x => p x.kind) + s.xi.retry.countP (fun x => p x.kind) := by
  rw [State.countTransfers, ← List.countP_eq_length_filter, List.countP_append]

theorem countTransfers_congr (hf : t.xi.inFlight = s.xi.inFlight) (hr : t.xi.retry = s.xi.retry) (p : TransferKind → Bool) :
    t.countTransfers p = s.countTransfers p := by
  rw [countTransfers_eq, countTransfers_eq, hf, hr]

theorem countTransfers_issue (s : State) (kind : TransferKind) (addr : HostAddr) (len : Nat) (bytes : List Byte) (p : TransferKind → Bool) :
    (s.issue kind addr len bytes).countTransfers p = s.countTransfers p + if p kind then 1 else 0 := by
  rw [countTransfers_eq, countTransfers_eq, State.issue, List.countP_append, List.countP_singleton]
  simp only
  omega

theorem countTransfers_landed_le (s : State) (tag : Nat) (p : TransferKind → Bool) :
    (s.landed tag).countTransfers p ≤ s.countTransfers p := by
  rw [countTransfers_eq, countTransfers_eq]
  exact Nat.add_le_add_right (List.filter_sublist.countP_le) _

/-- The transfer found under a tag is one of those counted, and is gone once it has landed. -/
theorem countTransfers_landed_lt {tag : Nat} {x : Transfer} (h : s.transfer tag = some x) {p : TransferKind → Bool} (hp : p x.kind = true) :
    (s.landed tag).countTransfers p + 1 ≤ s.countTransfers p := by
  have hmem := List.mem_of_find?_eq_some h
  have htag : x.tag = tag := by
    have := List.find?_some h
    exact of_decide_eq_true this
  have hsplit := List.countP_eq_countP_filter_add s.xi.inFlight (fun y => p y.kind) (fun y => decide (y.tag ≠ tag))
  have hpos : 0 < (s.xi.inFlight.filter fun y => !decide (y.tag ≠ tag)).countP fun y => p y.kind :=
    List.countP_pos_iff.2 ⟨x, List.mem_filter.2 ⟨hmem, by simp [htag]⟩, hp⟩
  rw [countTransfers_eq, countTransfers_eq]
  simp only [State.landed] at hsplit ⊢
  omega

/-! ### The invariant, read field by field -/

structure State.Roomy (s : State) : Prop where
  level : (s.xi.written - s.xi.cached).toNat ≤ 1024
  begun : s.xi.noticeStage = .notBegun ∨ 0 < s.room
  entries : s.countTransfers TransferKind.isNoticeEntry ≤ if s.xi.noticeStage = .first then 1 else 0
  counts : s.countTransfers TransferKind.isNoticeCount ≤ if s.xi.noticeStage = .second then 1 else 0
  reads : s.countTransfers TransferKind.isConsumedRead ≤ if s.xi.noticeStage = .notBegun ∧ s.room = 0 then 1 else 0
  retries : s.xi.retry = [] ∨ s.xi.engine = .still ∨ s.xi.engine = .faulted

theorem noticeRoomKept_iff (s : State) : s.noticeRoomKept = true ↔ s.Roomy := by
  simp only [State.noticeRoomKept, Bool.and_eq_true, Bool.or_eq_true, decide_eq_true_eq, List.isEmpty_iff]
  exact ⟨fun ⟨⟨⟨⟨⟨h1, h2⟩, h3⟩, h4⟩, h5⟩, h6⟩ => ⟨h1, h2, h3, h4, h5, h6⟩, fun h => ⟨⟨⟨⟨⟨h.1, h.2⟩, h.3⟩, h.4⟩, h.5⟩, h.6⟩⟩

theorem room_congr (hw : t.xi.written = s.xi.written) (hc : t.xi.cached = s.xi.cached) : t.room = s.room := by
  rw [State.room, State.room, hw, hc]

/-- A move that leaves the notice list's counts and stage, and puts no transfer of the three kinds out. -/
theorem State.Roomy.calm (h : s.Roomy) (written : t.xi.written = s.xi.written) (cached : t.xi.cached = s.xi.cached)
    (stage : t.xi.noticeStage = s.xi.noticeStage) (out : ∀ p ∈ noticeKinds, t.countTransfers p ≤ s.countTransfers p)
    (retries : t.xi.retry = [] ∨ t.xi.engine = .still ∨ t.xi.engine = .faulted) : t.Roomy where
  level := by rw [written, cached]; exact h.level
  begun := by rw [stage, room_congr written cached]; exact h.begun
  entries := by rw [stage]; exact (out _ (by simp [noticeKinds])).trans h.entries
  counts := by rw [stage]; exact (out _ (by simp [noticeKinds])).trans h.counts
  reads := by rw [stage, room_congr written cached]; exact (out _ (by simp [noticeKinds])).trans h.reads
  retries := retries

/-- The same for a move that changes nothing of the notice list, the transfers and the engine state. -/
theorem State.Roomy.congr (h : s.Roomy) (written : t.xi.written = s.xi.written) (cached : t.xi.cached = s.xi.cached)
    (stage : t.xi.noticeStage = s.xi.noticeStage) (flight : t.xi.inFlight = s.xi.inFlight) (retry : t.xi.retry = s.xi.retry)
    (engine : t.xi.engine = s.xi.engine) : t.Roomy :=
  h.calm written cached stage (fun p _ => (countTransfers_congr flight retry p).le) (by rw [retry, engine]; exact h.retries)

theorem State.Roomy.landed (h : s.Roomy) (tag : Nat) : (s.landed tag).Roomy :=
  h.calm rfl rfl rfl (fun p _ => countTransfers_landed_le s tag p) h.retries

/-- R166, R167: issuing a transfer of none of the three kinds. -/
theorem State.Roomy.issue (h : s.Roomy) (kind : TransferKind) (addr : HostAddr) (len : Nat) (bytes : List Byte)
    (hk : ∀ p ∈ noticeKinds, p kind = false) : (s.issue kind addr len bytes).Roomy :=
  h.calm rfl rfl rfl (fun p hp => by rw [countTransfers_issue, hk p hp]; exact le_rfl) h.retries

/-- R167: the consumed count is read only where the list is full and no such read is out. -/
theorem State.Roomy.reread (h : s.Roomy) : s.rereadConsumed.Roomy := by
  rcases rereadConsumed_cases s with ⟨he, -⟩ | ⟨⟨-, hstage, hroom, hdma, hnone⟩, he⟩
  · rwa [he]
  rw [he]
  have hretry : s.xi.retry = [] := by
    rcases h.retries with hr | hr | hr
    · exact hr
    all_goals rw [hr] at hdma; cases hdma
  have hflight : s.countTransfers TransferKind.isConsumedRead = 0 := by
    rw [countTransfers_eq, hretry, List.countP_nil, Nat.add_zero, List.countP_eq_zero]
    intro x hx
    have := List.any_eq_false.1 hnone x hx
    cases hk : x.kind <;> simp_all [TransferKind.isConsumedRead]
  refine ⟨h.level, h.begun, ?_, ?_, ?_, h.retries⟩
  · rw [countTransfers_issue]
    exact h.entries
  · rw [countTransfers_issue]
    exact h.counts
  · rw [countTransfers_issue, hflight]
    have : State.room (s.issue .consumedRead (exchangeAddr s.xi.base consumedOffset) 4 []) = s.room := rfl
    exact (if_pos (⟨hstage, this.trans hroom⟩ : _ ∧ _)).symm.le

/-- R166: the entry write of the front notice. -/
theorem State.Roomy.noticeEntry (h : s.Roomy) (room : 0 < s.room) (stage : s.xi.noticeStage = .notBegun) : s.issueNoticeEntry.Roomy := by
  unfold State.issueNoticeEntry
  split
  · exact h
  have hentries := h.entries
  have hcounts := h.counts
  have hreads := h.reads
  rw [stage] at hentries hcounts hreads
  rw [if_neg (by omega)] at hreads
  have hout (u : State) (n : Notice) (p : TransferKind → Bool) : State.countTransfers { s.issue (.noticeEntry n.faultIndex)
      (exchangeAddr s.xi.base (noticeOffset s.xi.written)) 0 (n.bytes s.mu.pages) with xi.noticeStage := .first } p =
        s.countTransfers p + if p (.noticeEntry n.faultIndex) then 1 else 0 := by
    rw [← countTransfers_issue s _ (exchangeAddr s.xi.base (noticeOffset s.xi.written)) 0 (n.bytes s.mu.pages)]
    rfl
  refine ⟨h.level, .inr room, ?_, ?_, ?_, h.retries⟩
  · rw [hout s]
    exact Nat.add_le_add_right hentries 1
  · rw [hout s]
    exact hcounts
  · rw [hout s]
    exact hreads.trans (Nat.zero_le _)

/-- R166: with a write of an entry out, the notice list stands behind that write; with the write landed, no such write is out. -/
theorem State.Roomy.entryLanded (h : s.Roomy) {tag i : Nat} {x : Transfer} (found : s.transfer tag = some x)
    (kind : x.kind = .noticeEntry i) : s.xi.noticeStage = .first ∧ (s.landed tag).countTransfers TransferKind.isNoticeEntry = 0 := by
  have hlt := countTransfers_landed_lt found (p := TransferKind.isNoticeEntry) (by rw [kind]; rfl)
  have hle := h.entries
  split_ifs at hle with hst
  · exact ⟨hst, by omega⟩
  · omega

theorem State.Roomy.countLanded (h : s.Roomy) {tag i : Nat} {x : Transfer} (found : s.transfer tag = some x)
    (kind : x.kind = .noticeCount i) : s.xi.noticeStage = .second ∧ (s.landed tag).countTransfers TransferKind.isNoticeCount = 0 := by
  have hlt := countTransfers_landed_lt found (p := TransferKind.isNoticeCount) (by rw [kind]; rfl)
  have hle := h.counts
  split_ifs at hle with hst
  · exact ⟨hst, by omega⟩
  · omega

theorem State.Roomy.readLanded (h : s.Roomy) {tag : Nat} {x : Transfer} (found : s.transfer tag = some x)
    (kind : x.kind = .consumedRead) :
    s.xi.noticeStage = .notBegun ∧ (s.landed tag).countTransfers TransferKind.isConsumedRead = 0 := by
  have hlt := countTransfers_landed_lt found (p := TransferKind.isConsumedRead) (by rw [kind]; rfl)
  have hle := h.reads
  split_ifs at hle with hst
  · exact ⟨hst.1, by omega⟩
  · omega

/-- R166, R170: the count write of the front notice, with no entry write out. -/
theorem State.Roomy.noticeCount (h : s.Roomy) (stage : s.xi.noticeStage ≠ .notBegun) (second : s.xi.noticeStage ≠ .second)
    (entries : s.countTransfers TransferKind.isNoticeEntry = 0) : s.issueNoticeCount.Roomy := by
  unfold State.issueNoticeCount
  split
  · exact h
  have hcounts := h.counts
  have hreads := h.reads
  rw [if_neg second] at hcounts
  rw [if_neg fun hr => stage hr.1] at hreads
  have hout (n : Notice) (p : TransferKind → Bool) : State.countTransfers { s.issue (.noticeCount n.faultIndex)
      (exchangeAddr s.xi.base writtenOffset) 0 (bytesLE 4 (s.xi.written + 1).toNat) with xi.noticeStage := .second } p =
        s.countTransfers p + if p (.noticeCount n.faultIndex) then 1 else 0 := by
    rw [← countTransfers_issue s _ (exchangeAddr s.xi.base writtenOffset) 0 (bytesLE 4 (s.xi.written + 1).toNat)]
    rfl
  refine ⟨h.level, .inr (h.begun.resolve_left stage), ?_, ?_, ?_, h.retries⟩
  · rw [hout, entries]
    exact Nat.zero_le _
  · rw [hout]
    exact Nat.add_le_add_right hcounts 1
  · rw [hout]
    exact hreads.trans (Nat.zero_le _)

/-! ### The moves -/

theorem Quiet.roomy (h : Quiet s t) (hs : s.Roomy) : t.Roomy := by
  cases h with
  | issue kind addr len bytes dma plain => exact hs.issue _ _ _ _ (plain_uncounted plain)
  | reread => exact hs.reread
  | land tag => exact hs.landed tag
  | retireWrite =>
    unfold State.retireWrite
    split
    · exact hs
    all_goals exact hs.congr rfl rfl rfl rfl rfl rfl
  | noticeEntry dma room stage => exact hs.noticeEntry room stage
  | @noticeCount tag i x found kind dma =>
    obtain ⟨hstage, hentries⟩ := hs.entryLanded found kind
    have hstage : (s.landed tag).xi.noticeStage = .first := hstage
    exact (hs.landed tag).noticeCount (by rw [hstage]; nofun) (by rw [hstage]; nofun) hentries
  | @noticeCountWaits tag i x found kind =>
    obtain ⟨hstage, hentries⟩ := hs.entryLanded found kind
    have hl := hs.landed tag
    have hcounts := hl.counts
    have hreads := hl.reads
    rw [show (s.landed tag).xi.noticeStage = .first from hstage] at hcounts hreads
    exact ⟨hl.level, .inr (hl.begun.resolve_left (by rw [show (s.landed tag).xi.noticeStage = .first from hstage]; nofun)), hentries.le,
      hcounts, hreads, hl.retries⟩
  | @consumed tag x found kind value =>
    obtain ⟨hstage, hreads⟩ := hs.readLanded found kind
    unfold State.takeConsumed
    split_ifs with hstale
    · exact hs.landed tag
    · simp only [State.staleConsumed, decide_eq_true_eq, Nat.not_lt] at hstale
      have hl := hs.landed tag
      exact ⟨hstale, .inl hstage, hl.entries, hl.counts, hreads.le.trans (Nat.zero_le _), hl.retries⟩
  | pick pending dma room =>
    refine State.Roomy.issue (s := s.slotTaken _) (hs.congr rfl rfl rfl rfl rfl rfl) _ _ _ _ ?_
    simp [noticeKinds, TransferKind.isNoticeEntry, TransferKind.isNoticeCount, TransferKind.isConsumedRead]
  | @fetched tag c x found kind copy => exact (hs.landed tag).congr rfl rfl rfl rfl rfl rfl
  | post c =>
    rcases postCell_eq s c with he | ⟨he, -⟩ | ⟨he, -⟩ <;> rw [he]
    · exact hs
    all_goals exact hs.congr rfl rfl rfl rfl rfl rfl
  | dequeue qs as leaves =>
    rw [handAnswers_frame]
    exact hs.congr rfl rfl rfl rfl rfl rfl
  | _ => exact hs.congr rfl rfl rfl rfl rfl rfl

/-- R167: the notices-written count rises by 1 where there is room. -/
theorem level_succ {written cached : Word} (h : (written - cached).toNat < 1024) : (written + 1 - cached).toNat ≤ 1024 := by
  bv_omega

theorem Event.roomy (h : Event s t) (hs : s.Roomy) : t.Roomy := by
  cases h with
  | baseLo value =>
    unfold State.writeBaseLo
    cases s.xi.engine <;> exact hs.congr rfl rfl rfl rfl rfl rfl
  | baseHi value =>
    unfold State.writeBaseHi
    cases s.xi.engine <;> exact hs.congr rfl rfl rfl rfl rfl rfl
  | @notice tag i x found kind =>
    have hl := hs.landed tag
    cases hn : (s.landed tag).xi.notices with
    | nil => rwa [noticeWrittenEvent_of_nil hn]
    | cons n rest =>
      obtain ⟨hstage, hcounts⟩ := hs.countLanded found kind
      have hstage : (s.landed tag).xi.noticeStage = .second := hstage
      have hroom := hl.begun.resolve_left (by rw [hstage]; nofun)
      have hentries := hl.entries
      have hreads := hl.reads
      rw [hstage] at hentries hreads
      have htaken : ((s.landed tag).noticeTaken rest).Roomy := by
        refine ⟨level_succ ?_, .inl rfl, hentries, hcounts.le, hreads.trans (Nat.zero_le _), hl.retries⟩
        have : 0 < 1024 - ((s.landed tag).xi.written - (s.landed tag).xi.cached).toNat := hroom
        exact Nat.lt_of_sub_pos this
      rw [noticeWrittenEvent_of_front hn, noticeDelivered_eq]
      exact htaken.congr rfl rfl rfl rfl rfl rfl
  | returns skip chosen held =>
    rw [returnRecords_released, released_eq]
    exact hs.congr rfl rfl rfl rfl rfl rfl
  | age =>
    rw [ageLeases_eq, released_eq]
    exact hs.congr rfl rfl rfl rfl rfl rfl
  | clear =>
    rw [clearLeases_released, released_eq]
    exact hs.congr rfl rfl rfl rfl rfl rfl
  | commit committing =>
    unfold State.commit
    generalize Table.build Pool.atReset Config.numPools _ = pools
    exact hs.congr rfl rfl rfl rfl rfl rfl
  | _ => exact hs.congr rfl rfl rfl rfl rfl rfl

/-! ### The changes of the engine state -/

theorem insertByKey_countP {α : Type} (key : α → Nat) (x : α) (l : List α) (p : α → Bool) :
    (insertByKey key x l).countP p = l.countP p + if p x then 1 else 0 := by
  rw [(insertByKey_perm key x l).countP_eq, List.countP_cons]

/-- R169: a transfer that fails is counted as before. -/
theorem countTransfers_fail_le {tag : Nat} {x : Transfer} (found : s.transfer tag = some x) (p : TransferKind → Bool) :
    (s.failTransfer x).countTransfers p ≤ s.countTransfers p := by
  have htag : x.tag = tag := by
    have := List.find?_some found
    exact of_decide_eq_true this
  rw [failTransfer_eq, countTransfers_eq]
  simp only [insertByKey_countP]
  cases hp : p x.kind with
  | true =>
    have hlt := countTransfers_landed_lt found hp
    rw [countTransfers_eq] at hlt
    simp only [State.landed, ← htag] at hlt
    simp only [if_true]
    omega
  | false =>
    have hle := countTransfers_landed_le s x.tag p
    rw [countTransfers_eq] at hle
    exact hle

theorem State.Roomy.fail (h : s.Roomy) {tag : Nat} {x : Transfer} (found : s.transfer tag = some x) : (s.failTransfer x).Roomy := by
  have hout := countTransfers_fail_le found
  rw [failTransfer_eq] at hout ⊢
  exact h.calm rfl rfl rfl (fun p _ => hout p) (.inr (.inr rfl))

theorem owedStatus_plain (s : State) : ∀ x ∈ s.owedStatus, x.kind.plain = true := by
  unfold State.owedStatus
  split <;> simp [owed, TransferKind.plain]

theorem owedPage_plain (s : State) : ∀ x ∈ s.owedPage, x.kind.plain = true := by
  unfold State.owedPage
  split
  · simp [owed, TransferKind.plain]
  · split_ifs <;> simp [owed, TransferKind.plain]
  · nofun

theorem owedImage_plain (s : State) : ∀ x ∈ s.owedImage, x.kind.plain = true := by
  unfold State.owedImage
  split
  · split_ifs <;> simp [owed, TransferKind.plain]
  · nofun

theorem countP_plain {l : List Transfer} (h : ∀ x ∈ l, x.kind.plain = true) {p : TransferKind → Bool}
    (hp : ∀ k : TransferKind, k.plain = true → p k = false) : l.countP (fun x => p x.kind) = 0 :=
  List.countP_eq_zero.2 fun x hx => by simp [hp _ (h x hx)]

/-- R166, R170: the count write that waited, if one did. -/
theorem owedCount_cases (s : State) : s.owedCount = [] ∨
    s.xi.noticeStage = .firstDone ∧ ∃ i addr bytes, s.owedCount = [owed (.noticeCount i) addr 0 bytes] := by
  unfold State.owedCount
  cases s.xi.noticeStage with
  | firstDone =>
    cases s.xi.notices with
    | nil => exact .inl rfl
    | cons n rest => exact .inr ⟨rfl, _, _, _, rfl⟩
  | _ => exact .inl rfl

/-- Issuing a list of transfers under new tags keeps their kinds. -/
theorem countP_retagged (l : List Transfer) (n : Nat) (p : TransferKind → Bool) :
    (l.mapIdx fun i x => { x with tag := n + i }).countP (fun x => p x.kind) = l.countP fun x => p x.kind := by
  have hkinds (xs : List Transfer) : xs.countP (fun x => p x.kind) = (xs.map Transfer.kind).countP p := by
    rw [List.countP_map]
    rfl
  rw [hkinds, hkinds]
  congr 1
  exact List.ext_getElem (by simp) fun i h1 h2 => by simp

/-- R170: the resumed transfers are those held for retry, those that waited, and one count write at most. -/
theorem countTransfers_resumed {target : EngineState} (hold : s.xi.engine = .still ∨ s.xi.engine = .faulted) {p : TransferKind → Bool}
    (hp : ∀ k : TransferKind, k.plain = true → p k = false) :
    (s.requestDmaState target).countTransfers p = s.countTransfers p + s.owedCount.countP fun x => p x.kind := by
  rw [requestDmaState_resumed s target hold _ _ rfl rfl, countTransfers_eq]
  simp only [List.countP_nil, Nat.add_zero]
  rw [List.countP_append, countP_retagged, List.countP_append, List.countP_append, List.countP_append, List.countP_append,
    countP_plain (owedStatus_plain s) hp, countP_plain (owedPage_plain s) hp, countP_plain (owedImage_plain s) hp, countTransfers_eq]
  omega

theorem State.Roomy.resumed {target : EngineState} (h : s.Roomy) (hold : s.xi.engine = .still ∨ s.xi.engine = .faulted) :
    (s.requestDmaState target).Roomy := by
  have hout (p : TransferKind → Bool) (hp : p ∈ noticeKinds) :=
    countTransfers_resumed (target := target) hold fun k hk => plain_uncounted hk p hp
  have hstage : (s.requestDmaState target).xi.noticeStage = if s.owedCount = [] then s.xi.noticeStage else .second := by
    rw [requestDmaState_resumed s target hold _ _ rfl rfl]
  obtain ⟨hwritten, hcached, hretry⟩ : (s.requestDmaState target).xi.written = s.xi.written ∧
      (s.requestDmaState target).xi.cached = s.xi.cached ∧ (s.requestDmaState target).xi.retry = [] := by
    rw [resumed_frame hold]
    exact ⟨rfl, rfl, rfl⟩
  generalize s.requestDmaState target = t at hout hstage hwritten hcached hretry ⊢
  rcases owedCount_cases s with hnone | ⟨hdone, i, addr, bytes, hone⟩
  · rw [hnone, if_pos rfl] at hstage
    exact h.calm hwritten hcached hstage (fun p hp => by rw [hout p hp, hnone]; exact le_rfl) (.inl hretry)
  · have hentries := h.entries
    have hcounts := h.counts
    have hreads := h.reads
    rw [hdone] at hentries hcounts hreads
    have hroom : 0 < s.room := h.begun.resolve_left (by rw [hdone]; nofun)
    rw [hone, if_neg nofun] at hstage
    refine ⟨by rw [hwritten, hcached]; exact h.level, .inr (by rw [room_congr hwritten hcached]; exact hroom), ?_, ?_, ?_, .inl hretry⟩
    · rw [hout _ (by simp [noticeKinds]), hstage, hone]
      exact hentries
    · rw [hout _ (by simp [noticeKinds]), hstage, hone]
      exact Nat.add_le_add_right hcounts 1
    · rw [hout _ (by simp [noticeKinds]), hstage, hone]
      exact hreads.trans (Nat.zero_le _)

theorem Abrupt.roomy (h : Abrupt s t) (hs : s.Roomy) : t.Roomy := by
  cases h with
  | fail found => exact hs.fail found
  | control h =>
    have henable (enable : Bool) : (s.takeEnable enable).Roomy := by
      rw [takeEnable_eq]
      exact hs.congr rfl rfl rfl rfl rfl rfl
    cases h with
    | request enable target dma =>
      have hu := henable enable
      have hretry (hne : (s.takeEnable enable).xi.engine ≠ .still ∧ (s.takeEnable enable).xi.engine ≠ .faulted) :
          (s.takeEnable enable).xi.retry = [] := hu.retries.resolve_right fun h => h.elim hne.1 hne.2
      rcases requestDmaState_cases (s.takeEnable enable) target with ⟨-, -, he⟩ | ⟨ho, -, he⟩ | ⟨ho, he⟩ | hold
      · rw [he]
        exact hu.congr rfl rfl rfl rfl rfl rfl
      · rw [he]
        exact hu.calm rfl rfl rfl (fun p _ => le_rfl) (.inl (hretry (by rw [ho]; exact ⟨nofun, nofun⟩)))
      · rw [he]
        exact hu.calm rfl rfl rfl (fun p _ => le_rfl)
          (.inl (hretry (by rcases ho with ho | ho <;> (rw [ho]; exact ⟨nofun, nofun⟩))))
      · exact hu.resumed hold
    | requestStill enable =>
      have hu := henable enable
      rcases requestStillState_cases (s.takeEnable enable) with ⟨-, -, he⟩ | ⟨-, -, he⟩ | ⟨-, he⟩ <;> rw [he]
      · exact hu.congr rfl rfl rfl rfl rfl rfl
      · exact hu.calm rfl rfl rfl (fun p _ => le_rfl) (.inr (.inl rfl))
      · exact hu.calm rfl rfl rfl (fun p _ => le_rfl) (.inr (.inl rfl))
    | enable enable => exact henable enable

theorem noticeRoomKept_reset : State.reset.noticeRoomKept = true := by decide

/-- Settles O57: an entry write needs room, the count rises only behind such a write, and a read that lowers the room is out only while the
list is full. -/
theorem noticeRoomKept : Obligations.NoticeRoomKept := by
  intro s t hs h
  rw [noticeRoomKept_iff] at hs ⊢
  exact step_keeps (P := State.Roomy) (fun h => h.congr rfl rfl rfl rfl rfl rfl) (fun _ _ h => h.roomy) (fun _ _ h => h.roomy)
    (fun _ _ h => h.roomy) (fun _ => ((noticeRoomKept_iff _).1 noticeRoomKept_reset).congr rfl rfl rfl rfl rfl rfl) h hs

end Sys2Proof.Machine
end

