-- ==== Sys2Proof/Proofs/Ledger.lean ====
section
/-! SUPPORT. The lease records and the Pool Counters: what of a record never changes while it holds tokens (O50), the limits (O55), and the
counters as sums over the records (O54). -/

namespace Sys2Proof.Machine

variable {s t : State}

/-! ### Records changed together -/

/-- What a change of every listed entry reads as, whatever it would make of an unlisted one. -/
theorem Table.get_mapEntries_listed {α : Type} [DecidableEq α] {d : α} {ts : Table α} (f : Nat → α → α) (h : Table.canonical d ts = true)
    {i : Nat} (hi : Table.get d ts i ≠ d) : Table.get d (Table.mapEntries d f ts) i = f i (Table.get d ts i) := by
  have hmem := Table.mem_of_get_ne hi
  by_cases hf : f i (Table.get d ts i) = d
  · rw [hf]
    refine Table.get_of_not_mem d fun hm => ?_
    obtain ⟨⟨j, v⟩, hv, rfl⟩ := List.mem_map.1 hm
    obtain ⟨hne, w, hw, rfl⟩ := (Table.mem_mapEntries d f ts _ _).1 hv
    rw [Table.get_of_mem d h hw] at hf
    exact hne hf
  · exact Table.get_of_mem d (Table.canonical_mapEntries d f ts h) ((Table.mem_mapEntries d f ts _ _).2 ⟨hf, _, hmem, rfl⟩)

theorem State.Canonical.leases_canonical (h : s.Canonical) : Table.canonical Lease.atReset s.lt.leases = true := by
  have := h.leases
  simp only [Table.wf, Bool.and_eq_true] at this
  exact this.1

/-- R31: the fields of a lease that stand while it holds its tokens. -/
structure SameLease (l l' : Lease) : Prop where
  charge : l'.charge = l.charge
  pool : l'.pool = l.pool
  feature : l'.feature = l.feature
  key : l'.key = l.key

theorem SameLease.refl (l : Lease) : SameLease l l := ⟨rfl, rfl, rfl, rfl⟩

/-- R92: aging changes the state and the counter of a record. -/
theorem Lease.aged_cases (l : Lease) : ∃ st counter, l.aged = { l with st := st, counter := counter } := by
  unfold Lease.aged
  split
  · split_ifs <;> exact ⟨_, _, rfl⟩
  · split_ifs <;> exact ⟨_, _, rfl⟩
  · exact ⟨_, _, rfl⟩
  · exact ⟨_, _, rfl⟩

/-- R92 to R94: a record that ages holds its tokens unless it lapses or its linger ends. -/
theorem Lease.aged_holds (l : Lease) : (l.holds && !l.aged.holds) = (l.lapsing || l.lingerEnding) := by
  obtain ⟨st, generation, pool, feature, key, charge, inReserve, period, counter⟩ := l
  by_cases hc : counter ≤ 1 <;> cases st <;> simp [Lease.aged, Lease.holds, Lease.lapsing, Lease.lingerEnding, hc]

theorem Lease.aged_frees (l : Lease) (h : l.aged.holds = true) : l.holds = true := by
  obtain ⟨st, generation, pool, feature, key, charge, inReserve, period, counter⟩ := l
  by_cases hc : counter ≤ 1 <;> cases st <;> simp_all [Lease.aged, Lease.holds]

/-- A change of a record that leaves what it holds, and never gives tokens to one that holds none. -/
structure Releasing (l l' : Lease) : Prop where
  same : SameLease l l'
  reserve : l'.inReserve = l.inReserve
  holds : l'.holds = true → l.holds = true

theorem Lease.aged_releasing (l : Lease) : Releasing l l.aged := by
  obtain ⟨st, counter, he⟩ := l.aged_cases
  exact ⟨by rw [he]; exact ⟨rfl, rfl, rfl, rfl⟩, by rw [he], l.aged_frees⟩

theorem cleared_releasing (s : State) (i : Nat) (l : Lease) : Releasing l (s.cleared i l) := by
  unfold State.cleared
  split_ifs
  · exact ⟨⟨rfl, rfl, rfl, rfl⟩, rfl, nofun⟩
  · exact ⟨.refl l, rfl, id⟩

theorem returnedLease_releasing (s : State) (skip : Bool) {l : Lease} (h : l.st = .held) : Releasing l (s.returnedLease skip l) := by
  unfold State.returnedLease
  split_ifs
  · exact ⟨⟨rfl, rfl, rfl, rfl⟩, rfl, nofun⟩
  · exact ⟨⟨rfl, rfl, rfl, rfl⟩, rfl, fun _ => by rw [Lease.holds, h]⟩

/-- R104: a record that a return leaves or changes. -/
def State.returned (s : State) (skip : Bool) (chosen : Nat → Lease → Bool) (i : Nat) (l : Lease) : Lease :=
  if chosen i l then s.returnedLease skip l else l

theorem returned_releasing {skip : Bool} {chosen : Nat → Lease → Bool}
    (held : ∀ i l, (i, l) ∈ s.lt.leases → chosen i l = true → l.st = .held) {i : Nat} {l : Lease} (h : (i, l) ∈ s.lt.leases) :
    Releasing l (s.returned skip chosen i l) := by
  unfold State.returned
  split_ifs with hch
  · exact returnedLease_releasing s skip (held i l h hch)
  · exact ⟨.refl l, rfl, id⟩

/-! ### The held charge -/

/-- R31: what a record that holds its tokens before and after was and is. -/
def HeldSame (s t : State) : Prop := ∀ i, (s.lease i).holds = true → (t.lease i).holds = true → SameLease (s.lease i) (t.lease i)

theorem holds_ne_reset {l : Lease} (h : l.holds = true) : l ≠ Lease.atReset := by
  rintro rfl
  cases h

/-- R31: a change of every listed record that keeps what each holds. -/
theorem heldSame_mapEntries (hs : s.Canonical) (f : Nat → Lease → Lease) (ht : t.lt.leases = Table.mapEntries Lease.atReset f s.lt.leases)
    (hf : ∀ i l, (i, l) ∈ s.lt.leases → SameLease l (f i l)) : HeldSame s t := by
  intro i hi _
  have hne : Table.get Lease.atReset s.lt.leases i ≠ Lease.atReset := holds_ne_reset hi
  rw [State.lease, State.lease, ht, Table.get_mapEntries_listed f hs.leases_canonical hne]
  exact hf i _ (Table.mem_of_get_ne hne)

theorem heldSame_setLease {i : Nat} {v : Lease} (hv : (s.lease i).holds = true → SameLease (s.lease i) v)
    (ht : t.lt.leases = (s.setLease i v).lt.leases) : HeldSame s t := by
  intro j hj _
  have : t.lease j = if j = i then v else s.lease j := by
    rw [State.lease, ht]
    exact Table.get_set _ _ _ _ _
  rw [this]
  split_ifs with hij
  · subst hij
    exact hv hj
  · exact .refl _

theorem recomputed_cases (s : State) (staged : Table (Option StagedPool)) (l : Lease) :
    ∃ b, s.recomputed staged l = { l with inReserve := b } := by
  unfold State.recomputed
  split
  · split_ifs
    · exact ⟨_, rfl⟩
    · exact ⟨l.inReserve, rfl⟩
  · exact ⟨l.inReserve, rfl⟩

theorem Event.heldSame (h : Event s t) (hs : s.Canonical) : HeldSame s t := by
  have hsame (ht : t.lt = s.lt) : HeldSame s t := fun i _ _ => by
    rw [State.lease, State.lease, ht]
    exact .refl _
  cases h with
  | baseLo value =>
    refine hsame ?_
    unfold State.writeBaseLo
    cases s.xi.engine <;> rfl
  | baseHi value =>
    refine hsame ?_
    unfold State.writeBaseHi
    cases s.xi.engine <;> rfl
  | @notice tag i x found kind =>
    cases hn : (s.landed tag).xi.notices with
    | nil => exact hsame (by rw [noticeWrittenEvent_of_nil hn]; rfl)
    | cons n rest =>
      rw [noticeWrittenEvent_of_front hn] at hsame ⊢
      cases n with
      | lapse i g p =>
        simp only [State.noticeDelivered, State.lapseWritten] at hsame ⊢
        split_ifs at hsame ⊢ with hl
        · refine heldSame_setLease (i := i) (fun hh => ?_) rfl
          have hst : (s.lease i).st = .lapsed := hl.1
          rw [Lease.holds, hst] at hh
          cases hh
        · exact hsame rfl
      | _ => exact hsame rfl
  | @reload i below held period =>
    exact heldSame_setLease (i := i) (v := (s.lease i).reload period) (fun _ => ⟨rfl, rfl, rfl, rfl⟩) rfl
  | returns skip chosen held =>
    rw [returnRecords_released, released_eq]
    exact heldSame_mapEntries hs _ rfl fun i l hm => (returned_releasing (held ((canonical_iff s).2 hs)) hm).same
  | grant feature period passes lowest named =>
    refine heldSame_setLease (fun hh => ?_) rfl
    rw [Lease.holds, (lowestFree_eq_some.1 lowest).2.1] at hh
    cases hh
  | @revive i lingering period =>
    exact heldSame_setLease (i := i) (v := { s.lease i with st := .held, period := period, counter := period })
      (fun _ => ⟨rfl, rfl, rfl, rfl⟩) rfl
  | age =>
    rw [ageLeases_eq, released_eq]
    exact heldSame_mapEntries hs _ rfl fun i l _ => l.aged_releasing.same
  | clear =>
    rw [clearLeases_released, released_eq]
    exact heldSame_mapEntries hs _ rfl fun i l _ => (cleared_releasing s i l).same
  | @commit im staged header committing =>
    refine heldSame_mapEntries hs (fun _ l => s.recomputed staged l) rfl fun i l _ => ?_
    obtain ⟨b, he⟩ := recomputed_cases s staged l
    rw [he]
    exact ⟨rfl, rfl, rfl, rfl⟩
  | clearCauses value => exact hsame rfl

/-- Settles O50: of the moves of a step at most one changes a lease record, and none changes what a record that holds its tokens holds. -/
theorem heldChargeKept : Obligations.HeldChargeKept := by
  intro s t hs h i hi hti
  suffices SameLease (s.lease i) (t.lease i) from ⟨this.charge, this.pool, this.feature, this.key⟩
  have hlease {a b : State} (hab : b.lt = a.lt) : b.lease i = a.lease i := by rw [State.lease, State.lease, hab]
  have hunqueued : s.unqueued.lease i = s.lease i := hlease rfl
  rcases step_cases h with ⟨⟨u, v, h1, h2, h3⟩, -⟩ | ⟨⟨u, hu, hm⟩, -⟩ | ⟨-, rfl⟩
  · have hu : u.lease i = s.lease i := (hlease h1.untouched.lt).trans hunqueued
    have ht : t.lease i = v.lease i := hlease h3.untouched.lt
    rw [ht] at hti ⊢
    rcases h2 with rfl | he
    · rw [hu]
      exact .refl _
    · have hcanonical : u.Canonical :=
        h1.keeps (P := State.Canonical) (fun _ _ h => h.canonical) { (canonical_iff s).1 hs with }
      rw [← hu] at hi ⊢
      exact he.heldSame hcanonical i hi hti
  · rw [hlease hm.untouched.lt, hlease hu.parked.lt, hunqueued]
    exact .refl _
  · cases hti

/-! ### The limits -/

theorem withinLimits_iff (p : Params) (e : Pool) :
    withinLimits p e = true ↔ e.inUse ≤ p.capacity ∧ (p.seatCap = 0 ∨ e.leaseCount ≤ p.seatCap) := by
  simp only [withinLimits, decide_eq_true_eq]

/-- R14: a pool entry within its own limits where it is ACTIVE. -/
def Pool.Limited (e : Pool) : Prop := e.st = .active → withinLimits (e.params.getD Params.none) e = true

theorem limitsKept_iff (s : State) : s.limitsKept ↔ ∀ p, (s.pool p).Limited := Iff.rfl

theorem limited_setPool {p : Nat} {v : Pool} (hv : v.Limited) (h : s.limitsKept) : (s.setPool p v).limitsKept := by
  intro q
  show ((s.setPool p v).pool q).Limited
  rw [State.pool_setPool]
  split_ifs
  · exact hv
  · exact h q

theorem Pool.Limited.giveBack {e : Pool} (h : e.Limited) (l : Lease) : (e.giveBack l).Limited := by
  intro hst
  have := (withinLimits_iff _ _).1 (h hst)
  refine (withinLimits_iff _ _).2 ?_
  simp only [Pool.giveBack]
  omega

theorem limited_settlePool (p : Nat) (h : s.limitsKept) : (s.settlePool p).limitsKept := by
  unfold State.settlePool
  split
  · split_ifs with hw
    · exact limited_setPool (fun _ => hw) h
    · exact h
  · split_ifs
    · exact limited_setPool (s := s) (p := p) (v := Pool.atReset) nofun h
    · exact h
  · exact h
  · exact h

/-- R13, R18: a free event keeps the limits. -/
theorem limited_freeEvent (ls : List Lease) (h : s.limitsKept) : (s.freeEvent ls).limitsKept := by
  have hlowered : (ls.foldl State.lowerCounters s).limitsKept :=
    foldl_keeps (fun s l hs => limited_setPool (Pool.Limited.giveBack (hs l.pool) l) hs) ls h
  exact foldl_keeps (P := State.limitsKept) (fun s p hs => limited_settlePool p hs) (ls.map Lease.pool) hlowered

theorem limited_congr (het : t.et = s.et) (h : s.limitsKept) : t.limitsKept := by
  intro p
  rw [State.params, State.pool, het]
  exact h p

/-- R142: what the commit makes of a pool number is within its limits where it is ACTIVE. -/
theorem committedPool_limited (staged : Table (Option StagedPool)) (p : Nat) (h : (s.pool p).Limited) :
    (s.committedPool staged p).Limited := by
  unfold State.committedPool
  split
  · rename_i entry _
    split_ifs
    · intro hst
      simp only [keptPool] at hst
      split_ifs at hst with hw
      exact hw
    · intro _
      exact (withinLimits_iff _ _).2 ⟨Nat.zero_le _, .inr (Nat.zero_le _)⟩
  · split_ifs
    · nofun
    · nofun
    · exact h

theorem commit_pool (im : ImageRead) (staged : Table (Option StagedPool)) (header : HeaderContent) (p : Nat) :
    (s.commit im staged header).pool p = if p < 512 then s.committedPool staged p else Pool.atReset := by
  unfold State.commit State.pool
  dsimp only
  rw [Table.get_build]

theorem Event.limited (h : Event s t) (hs : s.limitsKept) : t.limitsKept := by
  have hrel (f : Nat → Lease → Lease) (notices : List Notice) (inbox : List MeterCount) (freed : List Lease) (report : Bool) :
      (s.released f notices inbox freed report).limitsKept := by
    rw [released_eq]
    exact limited_congr rfl (limited_freeEvent freed hs)
  cases h with
  | baseLo value =>
    unfold State.writeBaseLo
    cases s.xi.engine <;> exact limited_congr rfl hs
  | baseHi value =>
    unfold State.writeBaseHi
    cases s.xi.engine <;> exact limited_congr rfl hs
  | notice found kind =>
    rw [noticeWrittenEvent_eq]
    exact limited_congr rfl hs
  | returns skip chosen held =>
    rw [returnRecords_released]
    exact hrel _ _ _ _ _
  | age =>
    rw [ageLeases_eq]
    exact hrel _ _ _ _ _
  | clear =>
    rw [clearLeases_released]
    exact hrel _ _ _ _ _
  | @grant p charge i key feature period passes lowest named =>
    obtain ⟨j, -, htokens, hseats, -⟩ := grantVerdict_none_iff.1 passes
    rw [← clientLimit_eq] at htokens
    have hv : (s.grantedPool p key charge).Limited := fun _ =>
      (withinLimits_iff _ _).2 ⟨htokens.trans (clientLimit_le_capacity ..), hseats⟩
    exact limited_congr (s := s.setPool p (s.grantedPool p key charge)) rfl (limited_setPool hv hs)
  | @commit im staged header committing =>
    intro p
    show ((s.commit im staged header).pool p).Limited
    rw [commit_pool]
    split_ifs
    · exact committedPool_limited staged p (hs p)
    · nofun
  | _ => exact limited_congr rfl hs

theorem limitsKept_reset : State.reset.limitsKept := fun _ h => by cases h

/-- Settles O55: a grant judges the limits, a free lowers what they bound, and a pool becomes ACTIVE only where it is within them. -/
theorem limitsKept : Obligations.LimitsKept := by
  intro s t hs h
  exact step_keeps (P := State.limitsKept) (limited_congr rfl) (fun _ _ h hs => limited_congr h.untouched.et hs)
    (fun _ _ h => h.limited) (fun _ _ h hs => limited_congr h.parked.et hs) (fun _ => limited_congr (s := State.reset) rfl limitsKept_reset)
    h hs

end Sys2Proof.Machine
end

