-- ==== Sys2Proof/Proofs/Accounts.lean ====
section
/-! SUPPORT. The Pool Counters as sums over the records that hold tokens and seats (R16): O54. -/

namespace Sys2Proof.Machine

variable {s t : State}

/-! ### Books -/

/-- R16: the charges, the reserved charges and the number of the records of a list. -/
def books (ls : List Lease) : Nat × Nat × Nat := ((ls.map Lease.charge).sum, ((ls.filter Lease.inReserve).map Lease.charge).sum, ls.length)

theorem books_nil : books [] = 0 := rfl

theorem books_append (a b : List Lease) : books (a ++ b) = books a + books b := by
  simp [books]

theorem books_perm {a b : List Lease} (h : a.Perm b) : books a = books b := by
  rw [books, books, (h.map _).sum_eq, ((h.filter _).map _).sum_eq, h.length_eq]

/-- R12, R16: a pool entry keeps the books of these records, and an ABSENT one holds nothing. -/
structure Pool.Keeps (e : Pool) (ls : List Lease) : Prop where
  counters : (e.inUse, e.reserveInUse, e.leaseCount) = books ls
  absent : e.st = .absent → e = Pool.atReset

/-- R16: the record, where it holds tokens and a seat of the pool. -/
def Lease.on (p : Nat) (l : Lease) : List Lease := if l.holds && decide (l.pool = p) then [l] else []

/-- R16: the records that hold tokens and seats of a pool. -/
def holdersOf (leases : Table Lease) (p : Nat) : List Lease := leases.flatMap fun e => e.2.on p

theorem holdersOf_eq_filter (leases : Table Lease) (p : Nat) :
    holdersOf leases p = (leases.filter fun e => e.2.holds && decide (e.2.pool = p)).map Prod.snd := by
  induction leases with
  | nil => rfl
  | cons e es ih =>
    rw [holdersOf, List.flatMap_cons, ← holdersOf, ih, List.filter_cons, Lease.on]
    split_ifs <;> rfl

theorem chargeSum_pool (leases : Table Lease) (p : Nat) :
    chargeSum leases (fun l => decide (l.pool = p)) = ((holdersOf leases p).map Lease.charge).sum := by
  rw [chargeSum, holdersOf_eq_filter, List.map_map]
  rfl

theorem reserveSum_eq (leases : Table Lease) (p : Nat) :
    reserveSum leases p = (((holdersOf leases p).filter Lease.inReserve).map Lease.charge).sum := by
  rw [reserveSum, chargeSum, holdersOf_eq_filter, List.filter_map, List.map_map, List.filter_filter]
  congr 3
  funext e
  simp only [Function.comp_apply, Bool.and_assoc, Bool.and_comm e.2.inReserve]

theorem leaseTally_eq (leases : Table Lease) (p : Nat) : leaseTally leases p = (holdersOf leases p).length := by
  rw [leaseTally, holdersOf_eq_filter, List.length_map]

/-- R16: every pool keeps the books of the records it holds. -/
theorem accounted_iff (s : State) : s.accounted ↔ ∀ p, (s.pool p).Keeps (holdersOf s.lt.leases p) := by
  refine forall_congr' fun p => ?_
  rw [chargeSum_pool, reserveSum_eq, leaseTally_eq]
  exact ⟨fun ⟨h1, h2, h3, h4⟩ => ⟨by rw [h1, h2, h3]; rfl, h4⟩, fun ⟨h, h4⟩ =>
    ⟨congrArg Prod.fst h, congrArg (fun b => b.2.1) h, congrArg (fun b => b.2.2) h, h4⟩⟩

/-- R16: what a record gives to the books does not change with its counter, its generation or its place. -/
theorem books_on_congr {l l' : Lease} (p : Nat) (holds : l'.holds = l.holds) (pool : l'.pool = l.pool) (charge : l'.charge = l.charge)
    (reserve : l'.inReserve = l.inReserve) : books (l'.on p) = books (l.on p) := by
  unfold Lease.on
  rw [holds, pool]
  split_ifs
  · cases hr : l.inReserve <;> simp [books, charge, reserve, hr]
  · rfl

theorem holdersOf_reset (p : Nat) : Lease.atReset.on p = [] := rfl

/-- R16: the books of a table of records, one record apart. -/
theorem holdersOf_split {leases : Table Lease} (h : Table.canonical Lease.atReset leases = true) (i p : Nat) :
    (holdersOf leases p).Perm ((Table.get Lease.atReset leases i).on p ++ holdersOf (Table.erase i leases) p) :=
  Table.flatMap_perm (fun _ (l : Lease) => l.on p) (fun _ => rfl) h i

theorem holdersOf_set {leases : Table Lease} (h : Table.canonical Lease.atReset leases = true) (i p : Nat) (v : Lease) :
    (holdersOf (Table.set Lease.atReset leases i v) p).Perm (v.on p ++ holdersOf (Table.erase i leases) p) :=
  Table.flatMap_set_perm (fun _ (l : Lease) => l.on p) (fun _ => rfl) h i v

/-- R16: a record written with what it holds unchanged leaves the books. -/
theorem books_setLease (hs : s.Canonical) {i : Nat} {v : Lease} {p : Nat} (hv : books (v.on p) = books ((s.lease i).on p)) :
    books (holdersOf (s.setLease i v).lt.leases p) = books (holdersOf s.lt.leases p) := by
  rw [books_perm (holdersOf_split hs.leases_canonical i p), books_append]
  refine (books_perm (holdersOf_set hs.leases_canonical i p v)).trans ?_
  rw [books_append, hv]
  rfl

/-! ### A release -/

/-- R18: what the records of a table held goes to those freed and stays with the others. -/
theorem books_released {f : Nat → Lease → Lease} (es : Table Lease) (hf : ∀ i l, (i, l) ∈ es → Releasing l (f i l)) (p : Nat) :
    books (holdersOf es p) = books (freedFrom ((es.filter fun e => e.2.holds && !(f e.1 e.2).holds).map Prod.snd) p) +
      books (holdersOf (Table.mapEntries Lease.atReset f es) p) := by
  have hmapped : holdersOf (Table.mapEntries Lease.atReset f es) p = es.flatMap fun e => (f e.1 e.2).on p :=
    Table.flatMap_mapEntries (fun l : Lease => l.on p) rfl f es
  rw [hmapped]
  clear hmapped
  induction es with
  | nil => rfl
  | cons e es ih =>
    have hr := hf e.1 e.2 List.mem_cons_self
    have hone : books (e.2.on p) = books (freedFrom (if e.2.holds && !(f e.1 e.2).holds then [e.2] else []) p) +
        books ((f e.1 e.2).on p) := by
      cases hnow : (f e.1 e.2).holds with
      | true =>
        rw [if_neg (by simp)]
        refine Eq.trans ?_ (zero_add _).symm
        exact (books_on_congr p (by rw [hnow, hr.holds hnow]) hr.same.pool hr.same.charge hr.reserve).symm
      | false =>
        have hnone : (f e.1 e.2).on p = [] := by simp [Lease.on, hnow]
        rw [hnone]
        refine Eq.trans ?_ (add_zero _).symm
        cases hh : e.2.holds <;> by_cases hp : e.2.pool = p <;> simp [Lease.on, freedFrom, hh, hp]
    have hrest := ih fun i l hm => hf i l (List.mem_cons_of_mem _ hm)
    have hsplit : books (freedFrom (((e :: es).filter fun e => e.2.holds && !(f e.1 e.2).holds).map Prod.snd) p) =
        books (freedFrom (if e.2.holds && !(f e.1 e.2).holds then [e.2] else []) p) +
          books (freedFrom ((es.filter fun e => e.2.holds && !(f e.1 e.2).holds).map Prod.snd) p) := by
      rw [List.filter_cons]
      split_ifs
      · rw [← books_append]
        simp only [freedFrom, List.map_cons, List.filter_cons, List.filter_nil]
        split_ifs <;> rfl
      · exact (zero_add _).symm
    rw [holdersOf, List.flatMap_cons, books_append, ← holdersOf, hone, hrest, hsplit, List.flatMap_cons, books_append]
    abel

/-- R16, R18: a pool entry once the records freed from it have given back their tokens and it is settled. -/
theorem Pool.Keeps.released {e : Pool} {before freed after : List Lease} (h : e.Keeps before) (hsplit : books before = books freed + books after)
    (hfreed : freed ≠ []) : (e.lowered freed).settled.Keeps after := by
  have hcounters := h.counters.trans hsplit
  simp only [books, Prod.mk_add_mk, Prod.mk.injEq] at hcounters
  obtain ⟨huse, hreserve, hcount⟩ := hcounters
  have hpos : 0 < freed.length := List.length_pos_iff.2 hfreed
  have hst : e.st ≠ .absent := fun he => by
    have := congrArg Pool.leaseCount (h.absent he)
    rw [hcount] at this
    have : freed.length + after.length = 0 := this
    omega
  have hlowered : ((e.lowered freed).inUse, (e.lowered freed).reserveInUse, (e.lowered freed).leaseCount) = books after := by
    simp only [Pool.lowered, books, Prod.mk.injEq]
    omega
  have hsame : (e.lowered freed).st = e.st := rfl
  unfold Pool.settled
  split
  · split_ifs
    · exact ⟨hlowered, nofun⟩
    · exact ⟨hlowered, fun he => absurd he hst⟩
  · rename_i hret
    split_ifs with hzero
    · have hnone : after = [] := by
        have hlen := congrArg (fun b => b.2.2) hlowered
        exact List.length_eq_zero_iff.1 (hlen.symm.trans hzero)
      rw [hnone]
      exact ⟨rfl, fun _ => rfl⟩
    · exact ⟨hlowered, fun he => absurd he hst⟩
  · exact ⟨hlowered, fun he => absurd he hst⟩
  · rename_i habsent
    exact absurd habsent hst

/-- R16, R18: a release keeps the books of every pool. -/
theorem accounted_released {f : Nat → Lease → Lease} (hf : ∀ i l, (i, l) ∈ s.lt.leases → Releasing l (f i l)) (notices : List Notice)
    (inbox : List MeterCount) (report : Bool) {freed : List Lease} (hfreed : freed = s.freedBy f) (h : s.accounted) :
    (s.released f notices inbox freed report).accounted := by
  rw [accounted_iff] at h ⊢
  intro p
  obtain ⟨⟨hkept, htaken, -⟩, -⟩ := freeEvent_taken s freed
  have hpool : (s.released f notices inbox freed report).pool p = (s.freeEvent freed).pool p := by rw [released_eq]; rfl
  have hleases : (s.released f notices inbox freed report).lt.leases = Table.mapEntries Lease.atReset f s.lt.leases := by
    rw [released_eq]
  have hsplit := books_released s.lt.leases hf p
  rw [hpool, hleases]
  by_cases hp : freedFrom freed p = []
  · rw [hkept p hp]
    rw [hfreed, State.freedBy] at hp
    rw [hp, books_nil, zero_add] at hsplit
    exact ⟨(h p).counters.trans hsplit, (h p).absent⟩
  · rw [htaken p hp]
    refine (h p).released ?_ hp
    rw [hfreed]
    exact hsplit

/-- R93, R94: aging frees the records that lapse and those whose linger ends. -/
theorem freedBy_aged (s : State) :
    (Table.select (fun _ l => l.lapsing || l.lingerEnding) s.lt.leases).map Prod.snd = s.freedBy fun _ l => l.aged := by
  unfold State.freedBy Table.select
  simp only [Lease.aged_holds]

/-- R109: CLEAR_FLOOR frees every record that holds tokens. -/
theorem freedBy_cleared (s : State) : s.holders = s.freedBy s.cleared := by
  unfold State.freedBy State.holders Table.select
  congr 2
  funext e
  unfold State.cleared State.clearedByFloor
  cases hst : e.2.st <;> simp [Lease.holds, hst]

/-- R102: a return frees the records it does not put into linger. -/
theorem freedBy_returned {skip : Bool} {chosen : Nat → Lease → Bool}
    (held : ∀ i l, (i, l) ∈ s.lt.leases → chosen i l = true → l.st = .held) :
    ((Table.select chosen s.lt.leases).map Prod.snd).filter (s.freedByReturn skip) = s.freedBy (s.returned skip chosen) := by
  unfold State.freedBy Table.select
  rw [List.filter_map, List.filter_filter]
  congr 1
  refine List.filter_congr fun e he => ?_
  unfold State.returned State.freedByReturn State.returnedLease
  cases hch : chosen e.1 e.2 with
  | true =>
    have hst := held e.1 e.2 he hch
    by_cases hl : (s.params e.2.pool).linger = 0 <;> cases skip <;> simp [Lease.holds, hst, hl]
  | false => simp

/-! ### The other events -/

/-- R16: the books of every pool, where the pools and what the records hold stand. -/
theorem accounted_congr (het : t.et = s.et) (hlt : ∀ p, books (holdersOf t.lt.leases p) = books (holdersOf s.lt.leases p))
    (h : s.accounted) : t.accounted := by
  rw [accounted_iff] at h ⊢
  intro p
  rw [State.pool, het]
  exact ⟨(h p).counters.trans (hlt p).symm, (h p).absent⟩

/-- R17: a grant raises the counters of its pool by what the record made holds. -/
theorem accounted_grant (hs : s.Canonical) {p charge i : Nat} {key : Word} (feature period : Nat)
    (passes : s.grantVerdict p key charge = none) (free : (s.lease i).st = .free) (h : s.accounted) :
    (s.makeLease p key feature charge period i).accounted := by
  rw [accounted_iff] at h ⊢
  intro q
  have hold : (s.lease i).on q = [] := by simp [Lease.on, Lease.holds, free]
  have hbefore : books (holdersOf s.lt.leases q) = books (holdersOf (Table.erase i s.lt.leases) q) := by
    rw [books_perm (holdersOf_split hs.leases_canonical i q), show Table.get Lease.atReset s.lt.leases i = s.lease i from rfl, hold]
    rfl
  have hafter : books (holdersOf (s.makeLease p key feature charge period i).lt.leases q) =
      books ((s.grantedLease p key feature charge period i).on q) + books (holdersOf s.lt.leases q) := by
    rw [hbefore, ← books_append]
    exact books_perm (holdersOf_set hs.leases_canonical i q (s.grantedLease p key feature charge period i))
  have hpool : (s.makeLease p key feature charge period i).pool q = if q = p then s.grantedPool p key charge else s.pool q :=
    State.pool_setPool _ _ _ _
  have hserving : (s.pool p).st ≠ .absent := by
    obtain ⟨j, hst, -⟩ := grantVerdict_none_iff.1 passes
    rcases hst with hst | hst <;> rw [hst] <;> nofun
  rw [hpool]
  split_ifs with hq
  · subst hq
    refine ⟨?_, fun he => absurd he hserving⟩
    rw [hafter, ← (h q).counters]
    have hon : (s.grantedLease q key feature charge period i).on q = [s.grantedLease q key feature charge period i] := by
      simp [Lease.on, Lease.holds, State.grantedLease]
    rw [hon]
    simp only [State.grantedPool, books, Prod.mk_add_mk, List.map_cons, List.map_nil, List.sum_cons, List.sum_nil, List.length_cons,
      List.length_nil, Prod.mk.injEq]
    refine ⟨Nat.add_comm _ _, ?_, Nat.add_comm _ _⟩
    cases hin : (s.params q).insider key <;> simp [State.grantedLease, hin, Nat.add_comm]
  · have hon : (s.grantedLease p key feature charge period i).on q = [] := by simp [Lease.on, State.grantedLease, Ne.symm hq]
    rw [hon, books_nil, zero_add] at hafter
    exact ⟨(h q).counters.trans hafter.symm, (h q).absent⟩

/-- R108: the recomputation leaves what a record holds, but for its flag in a pool that stays. -/
theorem recomputed_on (s : State) (staged : Table (Option StagedPool)) (p : Nat) (es : Table Lease) :
    holdersOf (Table.mapEntries Lease.atReset (fun _ l => s.recomputed staged l) es) p = (holdersOf es p).map (s.recomputed staged) := by
  refine (Table.flatMap_mapEntries (fun l : Lease => l.on p) rfl _ es).trans ?_
  rw [holdersOf, List.map_flatMap]
  congr 1
  funext e
  obtain ⟨b, he⟩ := recomputed_cases s staged e.2
  have hholds : (s.recomputed staged e.2).holds = e.2.holds := by rw [he]; rfl
  have hpool : (s.recomputed staged e.2).pool = e.2.pool := by rw [he]
  unfold Lease.on
  rw [hholds, hpool]
  split_ifs <;> rfl

/-- R108: where the pool does not stay, its records keep their flags. -/
theorem recomputed_of_unstaged {staged : Table (Option StagedPool)} {l : Lease} (h : stagedEntry staged l.pool = none) :
    s.recomputed staged l = l := by
  unfold State.recomputed
  rw [h]

theorem mem_holdersOf {leases : Table Lease} {p : Nat} {l : Lease} (h : l ∈ holdersOf leases p) :
    l.holds = true ∧ l.pool = p ∧ ∃ i, (i, l) ∈ leases := by
  rw [holdersOf_eq_filter] at h
  obtain ⟨⟨i, l'⟩, hm, rfl⟩ := List.mem_map.1 h
  obtain ⟨hm, hl⟩ := List.mem_filter.1 hm
  simp only [Bool.and_eq_true, decide_eq_true_eq] at hl
  exact ⟨hl.1, hl.2, i, hm⟩

/-- R141 to R143, R108: the commit keeps the books of every pool number in range, and no record holds tokens of another. -/
theorem accounted_commit (im : ImageRead) (staged : Table (Option StagedPool)) (header : HeaderContent)
    (hbelow : ∀ e ∈ s.lt.leases, e.2.pool < 512) (h : s.accounted) : (s.commit im staged header).accounted := by
  rw [accounted_iff] at h ⊢
  intro p
  have hleases : holdersOf (s.commit im staged header).lt.leases p = (holdersOf s.lt.leases p).map (s.recomputed staged) :=
    recomputed_on s staged p s.lt.leases
  have hsum : ((holdersOf s.lt.leases p).map (s.recomputed staged)).map Lease.charge = (holdersOf s.lt.leases p).map Lease.charge := by
    rw [List.map_map]
    refine List.map_congr_left fun l _ => ?_
    obtain ⟨b, he⟩ := recomputed_cases s staged l
    rw [Function.comp_apply, he]
  have hcount : (s.pool p).leaseCount = (holdersOf s.lt.leases p).length := congrArg (fun b => b.2.2) (h p).counters
  have hempty (hz : (s.pool p).leaseCount = 0) : holdersOf s.lt.leases p = [] := List.length_eq_zero_iff.1 (hcount.symm.trans hz)
  rw [commit_pool, hleases]
  split_ifs with hp
  · unfold State.committedPool
    cases hentry : stagedEntry staged p with
    | some entry =>
      simp only
      split_ifs with hin
      · refine ⟨?_, fun he => ?_⟩
        · have hreserve : reserveSum (s.recomputedLeases staged) p =
              ((((holdersOf s.lt.leases p).map (s.recomputed staged)).filter Lease.inReserve).map Lease.charge).sum := by
            rw [reserveSum_eq, State.recomputedLeases, recomputed_on]
          simp only [keptPool, books, hsum, List.length_map, hreserve, Prod.mk.injEq]
          exact ⟨congrArg Prod.fst (h p).counters, trivial, hcount⟩
        · simp only [keptPool] at he
          split_ifs at he
      · have hst : (s.pool p).st = .absent := by simpa [State.installed] using hin
        rw [hempty (by rw [(h p).absent hst]; rfl)]
        exact ⟨rfl, nofun⟩
    | none =>
      have hkept : (holdersOf s.lt.leases p).map (s.recomputed staged) = holdersOf s.lt.leases p := by
        refine (List.map_congr_left fun l hl => ?_).trans (List.map_id _)
        exact recomputed_of_unstaged (by rw [(mem_holdersOf hl).2.1]; exact hentry)
      simp only
      rw [hkept]
      split_ifs with hin hz
      · rw [hempty hz]
        exact ⟨rfl, fun _ => rfl⟩
      · exact ⟨(h p).counters, nofun⟩
      · exact h p
  · have hnone : holdersOf s.lt.leases p = [] := List.eq_nil_iff_forall_not_mem.2 fun l hl => by
      obtain ⟨-, hpool, i, hm⟩ := mem_holdersOf hl
      exact hp (hpool ▸ hbelow _ hm)
    rw [hnone]
    exact ⟨rfl, fun _ => rfl⟩

/-! ### Pool numbers -/

/-- R1: the pool numbers a state names, block by block. -/
structure State.Numbered (s : State) : Prop where
  leases : ∀ e ∈ s.lt.leases, e.2.pool < 512
  decision : ∀ d, s.decision = some d → ∀ p ∈ d.pools, p < 512
  named : ∀ p ∈ s.wu.named, p < 512

theorem poolsBelow_iff (s : State) : s.poolsBelow = true ↔ s.Numbered := by
  simp only [State.poolsBelow, List.all_eq_true, decide_eq_true_eq, List.mem_append, Config.numPools]
  constructor
  · intro h
    refine ⟨fun e he => h _ (.inl (.inl (.inl (.inl (.inl (.inl (.inl (List.mem_map.2 ⟨e, he, rfl⟩)))))))), fun d hd p hp => ?_,
      fun p hp => h p (by simp only [WaitUnit.named, List.mem_append] at hp; tauto)⟩
    exact h p (.inl (.inl (.inl (.inl (.inl (.inl (.inr (by rw [hd]; exact hp))))))))
  · rintro ⟨h1, h2, h3⟩ p hp
    simp only [WaitUnit.named, List.mem_append] at h3
    by_cases hdec : p ∈ (s.decision.map Decision.pools).getD []
    · cases hd : s.decision with
      | none => rw [hd] at hdec; cases hdec
      | some d => rw [hd] at hdec; exact h2 d hd p hdec
    · by_cases hl : p ∈ s.lt.leases.map fun e => e.2.pool
      · obtain ⟨e, he, rfl⟩ := List.mem_map.1 hl
        exact h1 e he
      · exact h3 p (by tauto)

theorem State.Numbered.lease (h : s.Numbered) (i : Nat) : (s.lease i).pool < 512 := by
  by_cases hi : Table.get Lease.atReset s.lt.leases i = Lease.atReset
  · rw [State.lease, hi]
    decide
  · exact h.leases _ (Table.mem_of_get_ne hi)

theorem State.Numbered.setLease (h : s.Numbered) (i : Nat) {v : Lease} (hv : v.pool < 512) : (s.setLease i v).Numbered := by
  refine { h with leases := fun e he => ?_ }
  rcases Table.mem_set he with ⟨rfl, -⟩ | he
  · exact hv
  · exact h.leases e he

theorem named_makeDue {ps : List Nat} {p : Nat} (h : p ∈ (s.makeDue ps).wu.named) : p ∈ ps ∨ p ∈ s.wu.named := by
  simp only [State.makeDue, WaitUnit.named, List.mem_append, mem_addNumbers] at h ⊢
  tauto

theorem State.Numbered.makeDue (h : s.Numbered) {ps : List Nat} (hps : ∀ p ∈ ps, p < 512) : (s.makeDue ps).Numbered :=
  { h with named := fun p hp => (named_makeDue hp).elim (hps p) (h.named p) }

theorem stall_named {p : Nat} (h : p ∈ s.wu.stall) : p ∈ s.wu.named := by
  simp only [WaitUnit.named, List.mem_append]
  tauto

theorem State.Numbered.reportRecordFree (h : s.Numbered) : s.reportRecordFree.Numbered :=
  h.makeDue fun p hp => h.named p (stall_named hp)

/-- R18, R69: a free event makes the pools of its records due, and changes nothing else at the Wait Unit. -/
theorem freeEvent_wu (s : State) (ls : List Lease) : (s.freeEvent ls).wu = { s.wu with due := addNumbers (ls.map Lease.pool) s.wu.due } := by
  have hwu : ∀ (u : State) (p : Nat), (u.settlePool p).wu = u.wu := by
    intro u p
    unfold State.settlePool
    split
    · split_ifs <;> rfl
    · split_ifs <;> rfl
    · rfl
    · rfl
  have hsettled := foldl_keeps (P := fun u => u.wu = s.wu) (fun u p hu => (hwu u p).trans hu) (ls.map Lease.pool)
    (foldl_keeps (f := State.lowerCounters) (P := fun u => u.wu = s.wu) (fun u l hu => hu) ls rfl)
  unfold State.freeEvent
  simp only [State.makeDue, hsettled]

theorem State.Numbered.freeEvent (h : s.Numbered) {ls : List Lease} (hls : ∀ l ∈ ls, l.pool < 512) : (s.freeEvent ls).Numbered := by
  rw [freeEvent_eq, freeEvent_wu]
  exact { h.makeDue (ps := ls.map Lease.pool) (fun p hp => by
    obtain ⟨l, hl, rfl⟩ := List.mem_map.1 hp
    exact hls l hl) with }

theorem State.Numbered.released (h : s.Numbered) {f : Nat → Lease → Lease} (hf : ∀ i l, (i, l) ∈ s.lt.leases → (f i l).pool = l.pool)
    (notices : List Notice) (inbox : List MeterCount) (report : Bool) {freed : List Lease} (hfreed : freed = s.freedBy f) :
    (s.released f notices inbox freed report).Numbered := by
  have hls : ∀ l ∈ freed, l.pool < 512 := by
    rw [hfreed]
    intro l hl
    obtain ⟨e, he, rfl⟩ := List.mem_map.1 hl
    exact h.leases e (List.mem_of_mem_filter he)
  have hchanged : State.Numbered
      { s with lt.leases := Table.mapEntries Lease.atReset f s.lt.leases, xi.notices := notices, mu.inbox := inbox } := by
    refine { h with leases := fun e he => ?_ }
    obtain ⟨-, w, hw, hfw⟩ := (Table.mem_mapEntries Lease.atReset f s.lt.leases e.1 e.2).1 he
    rw [← hfw, hf _ _ hw]
    exact h.leases (e.1, w) hw
  unfold State.released
  simp only
  split_ifs
  · exact (hchanged.freeEvent hls).reportRecordFree
  · exact hchanged.freeEvent hls

theorem Quiet.numbered (h : Quiet s t) (hs : s.Numbered) : t.Numbered := by
  cases h with
  | waitUnit wu queues parked stall due named => exact { hs with named := fun p hp => (named p hp).elim (hs.named p) id }
  | reread =>
    rw [rereadConsumed_eq]
    exact { hs with }
  | retireWrite =>
    unfold State.retireWrite
    split
    · exact hs
    all_goals exact { hs with }
  | noticeEntry dma room stage =>
    rw [issueNoticeEntry_eq]
    exact { hs with }
  | noticeCount found kind dma =>
    rw [issueNoticeCount_eq]
    exact { hs with }
  | consumed found kind value =>
    rw [takeConsumed_eq]
    exact { hs with }
  | post c =>
    rcases postCell_eq s c with he | ⟨he, -⟩ | ⟨he, -⟩ <;> rw [he]
    · exact hs
    all_goals exact { hs with }
  | decide serves d cell pools => exact { hs with decision := fun d' hd => Option.some.inj hd ▸ pools }
  | redecide hand d' cell pools =>
    refine { hs with decision := fun d'' hd p hp => ?_ }
    rcases pools p (Option.some.inj hd ▸ hp) with h | h | h
    · exact hs.decision _ hand p h
    · exact h
    · obtain ⟨e, he, rfl⟩ := List.mem_map.1 h
      exact hs.leases e he
  | answerHand hand a => exact { hs with decision := nofun }
  | @park d hand home named =>
    refine { hs with decision := nofun, named := fun p hp => ?_ }
    simp only [WaitUnit.named, List.mem_append, List.map_append, List.map_cons, List.map_nil, List.mem_singleton, State.handParking] at hp
    by_cases hhome : p = home
    · exact hs.decision _ hand p (hhome ▸ named)
    · refine hs.named p ?_
      simp only [WaitUnit.named, List.mem_append]
      tauto
  | place front =>
    refine { hs with named := fun p hp => hs.named p ?_ }
    simp only [WaitUnit.named, List.mem_append, State.placeParked, State.setCellState, State.setCell, State.setQueue] at hp ⊢
    rcases hp with (((((hp | hp) | hp) | hp) | hp) | hp)
    · obtain ⟨q, hq, rfl⟩ := List.mem_map.1 hp
      rcases Table.mem_set hq with ⟨rfl, -⟩ | hq
      · simp [front]
      · exact .inl (.inl (.inl (.inl (.inl (List.mem_map.2 ⟨q, hq, rfl⟩)))))
    · tauto
    · tauto
    · rw [front]
      simp only [List.map_cons, List.mem_cons]
      tauto
    · tauto
    · tauto
  | refuseParking front a =>
    refine { hs with named := fun p hp => hs.named p ?_ }
    simp only [WaitUnit.named, List.mem_append, front, List.map_cons, List.mem_cons, State.handAnswer] at hp ⊢
    tauto
  | dequeue qs as leaves =>
    rw [handAnswers_eq]
    refine { hs with named := fun p hp => hs.named p ?_ }
    simp only [WaitUnit.named, List.mem_append] at hp ⊢
    rcases hp with (((((hp | hp) | hp) | hp) | hp) | hp)
    · obtain ⟨q, hq, rfl⟩ := List.mem_map.1 hp
      obtain ⟨l, hl, -⟩ := leaves.sub q hq
      exact .inl (.inl (.inl (.inl (.inl (List.mem_map.2 ⟨_, hl, rfl⟩)))))
    all_goals tauto
  | _ => exact { hs with }

theorem mem_foldl_addNumber (p : Nat) : ∀ ps acc : List Nat, p ∈ ps.foldl (fun acc p => addNumber p acc) acc → p ∈ ps ∨ p ∈ acc
  | [], _, h => .inr h
  | q :: ps, acc, h => by
    rcases mem_foldl_addNumber p ps _ h with h | h
    · exact .inl (List.mem_cons_of_mem _ h)
    · rcases (mem_addNumber q p acc).1 h with rfl | h
      · exact .inl List.mem_cons_self
      · exact .inr h

/-- R1: a commit reports pool numbers in range. -/
theorem commitReport_below (s : State) (staged : Table (Option StagedPool)) {p : Nat}
    (h : p ∈ (s.commitOutcome staged).report.kept ++ (s.commitOutcome staged).report.leaving) : p < 512 := by
  have hrange : p ∈ List.range Config.numPools → p < 512 := fun hp => by
    have := List.mem_range.1 hp
    exact this
  unfold State.commitOutcome CommitOutcome.report at h
  generalize List.range Config.numPools = numbers at h hrange
  rcases List.mem_append.1 h with h | h
  · exact hrange (List.mem_of_mem_filter h)
  · exact (mem_foldl_addNumber p _ _ h).elim (fun h => hrange (List.mem_of_mem_filter h)) fun h => hrange (List.mem_of_mem_filter h)

/-- R1: after a commit the Wait Unit names the pools it named before, and those the commit reports. -/
theorem named_commit (im : ImageRead) (staged : Table (Option StagedPool)) (header : HeaderContent) {p : Nat}
    (h : p ∈ (s.commit im staged header).wu.named) : p < 512 ∨ p ∈ s.wu.named := by
  have hwu : (s.commit im staged header).wu = { s.wu with commitReports := s.wu.commitReports ++ [(s.commitOutcome staged).report] } := rfl
  rw [hwu] at h
  have hreport := commitReport_below s staged (p := p)
  generalize (s.commitOutcome staged).report = report at h hreport
  simp only [WaitUnit.named, List.flatMap_append, List.mem_append, List.flatMap_cons, List.flatMap_nil, List.append_nil] at h hreport ⊢
  tauto

theorem Event.numbered (h : Event s t) (hc : s.Canonical) (hs : s.Numbered) : t.Numbered := by
  cases h with
  | baseLo value =>
    unfold State.writeBaseLo
    cases s.xi.engine <;> exact { hs with }
  | baseHi value =>
    unfold State.writeBaseHi
    cases s.xi.engine <;> exact { hs with }
  | @notice tag i x found kind =>
    have hl : (s.landed tag).Numbered := { hs with }
    cases hn : (s.landed tag).xi.notices with
    | nil => rwa [noticeWrittenEvent_of_nil hn]
    | cons n rest =>
      have htaken : ((s.landed tag).noticeTaken rest).Numbered := { hl with }
      rw [noticeWrittenEvent_of_front hn]
      cases n with
      | answer c r p => exact { htaken with }
      | lapse i g p =>
        simp only [State.noticeDelivered, State.lapseWritten]
        split_ifs
        · refine State.Numbered.reportRecordFree (htaken.setLease i ?_)
          exact htaken.lease i
        · exact htaken
      | meter => exact htaken
  | @reload i below held period => exact hs.setLease i (hs.lease i)
  | returns skip chosen held =>
    have held := held ((canonical_iff s).2 hc)
    rw [returnRecords_released]
    exact hs.released (fun i l hm => (returned_releasing held hm).same.pool) _ _ _ (freedBy_returned held)
  | @grant p charge i key feature period passes lowest named =>
    have hp : p < 512 := by
      rcases named with hp | hp
      · cases hd : s.decision with
        | none => rw [hd] at hp; cases hp
        | some d => rw [hd] at hp; exact hs.decision d hd p hp
      · exact hs.named p hp
    exact { hs.setLease i (v := s.grantedLease p key feature charge period i) hp with }
  | @revive i lingering period => exact hs.setLease i (hs.lease i)
  | age =>
    rw [ageLeases_eq]
    exact hs.released (fun i l _ => l.aged_releasing.same.pool) _ _ _ (freedBy_aged s)
  | clear =>
    rw [clearLeases_released]
    exact hs.released (fun i l _ => (cleared_releasing s i l).same.pool) _ _ _ (freedBy_cleared s)
  | @commit im staged header committing =>
    have hdecision : (s.commit im staged header).decision = s.decision := by
      unfold State.commit
      dsimp only
    refine ⟨fun e he => ?_, fun d hd => hs.decision d (hdecision.symm.trans hd), fun p hp => (named_commit im staged header hp).elim id (hs.named p)⟩
    obtain ⟨-, w, hw, hfw⟩ := (Table.mem_mapEntries Lease.atReset (fun _ l => s.recomputed staged l) s.lt.leases e.1 e.2).1 he
    obtain ⟨b, hb⟩ := recomputed_cases s staged w
    rw [← hfw, hb]
    exact hs.leases (e.1, w) hw
  | clearCauses value => exact { hs with }

theorem Abrupt.numbered (h : Abrupt s t) (hs : s.Numbered) : t.Numbered := by
  obtain ⟨-, -, hlt, hwu, hdec, -⟩ := h.parked
  exact ⟨hlt ▸ hs.leases, hdec ▸ hs.decision, hwu ▸ hs.named⟩

/-! ### The ledger -/

/-- R16, with what keeps it. -/
structure State.Ledger (s : State) : Prop where
  canonical : s.Canonical
  numbered : s.Numbered
  accounted : s.accounted

theorem ledgerOk_iff (s : State) : s.ledgerOk ↔ s.Ledger := by
  unfold State.ledgerOk
  rw [canonical_iff, poolsBelow_iff]
  exact ⟨fun ⟨h1, h2, h3⟩ => ⟨h1, h2, h3⟩, fun h => ⟨h.1, h.2, h.3⟩⟩

theorem Event.accounted (h : Event s t) (hs : s.Ledger) : t.accounted := by
  have ha := hs.accounted
  have hc := hs.canonical
  have hset {i : Nat} {v : Lease} {u : State} (het : u.et = s.et) (hlt : u.lt = (s.setLease i v).lt)
      (hv : ∀ p, books (v.on p) = books ((s.lease i).on p)) : u.accounted :=
    accounted_congr het (fun p => by rw [hlt]; exact books_setLease hc (hv p)) ha
  have hsame {u : State} (het : u.et = s.et) (hlt : u.lt = s.lt) : u.accounted := accounted_congr het (fun p => by rw [hlt]) ha
  cases h with
  | baseLo value =>
    unfold State.writeBaseLo
    cases s.xi.engine <;> exact hsame rfl rfl
  | baseHi value =>
    unfold State.writeBaseHi
    cases s.xi.engine <;> exact hsame rfl rfl
  | @notice tag i x found kind =>
    cases hn : (s.landed tag).xi.notices with
    | nil =>
      rw [noticeWrittenEvent_of_nil hn]
      exact hsame rfl rfl
    | cons n rest =>
      rw [noticeWrittenEvent_of_front hn]
      cases n with
      | lapse i g p =>
        simp only [State.noticeDelivered, State.lapseWritten]
        split_ifs with hl
        · refine hset (i := i) rfl rfl fun q => ?_
          have hst : (s.lease i).st = .lapsed := hl.1
          simp [Lease.on, Lease.holds, hst]
        · exact hsame rfl rfl
      | _ => exact hsame rfl rfl
  | @reload i below held period =>
    exact hset (i := i) (v := (s.lease i).reload period) rfl rfl fun q => books_on_congr q rfl rfl rfl rfl
  | returns skip chosen held =>
    have held := held ((canonical_iff s).2 hc)
    rw [returnRecords_released]
    exact accounted_released (fun i l hm => returned_releasing held hm) _ _ _ (freedBy_returned held) ha
  | grant feature period passes lowest named => exact accounted_grant hc feature period passes (lowestFree_eq_some.1 lowest).2.1 ha
  | @revive i lingering period =>
    exact hset (i := i) (v := { s.lease i with st := .held, period := period, counter := period }) rfl rfl fun q =>
      books_on_congr q (by simp [Lease.holds, lingering]) rfl rfl rfl
  | age =>
    rw [ageLeases_eq]
    exact accounted_released (fun i l _ => l.aged_releasing) _ _ _ (freedBy_aged s) ha
  | clear =>
    rw [clearLeases_released]
    exact accounted_released (fun i l _ => cleared_releasing s i l) _ _ _ (freedBy_cleared s) ha
  | commit committing => exact accounted_commit _ _ _ hs.numbered.leases ha
  | clearCauses value => exact hsame rfl rfl

theorem ledger_reset : State.reset.Ledger :=
  ⟨(canonical_iff _).1 canonical_reset, ⟨nofun, nofun, nofun⟩, (accounted_iff _).2 fun _ => ⟨rfl, fun _ => rfl⟩⟩

/-- Settles O54: only a grant, a free and a commit change a Pool Counter, each with the records it sums. -/
theorem ledgerKept : Obligations.LedgerKept := by
  intro s t hs h
  rw [ledgerOk_iff] at hs ⊢
  exact step_keeps (P := State.Ledger) (fun h => ⟨{ h.canonical with }, { h.numbered with }, h.accounted⟩)
    (fun _ _ h hs => ⟨h.canonical hs.canonical, h.numbered hs.numbered,
      accounted_congr h.untouched.et (fun p => by rw [h.untouched.lt]) hs.accounted⟩)
    (fun _ _ h hs => ⟨h.canonical hs.canonical, h.numbered hs.canonical hs.numbered, h.accounted hs⟩)
    (fun _ _ h hs => ⟨h.canonical hs.canonical, h.numbered hs.numbered,
      accounted_congr h.parked.et (fun p => by rw [h.parked.lt]) hs.accounted⟩)
    (fun _ => ⟨{ ledger_reset.canonical with }, { ledger_reset.numbered with }, ledger_reset.accounted⟩) h hs

end Sys2Proof.Machine
end

