-- ==== Sys2Proof/Proofs/Places.lean ====
section
/-! SUPPORT. The order of the wait queues (R66), and the one place of each cell that its state names (R161, R162): for O56. -/

namespace Sys2Proof.Machine

variable {s t : State}

/-! ### The order of a queue -/

/-- R66: placing adds the entry and takes none away. -/
theorem placeWaiter_perm (w : Waiter) (q : List Waiter) : (placeWaiter w q).Perm (w :: q) := by
  induction q with
  | nil => exact .refl _
  | cons v q ih =>
    unfold placeWaiter
    split_ifs
    · exact (ih.cons v).trans (.swap w v q)
    · exact .refl _

/-- R66: an entry placed behind those of its class or a more urgent one leaves the queue ordered. -/
theorem placeWaiter_ordered (w : Waiter) {q : List Waiter} (h : (q.map Waiter.cls).Pairwise (· ≤ ·)) :
    ((placeWaiter w q).map Waiter.cls).Pairwise (· ≤ ·) := by
  induction q with
  | nil => exact List.pairwise_singleton _ _
  | cons v q ih =>
    obtain ⟨hv, hq⟩ := List.pairwise_cons.1 h
    have hfirst : ∀ u ∈ v :: q, v.cls ≤ u.cls := fun u hu =>
      (List.mem_cons.1 hu).elim (fun he => he ▸ le_rfl) fun hu => hv _ (List.mem_map_of_mem hu)
    unfold placeWaiter
    split_ifs with hc
    · obtain ⟨u, hu, hle⟩ := List.any_eq_true.1 hc
      refine List.pairwise_cons.2 ⟨fun a ha => ?_, ih hq⟩
      rcases List.mem_cons.1 (((placeWaiter_perm w q).map Waiter.cls).mem_iff.1 ha) with rfl | ha
      · exact (hfirst u hu).trans (of_decide_eq_true hle)
      · exact hv a ha
    · refine List.pairwise_cons.2 ⟨fun a ha => ?_, h⟩
      obtain ⟨u, hu, rfl⟩ := List.mem_map.1 ha
      have := List.any_eq_false.1 (Bool.not_eq_true _ ▸ hc) u hu
      exact (not_le.1 fun hle => this (decide_eq_true hle)).le

/-- R66: the wait queues ordered by class. -/
def State.Ordered (s : State) : Prop := ∀ q ∈ s.wu.queues, (q.2.map Waiter.cls).Pairwise (· ≤ ·)

theorem queuesOrdered_iff (s : State) : s.queuesOrdered = true ↔ s.Ordered := by
  simp only [State.queuesOrdered, List.all_eq_true, decide_eq_true_eq]
  rfl

theorem State.Ordered.queue (h : s.Ordered) (p : Nat) : ((s.queue p).map Waiter.cls).Pairwise (· ≤ ·) := by
  by_cases hp : Table.get [] s.wu.queues p = []
  · rw [State.queue, hp]
    exact .nil
  · exact h _ (Table.mem_of_get_ne hp)

theorem State.Ordered.congr (h : s.Ordered) (hq : t.wu.queues = s.wu.queues) : t.Ordered := by
  rw [State.Ordered, hq]
  exact h

theorem Quiet.ordered (h : Quiet s t) (hs : s.Ordered) : t.Ordered := by
  cases h with
  | waitUnit wu queues parked stall due named => exact hs.congr queues
  | reread => exact hs.congr (by rw [rereadConsumed_eq])
  | retireWrite =>
    refine hs.congr ?_
    unfold State.retireWrite
    split <;> rfl
  | noticeEntry dma room stage => exact hs.congr (by rw [issueNoticeEntry_eq])
  | noticeCount found kind dma => exact hs.congr (by rw [issueNoticeCount_eq]; rfl)
  | consumed found kind value => exact hs.congr (by rw [takeConsumed_eq]; rfl)
  | post c =>
    rcases postCell_eq s c with he | ⟨he, -⟩ | ⟨he, -⟩ <;> rw [he]
    · exact hs
    all_goals exact hs.congr rfl
  | @place e rest front =>
    intro q hq
    rcases Table.mem_set (t := s.wu.queues) hq with ⟨rfl, -⟩ | hq
    · exact placeWaiter_ordered _ (hs.queue e.home)
    · exact hs q hq
  | dequeue qs as leaves =>
    rw [handAnswers_eq]
    intro q hq
    obtain ⟨l, hl, hsub⟩ := leaves.sub q hq
    exact (hs _ hl).sublist hsub
  | _ => exact hs.congr rfl

/-- R65: no event changes a wait queue. -/
theorem Event.queues (h : Event s t) : t.wu.queues = s.wu.queues := by
  cases h with
  | baseLo value =>
    unfold State.writeBaseLo
    cases s.xi.engine <;> rfl
  | baseHi value =>
    unfold State.writeBaseHi
    cases s.xi.engine <;> rfl
  | notice found kind =>
    rw [noticeWrittenEvent_eq]
    rfl
  | returns skip chosen held =>
    rw [returnRecords_released, released_eq, freeEvent_wu]
    dsimp only
    split <;> simp only [State.reportRecordFree, State.makeDue, freeEvent_wu]
  | age =>
    rw [ageLeases_eq, released_eq, freeEvent_wu]
    dsimp only
    split <;> simp only [State.reportRecordFree, State.makeDue, freeEvent_wu]
  | clear =>
    rw [clearLeases_released, released_eq, freeEvent_wu]
    dsimp only
    split <;> simp only [State.reportRecordFree, State.makeDue, freeEvent_wu]
  | _ => rfl

theorem queuesOrdered_reset : State.reset.queuesOrdered = true := by decide

/-- R66: every step keeps the wait queues ordered by class. -/
theorem step_keeps_ordered (h : step s = .next t) (hs : s.Ordered) : t.Ordered :=
  step_keeps (P := State.Ordered) (fun h => h.congr rfl) (fun _ _ h => h.ordered) (fun _ _ h hs => hs.congr h.queues)
    (fun _ _ h hs => hs.congr (by rw [h.parked.wu])) (fun _ => ((queuesOrdered_iff _).1 queuesOrdered_reset).congr rfl) h hs

/-! ### The places of the cells -/

/-- Cells of one kind of place, each with the states its cell may be in there. -/
def sitesAt (sts : List CellState) (cells : List Nat) : Multiset (Nat × List CellState) := ↑(cells.map fun c => (c, sts))

theorem sitesAt_nil (sts : List CellState) : sitesAt sts [] = 0 := rfl

theorem sitesAt_cons (sts : List CellState) (c : Nat) (cells : List Nat) : sitesAt sts (c :: cells) = {(c, sts)} + sitesAt sts cells := rfl

theorem sitesAt_append (sts : List CellState) (a b : List Nat) : sitesAt sts (a ++ b) = sitesAt sts a + sitesAt sts b := by
  simp [sitesAt]

theorem sitesAt_perm (sts : List CellState) {a b : List Nat} (h : a.Perm b) : sitesAt sts a = sitesAt sts b :=
  Multiset.coe_eq_coe.2 (h.map _)

theorem mem_sitesAt {sts : List CellState} {cells : List Nat} {e : Nat × List CellState} : e ∈ sitesAt sts cells ↔ e.1 ∈ cells ∧ e.2 = sts := by
  obtain ⟨c, k⟩ := e
  simp only [sitesAt, Multiset.mem_coe, List.mem_map, Prod.mk.injEq]
  exact ⟨fun ⟨a, ha, h1, h2⟩ => ⟨h1 ▸ ha, h2.symm⟩, fun ⟨h1, h2⟩ => ⟨c, h1, rfl, h2.symm⟩⟩

theorem cells_sitesAt (sts : List CellState) (cells : List Nat) : (sitesAt sts cells).map Prod.fst = ↑cells := by
  rw [sitesAt, Multiset.map_coe, List.map_map, show (Prod.fst ∘ fun c : Nat => (c, sts)) = id from rfl, List.map_id]

/-- The cells of the ANSWER notices of a Notice Queue. -/
def answeredBy (notices : List Notice) : List Nat := notices.filterMap Notice.answers

/-- R161: every place of a cell, with the states its cell may be in there. -/
def State.sites (s : State) : Multiset (Nat × List CellState) :=
  sitesAt [.fetching, .ready] s.xi.readAhead + sitesAt [.ready] s.takenCells + sitesAt [.working] s.install.cells +
    sitesAt [.waiting] s.waitingCells + sitesAt [.answering] (s.xi.writeList.filterMap WriteEntry.answers) +
    sitesAt [.notifying] (answeredBy s.xi.notices)

theorem cells_sites (s : State) : s.sites.map Prod.fst = ↑s.cellPlaces := by
  simp only [State.sites, Multiset.map_add, cells_sitesAt, Multiset.coe_add]
  rfl

/-- R161: the one place each cell outside IDLE and PENDING has, which its state names. -/
structure State.Sited (s : State) : Prop where
  below : ∀ c, s.cell c ≠ Cell.atReset → c < 1024
  nodup : (s.sites.map Prod.fst).Nodup
  named : ∀ e ∈ s.sites, (s.cell e.1).st ∈ e.2
  placed : ∀ c, (s.cell c).st = .idle ∨ (s.cell c).st = .pending ∨ c ∈ s.sites.map Prod.fst

/-- No place is for an IDLE or PENDING cell. -/
theorem sites_busy {e : Nat × List CellState} (h : e ∈ s.sites) : CellState.idle ∉ e.2 ∧ CellState.pending ∉ e.2 := by
  simp only [State.sites, Multiset.mem_add, mem_sitesAt] at h
  rcases h with ((((h | h) | h) | h) | h) | h <;> rw [h.2] <;> simp

theorem State.Sited.site_of_st (h : s.Sited) {c : Nat} {st : CellState} (hst : (s.cell c).st = st) (hi : st ≠ .idle) (hp : st ≠ .pending) :
    ∃ k, (c, k) ∈ s.sites ∧ st ∈ k := by
  rcases h.placed c with he | he | he
  · exact absurd (hst.symm.trans he) hi
  · exact absurd (hst.symm.trans he) hp
  · obtain ⟨⟨c', k⟩, hm, rfl⟩ := Multiset.mem_map.1 he
    exact ⟨k, hm, hst ▸ h.named _ hm⟩

theorem State.Sited.lt_of_site (h : s.Sited) {e : Nat × List CellState} (he : e ∈ s.sites) : e.1 < 1024 := by
  refine h.below e.1 fun hc => (sites_busy he).1 ?_
  have := h.named e he
  rwa [hc] at this

/-- Cells move from some places to others; the other places and the other cells stand. -/
structure Shift (s t : State) (touched : List Nat) (gone come common : Multiset (Nat × List CellState)) : Prop where
  before : s.sites = gone + common
  after : t.sites = come + common
  same : ∀ c, c ∉ touched → t.cell c = s.cell c
  from_touched : ∀ e ∈ gone, e.1 ∈ touched
  to_touched : ∀ e ∈ come, e.1 ∈ touched
  live : ∀ c ∈ touched, c ∈ gone.map Prod.fst ∨ (s.cell c).st = .pending ∨ (s.cell c).st = .idle ∧ c < 1024
  nodup : (come.map Prod.fst).Nodup
  names : ∀ e ∈ come, (t.cell e.1).st ∈ e.2
  settled : ∀ c ∈ touched, (t.cell c).st = .idle ∨ (t.cell c).st = .pending ∨ c ∈ come.map Prod.fst

/-- A touched cell has no place among those that stand. -/
theorem Shift.fresh {touched : List Nat} {gone come common : Multiset (Nat × List CellState)} (h : Shift s t touched gone come common)
    (hs : s.Sited) : ∀ e ∈ common, e.1 ∉ touched := by
  intro e he hc
  have hsite : e ∈ s.sites := h.before ▸ Multiset.mem_add.2 (.inr he)
  have hnamed := hs.named e hsite
  rcases h.live e.1 hc with hg | hp | ⟨hi, -⟩
  · have hn := hs.nodup
    rw [h.before, Multiset.map_add] at hn
    exact Multiset.disjoint_left.1 (Multiset.nodup_add.1 hn).2.2 hg (Multiset.mem_map_of_mem _ he)
  · exact (sites_busy hsite).2 (hp ▸ hnamed)
  · exact (sites_busy hsite).1 (hi ▸ hnamed)

theorem State.Sited.shift {touched : List Nat} {gone come common : Multiset (Nat × List CellState)} (hs : s.Sited)
    (h : Shift s t touched gone come common) : t.Sited where
  below c hc := by
    by_cases ht : c ∈ touched
    · rcases h.live c ht with hg | hp | ⟨-, hlt⟩
      · obtain ⟨e, he, rfl⟩ := Multiset.mem_map.1 hg
        exact hs.lt_of_site (h.before ▸ Multiset.mem_add.2 (.inl he))
      · exact hs.below c fun hr => by rw [hr] at hp; cases hp
      · exact hlt
    · exact hs.below c (h.same c ht ▸ hc)
  nodup := by
    have hn := hs.nodup
    rw [h.before, Multiset.map_add] at hn
    rw [h.after, Multiset.map_add]
    refine Multiset.nodup_add.2 ⟨h.nodup, (Multiset.nodup_add.1 hn).2.1, Multiset.disjoint_left.2 fun hc hc' => ?_⟩
    obtain ⟨e, he, rfl⟩ := Multiset.mem_map.1 hc
    obtain ⟨e', he', heq⟩ := Multiset.mem_map.1 hc'
    exact h.fresh hs e' he' (heq ▸ h.to_touched e he)
  named e he := by
    rw [h.after, Multiset.mem_add] at he
    rcases he with he | he
    · exact h.names e he
    · rw [h.same e.1 (h.fresh hs e he)]
      exact hs.named e (h.before ▸ Multiset.mem_add.2 (.inr he))
  placed c := by
    rw [h.after, Multiset.map_add, Multiset.mem_add]
    by_cases ht : c ∈ touched
    · exact (h.settled c ht).imp id (.imp id .inl)
    · rw [h.same c ht]
      refine (hs.placed c).imp id (.imp id fun hm => .inr ?_)
      rw [h.before, Multiset.map_add, Multiset.mem_add] at hm
      refine hm.resolve_left fun hg => ?_
      obtain ⟨e, he, rfl⟩ := Multiset.mem_map.1 hg
      exact ht (h.from_touched e he)

/-- Places and cells as they were. -/
theorem State.Sited.congr (hs : s.Sited) (sites : t.sites = s.sites) (cells : t.xi.cells = s.xi.cells) : t.Sited := by
  have hcell : ∀ c, t.cell c = s.cell c := fun c => State.cell_congr cells c
  exact ⟨fun c => hcell c ▸ hs.below c, sites ▸ hs.nodup, fun e he => hcell e.1 ▸ hs.named e (sites ▸ he),
    fun c => by rw [hcell, sites]; exact hs.placed c⟩

/-- One cell goes from one place to another. -/
theorem Shift.carry {c : Nat} {k k' : List CellState} {common : Multiset (Nat × List CellState)} (before : s.sites = {(c, k)} + common)
    (after : t.sites = {(c, k')} + common) (same : ∀ c', c' ≠ c → t.cell c' = s.cell c') (names : (t.cell c).st ∈ k') :
    Shift s t [c] {(c, k)} {(c, k')} common where
  before := before
  after := after
  same c' hc := same c' fun he => hc (List.mem_singleton.2 he)
  from_touched e he := by rw [Multiset.mem_singleton.1 he]; exact List.mem_singleton_self c
  to_touched e he := by rw [Multiset.mem_singleton.1 he]; exact List.mem_singleton_self c
  live c' hc := by rw [List.mem_singleton.1 hc]; exact .inl (by simp)
  nodup := by simp
  names e he := by rw [Multiset.mem_singleton.1 he]; exact names
  settled c' hc := by rw [List.mem_singleton.1 hc]; exact .inr (.inr (by simp))

/-! ### The fetches -/

/-- A fetch of the cell. -/
def TransferKind.fetchOf (c : Nat) (k : TransferKind) : Bool := decide (k.fetches = some c)

/-- R162: one fetch at most is out for a cell, and only for a FETCHING one. -/
def State.FetchOut (s : State) : Prop := ∀ c, s.countTransfers (TransferKind.fetchOf c) ≤ if (s.cell c).st = .fetching then 1 else 0

theorem fetchedCells_count (s : State) (c : Nat) : s.fetchedCells.count c = s.countTransfers (TransferKind.fetchOf c) := by
  rw [State.fetchedCells, State.countTransfers, ← List.countP_eq_length_filter, List.count, List.countP_filterMap]
  refine List.countP_congr fun x _ => ?_
  cases hx : x.kind.fetches <;> simp [TransferKind.fetchOf, hx]

theorem fetchOut_iff (s : State) : s.FetchOut ↔ s.fetchedCells.Nodup ∧ ∀ c ∈ s.fetchedCells, (s.cell c).st = .fetching := by
  rw [List.nodup_iff_count_le_one]
  simp only [State.FetchOut, ← fetchedCells_count]
  constructor
  · refine fun h => ⟨fun c => (h c).trans (by split_ifs <;> omega), fun c hc => ?_⟩
    by_contra hne
    have := h c
    rw [if_neg hne] at this
    have := List.count_pos_iff.2 hc
    omega
  · rintro ⟨h1, h2⟩ c
    split_ifs with hst
    · exact h1 c
    · exact (List.count_eq_zero.2 fun hc => hst (h2 c hc)).le

theorem State.FetchOut.keep (h : s.FetchOut) (out : ∀ c, t.countTransfers (TransferKind.fetchOf c) ≤ s.countTransfers (TransferKind.fetchOf c))
    (st : ∀ c, (s.cell c).st = .fetching → (t.cell c).st = .fetching) : t.FetchOut := fun c => by
  refine (out c).trans ((h c).trans ?_)
  split_ifs with h1 h2
  · exact le_rfl
  · exact absurd (st c h1) h2
  · omega
  · omega

theorem State.FetchOut.found (h : s.FetchOut) {tag c : Nat} {x : Transfer} (found : s.transfer tag = some x) (kind : x.kind = .fetch c) :
    (s.cell c).st = .fetching ∧ (s.landed tag).countTransfers (TransferKind.fetchOf c) = 0 := by
  have hlt := countTransfers_landed_lt found (p := TransferKind.fetchOf c) (by rw [kind]; exact decide_eq_true rfl)
  have hle := h c
  split_ifs at hle with hst
  · exact ⟨hst, by omega⟩
  · omega

theorem plain_fetchOf {k : TransferKind} (h : k.plain = true) (c : Nat) : k.fetchOf c = false := by
  cases k <;> simp_all [TransferKind.plain, TransferKind.fetchOf, TransferKind.fetches]

end Sys2Proof.Machine
end

