-- ==== Sys2Proof/Proofs/Sites.lean ====
section
/-! SUPPORT. Every move keeps each cell in the one place its state names, and a fetch out for FETCHING cells only (R161, R162). -/

namespace Sys2Proof.Machine

variable {s t : State}

/-! ### What the operations make of the places -/

/-- The parts of a state that the places of the cells are read from. -/
theorem sites_congr (ahead : t.xi.readAhead = s.xi.readAhead) (list : t.xi.writeList.filterMap WriteEntry.answers = s.xi.writeList.filterMap WriteEntry.answers)
    (notices : answeredBy t.xi.notices = answeredBy s.xi.notices) (taken : t.takenCells = s.takenCells) (queues : t.wu.queues = s.wu.queues)
    (install : t.install.cells = s.install.cells) : t.sites = s.sites := by
  simp only [State.sites, State.waitingCells, ahead, list, notices, taken, queues, install]

theorem sites_takenFrom {c : Nat} {rest : List Nat} (h : s.xi.readAhead = c :: rest) :
    s.sites = {(c, [.fetching, .ready])} + (s.takenFrom c rest).sites := by
  have hrest : (s.takenFrom c rest).xi.readAhead = rest := rfl
  simp only [State.sites, h, hrest, sitesAt_cons]
  simp only [State.takenCells, State.waitingCells, State.takenFrom]
  abel

theorem sites_handAnswer (s : State) (c : Nat) (a : Answer) : (s.handAnswer c a).sites = {(c, [.answering])} + s.sites := by
  have hlist : (s.handAnswer c a).xi.writeList.filterMap WriteEntry.answers = s.xi.writeList.filterMap WriteEntry.answers ++ [c] :=
    List.filterMap_append
  simp only [State.sites, hlist, sitesAt_append, sitesAt_cons, sitesAt_nil]
  simp only [State.takenCells, State.waitingCells, State.handAnswer]
  abel

/-- R164: answers handed put their cells in the write list. -/
theorem sites_handAnswers (s : State) (as : List (Nat × Answer)) :
    (s.handAnswers as).sites = sitesAt [.answering] (as.map Prod.fst) + s.sites := by
  induction as generalizing s with
  | nil => exact (zero_add _).symm
  | cons a as ih =>
    rw [show s.handAnswers (a :: as) = (s.handAnswer a.1 a.2).handAnswers as from rfl, ih, sites_handAnswer, List.map_cons, sitesAt_cons]
    abel

/-- R46: a decision in hand has the cell it was taken for. -/
theorem sites_decision {d : Decision} (h : s.decision = some d) : s.sites = {(d.cell, [.ready])} + State.sites { s with decision := none } := by
  simp only [State.sites, State.takenCells, h, Option.map_some, Option.toList_some, Option.map_none, Option.toList_none, List.nil_append,
    sitesAt_append, sitesAt_cons, sitesAt_nil, State.waitingCells]
  abel

theorem sites_parkInbox {e : ParkingEvent} {rest : List ParkingEvent} (h : s.wu.parkInbox = e :: rest) :
    s.sites = {(e.waiter.cell, [.ready])} + State.sites { s with wu.parkInbox := rest } := by
  simp only [State.sites, State.takenCells, h, List.map_cons, sitesAt_append, sitesAt_cons, State.waitingCells]
  abel

/-- R65: the waiters of one queue and those of the others. -/
theorem waiting_queue (h : Table.canonical [] s.wu.queues = true) (p : Nat) :
    s.waitingCells.Perm ((s.queue p).map Waiter.cell ++ (Table.erase p s.wu.queues).flatMap fun q => q.2.map Waiter.cell) :=
  Table.flatMap_perm (fun _ (q : List Waiter) => q.map Waiter.cell) (fun _ => rfl) h p

theorem waiting_setQueue (h : Table.canonical [] s.wu.queues = true) (p : Nat) (q : List Waiter) :
    (s.setQueue p q).waitingCells.Perm (q.map Waiter.cell ++ (Table.erase p s.wu.queues).flatMap fun q => q.2.map Waiter.cell) :=
  Table.flatMap_set_perm (fun _ (q : List Waiter) => q.map Waiter.cell) (fun _ => rfl) h p q

/-- R66: an entry placed adds its cell to the waiting ones. -/
theorem sites_placeParked (h : Table.canonical [] s.wu.queues = true) (e : ParkingEvent) :
    (s.placeParked e).sites = {(e.waiter.cell, [.waiting])} + s.sites := by
  have hwaiting : (s.placeParked e).waitingCells.Perm (e.waiter.cell :: s.waitingCells) :=
    (waiting_setQueue h e.home _).trans ((((placeWaiter_perm e.waiter (s.queue e.home)).map Waiter.cell).append_right _).trans
      ((waiting_queue h e.home).symm.cons _))
  have hlist : (s.placeParked e).xi.writeList.filterMap WriteEntry.answers = s.xi.writeList.filterMap WriteEntry.answers := by
    have : (s.placeParked e).xi.writeList = s.xi.writeList ++ [.parked e.waiter.cell e.home] := rfl
    rw [this, List.filterMap_append]
    exact List.append_nil _
  simp only [State.sites, sitesAt_perm _ hwaiting, hlist, sitesAt_cons]
  simp only [State.takenCells, State.placeParked, State.setCellState, State.setCell, State.setQueue]
  abel

/-- R68: entries that leave the queues take their cells from the waiting ones. -/
theorem sites_leaves {qs : Table (List Waiter)} {cells : List Nat} (leaves : Leaves s.wu.queues qs cells) (hc : s.Canonical) (hs : s.Sited) :
    s.sites = sitesAt [.waiting] cells + State.sites { s with wu.queues := qs } := by
  have hwaiting : s.waitingCells.Nodup := by
    have := hs.nodup
    rw [cells_sites, Multiset.coe_nodup, State.cellPlaces] at this
    exact (List.nodup_append.1 (List.nodup_append.1 (List.nodup_append.1 this).1).1).2.1
  have hperm : s.waitingCells.Perm (cells ++ State.waitingCells { s with wu.queues := qs }) := leaves.perm hc.queues hwaiting
  simp only [State.sites, sitesAt_perm _ hperm, sitesAt_append, State.takenCells]
  abel

theorem sites_install {cs : List Nat} (h : s.install.cells = cs) :
    s.sites = sitesAt [.working] cs + State.sites { s with install := .idle } := by
  simp only [State.sites, h, State.takenCells, State.waitingCells, show InstallUnit.idle.cells = [] from rfl, sitesAt_nil]
  abel

theorem retireWrite_of_final {c : Nat} {a : Answer} {rest : List WriteEntry} (h : s.xi.writeList = .final c a :: rest) : s.retireWrite =
    { (State.setCellState { s with xi.writeList := rest, xi.writeStage := .notBegun } c .notifying) with
      xi.notices := s.xi.notices ++ [.answer c a.result a.pool] } := by
  unfold State.retireWrite
  rw [h]
  rfl

theorem cell_retireWrite {c : Nat} {a : Answer} {rest : List WriteEntry} (h : s.xi.writeList = .final c a :: rest) (c' : Nat) :
    s.retireWrite.cell c' = if c' = c then { s.cell c with st := .notifying } else s.cell c' := by
  rw [retireWrite_of_final h]
  exact State.cell_setCellState _ c c' .notifying

/-- R164: the answer written is followed by its notice. -/
theorem sites_retireWrite {c : Nat} {a : Answer} {rest : List WriteEntry} (h : s.xi.writeList = .final c a :: rest) :
    s.sites = {(c, [.answering])} + State.sites { s with xi.writeList := rest } ∧
      s.retireWrite.sites = {(c, [.notifying])} + State.sites { s with xi.writeList := rest } := by
  have hanswers : (WriteEntry.final c a :: rest).filterMap WriteEntry.answers = c :: rest.filterMap WriteEntry.answers := rfl
  have hnotices : answeredBy (s.xi.notices ++ [.answer c a.result a.pool]) = answeredBy s.xi.notices ++ [c] := List.filterMap_append
  constructor
  · simp only [State.sites, h, hanswers, sitesAt_cons, State.takenCells, State.waitingCells]
    abel
  · rw [retireWrite_of_final h]
    simp only [State.sites, hnotices, sitesAt_append, sitesAt_cons, sitesAt_nil, State.takenCells, State.waitingCells, State.setCellState,
      State.setCell]
    abel

theorem sites_pick (s : State) (c : Nat) : (s.pickCell c).sites = {(c, [.fetching, .ready])} + s.sites := by
  have hahead : (s.pickCell c).xi.readAhead = s.xi.readAhead ++ [c] := rfl
  simp only [State.sites, hahead, sitesAt_append, sitesAt_cons, sitesAt_nil]
  simp only [State.takenCells, State.waitingCells, State.pickCell, State.setCellState, State.setCell, State.issue]
  abel

/-! ### The moves -/

theorem cell_takenFrom_st (s : State) (c c' : Nat) (rest : List Nat) : ((s.takenFrom c rest).cell c').st = (s.cell c').st := by
  by_cases h : c' = c
  · subst h
    rw [takenFrom_cell_self]
  · rw [takenFrom_cell_other rest h]

theorem cell_handAnswer_st (s : State) (c : Nat) (a : Answer) : ((s.handAnswer c a).cell c).st = .answering := by
  rw [State.cell_handAnswer, if_pos rfl]

theorem cell_handAnswer_other (s : State) {c c' : Nat} (a : Answer) (h : c' ≠ c) : (s.handAnswer c a).cell c' = s.cell c' := by
  rw [State.cell_handAnswer, if_neg h]

/-- R161, R162: the places, the fetches and the tables they stand in. -/
structure State.Housed (s : State) : Prop where
  canonical : s.Canonical
  sited : s.Sited
  fetches : s.FetchOut

/-- A move of one cell from a place that is no fetch, with no fetch issued. -/
theorem State.Housed.carry (hs : s.Housed) (canonical : t.Canonical) {c : Nat} {k k' : List CellState}
    {common : Multiset (Nat × List CellState)} (before : s.sites = {(c, k)} + common) (after : t.sites = {(c, k')} + common)
    (same : ∀ c', c' ≠ c → t.cell c' = s.cell c') (names : (t.cell c).st ∈ k') (st : (s.cell c).st ≠ .fetching)
    (flight : t.xi.inFlight = s.xi.inFlight) (retry : t.xi.retry = s.xi.retry) : t.Housed where
  canonical := canonical
  sited := hs.sited.shift (.carry before after same names)
  fetches := hs.fetches.keep (fun c => (countTransfers_congr flight retry _).le) fun c' hf => by
    by_cases hc : c' = c
    · subst hc
      exact absurd hf st
    · rw [same c' hc]
      exact hf

theorem State.Housed.named_ne (hs : s.Housed) {c : Nat} {k : List CellState} {common : Multiset (Nat × List CellState)}
    (before : s.sites = {(c, k)} + common) {st : CellState} (hk : st ∉ k) : (s.cell c).st ≠ st := fun he =>
  hk (he ▸ hs.sited.named (c, k) (before ▸ Multiset.mem_add.2 (.inl (Multiset.mem_singleton_self _))))

/-- A move of neither the places, the cells nor the fetches. -/
theorem State.Housed.congr (hs : s.Housed) (canonical : t.Canonical) (sites : t.sites = s.sites) (cells : t.xi.cells = s.xi.cells)
    (out : ∀ c, t.countTransfers (TransferKind.fetchOf c) ≤ s.countTransfers (TransferKind.fetchOf c)) : t.Housed :=
  ⟨canonical, hs.sited.congr sites cells, hs.fetches.keep out fun c hf => by rw [State.cell_congr cells c]; exact hf⟩

theorem Quiet.housed (h : Quiet s t) (hs : s.Housed) : t.Housed := by
  have hcanonical := h.canonical hs.canonical
  have hsame (sites : t.sites = s.sites) (cells : t.xi.cells = s.xi.cells) (flight : t.xi.inFlight = s.xi.inFlight)
      (retry : t.xi.retry = s.xi.retry) : t.Housed :=
    hs.congr hcanonical sites cells fun c => (countTransfers_congr flight retry _).le
  cases h with
  | waitUnit wu queues parked stall due named =>
    exact hsame (sites_congr rfl rfl rfl (by simp only [State.takenCells, parked]) queues rfl) rfl rfl rfl
  | issue kind addr len bytes dma plain =>
    refine hs.congr hcanonical rfl rfl fun c => ?_
    rw [countTransfers_issue, plain_fetchOf plain]
    exact le_rfl
  | reread =>
    rcases rereadConsumed_cases s with ⟨he, -⟩ | ⟨-, he⟩
    · rwa [he]
    · rw [he] at hcanonical ⊢
      exact hs.congr hcanonical rfl rfl fun c => (countTransfers_issue s _ _ _ _ _).le
  | land tag => exact hs.congr hcanonical rfl rfl fun c => countTransfers_landed_le s tag _
  | retireWrite =>
    cases hl : s.xi.writeList with
    | nil =>
      have he : s.retireWrite = s := by
        unfold State.retireWrite
        rw [hl]
      rwa [he]
    | cons e rest =>
      cases e with
      | final c a =>
        obtain ⟨hbefore, hafter⟩ := sites_retireWrite hl
        exact hs.carry hcanonical hbefore hafter (fun c' hc => (cell_retireWrite hl c').trans (if_neg hc))
          (List.mem_singleton.2 (congrArg Cell.st ((cell_retireWrite hl c).trans (if_pos rfl)))) (hs.named_ne hbefore (by simp))
          (by rw [retireWrite_of_final hl]; rfl) (by rw [retireWrite_of_final hl]; rfl)
      | parked c p =>
        have he : s.retireWrite = { s with xi.writeList := rest, xi.writeStage := .notBegun } := by
          unfold State.retireWrite
          rw [hl]
        rw [he] at hsame ⊢
        exact hsame (sites_congr rfl (by rw [hl]; rfl) rfl rfl rfl rfl) rfl rfl rfl
  | noticeEntry dma room stage =>
    unfold State.issueNoticeEntry at hcanonical hsame ⊢
    split
    · exact hs
    · rename_i n rest hn
      rw [hn] at hcanonical
      exact hs.congr hcanonical rfl rfl fun c => (countTransfers_issue s (.noticeEntry n.faultIndex) _ _ _ _).le
  | noticeCount found kind dma =>
    unfold State.issueNoticeCount at hcanonical hsame ⊢
    split
    · rename_i hn
      rw [hn] at hcanonical
      exact hs.congr hcanonical rfl rfl fun c => countTransfers_landed_le s _ _
    · rename_i n rest hn
      rw [hn] at hcanonical
      exact hs.congr hcanonical rfl rfl fun c =>
        (countTransfers_issue _ (.noticeCount n.faultIndex) _ _ _ _).le.trans (countTransfers_landed_le s _ _)
  | noticeCountWaits found kind => exact hs.congr hcanonical rfl rfl fun c => countTransfers_landed_le s _ _
  | consumed found kind value =>
    rw [takeConsumed_eq] at hcanonical ⊢
    exact hs.congr hcanonical rfl rfl fun c => countTransfers_landed_le s _ _
  | meterNotice waits => exact hsame (sites_congr rfl rfl (List.filterMap_append.trans (List.append_nil _)) rfl rfl rfl) rfl rfl rfl
  | @pick c pending dma room =>
    have hpending := pending ((canonical_iff s).2 hs.canonical)
    have hcell (c' : Nat) : (s.pickCell c).cell c' = if c' = c then { s.cell c with st := .fetching } else s.cell c' :=
      State.cell_setCellState s c c' .fetching
    refine ⟨hcanonical, hs.sited.shift (touched := [c]) (gone := 0) ⟨(zero_add _).symm, sites_pick s c, ?_, nofun, ?_, ?_, by simp, ?_, ?_⟩,
      fun c' => ?_⟩
    · exact fun c' hc => (hcell c').trans (if_neg fun he => hc (List.mem_singleton.2 he))
    · exact fun e he => by rw [Multiset.mem_singleton.1 he]; exact List.mem_singleton_self c
    · exact fun c' hc => by rw [List.mem_singleton.1 hc]; exact .inr (.inl hpending)
    · intro e he
      rw [Multiset.mem_singleton.1 he, hcell, if_pos rfl]
      simp
    · exact fun c' hc => by rw [List.mem_singleton.1 hc]; exact .inr (.inr (by simp))
    · have hcount : (s.pickCell c).countTransfers (TransferKind.fetchOf c') =
          s.countTransfers (TransferKind.fetchOf c') + if TransferKind.fetchOf c' (.fetch c) then 1 else 0 :=
        countTransfers_issue (s.slotTaken c) _ _ _ _ _
      have hle := hs.fetches c'
      rw [hcount, hcell]
      by_cases hc : c' = c
      · subst hc
        rw [hpending] at hle
        simp only [reduceCtorEq, if_false] at hle
        simp only [if_true, TransferKind.fetchOf, TransferKind.fetches, decide_true]
        omega
      · have : TransferKind.fetchOf c' (.fetch c) = false := decide_eq_false fun he => hc (Option.some.inj he).symm
        simpa [hc, this] using hle
  | @fetched tag c x found kind copy =>
    obtain ⟨hst, hnone⟩ := hs.fetches.found found kind
    obtain ⟨k, hk, hin⟩ := hs.sited.site_of_st hst nofun nofun
    have hslot : k = [.fetching, .ready] := by
      simp only [State.sites, Multiset.mem_add, mem_sitesAt] at hk
      rcases hk with ((((hk | hk) | hk) | hk) | hk) | hk
      · exact hk.2
      all_goals rw [hk.2] at hin; simp at hin
    obtain ⟨common, hcommon⟩ := Multiset.exists_cons_of_mem hk
    have hcell (c' : Nat) : State.cell ((s.landed tag).setCell c { s.cell c with st := .ready, copy := copy }) c' =
        if c' = c then { s.cell c with st := .ready, copy := copy } else s.cell c' :=
      State.cell_setCell (s := s.landed tag) c c' _
    refine ⟨hcanonical, hs.sited.shift (.carry (k' := k) hcommon (Eq.trans rfl hcommon) (fun c' hc => (hcell c').trans (if_neg hc)) ?_),
      fun c' => ?_⟩
    · rw [hcell, if_pos rfl, hslot]
      simp
    · have hcount : State.countTransfers ((s.landed tag).setCell c { s.cell c with st := .ready, copy := copy }) (TransferKind.fetchOf c') =
          (s.landed tag).countTransfers (TransferKind.fetchOf c') := rfl
      rw [hcount]
      by_cases hc : c' = c
      · subst hc
        rw [hnone]
        exact Nat.zero_le _
      · rw [hcell, if_neg hc]
        exact (countTransfers_landed_le s _ _).trans (hs.fetches c')
  | post c =>
    rcases postCell_eq s c with he | ⟨he, hst, hlt⟩ | ⟨he, hst, hlt⟩
    · rwa [he]
    · rw [he] at hcanonical ⊢
      have hcell (c' : Nat) := State.cell_setCellState s c c' .pending
      refine ⟨hcanonical, hs.sited.shift (touched := [c]) (gone := 0) (come := 0) (common := s.sites)
        ⟨(zero_add _).symm, (zero_add _).symm, ?_, nofun, nofun, ?_, by simp, nofun, ?_⟩, ?_⟩
      · exact fun c' hc => (hcell c').trans (if_neg fun he => hc (List.mem_singleton.2 he))
      · exact fun c' hc => by rw [List.mem_singleton.1 hc]; exact .inr (.inr ⟨hst, hlt⟩)
      · exact fun c' hc => by rw [List.mem_singleton.1 hc, hcell, if_pos rfl]; exact .inr (.inl rfl)
      · refine hs.fetches.keep (fun c' => (countTransfers_congr rfl rfl _).le) fun c' hf => ?_
        rw [hcell, if_neg fun hc => by rw [hc, hst] at hf; cases hf]
        exact hf
    · rw [he] at hcanonical ⊢
      obtain ⟨k, hk, hin⟩ := hs.sited.site_of_st hst nofun nofun
      obtain ⟨common, hcommon⟩ := Multiset.exists_cons_of_mem hk
      have hcell (c' : Nat) := State.cell_setCell (s := s) c c' { s.cell c with repost := true }
      refine hs.carry hcanonical (k' := k) hcommon (Eq.trans rfl hcommon) (fun c' hc => (hcell c').trans (if_neg hc)) ?_ (by rw [hst]; nofun)
        rfl rfl
      rw [hcell, if_pos rfl]
      exact hst.symm ▸ hin
  | @decide c copy rest serves d cell pools =>
    obtain ⟨-, hnone, hahead, hready, -⟩ := serves
    refine hs.carry hcanonical (k' := [.ready]) (sites_takenFrom hahead) ?_ (fun c' hc => takenFrom_cell_other rest hc) ?_
      (by rw [hready]; nofun) rfl rfl
    · rw [sites_decision (s := { s.takenFrom c rest with decision := some d }) rfl, cell]
      exact congrArg _ (sites_congr rfl rfl rfl (by simp only [State.takenCells, State.takenFrom, hnone]) rfl rfl)
    · exact List.mem_singleton.2 ((cell_takenFrom_st s c c rest).trans hready)
  | @answer c copy rest serves a =>
    obtain ⟨-, -, hahead, hready, -⟩ := serves
    exact hs.carry hcanonical (sites_takenFrom hahead) (sites_handAnswer _ c a)
      (fun c' hc => (cell_handAnswer_other _ a hc).trans (takenFrom_cell_other rest hc))
      (List.mem_singleton.2 (cell_handAnswer_st _ c a)) (by rw [hready]; nofun) rfl rfl
  | @redecide d hand d' cell pools =>
    exact hsame (sites_congr rfl rfl rfl (by simp only [State.takenCells, hand, Option.map_some, cell]) rfl rfl) rfl rfl rfl
  | @answerHand d hand a =>
    have hbefore := sites_decision hand
    exact hs.carry hcanonical hbefore (sites_handAnswer _ d.cell a) (fun c' hc => cell_handAnswer_other _ a hc)
      (List.mem_singleton.2 (cell_handAnswer_st _ d.cell a)) (hs.named_ne hbefore (by simp)) rfl rfl
  | @park d hand home named =>
    have hafter : (s.handParking d home).sites = s.sites := by
      simp only [State.sites, State.takenCells, State.waitingCells, State.handParking, hand, Option.map_some, Option.map_none,
        Option.toList_some, Option.toList_none, List.map_append, sitesAt_append, List.map_cons, List.map_nil, List.nil_append]
      have : (DrawDecision.waiter d).cell = (Decision.draw d).cell := rfl
      rw [this]
      abel
    exact hsame hafter rfl rfl rfl
  | @place e rest front =>
    have hbefore := sites_parkInbox front
    have hcell (c' : Nat) : (State.placeParked { s with wu.parkInbox := rest } e).cell c' =
        if c' = e.waiter.cell then { s.cell e.waiter.cell with st := .waiting } else s.cell c' :=
      State.cell_setCellState s e.waiter.cell c' .waiting
    exact hs.carry hcanonical hbefore (sites_placeParked (s := { s with wu.parkInbox := rest }) hs.canonical.queues e)
      (fun c' hc => (hcell c').trans (if_neg hc)) (List.mem_singleton.2 (congrArg Cell.st ((hcell _).trans (if_pos rfl)))) (hs.named_ne hbefore (by simp)) rfl rfl
  | @refuseParking e rest front a =>
    have hbefore := sites_parkInbox front
    exact hs.carry hcanonical hbefore (sites_handAnswer _ e.waiter.cell a) (fun c' hc => cell_handAnswer_other _ a hc)
      (List.mem_singleton.2 (cell_handAnswer_st _ e.waiter.cell a)) (hs.named_ne hbefore (by simp)) rfl rfl
  | dequeue qs as leaves =>
    have hbefore := sites_leaves leaves hs.canonical hs.sited
    obtain ⟨-, ⟨-, hanswering, hother⟩, -⟩ := handAnswers_answered { s with wu.queues := qs } as
    have hwaiting : ∀ c ∈ as.map Prod.fst, (s.cell c).st = .waiting := fun c hc =>
      List.mem_singleton.1 (hs.sited.named (c, [.waiting]) (hbefore ▸ Multiset.mem_add.2 (.inl (mem_sitesAt.2 ⟨hc, rfl⟩))))
    have hsame (c : Nat) (hc : c ∉ as.map Prod.fst) : State.cell (State.handAnswers { s with wu.queues := qs } as) c = s.cell c :=
      hother c fun e he heq => hc (heq ▸ List.mem_map_of_mem he)
    refine ⟨hcanonical, hs.sited.shift (touched := as.map Prod.fst) ⟨hbefore, sites_handAnswers _ as, hsame, fun e he => (mem_sitesAt.1 he).1,
      fun e he => (mem_sitesAt.1 he).1, fun c hc => ?_, ?_, fun e he => ?_, fun c hc => ?_⟩, ?_⟩
    · rw [cells_sitesAt]
      exact .inl hc
    · have := hs.sited.nodup
      rw [hbefore, Multiset.map_add, cells_sitesAt] at this
      rw [cells_sitesAt]
      exact (Multiset.nodup_add.1 this).1
    · obtain ⟨hc, hk⟩ := mem_sitesAt.1 he
      obtain ⟨a, ha, hfst⟩ := List.mem_map.1 hc
      rw [hk, ← hfst]
      exact List.mem_singleton.2 (hanswering a ha)
    · rw [cells_sitesAt]
      exact .inr (.inr hc)
    · refine hs.fetches.keep (fun c => (countTransfers_congr ?_ ?_ _).le) fun c hf => ?_
      · rw [handAnswers_frame]
      · rw [handAnswers_frame]
      · by_cases hc : c ∈ as.map Prod.fst
        · rw [hwaiting c hc] at hf
          cases hf
        · rw [hsame c hc]
          exact hf
  | @progress im im' reading cell =>
    exact hsame (sites_congr rfl rfl rfl rfl rfl (by simp only [reading, InstallUnit.cells, cell])) rfl rfl rfl
  | @startInstall c copy rest serves free im cell =>
    obtain ⟨-, -, hahead, hready, -⟩ := serves
    refine hs.carry hcanonical (k' := [.working]) (sites_takenFrom hahead) ?_
      (fun c' hc => (State.cell_setCellState _ _ _ _).trans ((if_neg hc).trans (takenFrom_cell_other rest hc)))
      (List.mem_singleton.2 (congrArg Cell.st ((State.cell_setCellState _ _ _ _).trans (if_pos rfl)))) (by rw [hready]; nofun) rfl rfl
    refine (sites_install (s := { (s.takenFrom c rest).setCellState c .working with install := .reading im }) (cs := [c])
      (congrArg (fun a => [a]) cell)).trans (congrArg (sitesAt [.working] [c] + ·) ?_)
    exact sites_congr rfl rfl rfl rfl rfl (by rw [show (s.takenFrom c rest).install = .idle from free])
  | @endInstall c cells a =>
    have hbefore := sites_install cells
    exact hs.carry hcanonical hbefore (sites_handAnswer _ c a) (fun c' hc => cell_handAnswer_other _ a hc)
      (List.mem_singleton.2 (cell_handAnswer_st _ c a)) (hs.named_ne hbefore (by simp)) rfl rfl
  | @stage im im' reading cell passed =>
    exact hsame (sites_congr rfl rfl rfl rfl rfl (by simp only [reading, InstallUnit.cells, cell])) rfl rfl rfl
  | _ => exact hsame rfl rfl rfl rfl

/-! ### Events -/

theorem answeredBy_lapses (notices : List Notice) (es : List (Nat × Lease)) : answeredBy (notices ++ es.map lapseNotice) = answeredBy notices := by
  refine List.filterMap_append.trans ?_
  have hnone : es.filterMap (Notice.answers ∘ lapseNotice) = [] := List.filterMap_eq_nil_iff.2 fun _ _ => rfl
  rw [List.filterMap_map, hnone, List.append_nil]
  rfl

theorem answeredBy_notLapse (notices : List Notice) : answeredBy (notices.filter fun n => !n.isLapse) = answeredBy notices := by
  refine List.filterMap_filter.trans (List.filterMap_congr fun n _ => ?_)
  cases n <;> rfl

/-- R109: CLEAR_FLOOR drops LAPSE notices only. -/
theorem answeredBy_noticesKept (s : State) : answeredBy s.noticesKept = answeredBy s.xi.notices := by
  unfold State.noticesKept
  cases s.xi.notices with
  | nil => rfl
  | cons n rest =>
    simp only
    split_ifs
    · exact answeredBy_notLapse _
    · have hcons (rest : List Notice) : answeredBy (n :: rest) = n.answers.toList ++ answeredBy rest := by cases n <;> rfl
      rw [hcons, hcons, answeredBy_notLapse]

theorem sites_released (f : Nat → Lease → Lease) {notices : List Notice} (inbox : List MeterCount) (freed : List Lease) (report : Bool)
    (hn : answeredBy notices = answeredBy s.xi.notices) : (s.released f notices inbox freed report).sites = s.sites := by
  have hq : (if report then (s.freeEvent freed).reportRecordFree.wu else (s.freeEvent freed).wu).queues = s.wu.queues ∧
      (if report then (s.freeEvent freed).reportRecordFree.wu else (s.freeEvent freed).wu).parkInbox = s.wu.parkInbox := by
    cases report <;> simp [State.reportRecordFree, State.makeDue, freeEvent_wu]
  rw [released_eq]
  exact sites_congr rfl rfl hn (by simp only [State.takenCells, hq.2]) hq.1 rfl

theorem cell_releaseCell (s : State) (c c' : Nat) : (s.releaseCell c).cell c' =
    if c' = c then { s.cell c with st := if (s.cell c).repost then .pending else .idle, repost := false } else s.cell c' :=
  State.cell_setCell s c c' _

/-- R166: the front notice of an answer leaves with its cell. -/
theorem sites_answerDelivered {c : Nat} {r : Result} {p : Half} {rest : List Notice} (h : s.xi.notices = .answer c r p :: rest) :
    s.sites = {(c, [.notifying])} + (s.noticeTaken rest).sites := by
  have hanswers : answeredBy (.answer c r p :: rest) = c :: answeredBy rest := rfl
  simp only [State.sites, h, hanswers, sitesAt_cons]
  simp only [State.takenCells, State.waitingCells, State.noticeTaken]
  abel

theorem writeBaseLo_eq (s : State) (value : Word) : s.writeBaseLo value = { s with xi.base := (s.writeBaseLo value).xi.base } := by
  unfold State.writeBaseLo
  cases s.xi.engine <;> rfl

theorem writeBaseHi_eq (s : State) (value : Word) : s.writeBaseHi value = { s with xi.base := (s.writeBaseHi value).xi.base } := by
  unfold State.writeBaseHi
  cases s.xi.engine <;> rfl

theorem Event.housed (h : Event s t) (hs : s.Housed) : t.Housed := by
  have hcanonical := h.canonical hs.canonical
  have hsame (sites : t.sites = s.sites) (cells : t.xi.cells = s.xi.cells) (flight : t.xi.inFlight = s.xi.inFlight)
      (retry : t.xi.retry = s.xi.retry) : t.Housed :=
    hs.congr hcanonical sites cells fun c => (countTransfers_congr flight retry _).le
  cases h with
  | baseLo value =>
    rw [writeBaseLo_eq] at hsame ⊢
    exact hsame rfl rfl rfl rfl
  | baseHi value =>
    rw [writeBaseHi_eq] at hsame ⊢
    exact hsame rfl rfl rfl rfl
  | @notice tag i x found kind =>
    have hl : (s.landed tag).Housed := (Quiet.land tag).housed hs
    clear hsame
    generalize s.landed tag = u at hl hcanonical ⊢
    cases hn : u.xi.notices with
    | nil => rwa [noticeWrittenEvent_of_nil hn]
    | cons n rest =>
      rw [noticeWrittenEvent_of_front hn] at hcanonical ⊢
      cases n with
      | answer c r p =>
        have hbefore := sites_answerDelivered hn
        have hst : (u.cell c).st = .notifying :=
          List.mem_singleton.1 (hl.sited.named (c, [.notifying]) (hbefore ▸ Multiset.mem_add.2 (.inl (Multiset.mem_singleton_self _))))
        have hcell := cell_releaseCell (u.noticeTaken rest) c
        refine ⟨hcanonical, hl.sited.shift (touched := [c]) (come := 0) ⟨hbefore, (zero_add _).symm, ?_, ?_, nofun, ?_, by simp, nofun, ?_⟩,
          ?_⟩
        · exact fun c' hc => (hcell c').trans (if_neg fun he => hc (List.mem_singleton.2 he))
        · exact fun e he => by rw [Multiset.mem_singleton.1 he]; exact List.mem_singleton_self c
        · exact fun c' hc => by rw [List.mem_singleton.1 hc]; exact .inl (by simp)
        · intro c' hc
          have hrel : ((u.noticeTaken rest).noticeDelivered (.answer c r p)).cell c =
              { u.cell c with st := if (u.cell c).repost then .pending else .idle, repost := false } := (hcell c).trans (if_pos rfl)
          rw [List.mem_singleton.1 hc, hrel]
          cases (u.cell c).repost
          · exact .inl rfl
          · exact .inr (.inl rfl)
        · refine hl.fetches.keep (fun c' => (countTransfers_congr rfl rfl _).le) fun c' hf => ?_
          have hrel : ((u.noticeTaken rest).noticeDelivered (.answer c r p)).cell c' = u.cell c' :=
            (hcell c').trans (if_neg fun hc => by rw [hc, hst] at hf; cases hf)
          rw [hrel]
          exact hf
      | lapse i g p =>
        have hanswers : answeredBy (.lapse i g p :: rest) = answeredBy rest := rfl
        rw [noticeDelivered_eq] at hcanonical ⊢
        refine hl.congr hcanonical (sites_congr rfl rfl (by rw [hn]; exact hanswers.symm) rfl rfl rfl) ?_
          fun c => (countTransfers_congr rfl rfl _).le
        simp only [State.noticeDelivered, State.lapseWritten]
        split_ifs <;> rfl
      | meter =>
        have hanswers : answeredBy (.meter :: rest) = answeredBy rest := rfl
        exact hl.congr hcanonical (sites_congr rfl rfl (by rw [hn]; exact hanswers.symm) rfl rfl rfl) rfl
          fun c => (countTransfers_congr rfl rfl _).le
  | returns skip chosen held =>
    rw [returnRecords_released] at hsame ⊢
    exact hsame (sites_released _ _ _ _ rfl) (by rw [released_eq]) (by rw [released_eq]) (by rw [released_eq])
  | age =>
    rw [ageLeases_eq] at hsame ⊢
    exact hsame (sites_released _ _ _ _ (answeredBy_lapses _ _)) (by rw [released_eq]) (by rw [released_eq]) (by rw [released_eq])
  | clear =>
    rw [clearLeases_released] at hsame ⊢
    exact hsame (sites_released _ _ _ _ (answeredBy_noticesKept s)) (by rw [released_eq]) (by rw [released_eq]) (by rw [released_eq])
  | @commit im staged header committing =>
    unfold State.commit at hsame ⊢
    generalize Table.build Pool.atReset Config.numPools _ = pools at hsame ⊢
    exact hsame (sites_congr rfl rfl rfl rfl rfl (by rw [committing]; rfl)) rfl rfl rfl
  | _ => exact hsame rfl rfl rfl rfl

/-! ### The changes of the engine state -/

theorem owedCount_fetchOf (s : State) (c : Nat) : s.owedCount.countP (fun x => x.kind.fetchOf c) = 0 := by
  rcases owedCount_cases s with h | ⟨-, i, addr, bytes, h⟩ <;> rw [h] <;> rfl

/-- R169, R170: a change of the engine state puts no fetch out. -/
theorem Abrupt.fetches_le (h : Abrupt s t) (c : Nat) :
    t.countTransfers (TransferKind.fetchOf c) ≤ s.countTransfers (TransferKind.fetchOf c) := by
  cases h with
  | fail found => exact countTransfers_fail_le found _
  | control h =>
    have henable (enable : Bool) : (s.takeEnable enable).countTransfers (TransferKind.fetchOf c) = s.countTransfers (TransferKind.fetchOf c) := by
      rw [takeEnable_eq]
      rfl
    cases h with
    | request enable target dma =>
      rw [← henable enable]
      rcases requestDmaState_cases (s.takeEnable enable) target with ⟨-, -, he⟩ | ⟨-, -, he⟩ | ⟨-, he⟩ | hold
      · rw [he]
        exact le_rfl
      · rw [he]
        exact le_rfl
      · rw [he]
        exact le_rfl
      · rw [countTransfers_resumed hold fun k hk => plain_fetchOf hk c, owedCount_fetchOf]
        exact le_rfl
    | requestStill enable =>
      rw [← henable enable]
      rcases requestStillState_cases (s.takeEnable enable) with ⟨-, -, he⟩ | ⟨-, -, he⟩ | ⟨-, he⟩ <;>
      · rw [he]
        exact le_rfl
    | enable enable => exact (henable enable).le

/-- What no change of the engine state changes. -/
theorem Abrupt.housing (h : Abrupt s t) : t.xi.readAhead = s.xi.readAhead ∧ t.xi.writeList = s.xi.writeList ∧ t.xi.notices = s.xi.notices ∧
    t.xi.cells = s.xi.cells := by
  cases h with
  | fail found =>
    rw [failTransfer_eq]
    exact ⟨rfl, rfl, rfl, rfl⟩
  | control h =>
    cases h with
    | request enable target dma =>
      rcases requestDmaState_cases (s.takeEnable enable) target with ⟨-, -, he⟩ | ⟨-, -, he⟩ | ⟨-, he⟩ | hold
      · rw [he, takeEnable_eq]
        exact ⟨rfl, rfl, rfl, rfl⟩
      · rw [he, takeEnable_eq]
        exact ⟨rfl, rfl, rfl, rfl⟩
      · rw [he, takeEnable_eq]
        exact ⟨rfl, rfl, rfl, rfl⟩
      · rw [resumed_frame hold]
        simp only
        rw [takeEnable_eq]
        exact ⟨rfl, rfl, rfl, rfl⟩
    | requestStill enable =>
      rcases requestStillState_cases (s.takeEnable enable) with ⟨-, -, he⟩ | ⟨-, -, he⟩ | ⟨-, he⟩ <;>
      · rw [he, takeEnable_eq]
        exact ⟨rfl, rfl, rfl, rfl⟩
    | enable enable =>
      rw [takeEnable_eq]
      exact ⟨rfl, rfl, rfl, rfl⟩

theorem Abrupt.housed (h : Abrupt s t) (hs : s.Housed) : t.Housed := by
  obtain ⟨hahead, hlist, hnotices, hcells⟩ := h.housing
  obtain ⟨-, -, -, hwu, hdecision, hinstall⟩ := h.parked
  refine hs.congr (h.canonical hs.canonical) (sites_congr hahead (by rw [hlist]) (by rw [hnotices]) ?_ (by rw [hwu]) ?_) hcells
    h.fetches_le
  · simp only [State.takenCells, hdecision, hwu]
  · rcases hinstall with he | ⟨im, im', he, he', hcell⟩
    · rw [he]
    · rw [he, he', InstallUnit.cells, InstallUnit.cells, hcell]

/-! ### The places, read block by block -/

theorem cellsAre_iff (s : State) (cells : List Nat) (sts : List CellState) :
    s.cellsAre cells sts = true ↔ ∀ e ∈ sitesAt sts cells, (s.cell e.1).st ∈ e.2 := by
  simp only [State.cellsAre, List.all_eq_true, decide_eq_true_eq]
  exact ⟨fun h e he => (mem_sitesAt.1 he).2 ▸ h e.1 (mem_sitesAt.1 he).1, fun h c hc => h (c, sts) (mem_sitesAt.2 ⟨hc, rfl⟩)⟩

/-- In a canonical table the listed cells are those that differ from an unposted one. -/
theorem State.Canonical.mem_cells (h : s.Canonical) {e : Nat × Cell} : e ∈ s.xi.cells ↔ s.cell e.1 = e.2 ∧ e.2 ≠ Cell.atReset := by
  refine ⟨fun he => ⟨Table.get_of_mem _ h.cells he, ((Table.canonical_iff _ _).1 h.cells).2 e he⟩, fun ⟨hv, hne⟩ => ?_⟩
  have : Table.get Cell.atReset s.xi.cells e.1 ≠ Cell.atReset := by
    rw [← hv] at hne
    exact hne
  have hmem := Table.mem_of_get_ne this
  rwa [show Table.get Cell.atReset s.xi.cells e.1 = e.2 from hv] at hmem

theorem cellsPlaced_iff (hc : s.Canonical) : s.cellsPlaced = true ↔ s.Sited ∧ s.FetchOut := by
  have hbelow : (∀ e ∈ s.xi.cells, e.1 < 1024) ↔ ∀ c, s.cell c ≠ Cell.atReset → c < 1024 :=
    ⟨fun h c hne => h (c, s.cell c) (hc.mem_cells.2 ⟨rfl, hne⟩), fun h e he => by
      obtain ⟨hv, hne⟩ := hc.mem_cells.1 he
      exact h e.1 (hv ▸ hne)⟩
  have hplaced : (∀ e ∈ s.xi.cells, e.2.st = .idle ∨ e.2.st = .pending ∨ e.1 ∈ s.cellPlaces) ↔
      ∀ c, (s.cell c).st = .idle ∨ (s.cell c).st = .pending ∨ c ∈ s.sites.map Prod.fst := by
    rw [cells_sites]
    refine ⟨fun h c => ?_, fun h e he => ?_⟩
    · by_cases hne : s.cell c = Cell.atReset
      · rw [hne]
        exact .inl rfl
      · exact h (c, s.cell c) (hc.mem_cells.2 ⟨rfl, hne⟩)
    · rw [← (hc.mem_cells.1 he).1]
      exact h e.1
  have hnodup : s.cellPlaces.Nodup ↔ (s.sites.map Prod.fst).Nodup := by rw [cells_sites, Multiset.coe_nodup]
  have hfetch : s.cellsAre s.fetchedCells [.fetching] = true ↔ ∀ c ∈ s.fetchedCells, (s.cell c).st = .fetching := by
    simp [State.cellsAre]
  simp only [State.cellsPlaced, Bool.and_eq_true, cellsAre_iff, List.all_eq_true, decide_eq_true_eq, fetchOut_iff] at hfetch ⊢
  rw [hbelow, hplaced, hnodup, hfetch]
  constructor
  · rintro ⟨⟨⟨⟨⟨⟨⟨⟨⟨⟨h1, h2⟩, h3⟩, h4⟩, h5⟩, h6⟩, h7⟩, h8⟩, h9⟩, h10⟩, h11⟩
    refine ⟨⟨h1, h2, fun e he => ?_, h9⟩, h10, h11⟩
    simp only [State.sites, Multiset.mem_add] at he
    rcases he with ((((he | he) | he) | he) | he) | he
    · exact h3 e he
    · exact h4 e he
    · exact h5 e he
    · exact h6 e he
    · exact h7 e he
    · exact h8 e he
  · rintro ⟨⟨h1, h2, h3, h9⟩, h10, h11⟩
    simp only [State.sites, Multiset.mem_add] at h3
    exact ⟨⟨⟨⟨⟨⟨⟨⟨⟨⟨h1, h2⟩, fun e he => h3 e (by tauto)⟩, fun e he => h3 e (by tauto)⟩, fun e he => h3 e (by tauto)⟩,
      fun e he => h3 e (by tauto)⟩, fun e he => h3 e (by tauto)⟩, fun e he => h3 e (.inr he)⟩, h9⟩, h10⟩, h11⟩

end Sys2Proof.Machine
end

