-- ==== Sys2Proof/Proofs/NoticeBounds.lean ====
section
/-! SUPPORT. The bounds of the Notice Queue (R93, R156, R165), the read-ahead slots (R162), and with them O56 and O60. -/

namespace Sys2Proof.Machine

variable {s t : State}

/-- The records of the LAPSE notices of a Notice Queue. -/
def lapsedBy (notices : List Notice) : List Nat := notices.filterMap Notice.lapses

/-- R156: the METER notices behind the one whose write has begun. -/
def metersBehind (stage : WriteStage) (notices : List Notice) : Nat := (notices.drop (if stage = .notBegun then 0 else 1)).count .meter

/-- R165, R93, R156: the bounds of the Notice Queue. -/
structure State.Noticed (s : State) : Prop where
  nodup : (lapsedBy s.xi.notices).Nodup
  lapsed : ∀ i ∈ lapsedBy s.xi.notices, (s.lease i).st = .lapsed
  meters : metersBehind s.xi.noticeStage s.xi.notices ≤ 1

theorem noticesBounded_iff (s : State) : s.noticesBounded = true ↔ s.Noticed := by
  simp only [State.noticesBounded, Bool.and_eq_true, decide_eq_true_eq, List.all_eq_true]
  exact ⟨fun ⟨⟨h1, h2⟩, h3⟩ => ⟨h1, h2, h3⟩, fun h => ⟨⟨h.1, h.2⟩, h.3⟩⟩

/-- Once the front write has begun, no more METER notices are behind it. -/
theorem metersBehind_le {stage stage' : WriteStage} (notices : List Notice) (h : stage' = .notBegun → stage = .notBegun) :
    metersBehind stage' notices ≤ metersBehind stage notices := by
  unfold metersBehind
  by_cases h' : stage' = .notBegun
  · rw [if_pos h', if_pos (h h')]
  · rw [if_neg h']
    split_ifs
    · exact (List.drop_sublist _ _).count_le _
    · exact le_rfl

/-- The front notice leaves once its count has been written. -/
theorem metersBehind_tail (stage : WriteStage) (n : Notice) (rest : List Notice) :
    metersBehind .notBegun rest ≤ metersBehind stage (n :: rest) := by
  unfold metersBehind
  rw [if_pos rfl]
  split_ifs
  · exact (List.sublist_cons_self n rest).count_le _
  · exact le_rfl

theorem metersBehind_append (stage : WriteStage) (notices more : List Notice) :
    metersBehind stage (notices ++ more) ≤ metersBehind stage notices + more.count .meter := by
  unfold metersBehind
  rw [List.drop_append, List.count_append]
  exact Nat.add_le_add_left ((List.drop_sublist _ _).count_le _) _

theorem metersBehind_filter (stage : WriteStage) (notices : List Notice) (p : Notice → Bool) :
    metersBehind stage (notices.filter p) ≤ notices.count .meter := (List.drop_sublist _ _ |>.trans List.filter_sublist).count_le _

/-- R156: with no METER notice waiting, there is none behind the one whose write has begun. -/
theorem metersBehind_of_not_waits (h : s.meterNoticeWaits = false) : metersBehind s.xi.noticeStage s.xi.notices = 0 := by
  unfold State.meterNoticeWaits at h
  unfold metersBehind
  cases hn : s.xi.notices with
  | nil => split_ifs <;> rfl
  | cons n rest =>
    rw [hn] at h
    simp only at h
    split_ifs at h ⊢
    · exact List.count_eq_zero.2 fun hm => absurd (List.contains_iff_mem.2 hm) (by rw [List.drop_zero, h]; nofun)
    · exact List.count_eq_zero.2 fun hm => absurd (List.contains_iff_mem.2 hm) (by rw [List.drop_one, List.tail_cons, h]; nofun)

/-- R165: a move that keeps the LAPSED records LAPSED, and of the notices changes none but their number of ANSWER ones. -/
theorem State.Noticed.keep (h : s.Noticed) (lapses : lapsedBy t.xi.notices = lapsedBy s.xi.notices)
    (meters : metersBehind t.xi.noticeStage t.xi.notices ≤ 1) (st : ∀ i, (s.lease i).st = .lapsed → (t.lease i).st = .lapsed) : t.Noticed :=
  ⟨lapses ▸ h.nodup, fun i hi => st i (h.lapsed i (lapses ▸ hi)), meters⟩

theorem State.Noticed.congr (h : s.Noticed) (notices : t.xi.notices = s.xi.notices) (stage : t.xi.noticeStage = s.xi.noticeStage)
    (lt : t.lt = s.lt) : t.Noticed :=
  h.keep (by rw [notices]) (by rw [notices, stage]; exact h.meters) fun i hi => by
    rw [State.lease, lt]
    exact hi

theorem State.Noticed.begun (h : s.Noticed) (notices : t.xi.notices = s.xi.notices)
    (stage : t.xi.noticeStage = .notBegun → s.xi.noticeStage = .notBegun) (lt : t.lt = s.lt) : t.Noticed :=
  h.keep (by rw [notices]) (by rw [notices]; exact (metersBehind_le _ stage).trans h.meters) fun i hi => by
    rw [State.lease, lt]
    exact hi

theorem Quiet.noticed (h : Quiet s t) (hs : s.Noticed) : t.Noticed := by
  cases h with
  | reread => exact hs.congr (by rw [rereadConsumed_eq]) (by rw [rereadConsumed_eq]) (by rw [rereadConsumed_eq])
  | retireWrite =>
    cases hl : s.xi.writeList with
    | nil =>
      unfold State.retireWrite
      rw [hl]
      exact hs
    | cons e rest =>
      cases e with
      | final c a =>
        rw [retireWrite_of_final hl]
        exact hs.keep (List.filterMap_append.trans (List.append_nil _))
          ((metersBehind_append _ _ _).trans hs.meters) fun i hi => hi
      | parked c p =>
        unfold State.retireWrite
        rw [hl]
        exact hs.congr rfl rfl rfl
  | noticeEntry dma room stage =>
    unfold State.issueNoticeEntry
    split
    · exact hs
    · exact hs.begun rfl nofun rfl
  | noticeCount found kind dma =>
    unfold State.issueNoticeCount
    split
    · exact hs.congr rfl rfl rfl
    · exact hs.begun rfl nofun rfl
  | noticeCountWaits found kind => exact hs.begun rfl nofun rfl
  | consumed found kind value => exact hs.congr (by rw [takeConsumed_eq]; rfl) (by rw [takeConsumed_eq]; rfl) (by rw [takeConsumed_eq]; rfl)
  | meterNotice waits =>
    refine hs.keep (List.filterMap_append.trans (List.append_nil _)) ?_ fun i hi => hi
    exact (metersBehind_append s.xi.noticeStage _ _).trans (by rw [metersBehind_of_not_waits waits]; exact le_rfl)
  | post c =>
    rcases postCell_eq s c with he | ⟨he, -⟩ | ⟨he, -⟩ <;> rw [he]
    · exact hs
    all_goals exact hs.congr rfl rfl rfl
  | dequeue qs as leaves =>
    rw [handAnswers_frame]
    exact hs.congr rfl rfl rfl
  | _ => exact hs.congr rfl rfl rfl

/-! ### Events -/

/-- A LAPSED record is listed, so a change of every listed record reaches it. -/
theorem lapsed_mapEntries (hs : s.Canonical) {f : Nat → Lease → Lease} (ht : t.lt.leases = Table.mapEntries Lease.atReset f s.lt.leases)
    (hf : ∀ i l, (i, l) ∈ s.lt.leases → l.st = .lapsed → (f i l).st = .lapsed) (i : Nat) (hi : (s.lease i).st = .lapsed) :
    (t.lease i).st = .lapsed := by
  have hne : Table.get Lease.atReset s.lt.leases i ≠ Lease.atReset := fun he => by
    rw [State.lease, he] at hi
    cases hi
  rw [State.lease, ht, Table.get_mapEntries_listed f hs.leases_canonical hne]
  exact hf i _ (Table.mem_of_get_ne hne) hi

theorem lapsed_setLease {i : Nat} {v : Lease} (hv : (s.lease i).st = .lapsed → v.st = .lapsed)
    (ht : t.lt.leases = (s.setLease i v).lt.leases) (j : Nat) (hj : (s.lease j).st = .lapsed) : (t.lease j).st = .lapsed := by
  have : t.lease j = if j = i then v else s.lease j := by
    rw [State.lease, ht]
    exact Table.get_set _ _ _ _ _
  rw [this]
  split_ifs with hij
  · exact hv (hij ▸ hj)
  · exact hj

theorem lapsedBy_aged (notices : List Notice) (es : List (Nat × Lease)) :
    lapsedBy (notices ++ es.map lapseNotice) = lapsedBy notices ++ es.map Prod.fst := by
  refine List.filterMap_append.trans (congrArg _ ?_)
  rw [List.filterMap_map, show Notice.lapses ∘ lapseNotice = some ∘ Prod.fst from rfl, List.filterMap_eq_map]

theorem metersBehind_aged (stage : WriteStage) (notices : List Notice) (es : List (Nat × Lease)) :
    metersBehind stage (notices ++ es.map lapseNotice) ≤ metersBehind stage notices := by
  refine (metersBehind_append _ _ _).trans (Nat.le_of_eq ?_)
  rw [List.count_eq_zero.2 fun h => ?_, Nat.add_zero]
  obtain ⟨e, -, he⟩ := List.mem_map.1 h
  cases he

/-- R92, R93: the records that lapse are HELD until they do, and each lapses once. -/
theorem State.Noticed.aged (h : s.Noticed) (hs : s.Canonical) : s.ageLeases.Noticed := by
  have hrising : (s.lt.leases.map Prod.fst).Pairwise (· < ·) := ((Table.canonical_iff _ _).1 hs.leases_canonical).1
  have hlapsing : ∀ i ∈ (Table.select (fun _ l => l.lapsing) s.lt.leases).map Prod.fst, ∃ l, (i, l) ∈ s.lt.leases ∧ l.lapsing = true := by
    intro i hi
    obtain ⟨⟨j, l⟩, hm, rfl⟩ := List.mem_map.1 hi
    obtain ⟨hm, hl⟩ := List.mem_filter.1 hm
    exact ⟨l, hm, hl⟩
  have hlease {i : Nat} {l : Lease} (hm : (i, l) ∈ s.lt.leases) : s.lease i = l := Table.get_of_mem _ hs.leases_canonical hm
  have hage (i : Nat) (hi : (s.lease i).st ≠ .free) : s.ageLeases.lease i = (s.lease i).aged := by
    rw [ageLeases_eq, released_eq]
    refine Table.get_mapEntries_listed (fun _ l => l.aged) hs.leases_canonical fun he => hi ?_
    rw [State.lease, he]
    rfl
  rw [ageLeases_eq, released_eq] at hage ⊢
  refine ⟨?_, fun i hi => ?_, (metersBehind_aged _ _ _).trans h.meters⟩
  · rw [lapsedBy_aged]
    refine List.nodup_append.2 ⟨h.nodup, ((hrising.imp fun h => h.ne).sublist (List.filter_sublist.map _)), fun i hi j hj hij => ?_⟩
    subst hij
    obtain ⟨l, hm, hl⟩ := hlapsing i hj
    have hst := h.lapsed i hi
    rw [hlease hm] at hst
    simp [Lease.lapsing, hst] at hl
  · rw [lapsedBy_aged, List.mem_append] at hi
    rcases hi with hi | hi
    · have hst := h.lapsed i hi
      rw [hage i (by rw [hst]; nofun), Lease.aged, hst]
      exact hst
    · obtain ⟨l, hm, hl⟩ := hlapsing i hi
      simp only [Lease.lapsing, Bool.and_eq_true, decide_eq_true_eq] at hl
      rw [hage i (by rw [hlease hm, hl.1]; nofun), hlease hm, Lease.aged, hl.1]
      simp only [if_pos hl.2]

/-- R109: of the LAPSE notices CLEAR_FLOOR keeps only the one whose write has begun. -/
theorem mem_lapsedBy_kept {i : Nat} (h : i ∈ lapsedBy s.noticesKept) : i ∈ lapsedBy s.xi.notices ∧ s.lapseBegun i = true := by
  have hnone (l : List Notice) : lapsedBy (l.filter fun n => !n.isLapse) = [] := by
    refine List.filterMap_eq_nil_iff.2 fun n hn => ?_
    have := (List.mem_filter.1 hn).2
    cases n <;> simp_all [Notice.isLapse, Notice.lapses]
  unfold State.noticesKept at h
  unfold State.lapseBegun
  cases hn : s.xi.notices with
  | nil =>
    rw [hn] at h
    cases h
  | cons n rest =>
    rw [hn] at h
    simp only at h
    split_ifs at h with hst
    · rw [hnone] at h
      cases h
    · cases n with
      | lapse j g p =>
        have hcons : lapsedBy (.lapse j g p :: rest.filter fun n => !n.isLapse) = [j] := congrArg (j :: ·) (hnone rest)
        rw [hcons, List.mem_singleton] at h
        subst h
        exact ⟨List.mem_cons_self, by simp [hst]⟩
      | answer c r p =>
        have : lapsedBy (.answer c r p :: rest.filter fun n => !n.isLapse) = [] := hnone rest
        rw [this] at h
        cases h
      | meter =>
        have : lapsedBy (.meter :: rest.filter fun n => !n.isLapse) = [] := hnone rest
        rw [this] at h
        cases h

theorem noticesKept_sublist (s : State) : s.noticesKept.Sublist s.xi.notices ∧
    metersBehind s.xi.noticeStage s.noticesKept ≤ metersBehind s.xi.noticeStage s.xi.notices := by
  unfold State.noticesKept metersBehind
  cases s.xi.notices with
  | nil => exact ⟨.refl _, le_rfl⟩
  | cons n rest =>
    simp only
    split_ifs
    · exact ⟨List.filter_sublist, List.filter_sublist.count_le _⟩
    · exact ⟨List.filter_sublist.cons_cons n, List.filter_sublist.count_le _⟩

theorem State.Noticed.cleared (h : s.Noticed) (hs : s.Canonical) : s.clearLeases.Noticed := by
  rw [clearLeases_released, released_eq]
  refine ⟨h.nodup.sublist ((noticesKept_sublist s).1.filterMap _), fun i hi => ?_, (noticesKept_sublist s).2.trans h.meters⟩
  obtain ⟨hm, hbegun⟩ := mem_lapsedBy_kept hi
  have hst := h.lapsed i hm
  have hne : Table.get Lease.atReset s.lt.leases i ≠ Lease.atReset := fun he => by
    rw [State.lease, he] at hst
    cases hst
  have : Table.get Lease.atReset (Table.mapEntries Lease.atReset s.cleared s.lt.leases) i = s.cleared i (s.lease i) :=
    Table.get_mapEntries_listed s.cleared hs.leases_canonical hne
  rw [State.lease, this, State.cleared, State.clearedByFloor, hst]
  simp [hbegun, hst]

/-- R166: the front notice leaves, and with a LAPSE notice its record. -/
theorem State.Noticed.written (h : s.Noticed) : s.noticeWrittenEvent.Noticed := by
  cases hn : s.xi.notices with
  | nil => rwa [noticeWrittenEvent_of_nil hn]
  | cons n rest =>
    have hmeters : metersBehind .notBegun rest ≤ 1 := (hn ▸ metersBehind_tail s.xi.noticeStage n rest).trans h.meters
    have hnodup := h.nodup
    have hlapsed := h.lapsed
    rw [hn] at hnodup hlapsed
    have htaken (hl : (lapsedBy rest).Nodup) (hst : ∀ i ∈ lapsedBy rest, (s.lease i).st = .lapsed) : (s.noticeTaken rest).Noticed :=
      ⟨hl, hst, hmeters⟩
    rw [noticeWrittenEvent_of_front hn]
    cases n with
    | answer c r p => exact (htaken hnodup hlapsed).congr rfl rfl rfl
    | meter => exact htaken hnodup hlapsed
    | lapse i g p =>
      obtain ⟨hi, hrest⟩ := List.nodup_cons.1 (show (i :: lapsedBy rest).Nodup from hnodup)
      have hst : ∀ j ∈ lapsedBy rest, (s.lease j).st = .lapsed := fun j hj => hlapsed j (List.mem_cons_of_mem i hj)
      simp only [State.noticeDelivered, State.lapseWritten]
      split_ifs
      · refine ⟨hrest, fun j hj => ?_, hmeters⟩
        have hne : j ≠ i := fun he => hi (he ▸ hj)
        refine (congrArg Lease.st (Table.get_set _ _ _ _ _)).trans ?_
        rw [if_neg hne]
        exact hst j hj
      · exact htaken hrest hst

theorem Event.noticed (h : Event s t) (hc : s.Canonical) (hs : s.Noticed) : t.Noticed := by
  cases h with
  | baseLo value =>
    rw [writeBaseLo_eq]
    exact hs.congr rfl rfl rfl
  | baseHi value =>
    rw [writeBaseHi_eq]
    exact hs.congr rfl rfl rfl
  | @notice tag i x found kind =>
    have hl : (s.landed tag).Noticed := hs.congr rfl rfl rfl
    exact hl.written
  | @reload i below held period =>
    exact hs.keep rfl hs.meters (lapsed_setLease (v := (s.lease i).reload period) id rfl)
  | returns skip chosen held =>
    have held := held ((canonical_iff s).2 hc)
    rw [returnRecords_released, released_eq]
    refine hs.keep rfl hs.meters (lapsed_mapEntries hc (f := s.returned skip chosen) rfl fun i l hm hl => ?_)
    unfold State.returned
    split_ifs with hch
    · rw [held i l hm hch] at hl
      cases hl
    · exact hl
  | @grant p charge i key feature period passes lowest named =>
    refine hs.keep rfl hs.meters (lapsed_setLease (v := s.grantedLease p key feature charge period i) (fun hl => ?_) rfl)
    rw [(lowestFree_eq_some.1 lowest).2.1] at hl
    cases hl
  | @revive i lingering period =>
    refine hs.keep rfl hs.meters (lapsed_setLease (v := { s.lease i with st := .held, period := period, counter := period }) (fun hl => ?_) rfl)
    rw [lingering] at hl
    cases hl
  | age => exact hs.aged hc
  | clear => exact hs.cleared hc
  | @commit im staged header committing =>
    refine hs.keep rfl hs.meters (lapsed_mapEntries hc (f := fun _ l => s.recomputed staged l) rfl fun i l _ hl => ?_)
    obtain ⟨b, he⟩ := recomputed_cases s staged l
    rw [he]
    exact hl
  | clearCauses value => exact hs.congr rfl rfl rfl

/-- R166, R170: a change of the engine state never takes the front notice's write back. -/
theorem Abrupt.stage (h : Abrupt s t) : t.xi.noticeStage = .notBegun → s.xi.noticeStage = .notBegun := by
  cases h with
  | fail found =>
    rw [failTransfer_eq]
    exact id
  | control h =>
    cases h with
    | request enable target dma =>
      rcases requestDmaState_cases (s.takeEnable enable) target with ⟨-, -, he⟩ | ⟨-, -, he⟩ | ⟨-, he⟩ | hold
      · rw [he, takeEnable_eq]
        exact id
      · rw [he, takeEnable_eq]
        exact id
      · rw [he, takeEnable_eq]
        exact id
      · rw [requestDmaState_resumed _ target hold _ _ rfl rfl]
        have hstage : (s.takeEnable enable).xi.noticeStage = s.xi.noticeStage := by rw [takeEnable_eq]
        simp only [hstage]
        split_ifs
        · exact id
        · exact nofun
    | requestStill enable =>
      rcases requestStillState_cases (s.takeEnable enable) with ⟨-, -, he⟩ | ⟨-, -, he⟩ | ⟨-, he⟩ <;>
      · rw [he, takeEnable_eq]
        exact id
    | enable enable =>
      rw [takeEnable_eq]
      exact id

/-! ### The invariant -/

/-- R161, R165: the places of the cells and the bounds of the Notice Queue. -/
structure State.Kept (s : State) : Prop where
  housed : s.Housed
  noticed : s.Noticed

theorem placesKept_iff (s : State) : s.placesKept = true ↔ s.Kept := by
  simp only [State.placesKept, Bool.and_eq_true, canonical_iff, noticesBounded_iff]
  constructor
  · rintro ⟨⟨h1, h2⟩, h3⟩
    obtain ⟨h2, h4⟩ := (cellsPlaced_iff h1).1 h2
    exact ⟨⟨h1, h2, h4⟩, h3⟩
  · rintro ⟨⟨h1, h2, h4⟩, h3⟩
    exact ⟨⟨h1, (cellsPlaced_iff h1).2 ⟨h2, h4⟩⟩, h3⟩

theorem State.Kept.outside (h : s.Kept) (xi : t.xi = s.xi) (rest : t.decision = s.decision ∧ t.wu = s.wu ∧ t.install = s.install ∧
    t.lt = s.lt) (canonical : t.Canonical) : t.Kept := by
  obtain ⟨hd, hw, hi, hl⟩ := rest
  refine ⟨h.housed.congr canonical (sites_congr (by rw [xi]) (by rw [xi]) (by rw [xi]) (by simp only [State.takenCells, hd, hw]) (by rw [hw])
    (by rw [hi])) (by rw [xi]) fun c => (countTransfers_congr (by rw [xi]) (by rw [xi]) _).le, h.noticed.congr (by rw [xi]) (by rw [xi]) hl⟩

theorem placesKept_reset : State.reset.placesKept = true := by decide

theorem step_keeps_places (h : step s = .next t) (hs : s.Kept) : t.Kept :=
  step_keeps (P := State.Kept) (fun h => h.outside rfl ⟨rfl, rfl, rfl, rfl⟩ { h.housed.canonical with })
    (fun _ _ h hs => ⟨h.housed hs.housed, h.noticed hs.noticed⟩)
    (fun _ _ h hs => ⟨h.housed hs.housed, h.noticed hs.housed.canonical hs.noticed⟩)
    (fun _ _ h hs => ⟨h.housed hs.housed, hs.noticed.begun h.housing.2.2.1 h.stage h.parked.lt⟩)
    (fun _ => ((placesKept_iff _).1 placesKept_reset).outside rfl ⟨rfl, rfl, rfl, rfl⟩ { (canonical_iff _).1 canonical_reset with }) h hs

/-! ### What the places say -/

/-- R65: a listed queue is the one its pool reads as. -/
theorem State.Canonical.mem_queues (h : s.Canonical) {c : Nat} : c ∈ s.waitingCells ↔ ∃ p, ∃ w ∈ s.queue p, w.cell = c := by
  simp only [State.waitingCells, List.mem_flatMap, List.mem_map]
  constructor
  · rintro ⟨⟨p, q⟩, hq, w, hw, rfl⟩
    have : s.queue p = q := Table.get_of_mem _ h.queues hq
    exact ⟨p, w, this ▸ hw, rfl⟩
  · rintro ⟨p, w, hw, rfl⟩
    have : Table.get [] s.wu.queues p ≠ [] := fun he => by
      rw [State.queue, he] at hw
      cases hw
    exact ⟨_, Table.mem_of_get_ne this, w, hw, rfl⟩

/-- R65: a cell is WAITING exactly while an entry of it waits. -/
theorem State.Housed.waiting_iff (h : s.Housed) (c : Nat) : (s.cell c).st = .waiting ↔ ∃ p, ∃ w ∈ s.queue p, w.cell = c := by
  rw [← h.canonical.mem_queues]
  refine ⟨fun hst => ?_, fun hc => ?_⟩
  · obtain ⟨k, hk, hin⟩ := h.sited.site_of_st hst nofun nofun
    simp only [State.sites, Multiset.mem_add, mem_sitesAt] at hk
    rcases hk with ((((hk | hk) | hk) | hk) | hk) | hk
    on_goal 4 => exact hk.1
    all_goals rw [hk.2] at hin; simp at hin
  · refine List.mem_singleton.1 (h.sited.named (c, [.waiting]) ?_)
    simp only [State.sites, Multiset.mem_add, mem_sitesAt]
    exact .inl (.inl (.inr ⟨hc, trivial⟩))

theorem State.Sited.parts (h : s.Sited) : s.waitingCells.Nodup ∧ (answeredBy s.xi.notices).Nodup := by
  have hn := h.nodup
  rw [cells_sites, Multiset.coe_nodup, State.cellPlaces] at hn
  obtain ⟨hn, hanswers, -⟩ := List.nodup_append.1 hn
  exact ⟨(List.nodup_append.1 (List.nodup_append.1 hn).1).2.1, hanswers⟩

/-- R65: of two entries of one cell, both are the same entry of the same queue. -/
theorem State.Housed.waiter_unique (h : s.Housed) {p q : Nat} {v w : Waiter} (hv : v ∈ s.queue p) (hw : w ∈ s.queue q)
    (he : v.cell = w.cell) : p = q ∧ v = w := by
  have hn := (waiting_queue h.canonical.queues p).nodup_iff.1 h.sited.parts.1
  obtain ⟨hp, -, hdisjoint⟩ := List.nodup_append.1 hn
  have hpq : p = q := by
    by_contra hne
    have hq : Table.get [] s.wu.queues q ≠ [] := fun hq => by
      rw [State.queue, hq] at hw
      cases hw
    have hother : (q, s.queue q) ∈ Table.erase p s.wu.queues := Table.mem_erase.2 ⟨Table.mem_of_get_ne hq, Ne.symm hne⟩
    exact hdisjoint v.cell (List.mem_map_of_mem hv) w.cell (List.mem_flatMap.2 ⟨_, hother, List.mem_map_of_mem hw⟩) he
  subst hpq
  exact ⟨rfl, List.inj_on_of_nodup_map hp hv hw he⟩

theorem State.Housed.queue_nodup (h : s.Housed) (p : Nat) : ((s.queue p).map Waiter.cell).Nodup :=
  (List.nodup_append.1 ((waiting_queue h.canonical.queues p).nodup_iff.1 h.sited.parts.1)).1

/-- Distinct numbers below a bound are no more than the bound. -/
theorem length_le_of_nodup_below {l : List Nat} {n : Nat} (h : l.Nodup) (hn : ∀ i ∈ l, i < n) : l.length ≤ n := by
  have := (List.subperm_of_subset h (l₂ := List.range n) fun i hi => List.mem_range.2 (hn i hi)).length_le
  rwa [List.length_range] at this

/-- R165: a notice is an ANSWER, a LAPSE or a METER one. -/
theorem length_notices (l : List Notice) : l.length = (answeredBy l).length + (lapsedBy l).length + l.count .meter := by
  induction l with
  | nil => rfl
  | cons n l ih =>
    rw [List.length_cons, ih]
    cases n with
    | answer c r p =>
      have h1 : answeredBy (.answer c r p :: l) = c :: answeredBy l := rfl
      have h2 : lapsedBy (.answer c r p :: l) = lapsedBy l := rfl
      rw [h1, h2, List.count_cons_of_ne (by simp), List.length_cons]
      omega
    | lapse i g p =>
      have h1 : answeredBy (.lapse i g p :: l) = answeredBy l := rfl
      have h2 : lapsedBy (.lapse i g p :: l) = i :: lapsedBy l := rfl
      rw [h1, h2, List.count_cons_of_ne (by simp), List.length_cons]
      omega
    | meter =>
      have h1 : answeredBy (.meter :: l) = answeredBy l := rfl
      have h2 : lapsedBy (.meter :: l) = lapsedBy l := rfl
      rw [h1, h2, List.count_cons_self]
      omega

theorem State.Noticed.count_meter (h : s.Noticed) : s.xi.notices.count .meter ≤ 2 := by
  have hm := h.meters
  unfold metersBehind at hm
  cases hn : s.xi.notices with
  | nil => exact Nat.zero_le _
  | cons n rest =>
    rw [hn] at hm
    have hcount : (n :: rest).count .meter ≤ rest.count .meter + 1 := by
      rw [List.count_cons]
      split_ifs <;> omega
    split_ifs at hm
    · have : (n :: rest).count .meter ≤ 1 := hm
      omega
    · have : rest.count .meter ≤ 1 := hm
      omega

/-- R165: the Notice Queue holds 1024 + 4096 + 2 entries at most. -/
theorem State.Kept.notices_length (h : s.Kept) : s.xi.notices.length ≤ 5122 := by
  have hanswers : (answeredBy s.xi.notices).length ≤ 1024 := length_le_of_nodup_below h.housed.sited.parts.2 fun c hc =>
    h.housed.sited.lt_of_site (e := (c, [.notifying])) (Multiset.mem_add.2 (.inr (mem_sitesAt.2 ⟨hc, rfl⟩)))
  have hlapses : (lapsedBy s.xi.notices).length ≤ 4096 := length_le_of_nodup_below h.noticed.nodup fun i hi =>
    h.housed.canonical.lease_below (by rw [h.noticed.lapsed i hi]; nofun)
  have hmeters := h.noticed.count_meter
  rw [length_notices]
  omega

/-- Settles O56: a cell goes from place to place as its state goes, entries join a queue by class, and a notice joins for an answer written, a
record that lapses, or a page done. -/
theorem queueOrderKept : Obligations.QueueOrderKept := by
  refine ⟨fun s t hs h => ?_, fun s t hs h => ?_, fun s hs => ?_⟩
  · rw [queuesOrdered_iff] at hs ⊢
    exact step_keeps_ordered h hs
  · rw [placesKept_iff] at hs ⊢
    exact step_keeps_places h hs
  · have hk := (placesKept_iff s).1 hs
    exact ⟨hk.housed.waiting_iff, fun p q v w => hk.housed.waiter_unique, hk.housed.queue_nodup, hk.housed.sited.parts.2, hk.noticed.nodup,
      hk.noticed.count_meter, hk.notices_length⟩

end Sys2Proof.Machine
end

