-- ==== Sys2Proof/Proofs/Registers.lean ====
section
/-! SUPPORT. The step and the resets (O1, O4, O60), and the register window (O5, O7, O8, O9). -/

namespace Sys2Proof.Machine

variable {s t : State}

/-- Settles O1: the step takes the queue apart as its definition does. -/
theorem stepTakesFrontCommand : Obligations.StepTakesFrontCommand := fun _ _ _ => step_cons

/-- Settles O60: from the reset state's part in each invariant. -/
theorem resetMeetsInvariants : Obligations.ResetMeetsInvariants :=
  ⟨canonical_reset, baseOk_reset, positionOk_reset, (ledgerOk_iff _).2 ledger_reset, limitsKept_reset, queuesOrdered_reset, noticeRoomKept_reset,
    paramsInRange_reset, by decide, by decide, placesKept_reset⟩

/-- R171: with no transfer in flight none is found. -/
theorem transfer_of_idle (h : s.xi.inFlight = []) (tag : Nat) : s.transfer tag = none := by
  rw [State.transfer, h]
  rfl

/-- R171: with no transfer in flight, a completion, arrival or error names none. -/
theorem exec_abandoned (h : s.xi.inFlight = []) (tag : Nat) (bytes : List Byte) (c : Instr)
    (hc : c ∈ [.fetchArrival tag bytes, .answerWriteComplete tag, .poolFieldWriteComplete tag, .statusByteWriteComplete tag,
      .noticeEntryWriteComplete tag, .noticeWritten tag, .consumedReadArrival tag bytes, .imageReadArrival tag bytes,
      .ownerReadArrival tag bytes, .pageWriteComplete tag, .ownerWordWriteComplete tag, .dmaError tag]) : exec c s = .next s := by
  have hx := transfer_of_idle h tag
  simp only [List.mem_cons, List.not_mem_nil, or_false] at hc
  rcases hc with rfl | rfl | rfl | rfl | rfl | rfl | rfl | rfl | rfl | rfl | rfl | rfl
  · simp only [exec, execFetchArrival, hx]
  · simp only [exec, execAnswerWriteComplete, hx]
  · simp only [exec, execPoolFieldWriteComplete, hx]
  · simp only [exec, execStatusByteWriteComplete, hx]
  · simp only [exec, execNoticeEntryWriteComplete, hx]
  · simp only [exec, execNoticeWritten, hx]
  · simp only [exec, execConsumedReadArrival, hx]
  · simp only [exec, execImageReadArrival, hx]
  · simp only [exec, execOwnerReadArrival, hx]
  · simp only [exec, execPageWriteComplete, hx]
  · simp only [exec, execOwnerWordWriteComplete, hx]
  · simp only [exec, execDmaError, hx]

/-- Settles O4: the three resets are one function, whose fields are read off. -/
theorem resetsLeaveResetValues : Obligations.ResetsLeaveResetValues := by
  intro s v
  refine ⟨s.afterReset, rfl, rfl, rfl, rfl, rfl, rfl, fun _ => rfl, rfl, rfl, rfl, rfl, rfl, rfl, rfl, rfl, rfl, rfl, rfl, rfl, rfl, rfl, rfl,
    rfl, fun _ => rfl, rfl, fun _ => rfl, fun _ => rfl, rfl, rfl, rfl, rfl, rfl, rfl, rfl, rfl, rfl, ?_⟩
  exact fun tag bytes c hc => exec_abandoned rfl tag bytes c hc

/-! ### Writes -/

/-- A step to a state is the step to an equal one. -/
theorem next_congr {u v : State} (h : u = v) : (.next u : Outcome) = .next v := h ▸ rfl

theorem next_reread {u v : State} (h : u = v) : (.next u.registerWritten : Outcome) = .next v.rereadConsumed := h ▸ rfl

/-- R167: no re-read without DMA. -/
theorem rereadConsumed_of_no_dma (h : s.xi.engine.dma = false) : s.rereadConsumed = s := by
  rcases rereadConsumed_cases s with ⟨he, -⟩ | ⟨⟨-, -, -, hd, -⟩, -⟩
  · exact he
  · rw [h] at hd
    cases hd

theorem dma_iff (e : EngineState) : e.dma = true ↔ e = .run ∨ e = .hold := by cases e <;> simp [EngineState.dma]

theorem dma_false_iff (e : EngineState) : e.dma = false ↔ e ≠ .run ∧ e ≠ .hold := by cases e <;> simp [EngineState.dma]

/-- R158: the low half taken from a written word, its low 12 bits ignored. -/
theorem baseLo_toNat (base : HostAddr) (v : Word) : ((base >>> 32).setWidth 32 ++ (v &&& 0xFFFFF000) : HostAddr).toNat =
    base.toNat / 2 ^ 32 * 2 ^ 32 + v.toNat / 4096 * 4096 := by
  have hmask : (v &&& (0xFFFFF000 : Word)).toNat = v.toNat / 4096 * 4096 := by
    have : v &&& (0xFFFFF000 : Word) = (v >>> 12) <<< 12 := by
      have hbits : ∀ i : Fin 32, (0xFFFFF000 : Word).getLsbD i = decide (12 ≤ i.val) := by decide
      refine BitVec.eq_of_getLsbD_eq fun i hi => ?_
      rw [BitVec.getLsbD_and, show (0xFFFFF000 : Word).getLsbD i = decide (12 ≤ i) from hbits ⟨i, hi⟩, BitVec.getLsbD_shiftLeft, BitVec.getLsbD_ushiftRight]
      by_cases h12 : 12 ≤ i
      · rw [Nat.add_sub_cancel' h12]
        simp [h12, hi]
      · simp [h12]
    rw [this, BitVec.toNat_shiftLeft, BitVec.toNat_ushiftRight, Nat.shiftRight_eq_div_pow, Nat.shiftLeft_eq]
    have := v.isLt
    omega
  have hlt := base.isLt
  rw [BitVec.toNat_append, ← Nat.shiftLeft_add_eq_or_of_lt (BitVec.isLt _), Nat.shiftLeft_eq, hmask, BitVec.toNat_setWidth,
    BitVec.toNat_ushiftRight, Nat.shiftRight_eq_div_pow]
  omega

theorem baseHi_toNat (base : HostAddr) (v : Word) : (v ++ base.setWidth 32 : HostAddr).toNat = v.toNat * 2 ^ 32 + base.toNat % 2 ^ 32 := by
  rw [BitVec.toNat_append, ← Nat.shiftLeft_add_eq_or_of_lt (BitVec.isLt _), Nat.shiftLeft_eq, BitVec.toNat_setWidth]

theorem onlyCell_setCell (s : State) (c : Nat) (v : Cell) : OnlyCell s (s.setCell c v) c :=
  ⟨rfl, fun c' hc => by rw [State.cell_setCell, if_neg hc]⟩

/-- Settles O5: a base write outside OFFLINE and a POST outside IDLE and NOTIFYING leave the state for the re-read. -/
theorem baseAndPostWrites : Obligations.BaseAndPostWrites := by
  refine ⟨fun s v => ⟨fun hoff => ?_, fun hon => ?_⟩, fun s v => ⟨fun hv => ?_, fun hv hst => ?_, fun hv hst => ?_, fun hv hi hn => ?_⟩⟩
  · have hdma : s.xi.engine.dma = false := by rw [hoff]; rfl
    have hlo : s.writeBaseLo v = { s with xi.base := (s.xi.base >>> 32).setWidth 32 ++ (v &&& 0xFFFFF000) } := by
      unfold State.writeBaseLo
      rw [hoff]
    have hhi : s.writeBaseHi v = { s with xi.base := v ++ s.xi.base.setWidth 32 } := by
      unfold State.writeBaseHi
      rw [hoff]
    refine ⟨⟨_, ?_, baseLo_toNat s.xi.base v⟩, ⟨_, ?_, baseHi_toNat s.xi.base v⟩⟩
    · exact next_congr ((congrArg State.rereadConsumed hlo).trans (rereadConsumed_of_no_dma hdma))
    · exact next_congr ((congrArg State.rereadConsumed hhi).trans (rereadConsumed_of_no_dma hdma))
  · have hlo : s.writeBaseLo v = s := by
      unfold State.writeBaseLo
      split
      · exact absurd ‹_› hon
      all_goals rfl
    have hhi : s.writeBaseHi v = s := by
      unfold State.writeBaseHi
      split
      · exact absurd ‹_› hon
      all_goals rfl
    exact ⟨next_reread hlo, next_reread hhi⟩
  · have : s.postCell v.toNat = s := if_pos hv
    exact next_reread this
  · have : s.postCell v.toNat = s.setCellState v.toNat .pending := by
      unfold State.postCell
      rw [if_neg (Nat.not_le.2 hv), hst]
    refine ⟨_, next_reread this, onlyCell_setCell s _ _, ?_⟩
    rw [State.cell_setCellState, if_pos rfl]
  · have : s.postCell v.toNat = s.setCell v.toNat { s.cell v.toNat with repost := true } := by
      unfold State.postCell
      rw [if_neg (Nat.not_le.2 hv), hst]
    refine ⟨_, next_reread this, onlyCell_setCell s _ _, ?_⟩
    rw [State.cell_setCell, if_pos rfl]
  · have : s.postCell v.toNat = s := by
      rcases postCell_eq s v.toNat with he | ⟨-, he, -⟩ | ⟨-, he, -⟩
      · exact he
      · exact absurd he hi
      · exact absurd he hn
    exact next_reread this

/-- R167: the consumed count is being read. -/
theorem consumedInFlight_iff (s : State) : s.consumedInFlight = true ↔ ∃ x ∈ s.xi.inFlight, x.kind = .consumedRead := by
  simp [State.consumedInFlight]

theorem room_eq_zero_iff (s : State) : s.room = 0 ↔ 1024 ≤ (s.xi.written - s.xi.cached).toNat := by
  rw [State.room, Nat.sub_eq_zero_iff_le, Config.noticeListSize]

/-- Settles O7: each write changes its own bits, and the re-read is by its condition. -/
theorem otherRegisterWrites : Obligations.OtherRegisterWrites := by
  refine ⟨fun s v reg => ⟨?_, ?_, rfl⟩, fun s reg v => ⟨fun hn hstage hroom hdma hfree => ?_, fun hnot => ?_⟩⟩
  · refine next_reread ?_
    rw [takeEnable_eq, if_congr and_left_comm rfl rfl]
    rfl
  · refine next_reread ?_
    unfold State.clearCauses
    cases v.getLsbD 0 <;> cases v.getLsbD 1 <;> simp
  · have hnone : s.consumedInFlight = false := Bool.eq_false_iff.2 fun h => by
      obtain ⟨x, hx, hk⟩ := (consumedInFlight_iff s).1 h
      exact hfree x hx hk
    refine next_congr ?_
    rcases rereadConsumed_cases s with ⟨-, hc⟩ | ⟨-, he⟩
    · exact absurd ⟨hn, hstage, (room_eq_zero_iff s).2 hroom, (dma_iff _).2 hdma, hnone⟩ hc
    · exact he
  · refine next_congr ?_
    rcases rereadConsumed_cases s with ⟨he, -⟩ | ⟨⟨hn, hstage, hroom, hdma, hfree⟩, -⟩
    · exact he
    · exfalso
      rcases hnot with h | h | h | h | h
      · exact hn h
      · exact h hstage
      · exact absurd ((room_eq_zero_iff s).1 hroom) (Nat.not_le.2 h)
      · rw [(dma_false_iff _).2 h] at hdma
        cases hdma
      · rw [(consumedInFlight_iff s).2 h] at hfree
        cases hfree

/-! ### Reads -/

theorem bitAt_cases (b : Bool) (k : Nat) : bitAt b k = 0 ∧ b = false ∨ bitAt b k = 2 ^ k ∧ b = true := by
  cases b <;> simp [bitAt]

/-- A bit of a word given as a number. -/
theorem getLsbD_word (n i : Nat) (hi : i < 32) : (BitVec.ofNat 32 n).getLsbD i = decide (n / 2 ^ i % 2 = 1) := by
  rw [BitVec.getLsbD_ofNat, decide_eq_true hi, Bool.true_and, Nat.testBit_eq_decide_div_mod_eq]

theorem engine_code_lt (e : EngineState) : e.code < 5 := by cases e <;> decide

theorem fault_code_lt (f : FaultKind) : f.code < 7 := by cases f <;> decide

/-- R161: the Post Set is the PENDING cells. -/
theorem length_postSet (hs : s.Canonical) (hb : ∀ e ∈ s.xi.cells, e.1 < 1024) :
    s.postSet.length = ((List.range 1024).filter fun c => decide ((s.cell c).st = .pending)).length := by
  have hmem (c : Nat) : c ∈ s.postSet ↔ c ∈ (List.range 1024).filter fun c => decide ((s.cell c).st = .pending) := by
    rw [State.postSet, List.mem_map, List.mem_filter, List.mem_range, decide_eq_true_iff]
    constructor
    · rintro ⟨⟨c, v⟩, he, rfl⟩
      obtain ⟨he, hp⟩ := List.mem_filter.1 he
      rw [(hs.mem_cells.1 he).1]
      exact ⟨hb _ he, of_decide_eq_true hp⟩
    · rintro ⟨-, hp⟩
      have hne : s.cell c ≠ Cell.atReset := fun he => by
        rw [he] at hp
        cases hp
      exact ⟨(c, s.cell c), List.mem_filter.2 ⟨hs.mem_cells.2 ⟨rfl, hne⟩, decide_eq_true hp⟩, rfl⟩
  have hnodup : s.postSet.Nodup :=
    ((((Table.canonical_iff _ _).1 hs.cells).1.imp fun h => h.ne).sublist (List.filter_sublist.map _))
  exact ((List.perm_ext_iff_of_nodup hnodup (List.nodup_range.filter _)).2 hmem).length_eq

/-- Settles O8: each register is a sum of its fields at their places. -/
theorem registerReads : Obligations.RegisterReads := by
  intro s
  refine ⟨?_, fun hc hb => ?_, fun i => ?_, ?_, ?_, fun hf => ?_, ⟨rfl, rfl, rfl, rfl, rfl, rfl, rfl⟩, fun off hoff => ?_, ?_, ?_⟩
  · simp only [State.readRegister, BitVec.toNat_setWidth, BitVec.toNat_ushiftRight, Nat.shiftRight_eq_div_pow]
    have := s.xi.base.isLt
    omega
  · have hlen := length_postSet ((canonical_iff s).1 hc) (by simpa using hb)
    have hle : ((List.range 1024).filter fun c => decide ((s.cell c).st = .pending)).length ≤ 1024 :=
      (List.length_filter_le _ _).trans_eq List.length_range
    rw [State.readRegister, BitVec.toNat_ofNat, hlen, Nat.mod_eq_of_lt (by omega)]
  · by_cases hi : i < 32
    · rw [State.readRegister, getLsbD_word _ _ hi]
      rcases bitAt_cases s.xi.intEnable 4 with ⟨h, hb⟩ | ⟨h, hb⟩
      · rw [h, hb]
        simp
      · rw [h, hb, Bool.and_true]
        interval_cases i <;> rfl
    · have : i ≠ 4 := fun h => by omega
      rw [BitVec.getLsbD_of_ge _ _ (by omega), decide_eq_false this, Bool.false_and]
  · have he := engine_code_lt s.xi.engine
    have hf := fault_code_lt s.xi.faultKind
    simp only [State.readRegister, getLsbD_word _ _ (by decide : 3 < 32), getLsbD_word _ _ (by decide : 4 < 32),
      getLsbD_word _ _ (by decide : 5 < 32), getLsbD_word _ _ (by decide : 6 < 32), getLsbD_word _ _ (by decide : 7 < 32), BitVec.toNat_ofNat]
    rcases bitAt_cases s.su.clockSet 4 with ⟨h1, b1⟩ | ⟨h1, b1⟩ <;> rcases bitAt_cases s.install.busy 5 with ⟨h2, b2⟩ | ⟨h2, b2⟩ <;>
      rcases bitAt_cases s.xi.baseInvalid 6 with ⟨h3, b3⟩ | ⟨h3, b3⟩ <;> rw [h1, h2, h3, b1, b2, b3] <;>
      simp only [decide_eq_false_iff_not, decide_eq_true_eq] <;> omega
  · simp only [State.readRegister, getLsbD_word _ _ (by decide : 0 < 32), getLsbD_word _ _ (by decide : 1 < 32), BitVec.toNat_ofNat]
    rcases bitAt_cases s.xi.causeNotice 0 with ⟨h1, b1⟩ | ⟨h1, b1⟩ <;> rcases bitAt_cases s.xi.causeFault 1 with ⟨h2, b2⟩ | ⟨h2, b2⟩ <;>
      rw [h1, h2, b1, b2] <;> decide
  · have := s.xi.faultAddr.isLt
    rw [State.readRegister, BitVec.toNat_ofNat]
    omega
  · simp only [List.mem_cons, List.not_mem_nil, or_false, not_or] at hoff
    obtain ⟨h0, h1, h2, h3, h4, h5, h6⟩ := hoff
    have : registerAt off = none := by
      unfold registerAt
      split
      case h_8 => rfl
      all_goals contradiction
    rw [State.readWindow, this]
    rfl
  · intro e k h
    cases e <;> simp_all [EngineState.code]
  · intro f k h
    cases f <;> simp_all [FaultKind.code]

/-! ### The window -/

/-- Table 10-14: a CONTROL word is one well-formed command, and only its own. -/
theorem controlCommand_iff (c : Instr) (v : Word) :
    c.wellFormed = true ∧ registerWriteOf c = some (0x0C, v) ↔ controlCommand v = c := by
  unfold controlCommand
  constructor
  · rintro ⟨hw, hc⟩
    cases c with
    | requestRun w =>
      cases hc
      obtain ⟨h1, h2⟩ := Bool.and_eq_true_iff.1 hw
      rw [if_neg (by simpa using h2), eq_of_beq h1]
      rfl
    | requestHold w =>
      cases hc
      obtain ⟨h1, h2⟩ := Bool.and_eq_true_iff.1 hw
      rw [if_neg (by simpa using h2), eq_of_beq h1]
      rfl
    | requestStill w =>
      cases hc
      obtain ⟨h1, h2⟩ := Bool.and_eq_true_iff.1 hw
      rw [if_neg (by simpa using h2), eq_of_beq h1]
      rfl
    | interruptEnable w =>
      cases hc
      obtain ⟨h1, h2⟩ := Bool.and_eq_true_iff.1 hw
      rw [if_neg (by simpa using h2), eq_of_beq h1]
      rfl
    | functionReset w =>
      cases hc
      exact if_pos hw
    | registerWriteIgnored reg w => cases reg <;> cases hc
    | _ => cases hc
  · rintro rfl
    by_cases hr : controlReset v = true
    · rw [if_pos hr]
      exact ⟨hr, rfl⟩
    · rw [if_neg hr]
      have hlt : controlRequest v < 4 := Nat.mod_lt _ (by decide)
      have hr : controlReset v = false := by simpa using hr
      generalize hk : controlRequest v = k at hlt
      interval_cases k <;> simp [Instr.wellFormed, registerWriteOf, hk, hr]

/-- Settles O9: an offset has one register, and the word written there one command. -/
theorem registerWindowRoundTrip : Obligations.RegisterWindowRoundTrip := by
  intro c off v
  by_cases hoff : off = 0x0C
  · subst hoff
    rw [controlCommand_iff]
    exact Option.some_inj.symm
  · constructor
    · rintro ⟨hw, hc⟩
      cases c with
      | registerWriteIgnored reg w => cases reg <;> cases hc <;> rfl
      | exbaseLoWrite w => cases hc; rfl
      | exbaseHiWrite w => cases hc; rfl
      | post w => cases hc; rfl
      | causeWrite w => cases hc; rfl
      | requestRun w => cases hc; exact absurd rfl hoff
      | requestHold w => cases hc; exact absurd rfl hoff
      | requestStill w => cases hc; exact absurd rfl hoff
      | interruptEnable w => cases hc; exact absurd rfl hoff
      | functionReset w => cases hc; exact absurd rfl hoff
      | _ => cases hc
    · intro h
      unfold registerWriteCommand at h
      split at h
      case h_4 => exact absurd rfl hoff
      case h_8 => cases h
      all_goals
      · cases h
        exact ⟨rfl, rfl⟩

end Sys2Proof.Machine
end

