-- ==== Sys2Proof/Proofs/Writes.lean ====
section
/-! SUPPORT. What the Exchange Interface's own commands do: cells answered (O12), notices (O13, O14), DMA errors (O15), and the requests for
an engine state (O6). -/

namespace Sys2Proof.Machine

variable {s t : State}

/-! ### Completions and arrivals by the transfer they name -/

theorem exec_answerWriteComplete {tag c : Nat} {x : Transfer} (hx : s.transfer tag = some x) (hk : x.kind = .answerArea c) :
    exec (.answerWriteComplete tag) s = .next (s.landed tag).firstWriteDone := by
  obtain ⟨_, kind, _, _, _⟩ := x
  cases hk
  simp only [exec, execAnswerWriteComplete, hx]

theorem exec_poolFieldWriteComplete {tag c : Nat} {x : Transfer} (hx : s.transfer tag = some x) (hk : x.kind = .poolField c) :
    exec (.poolFieldWriteComplete tag) s = .next (s.landed tag).firstWriteDone := by
  obtain ⟨_, kind, _, _, _⟩ := x
  cases hk
  simp only [exec, execPoolFieldWriteComplete, hx]

theorem exec_statusByteWriteComplete {tag c : Nat} {x : Transfer} (hx : s.transfer tag = some x) (hk : x.kind = .statusByte c) :
    exec (.statusByteWriteComplete tag) s = .next (s.landed tag).retireWrite := by
  obtain ⟨_, kind, _, _, _⟩ := x
  cases hk
  simp only [exec, execStatusByteWriteComplete, hx]

theorem exec_noticeEntryWriteComplete {tag i : Nat} {x : Transfer} (hx : s.transfer tag = some x) (hk : x.kind = .noticeEntry i) :
    exec (.noticeEntryWriteComplete tag) s =
      if s.xi.engine.dma then .next (s.landed tag).issueNoticeCount else .next { s.landed tag with xi.noticeStage := .firstDone } := by
  obtain ⟨_, kind, _, _, _⟩ := x
  cases hk
  simp only [exec, execNoticeEntryWriteComplete, hx]

theorem exec_noticeWritten {tag i : Nat} {x : Transfer} (hx : s.transfer tag = some x) (hk : x.kind = .noticeCount i) :
    exec (.noticeWritten tag) s = .next (s.landed tag).noticeWrittenEvent := by
  obtain ⟨_, kind, _, _, _⟩ := x
  cases hk
  simp only [exec, execNoticeWritten, hx]

theorem exec_consumedReadArrival {tag : Nat} {bytes : List Byte} {x : Transfer} (hx : s.transfer tag = some x) (hk : x.kind = .consumedRead) :
    exec (.consumedReadArrival tag bytes) s = .next ((s.landed tag).takeConsumed (wordField bytes 0)) := by
  obtain ⟨_, kind, _, _, _⟩ := x
  cases hk
  simp only [exec, execConsumedReadArrival, hx]

theorem exec_fetchArrival {tag c : Nat} {bytes : List Byte} {x : Transfer} (hx : s.transfer tag = some x) (hk : x.kind = .fetch c) :
    exec (.fetchArrival tag bytes) s =
      .next ((s.landed tag).setCell c { s.cell c with st := .ready, copy := bytes.take Config.cellCopyBytes }) := by
  obtain ⟨_, kind, _, _, _⟩ := x
  cases hk
  simp only [exec, execFetchArrival, hx]

/-- The transfer found under a tag carries it. -/
theorem tag_of_transfer {tag : Nat} {x : Transfer} (hx : s.transfer tag = some x) : x.tag = tag :=
  of_decide_eq_true (List.find?_some hx :)

/-! ### The write list -/

/-- R164: the status-byte write of the head entry. -/
theorem issueStatusWrite_final {c : Nat} {a : Answer} {rest : List WriteEntry} (h : s.xi.writeList = .final c a :: rest) :
    s.issueStatusWrite =
      { s.issue (.statusByte c) (exchangeAddr s.xi.base (cellOffset c)) 0 [2] with xi.writeStage := .second } := by
  unfold State.issueStatusWrite
  rw [h]

theorem issueStatusWrite_parked {c p : Nat} {rest : List WriteEntry} (h : s.xi.writeList = .parked c p :: rest) :
    s.issueStatusWrite =
      { s.issue (.statusByte c) (exchangeAddr s.xi.base (cellOffset c)) 0 [1] with xi.writeStage := .second } := by
  unfold State.issueStatusWrite
  rw [h]

theorem firstWriteDone_of_dma (h : s.xi.engine.dma = true) : s.firstWriteDone = s.issueStatusWrite := if_pos h

theorem firstWriteDone_of_no_dma (h : s.xi.engine.dma = false) : s.firstWriteDone = { s with xi.writeStage := .firstDone } :=
  if_neg (by rw [h]; nofun)

theorem retireWrite_of_parked {c p : Nat} {rest : List WriteEntry} (h : s.xi.writeList = .parked c p :: rest) :
    s.retireWrite = { s with xi.writeList := rest, xi.writeStage := .notBegun } := by
  unfold State.retireWrite
  rw [h]

/-- R164: nothing is issued while a write is begun, without DMA, or with no entry. -/
theorem exec_writeListIssue_idle (h : s.xi.writeStage ≠ .notBegun ∨ s.xi.writeList = [] ∨ s.xi.engine ≠ .run ∧ s.xi.engine ≠ .hold) :
    exec .writeListIssue s = .next s := by
  simp only [exec, execWriteListIssue]
  split_ifs with hc
  · simp only [Bool.and_eq_true, decide_eq_true_eq] at hc
    rcases h with h | h | h
    · exact absurd hc.2 h
    · unfold State.issueFirstWrite
      rw [h]
    · rw [(dma_false_iff _).2 h] at hc
      exact nomatch hc.1
  · rfl

theorem exec_writeListIssue (hdma : s.xi.engine = .run ∨ s.xi.engine = .hold) (hstage : s.xi.writeStage = .notBegun) :
    exec .writeListIssue s = .next s.issueFirstWrite := by
  simp only [exec, execWriteListIssue]
  rw [if_pos]
  rw [(dma_iff _).2 hdma, hstage]
  rfl

theorem bytesLE_laidOut_two (p : Nat) : LaidOut (bytesLE 2 p) 0x2A 2 [(0x2A, 2, p)] := by
  refine ⟨rfl, fun f hf => ?_, fun off hoff hf => ?_⟩
  · rw [List.mem_singleton.1 hf]
    exact fun k hk => by rw [Nat.sub_self, Nat.zero_add]; exact bytesLE_getElem? 2 p k hk
  · have : 0x2A + off < 0x2A ∨ 0x2A + 2 ≤ 0x2A + off := hf _ (List.mem_singleton_self _)
    omega

/-- Settles O12: each stage of the write list by the head entry. -/
theorem writeListWritesCells : Obligations.WriteListWritesCells := by
  refine ⟨fun s rest c p a hdma hstage => ⟨fun hl => ?_, fun hl => ?_⟩,
    fun s rest tag c p a x hx cmd status hcmd => ⟨fun hdma => ?_, fun hr hh => ?_⟩,
    fun s rest tag c p a x hx hk => ⟨fun hl => ?_, fun hl => ?_⟩, Answer.bytes_laidOut, bytesLE_laidOut_two,
    fun s => exec_writeListIssue_idle, ?_, ?_, ?_⟩
  · rw [exec_writeListIssue hdma hstage, State.issueFirstWrite, hl]
    rfl
  · rw [exec_writeListIssue hdma hstage, State.issueFirstWrite, hl]
    rfl
  · have hd : (s.landed tag).xi.engine.dma = true := (dma_iff _).2 hdma
    rcases hcmd with ⟨hl, hk, rfl, rfl⟩ | ⟨hl, hk, rfl, rfl⟩
    · rw [exec_answerWriteComplete hx hk, firstWriteDone_of_dma hd, issueStatusWrite_final (s := s.landed tag) hl]
      rfl
    · rw [exec_poolFieldWriteComplete hx hk, firstWriteDone_of_dma hd, issueStatusWrite_parked (s := s.landed tag) hl]
      rfl
  · have hd : (s.landed tag).xi.engine.dma = false := (dma_false_iff _).2 ⟨hr, hh⟩
    rcases hcmd with ⟨hl, hk, rfl, rfl⟩ | ⟨hl, hk, rfl, rfl⟩
    · rw [exec_answerWriteComplete hx hk, firstWriteDone_of_no_dma hd]
      rfl
    · rw [exec_poolFieldWriteComplete hx hk, firstWriteDone_of_no_dma hd]
      rfl
  · have hl' : (s.landed tag).xi.writeList = .final c a :: rest := hl
    refine ⟨_, exec_statusByteWriteComplete hx hk, ?_, fun c' hc => ?_, ?_⟩
    · rw [cell_retireWrite hl', if_pos rfl]
      rfl
    · rw [cell_retireWrite hl', if_neg hc]
      rfl
    · rw [retireWrite_of_final hl']
      rfl
  · rw [exec_statusByteWriteComplete hx hk, retireWrite_of_parked (s := s.landed tag) hl]
    rfl
  · intro r k h
    cases r <;> simp_all [Result.code]
  · intro p k h
    cases p <;> simp_all [PoolState.code]
  · intro v k h
    cases v <;> simp_all [Validity.code]

/-! ### Notices -/

theorem issueNoticeEntry_of_front {n : Notice} {rest : List Notice} (h : s.xi.notices = n :: rest) : s.issueNoticeEntry =
    { s.issue (.noticeEntry n.faultIndex) (exchangeAddr s.xi.base (noticeOffset s.xi.written)) 0 (n.bytes s.mu.pages) with
      xi.noticeStage := .first } := by
  unfold State.issueNoticeEntry
  rw [h]

theorem issueNoticeCount_of_front {n : Notice} {rest : List Notice} (h : s.xi.notices = n :: rest) : s.issueNoticeCount =
    { s.issue (.noticeCount n.faultIndex) (exchangeAddr s.xi.base writtenOffset) 0 (bytesLE 4 (s.xi.written + 1).toNat) with
      xi.noticeStage := .second } := by
  unfold State.issueNoticeCount
  rw [h]

theorem room_pos_iff (s : State) : 0 < s.room ↔ (s.xi.written - s.xi.cached).toNat < 1024 := by
  rw [Nat.pos_iff_ne_zero, Ne, room_eq_zero_iff, Nat.not_le]

/-- R166: no entry write is begun without DMA, without room, behind a write begun, or without a notice. -/
theorem exec_noticeWrite_idle (h : s.xi.engine.dma = false ∨ s.room = 0 ∨ s.xi.noticeStage ≠ .notBegun ∨ s.xi.notices = []) :
    exec .noticeWrite s = .next s := by
  simp only [exec, execNoticeWrite]
  split_ifs with hc
  · simp only [Bool.and_eq_true, decide_eq_true_eq] at hc
    obtain ⟨⟨hdma, hroom⟩, hstage⟩ := hc
    rcases h with h | h | h | h
    · exact absurd (h.symm.trans hdma) nofun
    · omega
    · exact absurd hstage h
    · unfold State.issueNoticeEntry
      rw [h]
  · rfl

theorem exec_noticeWrite (hdma : s.xi.engine.dma = true) (hroom : 0 < s.room) (hstage : s.xi.noticeStage = .notBegun) :
    exec .noticeWrite s = .next s.issueNoticeEntry := by
  simp only [exec, execNoticeWrite]
  rw [if_pos]
  rw [hdma, hstage, decide_eq_true hroom]
  rfl

theorem toNat_append_byte {n : Nat} (a : BitVec n) (b : Byte) : (a ++ b).toNat = a.toNat * 256 + b.toNat := by
  rw [BitVec.toNat_append, ← Nat.shiftLeft_add_eq_or_of_lt (BitVec.isLt _), Nat.shiftLeft_eq]

/-- R172: a word read from its four bytes. -/
theorem wordField_four (b0 b1 b2 b3 : Byte) : wordField [b0, b1, b2, b3] 0 = b3 ++ b2 ++ b1 ++ b0 := by
  refine BitVec.eq_of_toNat_eq ?_
  have h0 := b0.isLt
  have h1 := b1.isLt
  have h2 := b2.isLt
  have h3 := b3.isLt
  have hle : readLE [b0, b1, b2, b3] 0 4 = b0.toNat + 256 * (b1.toNat + 256 * (b2.toNat + 256 * b3.toNat)) := by
    simp only [readLE, byteAt, List.getD_cons_zero, List.getD_cons_succ]
    omega
  rw [wordField, BitVec.toNat_ofNat, hle, toNat_append_byte, toNat_append_byte, toNat_append_byte]
  omega

theorem bytesLE_laidOut_four (n : Nat) : LaidOut (bytesLE 4 n) 0 4 [(0, 4, n)] := by
  refine ⟨rfl, fun f hf => ?_, fun off hoff hf => ?_⟩
  · rw [List.mem_singleton.1 hf]
    exact fun k hk => by rw [Nat.sub_self, Nat.zero_add]; exact bytesLE_getElem? 4 n k hk
  · have : 0 + off < 0 ∨ 0 + 4 ≤ 0 + off := hf _ (List.mem_singleton_self _)
    omega

/-- Settles O13: the front notice's two writes, and the judgement of a consumed count read. -/
theorem noticeListWritesAndRoom : Obligations.NoticeListWritesAndRoom := by
  refine ⟨fun s n rest tag x hn hdma => ⟨fun hstage hroom => ?_, fun _ hroom => ?_, fun i hx hk => ?_⟩, fun s hr hh => ?_,
    fun s tag bytes b0 b1 b2 b3 value x hx hk hbytes hvalue => ?_, fun s h => ?_, fun _ _ _ _ _ _ => ⟨rfl, rfl, rfl⟩,
    Notice.bytes_laidOut, fun w => bytesLE_laidOut_four w.toNat⟩
  · rw [exec_noticeWrite ((dma_iff _).2 hdma) ((room_pos_iff s).2 hroom) hstage, issueNoticeEntry_of_front hn]
    rfl
  · exact exec_noticeWrite_idle (.inr (.inl ((room_eq_zero_iff s).2 hroom)))
  · rw [exec_noticeEntryWriteComplete hx hk, if_pos ((dma_iff _).2 hdma), issueNoticeCount_of_front (s := s.landed tag) hn]
    simp only [exchangeAddr, writtenOffset, State.issue, State.landed]
    rw [show s.xi.base + BitVec.ofNat 64 0 = s.xi.base from BitVec.add_zero _]
  · have hd := (dma_false_iff s.xi.engine).2 ⟨hr, hh⟩
    refine ⟨exec_noticeWrite_idle (.inl hd), fun tag i x hx hk => ?_⟩
    rw [exec_noticeEntryWriteComplete hx hk, if_neg (by rw [hd]; nofun)]
    rfl
  · have hword : wordField bytes 0 = value := by rw [hbytes, hvalue, wordField_four]
    have hexec := exec_consumedReadArrival (bytes := bytes) hx hk
    rw [hword] at hexec
    refine ⟨fun hle => ?_, fun hlt => ?_⟩
    · have hfresh : (s.landed tag).staleConsumed value = false := decide_eq_false (Nat.not_lt.2 hle)
      rw [hexec, State.takeConsumed, hfresh]
      rfl
    · have hstale : (s.landed tag).staleConsumed value = true := decide_eq_true hlt
      rw [hexec, State.takeConsumed, hstale]
      rfl
  · exact exec_noticeWrite_idle (.inr (.inr h))

/-- R76: every pool with a table-stall mark joins the due set. -/
theorem reportRecordFree_due (s : State) : OnlyDue s s.reportRecordFree ∧ DueJoined s s.reportRecordFree fun q => q ∈ s.wu.stall := by
  refine ⟨rfl, fun p => ?_⟩
  simp only [State.reportRecordFree, State.makeDue_due, mem_addNumbers]
  exact or_comm

/-- Settles O14: the event by the kind of the front notice. -/
theorem noticeWrittenEvent : Obligations.NoticeWrittenEvent := by
  intro s n rest tag i x hn hx hk
  have hevent := noticeWrittenEvent_of_front (s := s.landed tag) hn
  refine ⟨_, exec_noticeWritten hx hk, ?_⟩
  rw [hevent]
  have hframe := noticeDelivered_eq ((s.landed tag).noticeTaken rest) n
  refine ⟨?_, ?_, ?_, ?_, ?_, ?_, fun c r p hc => ?_, fun j g p hj => ?_, fun hm => ?_⟩
  · rw [hframe]
    rfl
  · rw [hframe]
    rfl
  · rw [hframe]
    rfl
  · rw [hframe]
    rfl
  · rw [hframe]
    rfl
  · conv_lhs => rw [hframe]
    rw [hframe]
    rfl
  · subst hc
    refine ⟨(cell_releaseCell _ _ _).trans (if_pos rfl), fun c' hc => (cell_releaseCell _ _ _).trans (if_neg hc), rfl, rfl⟩
  · subst hj
    refine ⟨?_, fun j' hj' => ?_, ?_⟩
    · simp only [State.noticeDelivered, State.lapseWritten]
      split_ifs <;> rfl
    · simp only [State.noticeDelivered, State.lapseWritten]
      split_ifs
      · exact (State.lease_setLease ((s.landed tag).noticeTaken rest) j j' _).trans (if_neg hj')
      · rfl
    · simp only [State.noticeDelivered]
      unfold State.lapseWritten
      rw [show ((s.landed tag).noticeTaken rest).lease j = s.lease j from rfl]
      by_cases hl : (s.lease j).st = .lapsed ∧ (s.lease j).generation = g
      · rw [if_pos hl, if_pos hl]
        refine ⟨(State.lease_setLease ((s.landed tag).noticeTaken rest) j j _).trans (if_pos rfl), ?_⟩
        exact reportRecordFree_due (((s.landed tag).noticeTaken rest).setLease j _)
      · rw [if_neg hl, if_neg hl]
        exact ⟨rfl, rfl⟩
  · subst hm
    exact ⟨rfl, rfl, rfl⟩

/-! ### Errors and requests -/

/-- Settles O15: the fields of the failed transfer's state, read off one by one. -/
theorem dmaErrorFaults : Obligations.DmaErrorFaults := by
  refine ⟨fun i kind fault index h => ?_, fun s tag x hx => ?_⟩
  · simp only [List.mem_cons, List.not_mem_nil, or_false, Prod.mk.injEq] at h
    rcases h with h | h | h | h | h | h | h | h | h | h | h <;> obtain ⟨rfl, rfl, rfl⟩ := h <;> exact ⟨rfl, rfl⟩
  · have hexec : exec (.dmaError tag) s = .next (s.failTransfer x) := by simp only [exec, execDmaError, hx]
    refine ⟨_, hexec, ?_⟩
    rw [failTransfer_eq, tag_of_transfer hx]
    refine ⟨rfl, rfl, fun y => mem_insertByKey _ _ _ _, insertByKey_pairwise _ _ _, fun hne => ?_, fun he => ?_, ?_, rfl, fun im him => ?_,
      fun hno => ?_⟩
    · simp [hne]
    · simp [he]
    · simp only
      split_ifs <;> simp [State.loadGrace, *]
    · simp only [him]
    · cases hi : s.install with
      | reading im => exact absurd hi (hno im)
      | _ => rfl

theorem takeEnable_engine (s : State) (enable : Bool) : (s.takeEnable enable).xi.engine = s.xi.engine := by rw [takeEnable_eq]

theorem takeEnable_base (s : State) (enable : Bool) : (s.takeEnable enable).xi.base = s.xi.base := by rw [takeEnable_eq]

theorem takeEnable_intEnable (s : State) (enable : Bool) : (s.takeEnable enable).xi.intEnable = enable := by rw [takeEnable_eq]

/-- R159: a request for RUN or HOLD, its enable taken first. -/
theorem exec_requestDma (s : State) (v : Word) (hold : Bool) :
    exec (if hold then Instr.requestHold v else Instr.requestRun v) s =
      .next ((s.takeEnable (controlEnable v)).requestDmaState (if hold then .hold else .run)).rereadConsumed := by
  cases hold <;> rfl

/-- Settles O6: Table 9-2 by the engine state that stands. -/
theorem engineStateRequests : Obligations.EngineStateRequests := by
  constructor
  · rintro s v hold c rfl target rfl u rfl
    rw [exec_requestDma]
    have he := takeEnable_engine s (controlEnable v)
    have hb := takeEnable_base s (controlEnable v)
    have hi := takeEnable_intEnable s (controlEnable v)
    generalize (if hold then EngineState.hold else EngineState.run) = target
    generalize s.takeEnable (controlEnable v) = u at he hb hi ⊢
    rw [← he, ← hb]
    refine ⟨fun hoff hbase => ?_, fun hoff hbase => ?_, fun hon => ?_, fun hstop => ⟨hi, _, rfl, requestDmaState_resumed u target hstop⟩⟩
    · refine next_congr (congrArg _ ?_)
      unfold State.requestDmaState State.leaveOffline
      rw [hoff]
      exact if_neg hbase
    · refine next_congr ?_
      have hreq : u.requestDmaState target = { u with xi := { u.xi with baseInvalid := true } } := by
        unfold State.requestDmaState State.leaveOffline
        rw [hoff]
        exact if_pos hbase
      rw [hreq]
      exact rereadConsumed_of_no_dma (show u.xi.engine.dma = false by rw [hoff]; rfl)
    · refine next_congr (congrArg _ ?_)
      unfold State.requestDmaState
      rcases hon with h | h <;> rw [h]
  · rintro s v u rfl
    have he := takeEnable_engine s (controlEnable v)
    have hb := takeEnable_base s (controlEnable v)
    have hexec : exec (.requestStill v) s = .next (s.takeEnable (controlEnable v)).requestStillState.rereadConsumed := rfl
    rw [hexec]
    generalize s.takeEnable (controlEnable v) = u at he hb ⊢
    rw [← he, ← hb]
    rcases requestStillState_cases u with ⟨hoff, hbase, hreq⟩ | ⟨hoff, hbase, hreq⟩ | ⟨hon, hreq⟩ <;> rw [hreq]
    · have hnone := rereadConsumed_of_no_dma (s := { u with xi.baseInvalid := true }) (show u.xi.engine.dma = false by rw [hoff]; rfl)
      exact ⟨fun _ h => absurd hbase h, fun _ _ => next_congr hnone, fun h => absurd hoff h⟩
    · have hnone := rereadConsumed_of_no_dma (s := { u with xi.engine := .still, xi.baseInvalid := false }) rfl
      exact ⟨fun _ _ => next_congr hnone, fun _ h => absurd h hbase, fun h => absurd hoff h⟩
    · have hnone := rereadConsumed_of_no_dma (s := { u with xi.engine := .still }) rfl
      exact ⟨fun h => absurd h hon, fun h => absurd h hon, fun _ => next_congr hnone⟩

end Sys2Proof.Machine
end

