-- ==== Sys2Proof/Proofs/Cells.lean ====
section
/-! SUPPORT. Cells picked, fetched and taken (O10), and the malformation check (O11). -/

namespace Sys2Proof.Machine

variable {s t : State}

/-! ### The pick -/

/-- The least of the numbers of a rising list that pass a test is the first found. -/
theorem find?_eq_least {l : List Nat} {p : Nat → Bool} {c : Nat} (h : l.Pairwise (· < ·)) (hc : c ∈ l) (hp : p c = true)
    (hmin : ∀ x ∈ l, p x = true → c ≤ x) : l.find? p = some c := by
  induction l with
  | nil => cases hc
  | cons a l ih =>
    obtain ⟨ha, hl⟩ := List.pairwise_cons.1 h
    rcases List.mem_cons.1 hc with rfl | hc
    · exact List.find?_cons_of_pos hp
    · have hpa : p a ≠ true := fun hpa => absurd (hmin a List.mem_cons_self hpa) (Nat.not_le.2 (ha c hc))
      rw [List.find?_cons_of_neg hpa]
      exact ih hl hc fun x hx => hmin x (List.mem_cons_of_mem a hx)

theorem State.Canonical.mem_postSet (hs : s.Canonical) (c : Nat) : c ∈ s.postSet ↔ (s.cell c).st = .pending := by
  rw [State.postSet, List.mem_map]
  constructor
  · rintro ⟨⟨c, v⟩, he, rfl⟩
    obtain ⟨he, hp⟩ := List.mem_filter.1 he
    rw [(hs.mem_cells.1 he).1]
    exact of_decide_eq_true hp
  · intro hp
    have hne : s.cell c ≠ Cell.atReset := fun he => by
      rw [he] at hp
      cases hp
    exact ⟨(c, s.cell c), List.mem_filter.2 ⟨hs.mem_cells.2 ⟨rfl, hne⟩, decide_eq_true hp⟩, rfl⟩

theorem State.Canonical.postSet_rising (hs : s.Canonical) : s.postSet.Pairwise (· < ·) :=
  ((Table.canonical_iff _ _).1 hs.cells).1.sublist (List.filter_sublist.map _)

/-- R162: the PENDING cell next in rotating order is the one picked. -/
theorem State.Canonical.nextPick (hs : s.Canonical) {c : Nat} (hc : (s.cell c).st = .pending)
    (hnext : ∀ c', (s.cell c').st = .pending →
      if s.xi.servicePointer < c then s.xi.servicePointer < c' → c ≤ c' else c' ≤ s.xi.servicePointer ∧ c ≤ c') :
    s.nextPick = some c := by
  have hmem := (hs.mem_postSet c).2 hc
  unfold State.nextPick
  by_cases habove : s.xi.servicePointer < c
  · rw [find?_eq_least hs.postSet_rising hmem (decide_eq_true habove) fun x hx hpx => ?_]
    have := hnext x ((hs.mem_postSet x).1 hx)
    rw [if_pos habove] at this
    exact this (of_decide_eq_true hpx)
  · have hall (x : Nat) (hx : x ∈ s.postSet) : x ≤ s.xi.servicePointer ∧ c ≤ x := by
      have := hnext x ((hs.mem_postSet x).1 hx)
      rwa [if_neg habove] at this
    have hnone : s.postSet.find? (fun c => decide (s.xi.servicePointer < c)) = none :=
      List.find?_eq_none.2 fun x hx hlt => absurd (hall x hx).1 (Nat.not_le.2 (of_decide_eq_true hlt))
    have hfirst := find?_eq_least (p := fun _ => true) hs.postSet_rising hmem rfl fun x hx _ => (hall x hx).2
    rw [hnone]
    cases hl : s.postSet with
    | nil =>
      rw [hl] at hmem
      cases hmem
    | cons a l =>
      rw [hl] at hfirst
      exact hfirst

theorem exec_cellPick {c : Nat} (hc : s.nextPick = some c) (hroom : s.xi.readAhead.length < 8) (hdma : s.xi.engine.dma = true) :
    exec .cellPick s = .next (s.pickCell c) := by
  simp only [exec, execCellPick, hc]
  rw [if_pos]
  rw [hdma]
  exact decide_eq_true hroom

/-- R162: without a PENDING cell, a free slot or DMA there is no pick. -/
theorem exec_cellPick_idle (h : s.nextPick = none ∨ 8 ≤ s.xi.readAhead.length ∨ s.xi.engine.dma = false) : exec .cellPick s = .next s := by
  simp only [exec, execCellPick]
  cases hc : s.nextPick with
  | none => rfl
  | some c =>
    simp only
    rw [if_neg]
    rw [Bool.and_eq_true, decide_eq_true_iff]
    rintro ⟨hdma, hroom⟩
    rcases h with h | h | h
    · rw [hc] at h
      cases h
    · exact absurd h (Nat.not_le.2 hroom)
    · rw [h] at hdma
      cases hdma

/-! ### The slots -/

theorem Quiet.slots (h : Quiet s t) (hs : s.xi.readAhead.length ≤ 8) : t.xi.readAhead.length ≤ 8 := by
  have hless {c : Nat} {copy : List Byte} {rest : List Nat} (h : s.Serves c copy rest) : rest.length ≤ 8 := by
    obtain ⟨-, -, hr, -⟩ := h
    rw [hr] at hs
    exact Nat.le_of_succ_le hs
  cases h with
  | reread =>
    rw [rereadConsumed_eq]
    exact hs
  | retireWrite =>
    unfold State.retireWrite
    split <;> exact hs
  | noticeEntry dma room stage =>
    rw [issueNoticeEntry_eq]
    exact hs
  | noticeCount found kind dma =>
    rw [issueNoticeCount_eq]
    exact hs
  | consumed found kind value =>
    rw [takeConsumed_eq]
    exact hs
  | @pick c pending dma room =>
    have : (s.pickCell c).xi.readAhead = s.xi.readAhead ++ [c] := rfl
    rw [this, List.length_append]
    exact room
  | post c =>
    rcases postCell_eq s c with he | ⟨he, -⟩ | ⟨he, -⟩ <;> rw [he] <;> exact hs
  | decide serves d cell pools => exact hless serves
  | answer serves a => exact hless serves
  | dequeue qs as leaves =>
    rw [handAnswers_frame]
    exact hs
  | startInstall serves free im cell => exact hless serves
  | _ => exact hs

theorem Event.slots (h : Event s t) : t.xi.readAhead = s.xi.readAhead := by
  cases h with
  | baseLo value => rw [writeBaseLo_eq]
  | baseHi value => rw [writeBaseHi_eq]
  | notice found kind =>
    rw [noticeWrittenEvent_eq]
    rfl
  | returns skip chosen held => rw [returnRecords_released, released_eq]
  | age => rw [ageLeases_eq, released_eq]
  | clear => rw [clearLeases_released, released_eq]
  | _ => rfl

/-- R162: at most eight slots are occupied, since a pick needs a free one. -/
theorem step_keeps_slots (h : step s = .next t) (hs : s.xi.readAhead.length ≤ 8) : t.xi.readAhead.length ≤ 8 :=
  step_keeps (P := fun s => s.xi.readAhead.length ≤ 8) (fun h => h) (fun _ _ h => h.slots) (fun _ _ h hs => by rw [h.slots]; exact hs)
    (fun _ _ h hs => by rw [h.housing.1]; exact hs) (fun _ => Nat.zero_le 8) h hs

/-! ### The take -/

/-- R162, R46: when no cell is taken. -/
theorem takeCell_eq_none (h : s.decision ≠ none ∨ s.xi.engine = .offline ∨ s.xi.engine = .still ∨ s.xi.engine = .faulted ∨
    s.xi.readAhead = [] ∨ ∃ first later, s.xi.readAhead = first :: later ∧ (s.cell first).st ≠ .ready) : s.takeCell = none := by
  rw [Option.eq_none_iff_forall_ne_some]
  rintro ⟨c, copy, u⟩ htake
  obtain ⟨rest, ⟨he, hd, hr, hst, -⟩, -⟩ := takeCell_eq_some htake
  rcases h with h | h | h | h | h | ⟨first, later, h, h'⟩
  · exact h hd
  · rw [h] at he
    cases he
  · rw [h] at he
    cases he
  · rw [h] at he
    cases he
  · rw [hr] at h
    cases h
  · rw [hr] at h
    cases h
    exact h' hst

theorem withRequest_of_none (h : s.takeCell = none) (kind : Nat) (f : Nat → List Byte → State → State) : s.withRequest kind f = s := by
  unfold State.withRequest
  rw [h]

/-- R46: only a DRAW in hand goes on with a DRAW. -/
theorem drawStep_of_not_draw (h : ∀ d, s.decision ≠ some (.draw d)) : s.drawStep = s := by
  unfold State.drawStep
  split
  · exact absurd ‹_› (h _)
  · rfl

theorem drawSteps_of_not_draw (n : Nat) (h : ∀ d, s.decision ≠ some (.draw d)) : State.drawSteps n s = s := by
  induction n with
  | zero => rfl
  | succ n ih =>
    rw [State.drawSteps, drawStep_of_not_draw h]
    exact ih

theorem finishWithdraw_of_not_withdraw (h : ∀ c target, s.decision ≠ some (.withdraw c target)) : s.finishWithdraw = s := by
  unfold State.finishWithdraw
  split
  · exact absurd ‹_› (h _ _)
  · rfl

theorem finishInspect_of_not_inspect (h : ∀ c p, s.decision ≠ some (.inspect c p)) : s.finishInspect = s := by
  unfold State.finishInspect
  split
  · exact absurd ‹_› (h _ _)
  · rfl

theorem finishClearFloor_of_not_clear (h : ∀ c, s.decision ≠ some (.clearFloor c)) : s.finishClearFloor = s := by
  unfold State.finishClearFloor
  split
  · exact absurd ‹_› (h _)
  · rfl

/-- A request row that takes no cell goes on with the decision in hand alone. -/
theorem exec_request_of_none (h : s.takeCell = none) (cmd : Instr) (hc : isRequest cmd = true) : exec cmd s = .next (match cmd with
    | .draw n => State.drawSteps n s
    | .withdraw => s.finishWithdraw
    | .inspectPool => s.finishInspect
    | .clearFloor => s.finishClearFloor
    | _ => s) := by
  have hw := withRequest_of_none h
  cases cmd with
  | draw n => simp only [exec, execDraw, hw]
  | renew => simp only [exec, execRenew, hw]
  | returnLease => simp only [exec, execReturnLease, hw]
  | returnMatching => simp only [exec, execReturnMatching, hw]
  | withdraw => simp only [exec, execWithdraw, hw]
  | inspectPool => simp only [exec, execInspectPool, hw]
  | install => simp only [exec, execInstall, hw]
  | setClock => simp only [exec, execSetClock, hw]
  | tune => simp only [exec, execTune, hw]
  | clearFloor => simp only [exec, execClearFloor, hw]
  | unknownRequestKind => simp only [exec, execUnknownRequestKind, h]
  | _ => cases hc

/-! ### What goes on with a decision in hand takes no slot -/

theorem refuseDraw_readAhead (s : State) (d : DrawDecision) (r : Result) (p : Option Nat) : (s.refuseDraw d r p).xi.readAhead = s.xi.readAhead := by
  cases p <;> rfl

theorem drawStep_readAhead (s : State) : s.drawStep.xi.readAhead = s.xi.readAhead := by
  unfold State.drawStep
  split
  case h_2 => rfl
  split
  case h_1 =>
    unfold State.drawClock
    split_ifs
    · rfl
    · exact refuseDraw_readAhead _ _ _ _
  case h_2 => rfl
  case h_3 found _ =>
    unfold State.drawQualify
    split
    · rfl
    · split_ifs <;> rfl
  case h_4 => rfl
  case h_5 =>
    unfold State.drawTableFull
    split_ifs
    · exact refuseDraw_readAhead _ _ _ _
    · rfl
  case h_6 =>
    unfold State.drawGather
    split
    · exact refuseDraw_readAhead _ _ _ _
    · rfl
  case h_7 =>
    unfold State.drawDivide
    split
    · exact refuseDraw_readAhead _ _ _ _
    · rfl
  case h_8 =>
    unfold State.drawEnd
    split
    · exact refuseDraw_readAhead _ _ _ _
    · split
      · split_ifs
        · exact refuseDraw_readAhead _ _ _ _
        · rfl
      · exact refuseDraw_readAhead _ _ _ _
  case h_9 =>
    split_ifs
    · unfold State.drawTrial
      simp only
      split <;> rfl
    · rfl
  case h_10 => rfl

theorem drawSteps_readAhead (n : Nat) (s : State) : (State.drawSteps n s).xi.readAhead = s.xi.readAhead := by
  induction n generalizing s with
  | zero => rfl
  | succ n ih => exact (ih _).trans (drawStep_readAhead s)

theorem finishWithdraw_readAhead (s : State) : s.finishWithdraw.xi.readAhead = s.xi.readAhead := by
  unfold State.finishWithdraw
  split
  · split_ifs
    · unfold State.withdrawEvent
      split
      · unfold State.withdrawFrom
        simp only
        split_ifs <;> rfl
      · rfl
    · rfl
  · rfl

theorem finishInspect_readAhead (s : State) : s.finishInspect.xi.readAhead = s.xi.readAhead := by
  unfold State.finishInspect
  split
  · split_ifs <;> rfl
  · rfl

theorem finishClearFloor_readAhead (s : State) : s.finishClearFloor.xi.readAhead = s.xi.readAhead := by
  unfold State.finishClearFloor
  split
  · split_ifs
    · unfold State.clearFloorEvent State.handAnswer
      rw [clearLeases_released, released_eq, clearWaiters_eq, handAnswers_frame]
    · rfl
  · rfl

/-- Settles O10: the pick by the rotating order, the arrival by the transfer found, and the take by its conditions. -/
theorem cellsPickedAndFetched : Obligations.CellsPickedAndFetched := by
  refine ⟨fun s hs => ?_, fun s tag bytes => ⟨fun x c hx hk hlen => ?_, fun hnone => ?_⟩, fun s t hs h => ?_,
    fun s cmd hc => ⟨fun hd hidle => ?_, fun d hd => ?_⟩⟩
  · rw [canonical_iff] at hs
    refine ⟨fun c hc hnext hroom hdma => ⟨_, exec_cellPick (hs.nextPick hc hnext) hroom ((dma_iff _).2 hdma), ?_, fun c' hc' => ?_, rfl⟩,
      fun h => exec_cellPick_idle ?_⟩
    · exact (State.cell_setCellState s c c .fetching).trans (if_pos rfl)
    · exact (State.cell_setCellState s c c' .fetching).trans (if_neg hc')
    · rcases h with h | h | h
      · refine .inl ?_
        cases hp : s.nextPick with
        | none => rfl
        | some c => exact absurd (nextPick_pending hp ((canonical_iff s).2 hs)) (h c)
      · exact .inr (.inl h)
      · exact .inr (.inr ((dma_false_iff _).2 h))
  · refine ⟨_, exec_fetchArrival hx hk, ?_, fun c' hc' => (State.cell_setCell (s.landed tag) c c' _).trans (if_neg hc'), rfl⟩
    rw [List.take_of_length_le (Nat.le_of_eq hlen)]
    exact (State.cell_setCell (s.landed tag) c c _).trans (if_pos rfl)
  · have hx : s.transfer tag = none := List.find?_eq_none.2 fun x hx => by simpa using hnone x hx
    simp only [exec, execFetchArrival, hx]
  · exact decide_eq_true (step_keeps_slots h (of_decide_eq_true hs))
  · rw [exec_request_of_none (takeCell_eq_none (.inr hidle)) cmd hc]
    have hno {e : Decision} : s.decision ≠ some e := by rw [hd]; nofun
    cases cmd with
    | draw n => exact next_congr (drawSteps_of_not_draw n fun _ => hno)
    | withdraw => exact next_congr (finishWithdraw_of_not_withdraw fun _ _ => hno)
    | inspectPool => exact next_congr (finishInspect_of_not_inspect fun _ _ => hno)
    | clearFloor => exact next_congr (finishClearFloor_of_not_clear fun _ => hno)
    | _ => rfl
  · refine ⟨_, exec_request_of_none (takeCell_eq_none (.inl (by rw [hd]; nofun))) cmd hc, ?_⟩
    cases cmd with
    | draw n =>
      refine ⟨drawSteps_readAhead n s, fun hno => drawSteps_of_not_draw n fun e he => ?_⟩
      cases hd.symm.trans he
      cases hno
    | withdraw =>
      refine ⟨finishWithdraw_readAhead s, fun hno => finishWithdraw_of_not_withdraw fun c target he => ?_⟩
      cases hd.symm.trans he
      cases hno
    | inspectPool =>
      refine ⟨finishInspect_readAhead s, fun hno => finishInspect_of_not_inspect fun c p he => ?_⟩
      cases hd.symm.trans he
      cases hno
    | clearFloor =>
      refine ⟨finishClearFloor_readAhead s, fun hno => finishClearFloor_of_not_clear fun c he => ?_⟩
      cases hd.symm.trans he
      cases hno
    | _ => exact ⟨rfl, fun _ => rfl⟩

/-! ### The malformation check -/

/-- R173: of a flags byte every bit but bit 0 is judged. -/
theorem flagsByte_offends (b : Byte) : 1 < b.toNat ↔ b &&& 0xFE ≠ 0 := by
  have h : ∀ n : Fin 256, 1 < n.val ↔ (BitVec.ofFin n : Byte) &&& 0xFE ≠ 0 := by decide +kernel
  exact h b.toFin

/-- R173: the judgement of a byte, for a kind whose fields and flags byte are listed. -/
theorem reservedOffends_iff {kind : Nat} {fields flags : List Nat} (copy : List Byte) {off : Nat}
    (hfields : (fieldSpans kind).any (fun f => decide (f.1 ≤ off ∧ off < f.1 + f.2)) = decide (off ∈ fields))
    (hflags : flagsOffset kind = some off ↔ off ∈ flags) :
    reservedOffends kind copy off = true ↔
      off ∉ fields ∧ if off ∈ flags then copy.getD off 0 &&& 0xFE ≠ 0 else copy.getD off 0 ≠ 0 := by
  unfold reservedOffends
  rw [hfields]
  by_cases hf : off ∈ fields
  · simp [hf]
  · by_cases hg : off ∈ flags
    · rw [if_neg (by simp [hf]), if_pos (hflags.2 hg), if_pos hg, decide_eq_true_iff, flagsByte_offends]
      exact ⟨fun h => ⟨hf, h⟩, fun h => h.2⟩
    · rw [if_neg (by simp [hf]), if_neg (fun h => hg (hflags.1 h)), if_neg hg, decide_eq_true_iff]
      exact ⟨fun h => ⟨hf, h⟩, fun h => h.2⟩

theorem firstReserved_none_iff (kind : Nat) (copy : List Byte) :
    firstReserved kind copy = none ↔ ∀ off, 2 ≤ off → off < 40 → reservedOffends kind copy off = false := by
  rw [firstReserved, List.find?_eq_none]
  simp only [List.mem_range'_1, Bool.not_eq_true]
  exact ⟨fun h off h1 h2 => h off ⟨h1, h2⟩, fun h off ho => h off ho.1 ho.2⟩

theorem firstReserved_eq_some {kind off : Nat} {copy : List Byte} (h1 : 2 ≤ off) (h2 : off < 40) (h : reservedOffends kind copy off = true)
    (hfirst : ∀ o, 2 ≤ o → o < off → reservedOffends kind copy o = false) : firstReserved kind copy = some off := by
  refine find?_eq_least List.pairwise_lt_range' (List.mem_range'_1.2 ⟨h1, h2⟩) h fun x hx hpx => ?_
  by_contra hlt
  rw [hfirst x (List.mem_range'_1.1 hx).1 (Nat.not_le.1 hlt)] at hpx
  cases hpx

/-- R163: a malformed request of a known kind is answered with its offset by its own row. -/
theorem exec_malformed {c off steps : Nat} {copy : List Byte} {rest : List Nat} (h : s.Serves c copy rest) (h1 : 1 ≤ requestKind copy)
    (h10 : requestKind copy ≤ 10) (hoff : firstReserved (requestKind copy) copy = some off) :
    exec (requestCommand (requestKind copy) steps) s = .next ((s.takenFrom c rest).handAnswer c (malformedAnswer off)) := by
  have hno {e : Decision} : ((s.takenFrom c rest).handAnswer c (malformedAnswer off)).decision ≠ some e := by
    rw [show ((s.takenFrom c rest).handAnswer c (malformedAnswer off)).decision = s.decision from rfl, h.2.1]
    nofun
  have hw {kind : Nat} (hk : requestKind copy = kind) (f : Nat → List Byte → State → State) := withRequest_of_malformed h hk (hk ▸ hoff) f
  generalize hk : requestKind copy = k at h1 h10
  interval_cases k <;> simp only [requestCommand, exec, execDraw, execRenew, execReturnLease, execReturnMatching, execWithdraw, execInspectPool,
    execInstall, execSetClock, execTune, execClearFloor]
  · rw [hw (by exact hk), drawSteps_of_not_draw _ fun _ => hno]
  · rw [hw (by exact hk)]
  · rw [hw (by exact hk)]
  · rw [hw (by exact hk)]
  · rw [hw (by exact hk), finishWithdraw_of_not_withdraw fun _ _ => hno]
  · rw [hw (by exact hk), finishInspect_of_not_inspect fun _ _ => hno]
  · rw [hw (by exact hk)]
  · rw [hw (by exact hk)]
  · rw [hw (by exact hk)]
  · rw [hw (by exact hk), finishClearFloor_of_not_clear fun _ => hno]

/-- R163: a cell of an unknown kind is answered with the offset of its kind. -/
theorem exec_unknownKind {c steps : Nat} {copy : List Byte} {rest : List Nat} (h : s.Serves c copy rest)
    (hk : requestKind copy = 0 ∨ 10 < requestKind copy) :
    exec (requestCommand (requestKind copy) steps) s = .next ((s.takenFrom c rest).handAnswer c (malformedAnswer 1)) := by
  have hcmd : requestCommand (requestKind copy) steps = .unknownRequestKind := by
    unfold requestCommand
    split
    case h_11 => rfl
    all_goals omega
  rw [hcmd]
  simp only [exec, execUnknownRequestKind, takeCell_of_serves h]
  exact if_pos hk

/-- Settles O11: the check by the spans of each kind, and the row's answer. -/
theorem malformedAnswers : Obligations.MalformedAnswers := by
  refine ⟨fun kind fields flags h copy off _ hoff => ?_, firstReserved_none_iff, fun copy => rfl,
    fun bytes off n => ⟨rfl, readLE_eq_sum bytes off n⟩, fun s c copy rest steps off hs h => ?_⟩
  · have hfields : (fieldSpans kind).any (fun f => decide (f.1 ≤ off ∧ off < f.1 + f.2)) = decide (off ∈ fields) ∧
        (flagsOffset kind = some off ↔ off ∈ flags) := by
      simp only [List.mem_cons, List.not_mem_nil, or_false, Prod.mk.injEq] at h
      rw [Bool.eq_iff_iff]
      rcases h with h | h | h | h | h | h | h | h | h | h <;> obtain ⟨rfl, rfl, rfl⟩ := h <;>
        refine ⟨?_, ?_⟩ <;> simp only [fieldSpans, flagsOffset, List.any_cons, List.any_nil, Bool.or_eq_true, decide_eq_true_iff, List.mem_cons,
          List.not_mem_nil, or_false, Option.some_inj, reduceCtorEq, Bool.false_eq_true] <;> omega
    exact reservedOffends_iff copy hfields.1 hfields.2
  · have hanswer : TakenAndAnswered s ((s.takenFrom c rest).handAnswer c (malformedAnswer off)) c rest (malformedAnswer off) :=
      taken_answered s c rest _
    rcases h with ⟨hk, rfl⟩ | ⟨⟨h1, h10⟩, h2, h40, hoff, hfirst⟩
    · exact ⟨_, exec_unknownKind hs hk, rfl, hanswer⟩
    · exact ⟨_, exec_malformed hs h1 h10 (firstReserved_eq_some h2 h40 hoff hfirst), rfl, hanswer⟩

end Sys2Proof.Machine
end

