-- ==== Sys2Proof/Proofs/Handles.lean ====
section
/-! SUPPORT. What a release of records leaves, and the requests that name leases (O16, O17, O18). -/

namespace Sys2Proof.Machine

variable {s t : State}

/-! ### What is said of a part of the state -/

theorem FreeTaken.congr {u : State} {ls : List Lease} (h : FreeTaken s u ls) (het : t.et = u.et) (hsu : t.su = u.su) : FreeTaken s t ls := by
  unfold FreeTaken State.pool State.activeMask State.stagedMask at h ⊢
  rwa [het, hsu]

theorem DueJoined.congr {u : State} {joined joined' : Nat → Prop} (h : DueJoined s u joined) (hwu : t.wu = u.wu)
    (hj : ∀ p, joined p ↔ joined' p) : DueJoined s t joined' := fun p => by rw [hwu, h p, hj p]

theorem OnlyDue.congr {u : State} (h : OnlyDue s u) (hwu : t.wu = u.wu) : OnlyDue s t := by
  unfold OnlyDue at h ⊢
  rwa [hwu]

/-- R162, R164: the answer to a taken request is judged at the Exchange Interface. -/
theorem taken_answered_of_xi {c : Nat} {rest : List Nat} {a : Answer} (h : t.xi = ((s.takenFrom c rest).handAnswer c a).xi) :
    TakenAndAnswered s t c rest a := by
  have hu := taken_answered s c rest a
  unfold TakenAndAnswered TakenFrame Answered State.cell at hu ⊢
  rwa [h]

/-! ### A release of records -/

/-- R18, R76: everything a release does at the Entitlement Table, the Schedule Unit and the Wait Unit. -/
theorem released_taken (s : State) (f : Nat → Lease → Lease) (notices : List Notice) (inbox : List MeterCount) (freed : List Lease)
    (report : Bool) : FreeTaken s (s.released f notices inbox freed report) freed ∧ OnlyDue s (s.released f notices inbox freed report) ∧
      DueJoined s (s.released f notices inbox freed report) (fun p => (∃ l ∈ freed, l.pool = p) ∨ report = true ∧ p ∈ s.wu.stall) := by
  obtain ⟨htaken, honly, hdue, -⟩ := freeEvent_taken s freed
  rw [released_eq]
  refine ⟨htaken.congr rfl rfl, ?_, fun p => ?_⟩
  · cases report
    · exact honly.congr rfl
    · exact honly
  · have hfreed : p ∈ freed.map Lease.pool ↔ ∃ l ∈ freed, l.pool = p := List.mem_map
    cases report
    · simp only [Bool.false_eq_true, if_false, hdue p, hfreed, false_and, or_false]
    · have hstall : (s.freeEvent freed).wu.stall = s.wu.stall := by
        unfold OnlyDue at honly
        rw [← honly]
      simp only [if_true, State.reportRecordFree, State.makeDue, mem_addNumbers, hstall, hdue p, hfreed, true_and]
      exact or_left_comm.trans (or_congr_right or_comm)

/-- What a record reads as after a release. -/
theorem released_lease (hs : Table.canonical Lease.atReset s.lt.leases = true) (f : Nat → Lease → Lease) (notices : List Notice) (inbox : List MeterCount) (freed : List Lease)
    (report : Bool) {i : Nat} (h : s.lease i = Lease.atReset → f i Lease.atReset = Lease.atReset) :
    (s.released f notices inbox freed report).lease i = f i (s.lease i) := by
  have hread : (s.released f notices inbox freed report).lease i = Table.get Lease.atReset (Table.mapEntries Lease.atReset f s.lt.leases) i := by
    rw [released_eq]
    rfl
  rw [hread]
  by_cases hi : s.lease i = Lease.atReset
  · rw [hi, h hi]
    refine Table.get_of_not_mem _ fun hm => ?_
    obtain ⟨e, he, rfl⟩ := List.mem_map.1 hm
    obtain ⟨hne, w, hw, hfw⟩ := (Table.mem_mapEntries _ f _ e.1 e.2).1 he
    have hwi : s.lease e.1 = w := Table.get_of_mem _ hs hw
    rw [hi] at hwi
    rw [← hwi, h hi] at hfw
    exact hne hfw.symm
  · exact Table.get_mapEntries_listed f hs hi

/-- R102, R104: what a return changes besides the records and the counters: nothing. -/
theorem returnRecords_eq (s : State) (skip : Bool) (chosen : Nat → Lease → Bool) : s.returnRecords skip chosen = { s with
    et := (s.returnRecords skip chosen).et
    lt := (s.returnRecords skip chosen).lt
    su := (s.returnRecords skip chosen).su
    wu := (s.returnRecords skip chosen).wu } := returnRecords_congr skip chosen rfl rfl rfl rfl

/-- R102, R104: a return by a request whose cell was taken from its slot. -/
theorem takenFrom_returnRecords (s : State) (c : Nat) (rest : List Nat) (skip : Bool) (chosen : Nat → Lease → Bool) :
    (s.takenFrom c rest).returnRecords skip chosen = (s.returnRecords skip chosen).takenFrom c rest := by
  rw [returnRecords_congr (s := s) (t := s.takenFrom c rest) skip chosen rfl rfl rfl rfl, returnRecords_eq s]
  rfl

/-- R102, R104: the records a return chooses change, and no other does. -/
theorem returnRecords_lease (hs : s.Canonical) (skip : Bool) {chosen : Nat → Lease → Bool} (i : Nat)
    (held : chosen i (s.lease i) = true → (s.lease i).st = .held) :
    (s.returnRecords skip chosen).lease i = if chosen i (s.lease i) = true then s.returnedLease skip (s.lease i) else s.lease i := by
  rw [returnRecords_released]
  refine released_lease hs.leases_canonical _ _ _ _ _ fun hi => if_neg fun hch => ?_
  rw [hi] at held
  cases held hch

/-! ### RENEW -/

theorem handleCase_of_held {l : Lease} {g : Half} (hst : l.st = .held) (hg : l.generation = g) : handleCase l g = .live := by
  unfold handleCase
  rw [hst]
  exact if_pos hg

theorem handleCase_of_lapsed {l : Lease} {g : Half} (hst : l.st = .lapsed) (hg : l.generation = g) : handleCase l g = .lapsed := by
  unfold handleCase
  rw [hst]
  exact if_pos hg

theorem handleCase_of_other {l : Lease} {g : Half} (h : ¬ ((l.st = .held ∨ l.st = .lapsed) ∧ l.generation = g)) : handleCase l g = .stale := by
  unfold handleCase
  cases hst : l.st with
  | held => exact if_neg fun hg => h ⟨.inl hst, hg⟩
  | lapsed => exact if_neg fun hg => h ⟨.inr hst, hg⟩
  | lingering => rfl
  | free => rfl

/-- R99: the period reloaded, case by case. -/
theorem renewedPeriod_eq (p : Params) (l : Lease) (r : Nat) : renewedPeriod p l r =
    if r = 0 then l.period else if r < p.periodMin then p.periodMin else if p.periodMax < r then p.periodMax else r := by
  unfold renewedPeriod
  by_cases h : r = 0
  · rw [if_pos h, if_pos h]
  · rw [if_neg h, if_neg h]
    exact if_neg h

/-- R97 to R99: a RENEW by the record its handle names. -/
theorem exec_renew {c : Nat} {copy : List Byte} {rest : List Nat} (h : s.ServesKind c copy rest 2) :
    exec .renew s = .next (renewRequest c copy (s.takenFrom c rest)) :=
  congrArg _ (withRequest_of_serves h renewRequest)

/-- Settles O16: by the case of the handle. -/
theorem renewReloadsCounter : Obligations.RenewReloadsCounter := by
  rintro s c copy rest hs i r g l p rfl rfl rfl rfl rfl
  refine ⟨_, exec_renew hs, ?_⟩
  by_cases hi : 4096 ≤ readLE copy 4 2
  · rw [renewRequest, if_pos (show Config.numLeases ≤ handleIndex copy from hi)]
    exact ⟨rfl, fun _ => ⟨rfl, taken_answered s c rest _⟩, fun h => absurd hi (Nat.not_le.2 h), fun h => absurd hi (Nat.not_le.2 h),
      fun h => absurd hi (Nat.not_le.2 h)⟩
  · rw [renewRequest, if_neg (show ¬ Config.numLeases ≤ handleIndex copy from hi)]
    unfold State.renewRecord
    simp only
    generalize hl : (s.takenFrom c rest).lease (handleIndex copy) = l
    have hl' : s.lease (readLE copy 4 2) = l := hl
    rw [hl']
    by_cases hlive : l.st = .held ∧ l.generation = BitVec.ofNat 16 (readLE copy 6 2)
    · have hcase : handleCase l (handleGeneration copy) = .live := handleCase_of_held hlive.1 hlive.2
      rw [hcase]
      refine ⟨rfl, fun h => absurd h hi, fun _ _ _ => ⟨renewedPeriod (s.params l.pool) l (readLE copy 8 2),
        renewedPeriod_eq _ _ _, taken_answered_of_xi rfl,
        ?_, fun j hj => ?_⟩, fun _ hst => ?_, fun _ hno => absurd ⟨.inl hlive.1, hlive.2⟩ hno⟩
      · exact (State.lease_setLease _ _ _ _).trans (if_pos rfl)
      · exact (State.lease_setLease _ _ _ _).trans (if_neg hj)
      · rw [hlive.1] at hst
        cases hst
    · by_cases hlapsed : l.st = .lapsed ∧ l.generation = BitVec.ofNat 16 (readLE copy 6 2)
      · have hcase : handleCase l (handleGeneration copy) = .lapsed := handleCase_of_lapsed hlapsed.1 hlapsed.2
        rw [hcase]
        exact ⟨rfl, fun h => absurd h hi, fun _ hst hg => absurd ⟨hst, hg⟩ hlive, fun _ _ _ => ⟨rfl, taken_answered s c rest _⟩,
          fun _ hno => absurd ⟨.inr hlapsed.1, hlapsed.2⟩ hno⟩
      · have hother : ¬ ((l.st = .held ∨ l.st = .lapsed) ∧ l.generation = BitVec.ofNat 16 (readLE copy 6 2)) := fun ⟨hst, hg⟩ =>
          hst.elim (fun hst => hlive ⟨hst, hg⟩) fun hst => hlapsed ⟨hst, hg⟩
        have hcase : handleCase l (handleGeneration copy) = .stale := handleCase_of_other hother
        rw [hcase]
        exact ⟨rfl, fun h => absurd h hi, fun _ hst hg => absurd ⟨hst, hg⟩ hlive, fun _ hst hg => absurd ⟨hst, hg⟩ hlapsed,
          fun _ _ => ⟨rfl, taken_answered s c rest _⟩⟩

/-! ### RETURN -/

/-- R100 to R102: a RETURN by the record its handle names. -/
theorem exec_returnLease {c : Nat} {copy : List Byte} {rest : List Nat} (h : s.ServesKind c copy rest 3) :
    exec .returnLease s = .next (returnRequest c copy (s.takenFrom c rest)) :=
  congrArg _ (withRequest_of_serves h returnRequest)

theorem returnedLease_of_freed {skip : Bool} {l : Lease} (h : (s.params l.pool).linger = 0 ∨ skip = true) :
    s.returnedLease skip l = { l with st := .free, generation := l.generation + 1 } := if_pos h

theorem returnedLease_of_lingers {skip : Bool} {l : Lease} (h : (s.params l.pool).linger ≠ 0) (hskip : skip = false) :
    s.returnedLease skip l = { l with st := .lingering, generation := l.generation + 1, counter := (s.params l.pool).linger } :=
  if_neg fun hc => hc.elim h fun he => by
    rw [hskip] at he
    cases he

theorem freedByReturn_iff {skip : Bool} {l : Lease} : s.freedByReturn skip l = true ↔ (s.params l.pool).linger = 0 ∨ skip = true := by
  rw [State.freedByReturn, Bool.or_eq_true, decide_eq_true_iff]

theorem not_freedByReturn {skip : Bool} {l : Lease} (h : (s.params l.pool).linger ≠ 0) (hskip : skip = false) :
    ¬ s.freedByReturn skip l = true := fun hf => (freedByReturn_iff.1 hf).elim h fun he => by
  rw [hskip] at he
  cases he

theorem lingerLoaded_of_freed {skip : Bool} {l : Lease} (h : (s.params l.pool).linger = 0 ∨ skip = true) : s.lingerLoaded skip l = 0 :=
  if_pos (freedByReturn_iff.2 h)

theorem lingerLoaded_of_lingers {skip : Bool} {l : Lease} (h : (s.params l.pool).linger ≠ 0) (hskip : skip = false) :
    s.lingerLoaded skip l = (s.params l.pool).linger := if_neg (not_freedByReturn h hskip)

/-- R102: the one listed record of an index. -/
theorem select_index (hs : s.Canonical) {i : Nat} (hi : s.lease i ≠ Lease.atReset) :
    Table.select (fun j _ => decide (j = i)) s.lt.leases = [(i, s.lease i)] := by
  have hrise := ((Table.canonical_iff _ _).1 hs.leases_canonical).1
  have hmem : (i, s.lease i) ∈ s.lt.leases := Table.mem_of_get_ne hi
  clear hi
  have hread (v : Lease) (h : (i, v) ∈ s.lt.leases) : v = s.lease i := (Table.get_of_mem _ hs.leases_canonical h).symm
  generalize s.lease i = l at hmem hread
  generalize s.lt.leases = leases at hrise hmem hread
  change leases.filter (fun e => decide (e.1 = i)) = _
  induction leases with
  | nil => cases hmem
  | cons e es ih =>
    rw [List.map_cons, List.pairwise_cons] at hrise
    rcases List.mem_cons.1 hmem with rfl | hmem'
    · have hnone : es.filter (fun e => decide (e.1 = i)) = [] := List.filter_eq_nil_iff.2 fun e he hei =>
        absurd (hrise.1 e.1 (List.mem_map_of_mem he)) (by rw [of_decide_eq_true hei]; exact Nat.lt_irrefl i)
      rw [List.filter_cons, if_pos (decide_eq_true rfl), hnone]
    · have hne : ¬ decide (e.1 = i) = true := fun he =>
        absurd (hrise.1 i (List.mem_map.2 ⟨_, hmem', rfl⟩)) (by rw [of_decide_eq_true he]; exact Nat.lt_irrefl i)
      rw [List.filter_cons, if_neg hne]
      exact ih hrise.2 hmem' fun v hv => hread v (List.mem_cons_of_mem _ hv)

/-- A record returned into linger gives nothing back. -/
theorem returnRecords_of_lingers (hs : s.Canonical) {skip : Bool} {i : Nat} (hheld : (s.lease i).st = .held)
    (hlinger : (s.params (s.lease i).pool).linger ≠ 0) (hskip : skip = false) :
    s.returnRecords skip (fun j _ => decide (j = i)) = { s with lt := (s.returnRecords skip (fun j _ => decide (j = i))).lt } := by
  have hne : s.lease i ≠ Lease.atReset := fun he => by
    rw [he] at hheld
    cases hheld
  unfold State.returnRecords
  rw [select_index hs hne, List.map_singleton, List.filter_cons_of_neg (not_freedByReturn hlinger hskip)]
  rfl

/-- R102, R18, R76: a record freed at once by its return. -/
theorem returnRecords_of_freed (hs : s.Canonical) {skip : Bool} {i : Nat} (hheld : (s.lease i).st = .held)
    (hfree : (s.params (s.lease i).pool).linger = 0 ∨ skip = true) :
    FreeTaken s (s.returnRecords skip (fun j _ => decide (j = i))) [s.lease i] ∧
      OnlyDue s (s.returnRecords skip (fun j _ => decide (j = i))) ∧
      DueJoined s (s.returnRecords skip (fun j _ => decide (j = i))) (fun q => q = (s.lease i).pool ∨ q ∈ s.wu.stall) := by
  have hne : s.lease i ≠ Lease.atReset := fun he => by
    rw [he] at hheld
    cases hheld
  rw [returnRecords_released, select_index hs hne, List.map_singleton, List.filter_cons_of_pos (freedByReturn_iff.2 hfree), List.filter_nil]
  obtain ⟨htaken, honly, hdue⟩ := released_taken s (fun j l => if decide (j = i) = true then s.returnedLease skip l else l) s.xi.notices
    s.mu.inbox [s.lease i] true
  refine ⟨htaken, honly, hdue.congr rfl fun q => ?_⟩
  simp only [List.mem_singleton, exists_eq_left, true_and, eq_comm]

/-- Settles O17: by the case of the handle, and by where a live record goes. -/
theorem returnLingersOrFrees : Obligations.ReturnLingersOrFrees := by
  rintro s c copy rest hcan hs i g l linger skip rfl rfl rfl rfl rfl
  rw [canonical_iff] at hcan
  refine ⟨_, exec_returnLease hs, ?_⟩
  by_cases hi : 4096 ≤ readLE copy 4 2
  · rw [returnRequest, if_pos (show Config.numLeases ≤ handleIndex copy from hi)]
    exact ⟨rfl, fun _ => ⟨rfl, rfl, rfl, rfl, taken_answered s c rest _⟩, fun h => absurd hi (Nat.not_le.2 h),
      fun h => absurd hi (Nat.not_le.2 h), fun h => absurd hi (Nat.not_le.2 h)⟩
  · rw [returnRequest, if_neg (show ¬ Config.numLeases ≤ handleIndex copy from hi)]
    unfold State.returnRecord
    simp only
    have hread : (s.takenFrom c rest).lease (handleIndex copy) = s.lease (readLE copy 4 2) := rfl
    rw [hread]
    by_cases hlive : (s.lease (readLE copy 4 2)).st = .held ∧ (s.lease (readLE copy 4 2)).generation = BitVec.ofNat 16 (readLE copy 6 2)
    · obtain ⟨hst, hg⟩ := hlive
      have hcase : handleCase (s.lease (readLE copy 4 2)) (handleGeneration copy) = .live := handleCase_of_held hst hg
      rw [hcase]
      simp only
      generalize hskip : (byteAt copy 8).getLsbD 0 = skip
      have hlease (j : Nat) := returnRecords_lease hcan skip (chosen := fun j _ => decide (j = readLE copy 4 2)) j
        fun hj => by rw [of_decide_eq_true hj]; exact hst
      have hframe := returnRecords_eq s skip fun j _ => decide (j = readLE copy 4 2)
      rw [show handleIndex copy = readLE copy 4 2 from rfl, takenFrom_returnRecords]
      have hxi : ((s.returnRecords skip fun j _ => decide (j = readLE copy 4 2)).takenFrom c rest).xi = (s.takenFrom c rest).xi := by
        rw [hframe]
        rfl
      have hanswer (a : Answer) :
          TakenAndAnswered s (((s.returnRecords skip fun j _ => decide (j = readLE copy 4 2)).takenFrom c rest).handAnswer c a) c rest a :=
        taken_answered_of_xi (handAnswers_xi_congr [(c, a)] hxi)
      refine ⟨by rw [hframe]; rfl, fun h => absurd h hi, fun _ _ _ hlinger hs' => ?_, fun _ _ _ hfree => ?_, fun _ hno => absurd ⟨hst, hg⟩ hno⟩
      · have hkept := returnRecords_of_lingers hcan hst hlinger hs'
        refine ⟨?_, fun j hj => ?_, ?_, ?_, ?_, ?_⟩
        · exact (hlease _).trans ((if_pos (decide_eq_true rfl)).trans ((returnedLease_of_lingers hlinger hs').trans (by rw [hg])))
        · exact (hlease j).trans (if_neg fun h => hj (of_decide_eq_true h))
        · rw [hkept]
          rfl
        · rw [hkept]
          rfl
        · rw [hkept]
          rfl
        · rw [show (s.takenFrom c rest).lingerLoaded skip (s.lease (readLE copy 4 2)) = _ from lingerLoaded_of_lingers hlinger hs']
          exact hanswer _
      · obtain ⟨htaken, honly, hdue⟩ := returnRecords_of_freed hcan hst hfree
        refine ⟨?_, fun j hj => ?_, htaken.congr rfl rfl, honly.congr rfl, hdue.congr rfl fun _ => Iff.rfl, ?_⟩
        · exact (hlease _).trans ((if_pos (decide_eq_true rfl)).trans ((returnedLease_of_freed hfree).trans (by rw [hg])))
        · exact (hlease j).trans (if_neg fun h => hj (of_decide_eq_true h))
        · rw [show (s.takenFrom c rest).lingerLoaded skip (s.lease (readLE copy 4 2)) = _ from lingerLoaded_of_freed hfree]
          exact hanswer _
    · by_cases hlapsed : (s.lease (readLE copy 4 2)).st = .lapsed ∧ (s.lease (readLE copy 4 2)).generation = BitVec.ofNat 16 (readLE copy 6 2)
      · have hcase : handleCase (s.lease (readLE copy 4 2)) (handleGeneration copy) = .lapsed := handleCase_of_lapsed hlapsed.1 hlapsed.2
        rw [hcase, if_pos hlapsed]
        exact ⟨rfl, fun h => absurd h hi, fun _ hst hg => absurd ⟨hst, hg⟩ hlive, fun _ hst hg => absurd ⟨hst, hg⟩ hlive,
          fun _ _ => ⟨rfl, rfl, rfl, rfl, taken_answered s c rest _⟩⟩
      · have hother := fun h : ((s.lease (readLE copy 4 2)).st = .held ∨ (s.lease (readLE copy 4 2)).st = .lapsed) ∧
            (s.lease (readLE copy 4 2)).generation = BitVec.ofNat 16 (readLE copy 6 2) =>
          h.1.elim (fun hst => hlive ⟨hst, h.2⟩) fun hst => hlapsed ⟨hst, h.2⟩
        have hcase : handleCase (s.lease (readLE copy 4 2)) (handleGeneration copy) = .stale := handleCase_of_other hother
        rw [hcase, if_neg hlapsed]
        exact ⟨rfl, fun h => absurd h hi, fun _ hst hg => absurd ⟨hst, hg⟩ hlive, fun _ hst hg => absurd ⟨hst, hg⟩ hlive,
          fun _ _ => ⟨rfl, rfl, rfl, rfl, taken_answered s c rest _⟩⟩

/-! ### RETURN_MATCHING -/

/-- R103: the selection of the event is that of the statement. -/
theorem returnSelects_iff (copy : List Byte) (l : Lease) : returnSelects copy l = true ↔ ReturnSelected copy l := by
  unfold returnSelects ReturnSelected keyMatches wordField
  simp only [Bool.and_eq_true, Bool.or_eq_true, decide_eq_true_iff, and_assoc]

/-- R104: what does not linger is freed at once. -/
theorem lingers_iff (copy : List Byte) (l : Lease) : ¬ s.freedByReturn ((byteAt copy 6).getLsbD 0) l = true ↔ s.Lingers copy l := by
  rw [freedByReturn_iff, not_or, Bool.not_eq_true]
  rfl

/-- R87: a listed record, as a record of the whole table. -/
theorem State.Canonical.mem_records (hs : s.Canonical) {e : Nat × Lease} (h : e.2 ≠ Lease.atReset) : e ∈ s.records ↔ e ∈ s.lt.leases := by
  obtain ⟨i, l⟩ := e
  rw [mem_leases ((canonical_iff s).2 hs), State.records, List.mem_map]
  constructor
  · rintro ⟨j, hj, he⟩
    cases he
    exact ⟨List.mem_range.1 hj, rfl, h⟩
  · rintro ⟨hi, rfl, -⟩
    exact ⟨i, List.mem_range.2 hi, rfl⟩

theorem State.Canonical.leases_nodup (hs : s.Canonical) : s.lt.leases.Nodup :=
  List.Nodup.of_map Prod.fst (((Table.canonical_iff _ _).1 hs.leases_canonical).1.imp Nat.ne_of_lt)

/-- R103, R104: a RETURN_MATCHING is taken from its slot and decided. -/
theorem exec_returnMatching {c : Nat} {copy : List Byte} {rest : List Nat} (h : s.ServesKind c copy rest 4) :
    exec .returnMatching s = .next (returnMatchingRequest c copy (s.takenFrom c rest)) :=
  congrArg _ (withRequest_of_serves h returnMatchingRequest)

/-- Settles O18: the records selected are the listed ones, and those freed at once make the release. -/
theorem returnMatchingReturnsSelected : Obligations.ReturnMatchingReturnsSelected := by
  intro s c copy rest hcan hs
  rw [canonical_iff] at hcan
  refine ⟨_, exec_returnMatching hs, ?_⟩
  by_cases hbad : 512 ≤ readLE copy 4 2 ∧ readLE copy 4 2 ≠ 0xFFFF
  · rw [returnMatchingRequest, if_pos (show Config.numPools ≤ readLE copy 0x04 2 ∧ readLE copy 0x04 2 ≠ 0xFFFF from hbad)]
    exact ⟨rfl, fun _ _ => ⟨rfl, rfl, rfl, rfl, taken_answered s c rest _⟩,
      fun h => h.elim (fun h => absurd hbad.1 (Nat.not_le.2 h)) fun h => absurd h hbad.2⟩
  rw [returnMatchingRequest, if_neg (show ¬ (Config.numPools ≤ readLE copy 0x04 2 ∧ readLE copy 0x04 2 ≠ 0xFFFF) from hbad)]
  rw [takenFrom_returnRecords]
  have hframe := returnRecords_eq s ((byteAt copy 6).getLsbD 0) fun _ l => returnSelects copy l
  have hheld (l : Lease) (h : returnSelects copy l = true) : l.st = .held := ((returnSelects_iff copy l).1 h).1
  have hlease (i : Nat) := returnRecords_lease hcan ((byteAt copy 6).getLsbD 0) (chosen := fun _ l => returnSelects copy l) i (hheld _)
  have hchosen (e : Nat × Lease) : e ∈ Table.select (fun _ l => returnSelects copy l) s.lt.leases ↔ e ∈ s.records ∧ ReturnSelected copy e.2 := by
    rw [Table.select, List.mem_filter, returnSelects_iff]
    exact and_congr_left fun h => (hcan.mem_records fun he => by
      have hst := h.1
      rw [he] at hst
      cases hst).symm
  have hread {i : Nat} {l : Lease} (h : (i, l) ∈ Table.select (fun _ l => returnSelects copy l) s.lt.leases) :
      s.lease i = l ∧ returnSelects copy l = true :=
    have h := List.mem_filter.1 h
    ⟨Table.get_of_mem _ hcan.leases_canonical h.1, h.2⟩
  have hnodup : (Table.select (fun _ l => returnSelects copy l) s.lt.leases).Nodup := hcan.leases_nodup.filter _
  have htaken := released_taken s (fun i l => if returnSelects copy l then s.returnedLease ((byteAt copy 6).getLsbD 0) l else l) s.xi.notices
    s.mu.inbox (((Table.select (fun _ l => returnSelects copy l) s.lt.leases).map Prod.snd).filter
      (s.freedByReturn ((byteAt copy 6).getLsbD 0)))
    (!(((Table.select (fun _ l => returnSelects copy l) s.lt.leases).map Prod.snd).filter
      (s.freedByReturn ((byteAt copy 6).getLsbD 0))).isEmpty)
  rw [← returnRecords_released, List.filter_map] at htaken
  obtain ⟨hfree, honly, hdue⟩ := htaken
  refine ⟨by rw [hframe]; rfl, fun h1 h2 => absurd ⟨h1, h2⟩ hbad, fun _ => ⟨Table.select (fun _ l => returnSelects copy l) s.lt.leases,
    (Table.select (fun _ l => returnSelects copy l) s.lt.leases).filter (s.freedByReturn ((byteAt copy 6).getLsbD 0) ∘ Prod.snd),
    hchosen, hnodup, fun e => ?_, hnodup.filter _, fun i l h hl => ?_, fun i l h => ?_, fun i h => ?_, hfree.congr rfl rfl, honly.congr rfl,
    hdue.congr rfl fun q => ?_, taken_answered_of_xi (handAnswers_xi_congr [(c, _)] (by rw [hframe]; rfl))⟩⟩
  · rw [List.mem_filter, ← lingers_iff, not_not]
    rfl
  · obtain ⟨rfl, hsel⟩ := hread h
    rw [← lingers_iff, freedByReturn_iff, not_or, Bool.not_eq_true] at hl
    exact (hlease i).trans ((if_pos hsel).trans (returnedLease_of_lingers hl.1 hl.2))
  · obtain ⟨h, hl⟩ := List.mem_filter.1 h
    obtain ⟨rfl, hsel⟩ := hread h
    exact (hlease i).trans ((if_pos hsel).trans (returnedLease_of_freed (freedByReturn_iff.1 hl)))
  · refine (hlease i).trans (if_neg fun hsel => h (s.lease i) (List.mem_filter.2 ⟨Table.mem_of_get_ne fun he => ?_, hsel⟩))
    have hst := hheld _ hsel
    rw [State.lease, he] at hst
    cases hst
  · simp only [List.mem_map, Bool.not_eq_true', List.isEmpty_eq_false_iff, ne_eq, List.map_eq_nil_iff]
    constructor
    · rintro (⟨l, ⟨e, he, rfl⟩, rfl⟩ | ⟨hne, hq⟩)
      · exact ⟨List.ne_nil_of_mem he, .inr ⟨e, he, rfl⟩⟩
      · exact ⟨hne, .inl hq⟩
    · rintro ⟨hne, hq | ⟨e, he, rfl⟩⟩
      · exact .inr ⟨hne, hq⟩
      · exact .inl ⟨_, ⟨e, he, rfl⟩, rfl⟩

end Sys2Proof.Machine
end

