-- ==== Sys2Proof/Proofs/Hands.lean ====
section
/-! SUPPORT. The requests that may stay in hand: WITHDRAW (O19), INSPECT_POOL (O20) and CLEAR_FLOOR (O21). -/

namespace Sys2Proof.Machine

variable {s t u : State}

/-! ### Taken from the slot -/

/-- R164: what was answered from the state that the take of a cell leaves, the cell itself among it. -/
theorem Answered.of_taken {c : Nat} {rest : List Nat} {as : List (Nat × Answer)} (h : Answered (s.takenFrom c rest) t as)
    (hc : ∃ a, (c, a) ∈ as) : Answered s t as := by
  obtain ⟨hlist, hst, hother⟩ := h
  obtain ⟨a, ha⟩ := hc
  refine ⟨hlist, hst, fun c' hc' => (hother c' hc').trans (takenFrom_cell_other rest fun he => ?_)⟩
  exact hc' _ ha he.symm

theorem Answered.congr {as : List (Nat × Answer)} (h : Answered s u as) (hxi : t.xi = u.xi) : Answered s t as := by
  unfold Answered State.cell at h ⊢
  rwa [hxi]

/-- R162: what is answered from the state that the take of a cell leaves. -/
theorem AnsweredFrame.of_taken {c : Nat} {rest : List Nat} (h : AnsweredFrame (s.takenFrom c rest) t) : TakenFrame s t rest :=
  ⟨congrArg ExchangeInterface.readAhead h, congrArg (fun x : ExchangeInterface =>
    { x with readAhead := s.xi.readAhead, writeList := s.xi.writeList, cells := s.xi.cells }) h⟩

/-- The answers are judged from the Exchange Interface before them. -/
theorem Answered.from {as : List (Nat × Answer)} (h : Answered u t as) (hxi : u.xi = s.xi) : Answered s t as := by
  unfold Answered State.cell at h ⊢
  rwa [← hxi]

/-- R46: the state with another decision in hand, or with none. -/
def State.deciding (s : State) (d : Option Decision) : State := { s with decision := d }

theorem deciding_deciding (s : State) (d d' : Option Decision) : (s.deciding d).deciding d' = s.deciding d' := rfl

theorem deciding_self {d : Option Decision} (h : s.decision = d) : s.deciding d = s := by
  subst h
  rfl

/-- R162, R81: a request taken from its slot that stays in hand. -/
theorem taken_inHand {c : Nat} {copy : List Byte} {rest : List Nat} (h : s.Serves c copy rest) (d : Decision) :
    TakenInHand s ((s.takenFrom c rest).deciding (some d)) c rest d := by
  obtain ⟨-, -, -, hst, -⟩ := h
  refine ⟨rfl, ⟨rfl, rfl⟩, rfl, ?_, fun c' hc' => takenFrom_cell_other rest hc'⟩
  exact (congrArg Cell.st (takenFrom_cell_self (s := s) c rest)).trans hst

/-- R46: with a decision in hand no cell is taken. -/
theorem exec_request_inHand {d : Decision} (hd : s.decision = some d) (cmd : Instr) (hc : isRequest cmd = true) :
    exec cmd s = .next (match cmd with
      | .draw n => State.drawSteps n s
      | .withdraw => s.finishWithdraw
      | .inspectPool => s.finishInspect
      | .clearFloor => s.finishClearFloor
      | _ => s) := exec_request_of_none (takeCell_eq_none (.inl (by rw [hd]; nofun))) cmd hc

theorem waitUnitFree_iff : s.waitUnitFree = true ↔ s.wu.exam = none ∧ s.wu.parkInbox = [] := by
  rw [State.waitUnitFree, Bool.and_eq_true, Option.isNone_iff_eq_none, List.isEmpty_iff]

theorem not_waitUnitFree (h : s.wu.exam ≠ none ∨ s.wu.parkInbox ≠ []) : ¬ s.waitUnitFree = true := fun hf =>
  h.elim (fun he => he (waitUnitFree_iff.1 hf).1) fun hp => hp (waitUnitFree_iff.1 hf).2

/-! ### WITHDRAW -/

/-- R67: the pool found is one whose queue holds the cell. -/
theorem State.Canonical.homeOf_some (hs : s.Canonical) {cell p : Nat} (h : s.homeOf cell = some p) : ∃ w ∈ s.queue p, w.cell = cell := by
  obtain ⟨q, hq, hw⟩ := homeOf_spec h
  have : s.queue p = q := Table.get_of_mem _ hs.queues hq
  rwa [this]

theorem homeOf_none {cell : Nat} (h : s.homeOf cell = none) (p : Nat) : ∀ w ∈ s.queue p, w.cell ≠ cell := by
  intro w hw he
  rw [State.homeOf, Option.map_eq_none_iff, List.find?_eq_none] at h
  refine h _ (Table.mem_of_get_ne (d := []) (i := p) fun hnil => ?_) (List.any_eq_true.2 ⟨w, hw, decide_eq_true he⟩)
  rw [State.queue, hnil] at hw
  cases hw

theorem headIs_iff {cell : Nat} {q : List Waiter} : headIs cell q = true ↔ ∃ w, q.head? = some w ∧ w.cell = cell := by
  cases q <;> simp [headIs]

/-- R81: the answers of a WITHDRAW event, the target's before the WITHDRAW's. -/
def State.withdrawAnswers (s : State) (c target : Nat) : List (Nat × Answer) :=
  match s.homeOf target with
  | some p => [(target, plainAnswer .withdrawn (poolField p)), (c, plainAnswer .ok (poolField p))]
  | none => [(c, plainAnswer .notWaiting Config.noPool)]

theorem withdrawAnswers_self (s : State) (c target : Nat) : ∃ a, (c, a) ∈ s.withdrawAnswers c target := by
  unfold State.withdrawAnswers
  split
  · exact ⟨_, List.mem_cons_of_mem _ List.mem_cons_self⟩
  · exact ⟨_, List.mem_cons_self⟩

/-- R81: the WITHDRAW event hands its answers and changes the Wait Unit. -/
theorem withdrawEvent_eq (s : State) (c target : Nat) : s.withdrawEvent c target =
    { s.handAnswers (s.withdrawAnswers c target) with wu := (s.withdrawEvent c target).wu } := by
  unfold State.withdrawEvent State.withdrawAnswers
  cases s.homeOf target with
  | none => rfl
  | some p =>
    simp only [State.withdrawFrom]
    split_ifs <;> rfl

/-- R81: a WITHDRAW taken by the Wait Unit, from a state with the Wait Unit of `s`. -/
theorem withdrawEvent_taken (hs : s.Canonical) (hwu : u.wu = s.wu) {c target : Nat}
    (h : Answered s (u.withdrawEvent c target) (u.withdrawAnswers c target)) : WithdrawTaken s (u.withdrawEvent c target) c target := by
  have hhome : u.homeOf target = s.homeOf target := by rw [State.homeOf, State.homeOf, hwu]
  have hq (p : Nat) : u.queue p = s.queue p := State.queue_congr (by rw [hwu]) p
  unfold State.withdrawAnswers State.withdrawEvent at *
  rw [hhome] at h ⊢
  cases hp : s.homeOf target with
  | none =>
    rw [hp] at h
    refine ⟨fun p hw => ?_, fun _ => ⟨h, hwu⟩⟩
    obtain ⟨w, hw, he⟩ := (hw p).2 rfl
    exact absurd he (homeOf_none hp p w hw)
  | some p =>
    rw [hp] at h
    obtain ⟨w, hw, he⟩ := hs.homeOf_some hp
    refine ⟨fun p' hwaits => ?_, fun hno => absurd he (hno p w hw)⟩
    obtain rfl := (hwaits p).1 ⟨w, hw, he⟩
    have hqueue (q : Nat) : ((u.withdrawFrom p target).handAnswer c (plainAnswer .ok (poolField p))).queue q =
        if q = p then (s.queue p).filter (fun w => decide (w.cell ≠ target)) else s.queue q := by
      rw [← hq p, ← hq q]
      refine Eq.trans ?_ (State.queue_setQueue u p q _)
      simp only [State.withdrawFrom]
      split_ifs <;> rfl
    have hhead : headIs target (u.queue p) = headIs target (s.queue p) := by rw [hq]
    refine ⟨h, (hqueue p).trans (if_pos rfl), fun q hne => (hqueue q).trans (if_neg hne), fun q => ?_, ?_⟩
    · simp only [State.withdrawFrom, hhead]
      split_ifs with hh
      · have hdue : ((State.makeDue (State.handAnswer (u.setQueue p ((u.queue p).filter fun w => decide (w.cell ≠ target))) target
            (plainAnswer .withdrawn (poolField p))) [p]).handAnswer c (plainAnswer .ok (poolField p))).wu.due = addNumbers [p] u.wu.due := rfl
        rw [hdue, mem_addNumbers, hwu, List.mem_singleton]
        simp only [headIs_iff.1 hh, and_true, or_comm]
      · have hdue : ((State.handAnswer (u.setQueue p ((u.queue p).filter fun w => decide (w.cell ≠ target))) target
            (plainAnswer .withdrawn (poolField p))).handAnswer c (plainAnswer .ok (poolField p))).wu.due = u.wu.due := rfl
        rw [hdue, hwu]
        exact (or_iff_left fun h => hh (headIs_iff.2 h.2)).symm
    · rw [← hwu]
      simp only [State.withdrawFrom]
      split_ifs <;> rfl

theorem exec_withdraw {c : Nat} {copy : List Byte} {rest : List Nat} (h : s.ServesKind c copy rest 5) :
    exec .withdraw s = .next (withdrawRequest c copy (s.takenFrom c rest)).finishWithdraw :=
  next_congr (congrArg State.finishWithdraw (withRequest_of_serves h withdrawRequest))

theorem finishWithdraw_of_free {c target : Nat} (hd : s.decision = some (.withdraw c target)) (he : s.wu.exam = none)
    (hp : s.wu.parkInbox = []) : s.finishWithdraw = (s.deciding none).withdrawEvent c target := by
  unfold State.finishWithdraw
  rw [hd]
  exact if_pos (waitUnitFree_iff.2 ⟨he, hp⟩)

theorem finishWithdraw_of_busy {c target : Nat} (hd : s.decision = some (.withdraw c target))
    (h : s.wu.exam ≠ none ∨ s.wu.parkInbox ≠ []) : s.finishWithdraw = s := by
  unfold State.finishWithdraw
  rw [hd]
  exact if_neg (not_waitUnitFree h)

/-- R81: a WITHDRAW the Wait Unit takes from a state that differs from `s` at the Exchange Interface only, if at all. -/
theorem withdrawEvent_frame (u : State) (c target : Nat) : AnsweredFrame u (u.withdrawEvent c target) ∧
    Answered u (u.withdrawEvent c target) (u.withdrawAnswers c target) ∧
    u.withdrawEvent c target = { u with xi := (u.withdrawEvent c target).xi, wu := (u.withdrawEvent c target).wu } := by
  have heq := withdrawEvent_eq u c target
  have hxi : (u.withdrawEvent c target).xi = (u.handAnswers (u.withdrawAnswers c target)).xi := by rw [heq]
  obtain ⟨hframe, hans, hall⟩ := handAnswers_answered u (u.withdrawAnswers c target)
  refine ⟨?_, hans.congr hxi, ?_⟩
  · unfold AnsweredFrame at hframe ⊢
    rwa [hxi]
  · rw [heq, hall]

/-- Settles O19: refused, taken at once, or left in hand and then taken. -/
theorem withdrawTakesWaiter : Obligations.WithdrawTakesWaiter := by
  intro s c copy rest
  have hin (h : readLE copy 4 2 < 1024) : withdrawRequest c copy (s.takenFrom c rest) =
      (s.takenFrom c rest).deciding (some (.withdraw c (readLE copy 4 2))) := if_neg (Nat.not_le.2 h)
  refine ⟨fun _ hs hbad => ⟨_, exec_withdraw hs, ?_⟩, fun hcan hs hok he hp => ⟨_, exec_withdraw hs, ?_⟩,
    fun hs hok hbusy => ⟨_, exec_withdraw hs, ?_⟩, fun target hd hbusy => ?_,
    fun target hcan hd he hp => ⟨_, (exec_request_inHand hd .withdraw rfl).trans (next_congr (finishWithdraw_of_free hd he hp)), ?_⟩⟩
  · have hd : ((s.takenFrom c rest).handAnswer c (badFieldAnswer 0x04)).decision = none := hs.1.2.1
    rw [withdrawRequest, if_pos (show Config.numCells ≤ readLE copy 0x04 2 from hbad),
      finishWithdraw_of_not_withdraw fun _ _ h => by cases hd.symm.trans h]
    exact ⟨rfl, taken_answered s c rest _⟩
  · have hd : (s.takenFrom c rest).decision = none := hs.1.2.1
    rw [hin hok, finishWithdraw_of_free (s := (s.takenFrom c rest).deciding _) (c := c) (target := readLE copy 4 2) rfl he hp, deciding_deciding, deciding_self hd]
    obtain ⟨hframe, hans, hall⟩ := withdrawEvent_frame (s.takenFrom c rest) c (readLE copy 4 2)
    have hanswered := hans.of_taken (withdrawAnswers_self (s.takenFrom c rest) c _)
    exact ⟨hall, hframe.of_taken, withdrawEvent_taken (u := s.takenFrom c rest) ((canonical_iff s).1 hcan) rfl hanswered⟩
  · rw [hin hok, finishWithdraw_of_busy (s := (s.takenFrom c rest).deciding _) (c := c) (target := readLE copy 4 2) rfl hbusy]
    exact taken_inHand hs.1 _
  · exact (exec_request_inHand hd .withdraw rfl).trans (next_congr (finishWithdraw_of_busy hd hbusy))
  · obtain ⟨hframe, hans, hall⟩ := withdrawEvent_frame (s.deciding none) c target
    exact ⟨hall, hframe, withdrawEvent_taken (u := s.deciding none) ((canonical_iff s).1 hcan) rfl hans⟩

/-! ### INSPECT_POOL -/

/-- R21, Table 1-9: the body given is the report of the pool. -/
theorem inspectBody_eq (s : State) (p : Nat) : s.inspectBody p = inspectReport s p := by
  simp only [State.inspectBody, inspectReport, State.windowOpen, maskOpen, Params.validity, Params.past, Params.before, decide_eq_true_iff]
  cases (s.pool p).st <;> rfl

theorem exec_inspectPool {c : Nat} {copy : List Byte} {rest : List Nat} (h : s.ServesKind c copy rest 6) :
    exec .inspectPool s = .next (inspectRequest c copy (s.takenFrom c rest)).finishInspect :=
  next_congr (congrArg State.finishInspect (withRequest_of_serves h inspectRequest))

/-- R21: the answer of an INSPECT_POOL, from the state standing when it is taken. -/
def State.inspectAnswer (s : State) (p : Nat) : Answer := { result := .ok, detail := 0, pool := poolField p, body := inspectReport s p }

theorem finishInspect_of_free {c p : Nat} (hd : s.decision = some (.inspect c p)) (he : s.wu.exam = none) :
    s.finishInspect = (s.deciding none).handAnswer c (s.inspectAnswer p) := by
  unfold State.finishInspect State.inspectAnswer
  rw [hd, ← inspectBody_eq]
  exact if_pos (Option.isNone_iff_eq_none.2 he)

theorem finishInspect_of_busy {c p : Nat} (hd : s.decision = some (.inspect c p)) (h : s.wu.exam ≠ none) : s.finishInspect = s := by
  unfold State.finishInspect
  rw [hd]
  exact if_neg fun he => h (Option.isNone_iff_eq_none.1 he)

/-- Settles O20: refused, answered at once, or left in hand and then answered. -/
theorem inspectPoolReports : Obligations.InspectPoolReports := by
  refine ⟨fun s c p copy rest hs hp => ?_, fun s c p hd => ⟨fun he => ?_, fun he => ?_⟩⟩
  · subst hp
    have hd : (s.takenFrom c rest).decision = none := hs.1.2.1
    have hin (h : readLE copy 4 2 < 512) : inspectRequest c copy (s.takenFrom c rest) =
        (s.takenFrom c rest).deciding (some (.inspect c (readLE copy 4 2))) := if_neg (Nat.not_le.2 h)
    refine ⟨fun hbad => ⟨_, exec_inspectPool hs, ?_⟩, fun hok he => ⟨_, exec_inspectPool hs, ?_⟩, fun hok he => ⟨_, exec_inspectPool hs, ?_⟩⟩
    · have hd' : ((s.takenFrom c rest).handAnswer c (badFieldAnswer 0x04)).decision = none := hd
      rw [inspectRequest, if_pos (show Config.numPools ≤ readLE copy 0x04 2 from hbad),
        finishInspect_of_not_inspect fun _ _ h => by cases hd'.symm.trans h]
      exact ⟨rfl, taken_answered s c rest _⟩
    · rw [hin hok, finishInspect_of_free (s := (s.takenFrom c rest).deciding _) (c := c) (p := readLE copy 4 2) rfl he, deciding_deciding,
        deciding_self hd]
      exact ⟨rfl, taken_answered s c rest _⟩
    · rw [hin hok, finishInspect_of_busy (s := (s.takenFrom c rest).deciding _) (c := c) (p := readLE copy 4 2) rfl he]
      exact taken_inHand hs.1 _
  · refine ⟨_, (exec_request_inHand hd .inspectPool rfl).trans (next_congr (finishInspect_of_free hd he)), rfl, ?_⟩
    exact handAnswer_answered (s.deciding none) c _
  · exact (exec_request_inHand hd .inspectPool rfl).trans (next_congr (finishInspect_of_busy hd he))

/-! ### CLEAR_FLOOR -/

/-- R109: the LAPSE notice of the record is in front and its write has begun. -/
theorem lapseBegun_iff {i : Nat} : s.lapseBegun i = true ↔ ∃ g p ns, s.xi.notices = .lapse i g p :: ns ∧ s.xi.noticeStage ≠ .notBegun := by
  unfold State.lapseBegun
  split
  · rename_i j g p ns hn
    rw [hn, Bool.and_eq_true, decide_eq_true_iff, decide_eq_true_iff]
    constructor
    · rintro ⟨rfl, hstage⟩
      exact ⟨g, p, ns, rfl, hstage⟩
    · rintro ⟨g', p', ns', he, hstage⟩
      cases he
      exact ⟨rfl, hstage⟩
  · rename_i hno
    exact ⟨nofun, fun ⟨g, p, ns, he, _⟩ => absurd he (hno i g p ns)⟩

/-- R109: the records that CLEAR_FLOOR makes FREE. -/
theorem clearedByFloor_iff {i : Nat} {l : Lease} : s.clearedByFloor i l = true ↔ l.st = .held ∨ l.st = .lingering ∨
    l.st = .lapsed ∧ ¬ ∃ g p ns, s.xi.notices = .lapse i g p :: ns ∧ s.xi.noticeStage ≠ .notBegun := by
  rw [← lapseBegun_iff, State.clearedByFloor]
  cases l.st <;> simp

theorem noticesKept_eq (s : State) : s.noticesKept =
    if s.xi.noticeStage = .notBegun then s.xi.notices.filter (fun n => !n.isLapse)
    else s.xi.notices.take 1 ++ (s.xi.notices.drop 1).filter (fun n => !n.isLapse) := by
  unfold State.noticesKept
  cases s.xi.notices with
  | nil => split_ifs <;> rfl
  | cons n ns => rfl

theorem Lease.holds_iff (l : Lease) : l.holds = true ↔ l.st = .held ∨ l.st = .lingering := by
  rw [Lease.holds]
  cases l.st <;> simp

/-- R20: the answers of a CLEAR_FLOOR: the waiters', then its own. -/
def State.floorAnswers (s : State) (c : Nat) : List (Nat × Answer) :=
  s.clearedAnswers ++ [(c, ⟨.ok, 0, 0, .clearFloor (Table.select s.clearedByFloor s.lt.leases).length s.allWaiters.length⟩)]

/-- R109: what CLEAR_FLOOR makes of the records is read from the records and the notices. -/
theorem clearedByFloor_congr (hn : t.xi.notices = s.xi.notices) (hstage : t.xi.noticeStage = s.xi.noticeStage) :
    t.clearedByFloor = s.clearedByFloor := by
  funext i l
  unfold State.clearedByFloor State.lapseBegun
  rw [hn, hstage]

theorem noticesKept_congr (hn : t.xi.notices = s.xi.notices) (hstage : t.xi.noticeStage = s.xi.noticeStage) :
    t.noticesKept = s.noticesKept := by
  unfold State.noticesKept
  rw [hn, hstage]

/-- R20, R84, R109: the whole of a CLEAR_FLOOR, block by block. -/
theorem clearFloorEvent_eq (s : State) (c : Nat) : s.clearFloorEvent c = { s with
    xi := { s.xi with
      notices := s.noticesKept
      writeList := (s.handAnswers (s.floorAnswers c)).xi.writeList
      cells := (s.handAnswers (s.floorAnswers c)).xi.cells }
    lt.leases := Table.mapEntries Lease.atReset s.cleared s.lt.leases
    et := (s.clearWaiters.freeEvent s.holders).et
    su := (s.clearWaiters.freeEvent s.holders).su
    wu := { s.wu with queues := [], stall := [], due := addNumbers (s.holders.map Lease.pool) [] } } := by
  have hframe := handAnswers_frame s s.clearedAnswers
  have hby : s.clearWaiters.clearedByFloor = s.clearedByFloor :=
    clearedByFloor_congr (by rw [clearWaiters_eq, hframe]) (by rw [clearWaiters_eq, hframe])
  have hcleared : s.clearWaiters.cleared = s.cleared := by
    funext i l
    rw [State.cleared, State.cleared, hby]
  have hkept : s.clearWaiters.noticesKept = s.noticesKept :=
    noticesKept_congr (by rw [clearWaiters_eq, hframe]) (by rw [clearWaiters_eq, hframe])
  have hlt : s.clearWaiters.lt = s.lt := by rw [clearWaiters_eq]
  have hholders : s.clearWaiters.holders = s.holders := by rw [State.holders, hlt]; rfl
  have hwu : s.clearWaiters.wu = { s.wu with queues := [], stall := [], due := [] } := by rw [clearWaiters_eq]
  have hreport : (if (!(Table.select s.clearedByFloor s.lt.leases).isEmpty) = true
      then (s.clearWaiters.freeEvent s.holders).reportRecordFree.wu else (s.clearWaiters.freeEvent s.holders).wu) =
      { s.wu with queues := [], stall := [], due := addNumbers (s.holders.map Lease.pool) [] } := by
    have h : (s.clearWaiters.freeEvent s.holders).wu =
        { s.wu with queues := [], stall := [], due := addNumbers (s.holders.map Lease.pool) [] } := by rw [freeEvent_wu, hwu]
    simp only [State.reportRecordFree, State.makeDue, h]
    split_ifs <;> rfl
  unfold State.clearFloorEvent
  rw [clearLeases_released, released_eq, hcleared, hkept, hlt, hholders, hby, hreport]
  generalize s.clearWaiters.freeEvent s.holders = u
  rw [clearWaiters_eq, State.floorAnswers, handAnswers_append, hframe]
  rfl

theorem FreeTaken.from {ls : List Lease} (h : FreeTaken u t ls) (het : u.et = s.et) (hsu : u.su = s.su) : FreeTaken s t ls := by
  unfold FreeTaken State.dropsAt State.pool State.activeMask State.stagedMask at h ⊢
  rwa [het, hsu] at h

/-- R109: the records cleared, each by its index. -/
theorem State.Canonical.lease_cleared (hs : s.Canonical) (i : Nat) :
    Table.get Lease.atReset (Table.mapEntries Lease.atReset s.cleared s.lt.leases) i = s.cleared i (s.lease i) :=
  Table.get_mapEntries _ _ _ hs.leases_canonical i (if_neg nofun)

/-- R20: the blocks that a CLEAR_FLOOR reads. -/
structure SameFloor (s u : State) : Prop where
  xi : u.xi = { s.xi with readAhead := u.xi.readAhead, cells := u.xi.cells }
  lt : u.lt = s.lt
  et : u.et = s.et
  su : u.su = s.su
  wu : u.wu = s.wu

/-- R20, R84, R109: a CLEAR_FLOOR whose answers are judged from `s`. -/
theorem clearFloorEvent_cleared (hs : s.Canonical) (hu : SameFloor s u) {c : Nat} (hans : Answered s (u.clearFloorEvent c) (u.floorAnswers c)) :
    FloorCleared s (u.clearFloorEvent c) c := by
  have hn : u.xi.notices = s.xi.notices := by rw [hu.xi]
  have hstage : u.xi.noticeStage = s.xi.noticeStage := by rw [hu.xi]
  have hby := clearedByFloor_congr hn hstage
  have hcleared : u.cleared = s.cleared := by
    funext i l
    rw [State.cleared, State.cleared, hby]
  have hholders : u.holders = s.holders := by rw [State.holders, hu.lt]; rfl
  have heq := clearFloorEvent_eq u c
  have hlease (i : Nat) : (u.clearFloorEvent c).lease i = s.cleared i (s.lease i) := by
    rw [heq, ← hs.lease_cleared, ← hcleared, ← hu.lt]
    rfl
  have hlisted {i : Nat} {l : Lease} (h : s.clearedByFloor i l = true) : l ≠ Lease.atReset := fun he => by
    rw [he] at h
    cases h
  have hfreed (i : Nat) : i ∈ (Table.select s.clearedByFloor s.lt.leases).map Prod.fst ↔ i < 4096 ∧ s.clearedByFloor i (s.lease i) = true := by
    rw [List.mem_map]
    constructor
    · rintro ⟨⟨i, l⟩, he, rfl⟩
      obtain ⟨hm, hl⟩ := List.mem_filter.1 he
      obtain ⟨hi, rfl, -⟩ := (mem_leases ((canonical_iff s).2 hs) i l).1 hm
      exact ⟨hi, hl⟩
    · rintro ⟨hi, hl⟩
      exact ⟨(i, s.lease i), List.mem_filter.2 ⟨Table.mem_of_get_ne (hlisted hl), hl⟩, rfl⟩
  have hkeys := ((Table.canonical_iff _ _).1 hs.leases_canonical).1
  have hheld (e : Nat × Lease) : e ∈ Table.select (fun _ l => l.holds) s.lt.leases ↔ e ∈ s.records ∧ (e.2.st = .held ∨ e.2.st = .lingering) := by
    rw [Table.select, List.mem_filter, ← Lease.holds_iff]
    exact and_congr_left fun h => (hs.mem_records (holds_ne_reset h)).symm
  have hclearedTaken := (freeEvent_taken u.clearWaiters u.holders).1.from (s := s) (by rw [clearWaiters_eq, ← hu.et]) (by rw [clearWaiters_eq, ← hu.su])
  refine ⟨s.allWaiters, (Table.select s.clearedByFloor s.lt.leases).map Prod.fst, Table.select (fun _ l => l.holds) s.lt.leases, rfl,
    fun i => ?_, ?_, fun i hi => ?_, fun i hi => ?_, hheld, hs.leases_nodup.filter _, ?_, fun p => ?_, ?_, fun p => ?_, ?_, ?_, ?_, ?_⟩
  · rw [hfreed, clearedByFloor_iff]
  · exact (hkeys.sublist (List.filter_sublist.map _)).imp Nat.ne_of_lt
  · rw [hlease]
    exact if_pos ((hfreed i).1 hi).2
  · rw [hlease]
    refine if_neg fun hc => hi ((hfreed i).2 ⟨?_, hc⟩)
    exact hs.lease_below fun hst => by
      rw [State.clearedByFloor, hst] at hc
      cases hc
  · rw [hholders] at hclearedTaken
    exact hclearedTaken.congr (by rw [heq, hholders]) (by rw [heq, hholders])
  · rw [heq]
    rfl
  · rw [heq]
  · rw [heq, hholders]
    simp only [mem_addNumbers, State.holders, List.map_map, List.mem_map, List.not_mem_nil, or_false, Function.comp]
  · rw [heq, hu.wu]
  · rw [heq]
    simp only
    rw [noticesKept_congr hn hstage]
    exact noticesKept_eq s
  · rw [heq, hu.xi]
  · have hwaiters : u.allWaiters = s.allWaiters := by rw [State.allWaiters, hu.wu]; rfl
    rw [State.floorAnswers, State.clearedAnswers, hwaiters, hby, hu.lt] at hans
    rw [List.length_map]
    exact hans

theorem exec_clearFloor {c : Nat} {copy : List Byte} {rest : List Nat} (h : s.ServesKind c copy rest 10) :
    exec .clearFloor s = .next ((s.takenFrom c rest).deciding (some (.clearFloor c))).finishClearFloor :=
  next_congr (congrArg State.finishClearFloor (withRequest_of_serves h clearFloorRequest))

theorem finishClearFloor_of_free {c : Nat} (hd : s.decision = some (.clearFloor c)) (he : s.wu.exam = none) (hp : s.wu.parkInbox = []) :
    s.finishClearFloor = (s.deciding none).clearFloorEvent c := by
  unfold State.finishClearFloor
  rw [hd]
  exact if_pos (waitUnitFree_iff.2 ⟨he, hp⟩)

theorem finishClearFloor_of_busy {c : Nat} (hd : s.decision = some (.clearFloor c)) (h : s.wu.exam ≠ none ∨ s.wu.parkInbox ≠ []) :
    s.finishClearFloor = s := by
  unfold State.finishClearFloor
  rw [hd]
  exact if_neg (not_waitUnitFree h)

/-- R20: a CLEAR_FLOOR answers the waiters and itself. -/
theorem clearFloorEvent_answered (s : State) (c : Nat) : Answered s (s.clearFloorEvent c) (s.floorAnswers c) := by
  obtain ⟨-, ⟨hlist, hst, hother⟩, -⟩ := handAnswers_answered s (s.floorAnswers c)
  have hcell (c' : Nat) : (s.clearFloorEvent c).cell c' = (s.handAnswers (s.floorAnswers c)).cell c' := by
    rw [clearFloorEvent_eq]
    rfl
  refine ⟨?_, fun e he => by rw [hcell]; exact hst e he, fun c' hc' => (hcell c').trans (hother c' hc')⟩
  rw [← hlist, clearFloorEvent_eq]

/-- Settles O21: taken at once, or left in hand and then taken. -/
theorem clearFloorClears : Obligations.ClearFloorClears := by
  refine ⟨fun s c copy rest hcan hs => ⟨fun he hp => ⟨_, exec_clearFloor hs, ?_⟩, fun hbusy => ⟨_, exec_clearFloor hs, ?_⟩⟩,
    fun s c hcan hd => ⟨fun he hp => ⟨_, (exec_request_inHand hd .clearFloor rfl).trans (next_congr (finishClearFloor_of_free hd he hp)), ?_⟩,
      fun hbusy => (exec_request_inHand hd .clearFloor rfl).trans (next_congr (finishClearFloor_of_busy hd hbusy))⟩⟩
  · have hd : (s.takenFrom c rest).decision = none := hs.1.2.1
    rw [finishClearFloor_of_free (s := (s.takenFrom c rest).deciding _) (c := c) rfl he hp, deciding_deciding, deciding_self hd]
    have hans := (clearFloorEvent_answered (s.takenFrom c rest) c).of_taken ⟨_, List.mem_append_right _ List.mem_cons_self⟩
    refine ⟨?_, ?_, clearFloorEvent_cleared (u := s.takenFrom c rest) ((canonical_iff s).1 hcan) ⟨rfl, rfl, rfl, rfl, rfl⟩ hans⟩
    · rw [clearFloorEvent_eq]
      rfl
    · rw [clearFloorEvent_eq]
      rfl
  · rw [finishClearFloor_of_busy (s := (s.takenFrom c rest).deciding _) (c := c) rfl hbusy]
    exact taken_inHand hs.1 _
  · have hans := clearFloorEvent_answered (s.deciding none) c
    refine ⟨?_, ?_, clearFloorEvent_cleared (u := s.deciding none) ((canonical_iff s).1 hcan) ⟨rfl, rfl, rfl, rfl, rfl⟩ hans⟩
    · rw [clearFloorEvent_eq]
      rfl
    · rw [clearFloorEvent_eq]
      rfl

end Sys2Proof.Machine
end

