-- ==== Sys2Proof/Proofs/Draws.lean ====
section
/-! SUPPORT. The DRAW decision step by step (O22 to O26), the grant event of a DRAW (O27) and the revival event (O28). -/

namespace Sys2Proof.Machine

variable {s t : State} {d : DrawDecision}

/-! ### The steps of the decision in hand -/

theorem exec_draw_inHand (hd : s.decision = some (.draw d)) (n : Nat) : exec (.draw n) s = .next (State.drawSteps n s) :=
  exec_request_inHand hd (.draw n) rfl

theorem exec_draw_one (hd : s.decision = some (.draw d)) : exec (.draw 1) s = .next s.drawStep := exec_draw_inHand hd 1

theorem drawStep_of_clock (hd : s.decision = some (.draw d)) (h : d.stage = .clock) : s.drawStep = s.drawClock d := by
  unfold State.drawStep
  rw [hd]
  simp only [h]

theorem drawStep_of_lookup (hd : s.decision = some (.draw d)) (h : d.stage = .lookup) :
    s.drawStep = s.drawAt d (.qualify (s.revivalLookup d.key d.feature)) := by
  unfold State.drawStep
  rw [hd]
  simp only [h]

theorem drawStep_of_qualify {found : List FoundRecord} (hd : s.decision = some (.draw d)) (h : d.stage = .qualify found) :
    s.drawStep = s.drawQualify d found := by
  unfold State.drawStep
  rw [hd]
  simp only [h]

theorem drawStep_of_reviving {i : Nat} {g : Half} (hd : s.decision = some (.draw d)) (h : d.stage = .reviving i g) : s.drawStep = s := by
  unfold State.drawStep
  rw [hd]
  simp only [h]

theorem drawStep_of_tableFull (hd : s.decision = some (.draw d)) (h : d.stage = .tableFull) : s.drawStep = s.drawTableFull d := by
  unfold State.drawStep
  rw [hd]
  simp only [h]

theorem drawStep_of_gather (hd : s.decision = some (.draw d)) (h : d.stage = .gather) : s.drawStep = s.drawGather d := by
  unfold State.drawStep
  rw [hd]
  simp only [h]

theorem drawStep_of_divide {cs : List Candidate} (hd : s.decision = some (.draw d)) (h : d.stage = .divide cs) :
    s.drawStep = s.drawDivide d cs := by
  unfold State.drawStep
  rw [hd]
  simp only [h]

theorem drawStep_of_end {tried : List TrialRecord} (hd : s.decision = some (.draw d)) (h : d.stage = .trial [] tried) :
    s.drawStep = s.drawEnd d tried := by
  unfold State.drawStep
  rw [hd]
  simp only [h]

theorem drawStep_of_trial {p : Nat} {left : List Nat} {tried : List TrialRecord} (hd : s.decision = some (.draw d))
    (h : d.stage = .trial (p :: left) tried) (he : s.wu.exam = none) : s.drawStep = s.drawTrial d p left tried := by
  unfold State.drawStep
  rw [hd]
  simp only [h]
  exact if_pos (Option.isNone_iff_eq_none.2 he)

theorem drawStep_of_busy {p : Nat} {left : List Nat} {tried : List TrialRecord} (hd : s.decision = some (.draw d))
    (h : d.stage = .trial (p :: left) tried) (he : s.wu.exam ≠ none) : s.drawStep = s := by
  unfold State.drawStep
  rw [hd]
  simp only [h]
  exact if_neg fun hn => he (Option.isNone_iff_eq_none.1 hn)

theorem drawStep_of_granting {p charge : Nat} {fits : Bool} {left : List Nat} {tried : List TrialRecord}
    (hd : s.decision = some (.draw d)) (h : d.stage = .granting p charge fits left tried) : s.drawStep = s := by
  unfold State.drawStep
  rw [hd]
  simp only [h]

theorem drawSteps_of_still (h : s.drawStep = s) (n : Nat) : State.drawSteps n s = s := by
  induction n with
  | zero => rfl
  | succ n ih => rw [State.drawSteps, h, ih]

/-! ### Refusals -/

/-- R62: a refusal that names no pool. -/
theorem refuseDraw_unnamed (s : State) (d : DrawDecision) (r : Result) : RefusedUnnamed s (s.refuseDraw d r none) d r :=
  ⟨rfl, handAnswer_answered (s.deciding none) d.cell (plainAnswer r Config.noPool)⟩

/-- R62: a refusal that names a pool. -/
theorem refuseDraw_naming (s : State) (d : DrawDecision) (r : Result) (p : Nat) : RefusedNaming s (s.refuseDraw d r (some p)) d r p :=
  ⟨rfl, handAnswer_answered (s.deciding none) d.cell (plainAnswer r (poolField p))⟩

theorem refuseDraw_decision (s : State) (d : DrawDecision) (r : Result) (p : Option Nat) : (s.refuseDraw d r p).decision = none := by
  cases p <;> rfl

theorem drawAt_decision (s : State) (d : DrawDecision) (stage : DrawStage) :
    (s.drawAt d stage).decision = some (.draw { d with stage := stage }) := rfl

/-- R52: with no structural candidate the DRAW is refused. -/
theorem drawGather_of_nil (h : s.candidates d.key d.feature = []) : s.drawGather d = s.refuseDraw d .noEntitlement none := by
  unfold State.drawGather
  generalize s.candidates d.key d.feature = cs at h ⊢
  subst h
  rfl

theorem drawGather_of_ne_nil (h : s.candidates d.key d.feature ≠ []) :
    s.drawGather d = s.drawAt d (.divide (s.candidates d.key d.feature)) := by
  unfold State.drawGather
  generalize s.candidates d.key d.feature = cs at h ⊢
  cases cs with
  | nil => exact absurd rfl h
  | cons c rest => rfl

/-- R46: a step leaves the decision in hand at some stage, or ends it. -/
theorem drawStep_decision (hd : s.decision = some (.draw d)) :
    s.drawStep.decision = none ∨ ∃ d', s.drawStep.decision = some (.draw d') := by
  cases hst : d.stage with
  | clock =>
    rw [drawStep_of_clock hd hst, State.drawClock]
    split_ifs
    · exact .inr ⟨_, rfl⟩
    · exact .inl (refuseDraw_decision _ _ _ _)
  | lookup =>
    rw [drawStep_of_lookup hd hst]
    exact .inr ⟨_, rfl⟩
  | qualify found =>
    rw [drawStep_of_qualify hd hst]
    cases found with
    | nil => exact .inr ⟨_, rfl⟩
    | cons f rest =>
      rw [State.drawQualify]
      split_ifs <;> exact .inr ⟨_, rfl⟩
  | reviving i g =>
    rw [drawStep_of_reviving hd hst]
    exact .inr ⟨d, hd⟩
  | tableFull =>
    rw [drawStep_of_tableFull hd hst, State.drawTableFull]
    split_ifs
    · exact .inl (refuseDraw_decision _ _ _ _)
    · exact .inr ⟨_, drawAt_decision _ _ _⟩
  | gather =>
    rw [drawStep_of_gather hd hst]
    by_cases hno : s.candidates d.key d.feature = []
    · rw [drawGather_of_nil hno]
      exact .inl (refuseDraw_decision _ _ _ _)
    · rw [drawGather_of_ne_nil hno]
      exact .inr ⟨_, drawAt_decision _ _ _⟩
  | divide cs =>
    rw [drawStep_of_divide hd hst, State.drawDivide]
    split
    · exact .inl (refuseDraw_decision _ _ _ _)
    · exact .inr ⟨_, rfl⟩
  | trial left tried =>
    cases left with
    | nil =>
      rw [drawStep_of_end hd hst]
      unfold State.drawEnd
      split
      · exact .inl (refuseDraw_decision _ _ _ _)
      · split
        · split_ifs
          · exact .inl (refuseDraw_decision _ _ _ _)
          · exact .inl rfl
        · exact .inl (refuseDraw_decision _ _ _ _)
    | cons p left =>
      by_cases he : s.wu.exam = none
      · rw [drawStep_of_trial hd hst he, State.drawTrial]
        split <;> exact .inr ⟨_, rfl⟩
      · rw [drawStep_of_busy hd hst he]
        exact .inr ⟨d, hd⟩
  | granting p charge fits left tried =>
    rw [drawStep_of_granting hd hst]
    exact .inr ⟨d, hd⟩

/-! ### The take and the first steps -/

theorem exec_draw {c : Nat} {copy : List Byte} {rest : List Nat} (h : s.ServesKind c copy rest 1) (n : Nat) :
    exec (.draw n) s = .next (State.drawSteps n (drawRequestCheck c copy (s.takenFrom c rest))) :=
  next_congr (congrArg (State.drawSteps n) (withRequest_of_serves h drawRequestCheck))

/-- R44: the first field out of range. -/
theorem drawBadField_some {copy : List Byte} (h : readLE copy 4 2 = 0 ∨ (byteAt copy 6).toNat = 0 ∨ 64 < (byteAt copy 6).toNat ∨
    1024 < readLE copy 8 2) : drawBadField copy =
      some (if readLE copy 4 2 = 0 then 4 else if (byteAt copy 6).toNat = 0 ∨ 64 < (byteAt copy 6).toNat then 6 else 8) := by
  unfold drawBadField
  by_cases hf : readLE copy 4 2 = 0
  · rw [if_pos hf, if_pos hf]
  · by_cases hq : (byteAt copy 6).toNat = 0 ∨ 64 < (byteAt copy 6).toNat
    · rw [if_neg hf, if_neg hf, if_pos hq, if_pos hq]
    · have hu : 1024 < readLE copy 8 2 := ((h.resolve_left hf).imp_right id).elim (fun h => absurd (.inl h) hq) fun h =>
        h.resolve_left fun h => hq (.inr h)
      rw [if_neg hf, if_neg hf, if_neg hq, if_neg hq, if_pos hu]

theorem drawBadField_none {copy : List Byte} (hf : readLE copy 4 2 ≠ 0) (h1 : 1 ≤ (byteAt copy 6).toNat) (h64 : (byteAt copy 6).toNat ≤ 64)
    (hu : readLE copy 8 2 ≤ 1024) : drawBadField copy = none := by
  unfold drawBadField
  rw [if_neg hf, if_neg (by omega), if_neg (by omega)]

/-- R45: the DRAW as taken. -/
theorem drawRequest_eq (c : Nat) (copy : List Byte) : drawRequest c copy = ⟨c, readLE copy 4 2, BitVec.ofNat 32 (readLE copy 16 4),
    (byteAt copy 6).toNat, max 1 (readLE copy 8 2), min (byteAt copy 7).toNat 3, readLE copy 10 2, readLE copy 12 2, .clock⟩ := by
  have hunits : (if readLE copy 8 2 = 0 then 1 else readLE copy 8 2) = max 1 (readLE copy 8 2) := by split_ifs <;> omega
  have hcls : (if 3 < (byteAt copy 7).toNat then 3 else (byteAt copy 7).toNat) = min (byteAt copy 7).toNat 3 := by split_ifs <;> omega
  unfold drawRequest
  rw [hunits, hcls]
  rfl

/-- R48: the records the lookup finds, in rising index. -/
theorem State.Canonical.mem_revivalLookup (hs : s.Canonical) (key : Word) (feature : Nat) (f : FoundRecord) :
    f ∈ s.revivalLookup key feature ↔ f.index < 4096 ∧ (s.lease f.index).st = .lingering ∧ (s.lease f.index).key = key ∧
      (s.lease f.index).feature = feature ∧ f.pool = (s.lease f.index).pool ∧ f.charge = (s.lease f.index).charge ∧
      f.generation = (s.lease f.index).generation := by
  rw [State.revivalLookup, List.mem_map]
  constructor
  · rintro ⟨⟨i, l⟩, he, rfl⟩
    obtain ⟨hm, hl⟩ := List.mem_filter.1 he
    obtain ⟨hi, rfl, -⟩ := (mem_leases ((canonical_iff s).2 hs) i l).1 hm
    obtain ⟨hst, hkey, hfeature⟩ := of_decide_eq_true hl
    exact ⟨hi, hst, hkey, hfeature, rfl, rfl, rfl⟩
  · obtain ⟨i, pool, charge, generation⟩ := f
    simp only
    rintro ⟨hi, hst, hkey, hfeature, rfl, rfl, rfl⟩
    refine ⟨(i, s.lease i), List.mem_filter.2 ⟨Table.mem_of_get_ne fun he => ?_, decide_eq_true ⟨hst, hkey, hfeature⟩⟩, rfl⟩
    rw [State.lease, he] at hst
    cases hst

theorem State.Canonical.revivalLookup_rising (hs : s.Canonical) (key : Word) (feature : Nat) :
    ((s.revivalLookup key feature).map FoundRecord.index).Pairwise (· < ·) := by
  rw [State.revivalLookup, List.map_map]
  exact ((Table.canonical_iff _ _).1 hs.leases_canonical).1.sublist (List.filter_sublist.map _)

/-- Section 1.3: the structural candidates. -/
theorem isCandidate_iff {p feature : Nat} {key : Word} :
    s.IsCandidate p feature key ↔ p < 512 ∧ s.structuralCandidate p key feature = true := by
  unfold State.IsCandidate State.structuralCandidate Params.lists Params.serves keyMatches
  rw [Bool.and_eq_true, Bool.and_eq_true, serving_iff, List.contains_iff_mem, decide_eq_true_iff, and_assoc]

theorem mem_candidates (key : Word) (feature : Nat) (c : Candidate) : c ∈ s.candidates key feature ↔ s.IsCandidate c.pool feature key ∧
    c.rank = (s.params c.pool).rank ∧ c.validFrom = (s.params c.pool).validFrom ∧ c.validTo = (s.params c.pool).validTo := by
  rw [State.candidates, mem_sortByKey, List.mem_map, isCandidate_iff]
  simp only [List.mem_filter, List.mem_range]
  constructor
  · rintro ⟨p, ⟨hp, hc⟩, rfl⟩
    exact ⟨⟨hp, hc⟩, rfl, rfl, rfl⟩
  · obtain ⟨p, rank, validFrom, validTo⟩ := c
    simp only
    rintro ⟨⟨hp, hc⟩, rfl, rfl, rfl⟩
    exact ⟨p, ⟨hp, hc⟩, rfl⟩

theorem candidates_ne_nil {key : Word} {feature : Nat} : s.candidates key feature ≠ [] ↔ ∃ p, s.IsCandidate p feature key := by
  constructor
  · intro hne
    obtain ⟨c, hc⟩ := List.exists_mem_of_ne_nil _ hne
    exact ⟨c.pool, ((mem_candidates key feature c).1 hc).1⟩
  · rintro ⟨p, hp⟩
    exact List.ne_nil_of_mem ((mem_candidates key feature ⟨p, (s.params p).rank, (s.params p).validFrom, (s.params p).validTo⟩).2
      ⟨hp, rfl, rfl, rfl⟩)

theorem candidates_eq_nil {key : Word} {feature : Nat} (h : ∀ p, ¬ s.IsCandidate p feature key) : s.candidates key feature = [] := by
  by_contra hne
  obtain ⟨p, hp⟩ := candidates_ne_nil.1 hne
  exact h p hp

/-- R44, R45: the checks of a DRAW, and its take. -/
theorem draw_taken {c : Nat} {copy : List Byte} {rest : List Nat} (hs : s.ServesKind c copy rest 1) :
    (∀ off, drawBadField copy = some off → ∀ n,
      exec (.draw n) s = .next ((s.takenFrom c rest).handAnswer c (badFieldAnswer off))) ∧
    (drawBadField copy = none → ∀ n,
      exec (.draw n) s = .next (State.drawSteps n ((s.takenFrom c rest).deciding (some (.draw (drawRequest c copy)))))) := by
  constructor
  · intro off hoff n
    have hd : ((s.takenFrom c rest).handAnswer c (badFieldAnswer off)).decision = none := hs.1.2.1
    rw [exec_draw hs, drawRequestCheck, hoff]
    exact next_congr (drawSteps_of_not_draw n fun d h => by cases hd.symm.trans h)
  · intro hnone n
    rw [exec_draw hs, drawRequestCheck, hnone]
    rfl

/-- Settles O22: the checks, the first steps by their stages, and the run of steps. -/
theorem drawFirstSteps : Obligations.DrawFirstSteps := by
  refine ⟨?_, fun s d hd => ⟨fun hst hclock => ?_, fun hst hclock => ?_, fun hst hcan => ?_, fun hst hfull => ?_, fun hst hfull => ?_,
    fun hst hno => ?_⟩, fun s d n hd => ⟨exec_draw_inHand hd 0, ⟨s.drawStep, exec_draw_one hd, ?_⟩, fun p charge fits left tried hst => ?_,
    fun i g hst => ?_⟩⟩
  · rintro s c copy rest hs feature quantity units cls rfl rfl rfl rfl
    obtain ⟨hrefused, htaken⟩ := draw_taken hs
    refine ⟨fun hbad n => ⟨_, hrefused _ (drawBadField_some hbad) n, rfl, taken_answered s c rest _⟩, fun hf h1 h64 hu => ?_⟩
    have hok := drawBadField_none hf h1 h64 hu
    obtain ⟨hall, hframe, hlist, hst, hother⟩ := taken_inHand hs.1 (.draw (drawRequest c copy))
    refine ⟨(s.takenFrom c rest).deciding (some (.draw (drawRequest c copy))), htaken hok 0, ?_, hframe, hlist, hother, hst, fun n => ?_⟩
    · rw [← drawRequest_eq]
      exact hall
    · rw [htaken hok n]
      exact (exec_draw_inHand (d := drawRequest c copy) rfl n).symm
  · refine ⟨_, exec_draw_one hd, ?_⟩
    rw [drawStep_of_clock hd hst, State.drawClock, hclock]
    exact refuseDraw_unnamed s d _
  · rw [exec_draw_one hd, drawStep_of_clock hd hst, State.drawClock, hclock]
    rfl
  · rw [canonical_iff] at hcan
    refine ⟨s.revivalLookup d.key d.feature, ?_, hcan.revivalLookup_rising _ _, hcan.mem_revivalLookup _ _⟩
    rw [exec_draw_one hd, drawStep_of_lookup hd hst]
    rfl
  · refine ⟨_, exec_draw_one hd, ?_⟩
    rw [drawStep_of_tableFull hd hst, State.drawTableFull, lowestFree_eq_none.2 hfull]
    exact refuseDraw_unnamed s d _
  · rw [exec_draw_one hd, drawStep_of_tableFull hd hst, State.drawTableFull,
      if_neg fun hn => hfull (lowestFree_eq_none.1 (Option.isNone_iff_eq_none.1 hn)), State.drawAt]
  · refine ⟨_, exec_draw_one hd, ?_⟩
    rw [drawStep_of_gather hd hst, drawGather_of_nil (candidates_eq_nil hno)]
    exact refuseDraw_unnamed s d _
  · rw [exec_draw_inHand hd (n + 1), State.drawSteps]
    rcases drawStep_decision hd with hnone | ⟨d', hd'⟩
    · exact .inl ⟨hnone, next_congr (drawSteps_of_not_draw n fun d' h => by cases hnone.symm.trans h)⟩
    · exact .inr ⟨⟨d', hd'⟩, (exec_draw_inHand hd' n).symm⟩
  · rw [exec_draw_inHand hd]
    exact next_congr (drawSteps_of_still (drawStep_of_granting hd hst) n)
  · rw [exec_draw_inHand hd]
    exact next_congr (drawSteps_of_still (drawStep_of_reviving hd hst) n)

/-! ### Candidates -/

theorem Candidate.order_lt_iff {a b : Candidate} (ha : a.pool < 512) (hb : b.pool < 512) :
    a.order < b.order ↔ a.rank < b.rank ∨ a.rank = b.rank ∧ a.pool < b.pool := by
  have h (c : Candidate) : c.order = c.rank * 512 + c.pool := rfl
  rw [h, h]
  omega

/-- R2: the candidates are in candidate order, each once. -/
theorem candidates_ordered (key : Word) (feature : Nat) : (s.candidates key feature).Pairwise
    (fun a b => a.rank < b.rank ∨ a.rank = b.rank ∧ a.pool < b.pool) := by
  have hbelow (c : Candidate) (hc : c ∈ s.candidates key feature) : c.pool < 512 := ((mem_candidates key feature c).1 hc).1.1
  have hle : ((s.candidates key feature).map Candidate.order).Pairwise (· ≤ ·) := sortByKey_pairwise _ _
  have hnodup : ((s.candidates key feature).map Candidate.pool).Nodup := by
    refine (((sortByKey_perm _ _).map Candidate.pool).nodup_iff).2 ?_
    rw [List.map_map]
    exact (List.map_id _).symm ▸ (List.nodup_range.filter _)
  rw [List.pairwise_map] at hle
  rw [List.Nodup, List.pairwise_map] at hnodup
  refine (hle.and hnodup).imp_of_mem fun {a b} ha hb ⟨hle, hne⟩ => ?_
  rw [← Candidate.order_lt_iff (hbelow a ha) (hbelow b hb)]
  refine Nat.lt_of_le_of_ne hle fun he => hne ?_
  have h (c : Candidate) : c.order = c.rank * 512 + c.pool := rfl
  have := hbelow a ha
  have := hbelow b hb
  rw [h, h] at he
  omega

/-- R53: the division, from whatever candidates were gathered. -/
theorem divide_step {cs : List Candidate} (hd : s.decision = some (.draw d)) (hst : d.stage = .divide cs) :
    (remainingCandidates s.su.frame cs ≠ [] →
      s.drawStep = { s with decision := some (.draw { d with stage := .trial (remainingCandidates s.su.frame cs) [] }) }) ∧
    ∀ a, remainingCandidates s.su.frame cs = [] → cs.head? = some a → RefusedNaming s s.drawStep d .expired a.pool := by
  rw [drawStep_of_divide hd hst, State.drawDivide]
  constructor
  · intro hne
    cases hr : remainingCandidates s.su.frame cs with
    | nil => exact absurd hr hne
    | cons p rest => rfl
  · intro a hnil ha
    rw [hnil, ha]
    exact refuseDraw_naming s d _ _

/-- Settles O23: the gathering in candidate order, and the division. -/
theorem drawCandidatesInOrder : Obligations.DrawCandidatesInOrder := by
  refine ⟨fun s d cs remaining hd hst hrem => ?_, fun s d hd hst hex => ?_⟩
  · obtain rfl : remaining = remainingCandidates s.su.frame cs := hrem
    obtain ⟨hgo, hend⟩ := divide_step hd hst
    exact ⟨fun hne => (exec_draw_one hd).trans (next_congr (hgo hne)), fun a hnil ha => ⟨_, exec_draw_one hd, hend a hnil ha⟩⟩
  · have hne := candidates_ne_nil.2 hex
    have hgather : s.drawStep = { s with decision := some (.draw { d with stage := .divide (s.candidates d.key d.feature) }) } :=
      (drawStep_of_gather hd hst).trans (drawGather_of_ne_nil hne)
    have htwo : exec (.draw 2) s = .next s.drawStep.drawStep := exec_draw_inHand hd 2
    obtain ⟨hgo, hend⟩ := divide_step (s := s.drawStep) (d := { d with stage := .divide (s.candidates d.key d.feature) })
      (by rw [hgather]) rfl
    have hframe : s.drawStep.su.frame = s.su.frame := by rw [hgather]
    rw [hframe] at hgo hend
    refine ⟨s.candidates d.key d.feature, fun p => ?_, candidates_ordered _ _, fun a ha => ?_, ?_,
      remainingCandidates s.su.frame (s.candidates d.key d.feature), List.filter_sublist.map _, fun a ha => ?_, fun hrem => ?_, fun hrem => ?_⟩
    · rw [List.mem_map]
      constructor
      · rintro ⟨c, hc, rfl⟩
        exact ((mem_candidates _ _ c).1 hc).1
      · intro hp
        exact ⟨⟨p, (s.params p).rank, (s.params p).validFrom, (s.params p).validTo⟩, (mem_candidates _ _ _).2 ⟨hp, rfl, rfl, rfl⟩, rfl⟩
    · exact ((mem_candidates _ _ a).1 ha).2
    · rw [exec_draw_one hd, hgather]
    · rw [remainingCandidates, List.mem_map]
      constructor
      · rintro ⟨b, hb, hpool⟩
        obtain ⟨hb, hwithin⟩ := List.mem_filter.1 hb
        obtain ⟨-, -, hbf, hbt⟩ := (mem_candidates _ _ b).1 hb
        obtain ⟨-, -, haf, hat⟩ := (mem_candidates _ _ a).1 ha
        rw [haf, hat, ← hpool, ← hbf, ← hbt]
        exact of_decide_eq_true hwithin
      · intro hwithin
        exact ⟨a, List.mem_filter.2 ⟨ha, decide_eq_true hwithin⟩, rfl⟩
    · rw [htwo, hgo hrem, hgather]
    · cases hc : s.candidates d.key d.feature with
      | nil => exact absurd hc hne
      | cons a rest =>
        rw [hc] at hend hrem hgather
        have h := hend a hrem rfl
        refine ⟨_, a, rfl, htwo, ?_⟩
        unfold RefusedNaming AnsweredFrame Answered State.cell at h ⊢
        rw [hgather] at h ⊢
        exact h

/-! ### The trial, the end of the search, and the records found -/

/-- R38: the verdict of a trial, condition by condition. -/
theorem trialVerdict_eq (s : State) (p cls charge : Nat) : s.trialVerdict p cls charge =
    if (s.pool p).st.serving = false then some .state
    else if s.windowOpen p = false then some .window
    else if 65535 < charge then some .chargeLimit
    else if holdsClass (s.queue p) cls = true then some .classRule
    else none := by
  unfold State.trialVerdict
  cases (s.pool p).st.serving <;> cases s.windowOpen p <;> rfl

/-- Settles O24: the trial by its verdict. -/
theorem drawTrialJudges : Obligations.DrawTrialJudges := by
  refine ⟨fun s d p left tried hd hst he => (exec_draw_one hd).trans (next_congr (drawStep_of_busy hd hst he)), ?_⟩
  rintro s d p charge left tried hd hst he hcharge serving openNow blocked fits hserving hopen hblocked hfits stage rfl
  rw [exec_draw_one hd, drawStep_of_trial hd hst he]
  have hserves : (s.pool p).st.serving = serving := by rw [hserving, Bool.eq_iff_iff, serving_iff, decide_eq_true_iff]
  have hcharge' : s.chargeOn p d.quantity d.units = charge := hcharge.symm
  have hwindow : s.windowOpen p = openNow := hopen.symm
  have hclass : holdsClass (s.queue p) d.cls = blocked := hblocked.symm
  have hfits' : fitsCapacity charge (s.params p).capacity = fits := hfits.symm
  unfold State.drawTrial
  simp only [trialVerdict_eq, State.trialRecord, hserves, hcharge', hwindow, hclass, hfits', State.drawAt]
  split_ifs <;> rfl

/-- R61, Table 3-3: the first row that holds. -/
theorem refusalCode_eq (tried : List TrialRecord) : refusalCode tried =
    if ∀ r ∈ tried, 65535 < r.charge then .chargeLimit
    else if ∀ r ∈ tried, r.fits = false then .exceedsCapacity
    else if ∀ r ∈ tried, r.fits = true → r.windowOpen = false then .outOfWindow
    else .exhausted := by
  have hrow (r : TrialRecord) : (!r.fits || !r.windowOpen) = true ↔ (r.fits = true → r.windowOpen = false) := by
    cases r.fits <;> cases r.windowOpen <;> simp
  unfold refusalCode
  simp only [List.all_eq_true, decide_eq_true_iff, Bool.not_eq_true', hrow]

/-- R58: no candidate fits capacity. -/
theorem homePool_none {tried : List TrialRecord} (h : ∀ r ∈ tried, r.fits = false) : homePool tried = none := by
  rw [homePool, Option.map_eq_none_iff, List.find?_eq_none]
  intro r hr hf
  rw [h r hr] at hf
  cases hf

/-- R58: the first candidate that fits capacity gives the home pool. -/
theorem homePool_first {before after : List TrialRecord} {r : TrialRecord} (hr : r.fits = true) (h : ∀ b ∈ before, b.fits = false) :
    homePool (before ++ r :: after) = some r.pool := by
  rw [homePool, List.find?_append, List.find?_cons_of_pos hr,
    List.find?_eq_none.2 fun b hb hf => by rw [h b hb] at hf; cases hf]
  rfl

/-- R59, R61: a search that does not park is refused, naming the first remaining candidate. -/
theorem drawEnd_refuses (s : State) {first : TrialRecord} {after : List TrialRecord}
    (h : d.waitLimit = 0 ∨ ∀ r ∈ first :: after, r.fits = false) :
    s.drawEnd d (first :: after) = s.refuseDraw d (refusalCode (first :: after)) (some first.pool) := by
  unfold State.drawEnd
  simp only
  cases hh : homePool (first :: after) with
  | none => rfl
  | some home =>
    refine if_pos (h.resolve_right fun hno => ?_)
    rw [homePool_none hno] at hh
    cases hh

/-- Settles O25: the end of the search by its trial records. -/
theorem drawEndParksOrRefuses : Obligations.DrawEndParksOrRefuses := by
  intro s d tried hd hst
  refine ⟨fun hnil => ⟨_, exec_draw_one hd, ?_⟩, fun before r after htried hr hbefore hwait => ?_, fun first after htried hrefuse =>
    ⟨_, exec_draw_one hd, ?_⟩⟩
  · subst hnil
    rw [drawStep_of_end hd hst]
    exact refuseDraw_unnamed s d _
  · have hhome := homePool_first (after := after) hr hbefore
    rw [← htried] at hhome
    rw [exec_draw_one hd, drawStep_of_end hd hst]
    cases htr : tried with
    | nil =>
      rw [htr] at htried
      exact absurd htried.symm (List.append_ne_nil_of_right_ne_nil _ (List.cons_ne_nil _ _))
    | cons first rest =>
      rw [htr] at hhome
      unfold State.drawEnd
      simp only [hhome, if_neg hwait]
      rfl
  · subst htried
    rw [drawStep_of_end hd hst, drawEnd_refuses s hrefuse, refusalCode_eq]
    refine ⟨fun hlimit => ?_, fun hlimit hfits => ?_, fun ⟨r, hr, hf⟩ hclosed hlimit => ?_, fun ⟨r, hr, hf, ho⟩ hlimit => ?_⟩
    · rw [if_pos hlimit]
      exact refuseDraw_naming s d _ _
    · rw [if_neg hlimit, if_pos hfits]
      exact refuseDraw_naming s d _ _
    · rw [if_neg hlimit, if_neg fun h => absurd hf (by rw [h r hr]; nofun), if_pos hclosed]
      exact refuseDraw_naming s d _ _
    · rw [if_neg hlimit, if_neg fun h => absurd hf (by rw [h r hr]; nofun), if_neg fun h => absurd ho (by rw [h r hr hf]; nofun)]
      exact refuseDraw_naming s d _ _

/-- R48: a record found qualifies. -/
theorem qualifies_iff {f : FoundRecord} (hp : f.pool < 512) : s.qualifies d f = true ↔
    s.IsCandidate f.pool d.feature d.key ∧ (s.params f.pool).validFrom.toNat ≤ s.su.frame.toNat ∧
      s.su.frame.toNat ≤ (s.params f.pool).validTo.toNat ∧ (s.activeMask f.pool).getLsbD s.su.slot = true ∧
      s.chargeOn f.pool d.quantity d.units ≤ f.charge := by
  unfold State.qualifies Params.within withinFrames State.windowOpen maskOpen
  simp only [Bool.and_eq_true, decide_eq_true_iff, isCandidate_iff, hp, true_and, and_assoc]

/-- Settles O26: the first record found is presented or passed over. -/
theorem drawPresentsFirstQualifying : Obligations.DrawPresentsFirstQualifying := by
  intro s d found hd hst
  rw [exec_draw_one hd, drawStep_of_qualify hd hst]
  refine ⟨fun hnil => by rw [hnil]; rfl, fun f rest hf hp ok hok => ?_⟩
  subst hf
  rw [← qualifies_iff hp] at hok
  exact ⟨fun h => next_congr (if_pos (hok.1 h)), fun h => next_congr (if_neg fun hq => h (hok.2 hq))⟩

/-! ### The grant event and the revival event -/

theorem GrantMade.congr {u : State} {p charge i feature request : Nat} {key : Word} (h : GrantMade s u p charge i feature request key)
    (het : t.et = u.et) (hlt : t.lt = u.lt) (hmu : t.mu = u.mu)
    (hframe : t = { s with xi := t.xi, et := t.et, lt := t.lt, mu := t.mu, wu := t.wu, decision := t.decision }) :
    GrantMade s t p charge i feature request key := by
  obtain ⟨period, flag, hperiod, hflag, hlease, hother, hpool, hpools, hfloor, hmeter, -⟩ := h
  refine ⟨period, flag, hperiod, hflag, ?_, fun j hj => ?_, ?_, fun q hq => ?_, ?_, hmu.trans hmeter, hframe⟩
  · rw [State.lease_congr hlt, hlease]
  · rw [State.lease_congr hlt, hother j hj]
  · rw [State.pool_congr het, hpool]
  · rw [State.pool_congr het, hpools q hq]
  · rw [het, hfloor]

/-- R57: the answer of a grant is that of the lease it leaves. -/
theorem grantAnswer_eq {p charge i feature request : Nat} {key : Word} (h : GrantMade s t p charge i feature request key) :
    grantAnswer t p i charge = grantedAnswer 0 p i (s.lease i).generation charge (grantedPeriod (s.params p) request) := by
  obtain ⟨period, flag, hperiod, -, hlease, -⟩ := h
  rw [grantAnswer, hlease, hperiod]
  rfl

/-- R17: a grant passes for the FREE record of lowest index. -/
theorem lowestFree_of_passes {p charge i : Nat} {key : Word} (h : s.GrantPasses p charge i key) : s.lowestFree = some i :=
  lowestFree_eq_some.2 ⟨h.2.2.2.1, h.2.2.2.2⟩

theorem exec_admissionGrant {p charge : Nat} {fits : Bool} {left : List Nat} {tried : List TrialRecord}
    (hd : s.decision = some (.draw d)) (hst : d.stage = .granting p charge fits left tried) :
    exec (.grantEvent .admissionUnit) s = .next (s.drawGrant d p charge fits left tried) := by
  refine next_congr ?_
  unfold State.admissionGrant
  rw [hd]
  simp only [hst]

/-- Settles O27: by the verdict of the grant event. -/
theorem admissionGrantEvent : Obligations.AdmissionGrantEvent := by
  intro s d p charge fits left tried hd hst
  rw [exec_admissionGrant hd hst]
  refine ⟨fun i hi => ?_, fun hno kind stage hkind hstage => ?_⟩
  · have hmade := (makeLease_made s p charge i d.feature d.period d.key).congr
      (t := State.handAnswer { s.makeLease p d.key d.feature charge d.period i with decision := none } d.cell
        (grantedAnswer 0 p i (s.lease i).generation charge (grantedPeriod (s.params p) d.period))) rfl rfl rfl rfl
    refine ⟨_, ?_, hmade, rfl, rfl, ?_⟩
    · unfold State.drawGrant
      rw [grantVerdict_none_iff.2 ⟨i, hi⟩, lowestFree_of_passes hi]
    · rw [grantAnswer_eq hmade]
      exact handAnswer_answered ((s.makeLease p d.key d.feature charge d.period i).deciding none) d.cell _
  · subst hkind hstage
    unfold State.drawGrant
    rw [grantVerdict_of_fails hno]
    refine next_congr ?_
    by_cases hserving : (s.pool p).st ≠ .active ∧ (s.pool p).st ≠ .draining
    · simp only [if_pos hserving]
      rfl
    · simp only [if_neg hserving]
      split_ifs <;> rfl

/-- Settles O28: by whether the record is still the one the lookup saw. -/
theorem revivalEvent : Obligations.RevivalEvent := by
  rintro s d i g l p hd hst rfl rfl
  have hexec : exec .revival s = .next (s.reviveRecord d i g) := by
    simp only [exec, execRevival, hd, hst]
  refine ⟨fun hl hg => ?_, fun hno => hexec.trans (next_congr (if_neg hno))⟩
  refine ⟨_, grantedPeriod (s.params (s.lease i).pool) d.period, rfl, hexec.trans (next_congr (if_pos ⟨hl, hg⟩)), rfl,
    (State.lease_setLease s i i _).trans (if_pos rfl), fun j hj => (State.lease_setLease s i j _).trans (if_neg hj), ?_⟩
  rw [← hg]
  exact handAnswer_answered (s.deciding none) d.cell _

end Sys2Proof.Machine
end

