-- ==== Sys2Proof/Proofs/Waits.lean ====
section
/-! SUPPORT. Parking (O29), examinations (O30), the grant event of a waiter (O31) and commit reports (O32). -/

namespace Sys2Proof.Machine

variable {s t : State}

/-! ### Parking -/

theorem holdsClass_iff {q : List Waiter} {cls : Nat} : holdsClass q cls = true ↔ ∃ w ∈ q, w.cls ≤ cls := by
  simp only [holdsClass, List.any_eq_true, decide_eq_true_iff]

/-- R66: the place of a new entry: behind the last entry as urgent or more urgent. -/
theorem placeWaiter_splits (w : Waiter) (q : List Waiter) : ∃ ahead behind, q = ahead ++ behind ∧ placeWaiter w q = ahead ++ w :: behind ∧
    (∀ v ∈ behind, w.cls < v.cls) ∧ ∀ v, ahead.getLast? = some v → v.cls ≤ w.cls := by
  induction q with
  | nil => exact ⟨[], [], rfl, rfl, nofun, nofun⟩
  | cons v q ih =>
    by_cases h : holdsClass (v :: q) w.cls = true
    · obtain ⟨ahead, behind, rfl, hplace, hbehind, hlast⟩ := ih
      refine ⟨v :: ahead, behind, rfl, by rw [placeWaiter, if_pos h, hplace]; rfl, hbehind, fun x hx => ?_⟩
      cases ahead with
      | nil =>
        cases hx
        obtain ⟨y, hy, hle⟩ := holdsClass_iff.1 h
        rcases List.mem_cons.1 hy with rfl | hy
        · exact hle
        · exact absurd hle (Nat.not_le.2 (hbehind y hy))
      | cons a ahead =>
        rw [List.getLast?_cons_cons] at hx
        exact hlast x hx
    · refine ⟨[], v :: q, rfl, by rw [placeWaiter, if_neg h]; rfl, fun x hx => Nat.lt_of_not_le fun hle => h (holdsClass_iff.2 ⟨x, hx, hle⟩), nofun⟩

theorem exec_parking {e : ParkingEvent} {rest : List ParkingEvent} (h : s.wu.parkInbox = e :: rest) (he : s.wu.exam = none) :
    exec .parking s = .next (State.takeParking { s with wu.parkInbox := rest } e) := by
  simp only [exec, execParking, h, he]

/-- Settles O29: by the state of the home pool. -/
theorem parkingPlacesByClass : Obligations.ParkingPlacesByClass := by
  refine fun s e rest h => ⟨fun he => ?_, fun he hserving => ?_, fun he hgone => ?_⟩
  · obtain ⟨x, hx⟩ := Option.ne_none_iff_exists'.1 he
    simp only [exec, execParking, h, hx]
  · obtain ⟨ahead, behind, hq, hplace, hbehind, hlast⟩ := placeWaiter_splits e.waiter (s.queue e.home)
    refine ⟨_, ahead, behind, (exec_parking h he).trans (next_congr (if_pos ((serving_iff _).2 hserving))), hq, ?_⟩
    refine ⟨?_, fun p hp => ?_, hbehind, hlast, ?_, fun c hc => ?_, rfl⟩
    · exact (State.queue_setQueue s e.home e.home _).trans ((if_pos rfl).trans hplace)
    · exact (State.queue_setQueue s e.home p _).trans (if_neg hp)
    · exact congrArg Cell.st ((State.cell_setCellState s e.waiter.cell e.waiter.cell .waiting).trans (if_pos rfl))
    · exact (State.cell_setCellState s e.waiter.cell c .waiting).trans (if_neg hc)
  · have hno : ¬ (s.pool e.home).st.serving = true := fun hs => by
      have hst := (serving_iff _).1 hs
      rcases hgone with hg | hg <;> rw [hg] at hst <;> rcases hst with hst | hst <;> cases hst
    refine ⟨_, (exec_parking h he).trans (next_congr (if_neg hno)), rfl, ?_⟩
    exact handAnswer_answered { s with wu.parkInbox := rest } e.waiter.cell (plainAnswer .poolRetired (poolField e.home))

/-! ### Examinations -/

theorem exec_examination (s : State) (n : Nat) : exec (.examination n) s = .next (State.examSteps n s.beginExam) := rfl

theorem exec_examination_first (s : State) : exec (.examination 1) s = .next s.beginExam.examStep := rfl

theorem beginExam_of_exam (h : s.wu.exam ≠ none) : s.beginExam = s := by
  obtain ⟨x, hx⟩ := Option.ne_none_iff_exists'.1 h
  unfold State.beginExam
  rw [hx]

theorem beginExam_of_idle (h : s.wu.exam = none) (hdue : s.wu.due = []) : s.beginExam = s := by
  unfold State.beginExam
  rw [h, hdue]

theorem beginExam_of_due {p : Nat} {due : List Nat} (h : s.wu.exam = none) (hdue : s.wu.due = p :: due) :
    s.beginExam = { s with wu := { s.wu with due := due, exam := some ⟨p, .poolState⟩ } } := by
  unfold State.beginExam
  rw [h, hdue]

theorem examStep_of_none (h : s.wu.exam = none) : s.examStep = s := by
  unfold State.examStep
  rw [h]

theorem examStep_of_poolState {p : Nat} (h : s.wu.exam = some ⟨p, .poolState⟩) : s.examStep = s.examPoolState p := by
  unfold State.examStep
  rw [h]

theorem examStep_of_validity {p : Nat} (h : s.wu.exam = some ⟨p, .validity⟩) : s.examStep = s.examValidity p := by
  unfold State.examStep
  rw [h]

theorem examStep_of_head {p : Nat} (h : s.wu.exam = some ⟨p, .head⟩) : s.examStep = s.examHead p := by
  unfold State.examStep
  rw [h]

theorem examStep_of_granting {p charge : Nat} (h : s.wu.exam = some ⟨p, .granting charge⟩) : s.examStep = s := by
  unfold State.examStep
  rw [h]

theorem examSteps_of_still (h : s.examStep = s) (n : Nat) : State.examSteps n s = s := by
  induction n with
  | zero => rfl
  | succ n ih => rw [State.examSteps, h, ih]

/-- R79: a housekeeping tick begins and ends no examination. -/
theorem waitTick_exam (s : State) : s.waitTick.wu.exam = s.wu.exam := by
  unfold State.waitTick
  split_ifs
  · unfold State.countDeadlines
    simp only [State.makeDue, expireAll_eq]
    rw [handAnswers_frame]
  · rfl

theorem waitTicks_exam (n : Nat) (s : State) : (State.waitTicks n s).wu.exam = s.wu.exam := by
  induction n generalizing s with
  | zero => rfl
  | succ n ih => exact (ih s.waitTick).trans (waitTick_exam s)

theorem endExam_exam (s : State) (p : Nat) (stalled : Bool) : (s.endExam p stalled).wu.exam = none := waitTicks_exam _ _

/-- R71, R72: a flush that ends an examination, judged from the state before the examination. -/
theorem QueueFlushed.of_exam {x : Option Examination} {p : Nat} {r : Result}
    (h : QueueFlushed { s with wu := { s.wu with exam := x } } t p r) : QueueFlushed s t p r := by
  obtain ⟨u, hu, hframe, hans, hq, hother, hover⟩ := h
  exact ⟨{ u with wu := { u.wu with exam := s.wu.exam } },
    congrArg (fun v : State => { v with wu := { v.wu with exam := s.wu.exam } }) hu, hframe, hans, hq, hother, hover⟩

/-- Log entry 21: the examination in hand is no table. -/
theorem canonical_exam (h : s.canonical = true) (x : Option Examination) :
    ({ s with wu := { s.wu with exam := x } } : State).canonical = true := h

/-- Log entry 21: the due set stays rising when its first pool leaves it. -/
theorem canonical_begun {p : Nat} {due : List Nat} (h : s.canonical = true) (hdue : s.wu.due = p :: due) :
    ({ s with wu := { s.wu with due := due } } : State).canonical = true := by
  refine canonical_withWait h rfl (canonical_queues h :) ((canonical_sets h).1 :) ?_
  have hr := (canonical_sets h).2
  rw [rising, hdue, decide_eq_true_iff, List.pairwise_cons] at hr
  exact decide_eq_true hr.2

/-- R71: the pool's state is read. -/
theorem examPoolState_step {p : Nat} (h : s.canonical = true) :
    ((s.pool p).st = .absent ∨ (s.pool p).st = .retiring → QueueFlushed s (s.examPoolState p) p .poolRetired ∧
      (s.examPoolState p).wu.exam = none) ∧
    ((s.pool p).st = .active ∨ (s.pool p).st = .draining →
      s.examPoolState p = { s with wu := { s.wu with exam := some ⟨p, .validity⟩ } }) := by
  unfold State.examPoolState
  refine ⟨fun hgone => ?_, fun hserving => if_pos ((serving_iff _).2 hserving)⟩
  rw [if_neg fun hs => ?_]
  · exact ⟨(flush_flushed h p).1, endExam_exam _ _ _⟩
  · have hst := (serving_iff _).1 hs
    rcases hgone with hg | hg <;> rw [hg] at hst <;> rcases hst with hst | hst <;> cases hst

/-- R72: the pool's validity is judged. -/
theorem examValidity_step {p : Nat} (h : s.canonical = true) :
    ((s.pool p).st = .absent → ExamOver s (s.examValidity p) p false) ∧
    ((s.pool p).st ≠ .absent →
      ((s.params p).validTo.toNat < s.su.frame.toNat → QueueFlushed s (s.examValidity p) p .expired) ∧
      (s.su.frame.toNat ≤ (s.params p).validTo.toNat → s.su.frame.toNat < (s.params p).validFrom.toNat →
        ExamOver s (s.examValidity p) p false) ∧
      (s.su.frame.toNat ≤ (s.params p).validTo.toNat → (s.params p).validFrom.toNat ≤ s.su.frame.toNat →
        s.examValidity p = { s with wu := { s.wu with exam := some ⟨p, .head⟩ } })) := by
  unfold State.examValidity State.absentNow Params.past Params.before
  refine ⟨fun habsent => ?_, fun hpresent => ?_⟩
  · rw [if_pos (decide_eq_true habsent)]
    exact endExam_over h p false
  · rw [if_neg fun hc => hpresent (of_decide_eq_true hc)]
    refine ⟨fun hpast => ?_, fun hpast hbefore => ?_, fun hpast hbefore => ?_⟩
    · rw [if_pos (decide_eq_true hpast)]
      exact (flush_flushed h p).2
    · rw [if_neg fun hc => absurd (of_decide_eq_true hc) (Nat.not_lt.2 hpast), if_pos (decide_eq_true hbefore)]
      exact endExam_over h p false
    · rw [if_neg fun hc => absurd (of_decide_eq_true hc) (Nat.not_lt.2 hpast),
        if_neg fun hc => absurd (of_decide_eq_true hc) (Nat.not_lt.2 hbefore)]
      rfl

theorem absentNow_iff {p : Nat} : s.absentNow p = true ↔ (s.pool p).st = .absent := decide_eq_true_iff

theorem examHead_of_nil {p : Nat} (h : s.queue p = []) : s.examHead p = s.endExam p false := by
  unfold State.examHead
  rw [h]

theorem examHead_of_cons {p : Nat} {w : Waiter} {rest : List Waiter} (h : s.queue p = w :: rest) : s.examHead p =
    if s.absentNow p then s.endExam p false
    else if !fitsCapacity (s.chargeOn p w.quantity w.units) (s.params p).capacity then s.passOver p w rest
    else if s.windowOpen p then s.examAt p (.granting (s.chargeOn p w.quantity w.units))
    else s.endExam p false := by
  unfold State.examHead
  rw [h]

/-- R73, R85: the head is passed over. -/
theorem passOver_spec (s : State) (p : Nat) (w : Waiter) (rest : List Waiter) : AnsweredFrame s (s.passOver p w rest) ∧
    Answered s (s.passOver p w rest) [(w.cell, plainAnswer .exceedsCapacity (BitVec.ofNat 16 p))] ∧ (s.passOver p w rest).queue p = rest ∧
    (∀ q, q ≠ p → (s.passOver p w rest).queue q = s.queue q) ∧
    s.passOver p w rest = { s with
      xi := (s.passOver p w rest).xi
      wu := { s.wu with queues := (s.passOver p w rest).wu.queues }
      mu := { s.mu with inbox := s.mu.inbox ++ [.raise .refusals p] } } := by
  obtain ⟨hframe, hans⟩ := handAnswer_answered (s.setQueue p rest) w.cell (plainAnswer .exceedsCapacity (poolField p))
  exact ⟨hframe, hans, (State.queue_setQueue s p p rest).trans (if_pos rfl), fun q hq => (State.queue_setQueue s p q rest).trans (if_neg hq), rfl⟩

/-- The run of steps of an examination in hand. -/
theorem exec_examination_inHand (h : s.wu.exam ≠ none) (n : Nat) : exec (.examination n) s = .next (State.examSteps n s) := by
  rw [exec_examination, beginExam_of_exam h]

theorem exec_examination_one (h : s.wu.exam ≠ none) : exec (.examination 1) s = .next s.examStep := exec_examination_inHand h 1

/-- Settles O30: the stages one by one, and the run of steps. -/
theorem examinationJudgesPoolAndHead : Obligations.ExaminationJudgesPoolAndHead := by
  refine ⟨fun s p due hcan hnone hdue begun hbegun => ?_, fun s p hcan hexam => ?_, fun s p hcan hexam => ?_,
    fun s begun p due hcan hbegun => ?_, fun s n => ⟨fun hnone hdue => ?_, fun p due hnone hdue => ?_, fun hsome => ?_,
      fun p charge hexam => ?_⟩⟩
  · subst hbegun
    have hcan' := canonical_begun hcan hdue
    have htwo : exec (.examination 2) s = .next (State.examStep (State.examPoolState
        { s with wu := { s.wu with due := due, exam := some ⟨p, .poolState⟩ } } p)) := by
      rw [exec_examination, beginExam_of_due hnone hdue]
      exact next_congr (congrArg State.examStep (examStep_of_poolState rfl))
    obtain ⟨hgone, hserving⟩ := examPoolState_step (s := { s with wu := { s.wu with due := due, exam := some ⟨p, .poolState⟩ } }) (p := p)
      (canonical_exam hcan' _)
    refine ⟨fun hst => ⟨_, htwo, ?_⟩, fun hst => ?_⟩
    · obtain ⟨hflushed, hover⟩ := hgone hst
      rw [examStep_of_none hover]
      exact hflushed.of_exam (s := { s with wu := { s.wu with due := due } })
    · rw [htwo, hserving hst, examStep_of_validity rfl]
      have hpresent : (s.pool p).st ≠ .absent := fun h => by
        rw [h] at hst
        rcases hst with hst | hst <;> cases hst
      obtain ⟨hpast, hbefore, hwithin⟩ := (examValidity_step (s := { s with wu := { s.wu with due := due, exam := some ⟨p, .validity⟩ } })
        (p := p) (canonical_exam hcan' _)).2 hpresent
      exact ⟨fun h => ⟨_, rfl, (hpast h).of_exam (s := { s with wu := { s.wu with due := due } })⟩,
        fun h h' => ⟨_, rfl, hbefore h h'⟩, fun h h' => next_congr (hwithin h h')⟩
  · obtain ⟨habsent, hpresent⟩ := examValidity_step (p := p) hcan
    rw [exec_examination_one (by rw [hexam]; nofun), examStep_of_validity hexam]
    refine ⟨fun h => ⟨_, rfl, habsent h⟩, fun h => ?_⟩
    obtain ⟨hpast, hbefore, hwithin⟩ := hpresent h
    exact ⟨fun h => ⟨_, rfl, hpast h⟩, fun h h' => ⟨_, rfl, hbefore h h'⟩, fun h h' => next_congr (hwithin h h')⟩
  · rw [exec_examination_one (by rw [hexam]; nofun), examStep_of_head hexam]
    refine ⟨fun h => ⟨_, rfl, ?_⟩, fun w rest charge hq hpresent hcharge => ?_⟩
    · cases hq : s.queue p with
      | nil =>
        rw [examHead_of_nil hq]
        exact endExam_over hcan p false
      | cons w rest =>
        rw [examHead_of_cons hq, if_pos (absentNow_iff.2 (h.resolve_left fun hn => by rw [hn] at hq; cases hq))]
        exact endExam_over hcan p false
    · rw [examHead_of_cons hq, if_neg fun hc => hpresent (absentNow_iff.1 hc), ← hcharge]
      refine ⟨fun hover => ?_, fun h1 h2 => ?_⟩
      · have hno : fitsCapacity charge (s.params p).capacity = false := by
          rw [← Bool.not_eq_true, fitsCapacity_iff]
          omega
        rw [hno]
        exact ⟨_, rfl, passOver_spec s p w rest⟩
      · rw [fitsCapacity_iff.2 ⟨h1, h2⟩]
        refine ⟨fun ho => ?_, fun ho => ?_⟩
        · rw [if_neg (by nofun), if_pos (show s.windowOpen p = true from ho)]
          rfl
        · rw [if_neg (by nofun), if_neg (by rw [show s.windowOpen p = false from ho]; nofun)]
          exact ⟨_, rfl, endExam_over hcan p false⟩
  · rcases hbegun with ⟨hnone, hdue, rfl⟩ | ⟨hexam, rfl⟩
    · have hone : exec (.examination 1) s = .next (State.examPoolState
          { s with wu := { s.wu with due := due, exam := some ⟨p, .poolState⟩ } } p) := by
        rw [exec_examination_first, beginExam_of_due hnone hdue, examStep_of_poolState rfl]
      obtain ⟨hgone, hserving⟩ := examPoolState_step (s := { s with wu := { s.wu with due := due, exam := some ⟨p, .poolState⟩ } }) (p := p)
        (canonical_exam (canonical_begun hcan hdue) _)
      exact ⟨fun hst => ⟨_, hone, (hgone hst).1.of_exam (s := { s with wu := { s.wu with due := due } })⟩,
        fun hst => hone.trans (next_congr (hserving hst))⟩
    · obtain ⟨hgone, hserving⟩ := examPoolState_step (p := p) hcan
      rw [exec_examination_one (by rw [hexam]; nofun), examStep_of_poolState hexam]
      exact ⟨fun hst => ⟨_, rfl, (hgone hst).1⟩, fun hst => next_congr (hserving hst)⟩
  · rw [exec_examination, beginExam_of_idle hnone hdue]
    exact next_congr (examSteps_of_still (examStep_of_none hnone) n)
  · rw [exec_examination, exec_examination, beginExam_of_due hnone hdue, beginExam_of_exam (Option.some_ne_none _)]
  · refine ⟨exec_examination_inHand hsome 0, s.examStep, exec_examination_one hsome, ?_⟩
    rw [exec_examination_inHand hsome (n + 1), State.examSteps]
    by_cases hover : s.examStep.wu.exam = none
    · exact .inl ⟨hover, next_congr (examSteps_of_still (examStep_of_none hover) n)⟩
    · exact .inr ⟨hover, (exec_examination_inHand hover n).symm⟩
  · rw [exec_examination_inHand (by rw [hexam]; nofun)]
    exact next_congr (examSteps_of_still (examStep_of_granting hexam) n)

/-! ### The grant presented for a head -/

theorem AnsweredFrame.congr {u : State} (h : AnsweredFrame s u) (hxi : t.xi = u.xi) : AnsweredFrame s t := by
  unfold AnsweredFrame at h ⊢
  rwa [hxi]

theorem exec_waitUnitGrant {p charge : Nat} (h : s.wu.exam = some ⟨p, .granting charge⟩) :
    exec (.grantEvent .waitUnit) s = .next (s.examGrant p charge) := by
  refine next_congr ?_
  unfold State.waitUnitGrant
  rw [h]

/-- R74: a grant that passes, for the head of the queue. -/
theorem examGrant_of_passes {p charge i : Nat} {w : Waiter} {rest : List Waiter} (hq : s.queue p = w :: rest)
    (h : s.GrantPasses p charge i w.key) : s.examGrant p charge =
      (((s.makeLease p w.key w.feature charge w.period i).setQueue p rest).handAnswer w.cell
        (grantedAnswer 0 p i (s.lease i).generation charge (grantedPeriod (s.params p) w.period))).examAt p .head := by
  unfold State.examGrant
  rw [hq]
  simp only
  rw [grantVerdict_none_iff.2 ⟨i, h⟩, lowestFree_of_passes h]

/-- R75: a grant that fails ends the examination, with the mark set where only the record was missing. -/
theorem examGrant_of_fails {p charge : Nat} {w : Waiter} {rest : List Waiter} (hq : s.queue p = w :: rest) {kind : FailKind}
    (h : s.grantVerdict p w.key charge = some kind) : s.examGrant p charge = s.endExam p (decide (kind = .record)) := by
  unfold State.examGrant
  rw [hq]
  simp only
  rw [h]
  cases kind <;> rfl

/-- R75, R38: only the record was missing where the pool, its tokens and its seats would do. -/
theorem failKind_record_iff {e : Pool} {limit charge cap : Nat} :
    (if e.st ≠ .active ∧ e.st ≠ .draining then FailKind.state
      else if limit < e.inUse + charge then .tokens
      else if cap ≠ 0 ∧ cap < e.leaseCount + 1 then .seats
      else .record) = .record ↔
    (e.st = .active ∨ e.st = .draining) ∧ e.inUse + charge ≤ limit ∧ (cap = 0 ∨ e.leaseCount + 1 ≤ cap) := by
  split_ifs with h1 h2 h3
  · simp only [false_iff]
    tauto
  · simp only [false_iff]
    omega
  · simp only [false_iff]
    omega
  · simp only [true_iff]
    exact ⟨by tauto, by omega, by omega⟩

/-- Settles O31: by the verdict of the grant event. -/
theorem waiterGrantEvent : Obligations.WaiterGrantEvent := by
  intro s p charge w rest hcan hexam hq
  rw [exec_waitUnitGrant hexam]
  refine ⟨fun i hi => ?_, fun hno stalled hstalled => ⟨_, rfl, ?_⟩⟩
  · rw [examGrant_of_passes hq hi]
    generalize hv : s.makeLease p w.key w.feature charge w.period i = v
    have hmade := makeLease_made s p charge i w.feature w.period w.key
    rw [hv] at hmade
    have hmade' := hmade.congr (t := ((v.setQueue p rest).handAnswer w.cell
      (grantedAnswer 0 p i (s.lease i).generation charge (grantedPeriod (s.params p) w.period))).examAt p .head) rfl rfl rfl
      (by rw [← hv]; rfl)
    have hqueue (q : Nat) : (((v.setQueue p rest).handAnswer w.cell
        (grantedAnswer 0 p i (s.lease i).generation charge (grantedPeriod (s.params p) w.period))).examAt p .head).queue q =
        if q = p then rest else v.queue q := State.queue_setQueue v p q rest
    refine ⟨_, rfl, hmade', by rw [← hv]; rfl, (hqueue p).trans (if_pos rfl), fun q hne => (hqueue q).trans ((if_neg hne).trans ?_), ?_, ?_⟩
    · rw [← hv]
      rfl
    · rw [← hv]
      rfl
    · rw [grantAnswer_eq hmade']
      obtain ⟨hframe, hans⟩ := handAnswer_answered s w.cell
        (grantedAnswer 0 p i (s.lease i).generation charge (grantedPeriod (s.params p) w.period))
      have hxi : v.xi = s.xi := by rw [← hv]; rfl
      have hxi' := handAnswers_xi_congr (s := s) (t := v)
        [(w.cell, grantedAnswer 0 p i (s.lease i).generation charge (grantedPeriod (s.params p) w.period))] hxi
      exact ⟨hframe.congr hxi', hans.congr hxi'⟩
  · rw [examGrant_of_fails hq (grantVerdict_of_fails hno), show decide (_ = FailKind.record) = stalled from
      Bool.eq_iff_iff.2 (decide_eq_true_iff.trans (failKind_record_iff.trans hstalled.symm))]
    exact endExam_over hcan p stalled

/-! ### Commit reports -/

/-- R78: the answers of the waiters of pools that leave. -/
def State.retiredAnswers (s : State) (ps : List Nat) : List (Nat × Answer) :=
  ps.flatMap fun p => (s.queue p).map fun w => (w.cell, plainAnswer .poolRetired (poolField p))

/-- R78: everything the flush of the leaving pools does. -/
theorem retireQueues_spec {ps : List Nat} (h : ps.Nodup) (s : State) :
    (ps.foldl State.retireQueue s).xi = (s.handAnswers (s.retiredAnswers ps)).xi ∧
    ps.foldl State.retireQueue s = { s with
      xi := (ps.foldl State.retireQueue s).xi
      wu := { s.wu with queues := (ps.foldl State.retireQueue s).wu.queues, stall := (ps.foldl State.retireQueue s).wu.stall } } ∧
    (∀ q, (ps.foldl State.retireQueue s).queue q = if q ∈ ps then [] else s.queue q) ∧
    ∀ q, q ∈ (ps.foldl State.retireQueue s).wu.stall ↔ q ∈ s.wu.stall ∧ q ∉ ps := by
  induction ps generalizing s with
  | nil => exact ⟨rfl, rfl, fun q => (if_neg List.not_mem_nil).symm, fun q => (and_iff_left List.not_mem_nil).symm⟩
  | cons p ps ih =>
    obtain ⟨hp, h⟩ := List.nodup_cons.1 h
    have hone : s.retireQueue p = { s with
        xi := (s.handAnswers ((s.queue p).map fun w => (w.cell, plainAnswer .poolRetired (poolField p)))).xi
        wu := { s.wu with queues := (s.setQueue p []).wu.queues, stall := s.wu.stall.filter fun q => decide (q ≠ p) } } := by
      unfold State.retireQueue
      rw [flushQueue_eq, handAnswers_of_xi (s := s) (t := s.setQueue p []) _ rfl]
      rfl
    have hqueue (q : Nat) : (s.retireQueue p).queue q = if q = p then [] else s.queue q := by
      rw [hone]
      exact State.queue_setQueue s p q []
    have hstall (q : Nat) : q ∈ (s.retireQueue p).wu.stall ↔ q ∈ s.wu.stall ∧ q ≠ p := by
      rw [hone]
      simp only [List.mem_filter, decide_eq_true_iff]
    have hanswers : (s.retireQueue p).retiredAnswers ps = s.retiredAnswers ps :=
      List.flatMap_congr fun q hq => by rw [hqueue, if_neg fun he : q = p => hp (he ▸ hq)]
    obtain ⟨ixi, iframe, iqueue, istall⟩ := ih h (s.retireQueue p)
    rw [List.foldl_cons]
    refine ⟨?_, ?_, fun q => ?_, fun q => ?_⟩
    · rw [ixi, hanswers]
      unfold State.retiredAnswers
      rw [List.flatMap_cons, handAnswers_append]
      exact handAnswers_xi_congr _ (by rw [hone])
    · rw [iframe, hone]
    · rw [iqueue, hqueue]
      by_cases hq : q = p
      · simp only [hq, if_true, List.mem_cons_self, ite_self]
      · simp only [hq, if_false, List.mem_cons, false_or]
    · rw [istall, hstall, List.mem_cons, not_or, and_assoc]

theorem exec_commitReport {r : CommitReport} {rest : List CommitReport} (h : s.wu.commitReports = r :: rest) (he : s.wu.exam = none) :
    exec .commitReport s = .next (State.takeCommitReport { s with wu.commitReports := rest } r) := by
  simp only [exec, execCommitReport, h, he]

/-- Settles O32: the flush of the leaving pools, and the due set. -/
theorem commitReportFlushesLeavingPools : Obligations.CommitReportFlushesLeavingPools := by
  refine fun s r rest h hnodup => ⟨fun he => ?_, fun he => ⟨_, exec_commitReport h he, ?_⟩⟩
  · obtain ⟨x, hx⟩ := Option.ne_none_iff_exists'.1 he
    simp only [exec, execCommitReport, h, hx]
  · obtain ⟨hxi, hframe, hqueue, hstall⟩ := retireQueues_spec hnodup { s with wu := { s.wu with commitReports := rest } }
    obtain ⟨hans, hanswered, -⟩ := handAnswers_answered s (s.retiredAnswers r.leaving)
    have hxi' : (r.leaving.foldl State.retireQueue { s with wu := { s.wu with commitReports := rest } }).xi =
        (s.handAnswers (s.retiredAnswers r.leaving)).xi := hxi.trans (handAnswers_xi_congr _ rfl)
    unfold State.takeCommitReport
    generalize r.leaving.foldl State.retireQueue { s with wu := { s.wu with commitReports := rest } } = u at *
    refine ⟨?_, ?_, hanswered.congr hxi', hqueue, hstall, fun p => ?_, ?_, ?_⟩
    · rw [hframe]
      rfl
    · unfold AnsweredFrame at hans ⊢
      exact (congrArg (fun x : ExchangeInterface => { x with writeList := s.xi.writeList, cells := s.xi.cells }) hxi').trans hans
    · simp only [State.makeDue, mem_addNumbers]
      rw [show u.wu.due = s.wu.due by rw [hframe]]
      tauto
    · rw [hframe]
      rfl
    · rw [hframe]
      rfl

end Sys2Proof.Machine
end

