-- ==== Sys2Proof/Proofs/Ticks.lean ====
section
/-! SUPPORT. The ticks: leases (O33), housekeeping (O34), seconds (O35), and the reference cycle (O3). -/

namespace Sys2Proof.Machine

variable {s t : State}

/-- R112: the streams stand in STILL alone. -/
theorem streams_of_ne_still {e : EngineState} (h : e ≠ .still) : e.streams = true := by
  cases e
  case still => exact absurd rfl h
  all_goals rfl

/-! ### The lease tick at the Lease Table -/

/-- R87: the listed records that pass a test an unlisted one fails, as records of the whole table. -/
theorem State.Canonical.filter_leases (hs : s.Canonical) {p : Nat × Lease → Bool} (h : ∀ i, p (i, Lease.atReset) = false) :
    s.lt.leases.filter p = s.records.filter p := by
  have hkeys : s.lt.leases.Pairwise fun a b => a.1 < b.1 := List.pairwise_map.1 ((Table.canonical_iff _ _).1 hs.leases_canonical).1
  have hrecords : s.records.Pairwise fun a b => a.1 < b.1 := List.pairwise_map.2 List.pairwise_lt_range
  have hnodup {l : List (Nat × Lease)} (h : l.Pairwise fun a b => a.1 < b.1) : l.Nodup :=
    h.imp fun hlt he => absurd hlt (by rw [he]; exact Nat.lt_irrefl _)
  refine List.Perm.eq_of_pairwise (fun a b _ _ h1 h2 => absurd h1 (Nat.lt_asymm h2)) (hkeys.filter p) (hrecords.filter p) ?_
  rw [List.perm_ext_iff_of_nodup ((hnodup hkeys).filter p) ((hnodup hrecords).filter p)]
  intro e
  rw [List.mem_filter, List.mem_filter]
  refine and_congr_left fun hp => (hs.mem_records fun he => ?_).symm
  have := h e.1
  rw [← he, hp] at this
  cases this

theorem mem_records_iff {i : Nat} {l : Lease} : (i, l) ∈ s.records ↔ i < 4096 ∧ s.lease i = l := by
  rw [State.records, List.mem_map]
  constructor
  · rintro ⟨j, hj, he⟩
    cases he
    exact ⟨List.mem_range.1 hj, rfl⟩
  · rintro ⟨hi, rfl⟩
    exact ⟨i, List.mem_range.2 hi, rfl⟩

theorem aged_of_lapsing {l : Lease} (h : l.st = .held ∧ l.counter ≤ 1) : l.aged = { l with st := .lapsed, counter := 0 } := by
  unfold Lease.aged
  rw [h.1]
  exact if_pos h.2

theorem aged_of_ending {l : Lease} (h : l.st = .lingering ∧ l.counter ≤ 1) : l.aged = { l with st := .free, counter := 0 } := by
  unfold Lease.aged
  rw [h.1]
  exact if_pos h.2

theorem aged_of_counting {l : Lease} (hst : l.st = .held ∨ l.st = .lingering) (h : 1 < l.counter) :
    l.aged = { l with counter := l.counter - 1 } := by
  unfold Lease.aged
  rcases hst with hst | hst <;> rw [hst] <;> exact if_neg (Nat.not_le.2 h)

theorem aged_of_standing {l : Lease} (h : l.st = .free ∨ l.st = .lapsed) : l.aged = l := by
  unfold Lease.aged
  rcases h with h | h <;> rw [h]

theorem lapsing_iff {l : Lease} : l.lapsing = true ↔ l.st = .held ∧ l.counter ≤ 1 := by
  rw [Lease.lapsing, Bool.and_eq_true, decide_eq_true_iff, decide_eq_true_iff]

theorem lingerEnding_iff {l : Lease} : l.lingerEnding = true ↔ l.st = .lingering ∧ l.counter ≤ 1 := by
  rw [Lease.lingerEnding, Bool.and_eq_true, decide_eq_true_iff, decide_eq_true_iff]

/-- R18: the blocks a release changes. -/
theorem released_frame (s : State) (f : Nat → Lease → Lease) (notices : List Notice) (inbox : List MeterCount) (freed : List Lease)
    (report : Bool) : s.released f notices inbox freed report = { s with
      xi := (s.released f notices inbox freed report).xi
      et := (s.released f notices inbox freed report).et
      lt := (s.released f notices inbox freed report).lt
      wu := (s.released f notices inbox freed report).wu
      su := (s.released f notices inbox freed report).su
      mu := (s.released f notices inbox freed report).mu } := by
  rw [released_eq]

/-- R93: the records that lapse at the tick. -/
def State.lapsingRecords (s : State) : List (Nat × Lease) := s.records.filter (fun e => decide (e.2.st = .held ∧ e.2.counter ≤ 1))

/-- R94: the records whose linger ends at the tick. -/
def State.endingRecords (s : State) : List (Nat × Lease) := s.records.filter (fun e => decide (e.2.st = .lingering ∧ e.2.counter ≤ 1))

/-- R18: the records that give back their tokens at the tick. -/
def State.agedRecords (s : State) : List (Nat × Lease) :=
  s.records.filter (fun e => decide ((e.2.st = .held ∨ e.2.st = .lingering) ∧ e.2.counter ≤ 1))

/-- R92 to R94: what the aging of every record does, record by record and pool by pool. -/
theorem ageLeases_taken (hs : s.Canonical) : LeaseTickTaken s s.restartLeaseStream.ageLeases := by
  have hlapsing : Table.select (fun _ l => l.lapsing) s.lt.leases = s.lapsingRecords := by
    rw [Table.select, hs.filter_leases fun _ => rfl]
    exact List.filter_congr fun e _ => Bool.eq_iff_iff.2 (lapsing_iff.trans decide_eq_true_iff.symm)
  have hended : Table.select (fun _ l => l.lingerEnding) s.lt.leases = s.endingRecords := by
    rw [Table.select, hs.filter_leases fun _ => rfl]
    exact List.filter_congr fun e _ => Bool.eq_iff_iff.2 (lingerEnding_iff.trans decide_eq_true_iff.symm)
  have hfreed : Table.select (fun _ l => l.lapsing || l.lingerEnding) s.lt.leases = s.agedRecords := by
    rw [Table.select, hs.filter_leases fun _ => rfl]
    refine List.filter_congr fun e _ => Bool.eq_iff_iff.2 ?_
    rw [Bool.or_eq_true, lapsing_iff, lingerEnding_iff, decide_eq_true_iff, or_and_right]
  have heq : s.restartLeaseStream.ageLeases = s.restartLeaseStream.released (fun _ l => l.aged)
      (s.xi.notices ++ s.lapsingRecords.map lapseNotice)
      (s.mu.inbox ++ s.lapsingRecords.map fun e => MeterCount.raise .lapses e.2.pool) (s.agedRecords.map Prod.snd) (!s.endingRecords.isEmpty) := by
    rw [← hlapsing, ← hended, ← hfreed]
    exact ageLeases_eq _
  have hlease (i : Nat) : s.restartLeaseStream.ageLeases.lease i = (s.lease i).aged := by
    rw [heq]
    exact released_lease (s := s.restartLeaseStream) hs.leases_canonical _ _ _ _ _ fun _ => rfl
  obtain ⟨htaken, honly, hdue⟩ := released_taken s.restartLeaseStream (fun _ l => l.aged)
      (s.xi.notices ++ s.lapsingRecords.map lapseNotice)
      (s.mu.inbox ++ s.lapsingRecords.map fun e => MeterCount.raise .lapses e.2.pool) (s.agedRecords.map Prod.snd) (!s.endingRecords.isEmpty)
  rw [← heq] at htaken honly hdue
  refine ⟨s.lapsingRecords, s.endingRecords, s.agedRecords, rfl, rfl, rfl, fun i l h => ?_, fun i l h => ?_, fun i hst hc => ?_, fun i hst => ?_, ?_, ?_, htaken.from rfl rfl, honly,
    fun p => ?_, ?_⟩
  · obtain ⟨hm, hl⟩ := List.mem_filter.1 h
    rw [hlease, (mem_records_iff.1 hm).2]
    exact aged_of_lapsing (of_decide_eq_true hl)
  · obtain ⟨hm, hl⟩ := List.mem_filter.1 h
    rw [hlease, (mem_records_iff.1 hm).2]
    exact aged_of_ending (of_decide_eq_true hl)
  · exact (hlease i).trans (aged_of_counting hst hc)
  · exact (hlease i).trans (aged_of_standing hst)
  · rw [heq, released_eq]
    rfl
  · rw [heq, released_eq]
    rfl
  · rw [hdue p]
    refine or_congr_right (or_congr ?_ (and_congr_left' ?_))
    · simp only [List.mem_map, exists_exists_and_eq_and]
    · rw [Bool.not_eq_true', List.isEmpty_eq_false_iff]
  · rw [heq]
    exact released_frame s.restartLeaseStream _ _ _ _ _

/-- R92, R116, R118: when a lease tick is taken for aging. -/
theorem leaseTickTaken_of (h : s.xi.engine = .offline ∨ (s.xi.engine = .run ∨ s.xi.engine = .faulted) ∧ s.tb.graceHold = none) :
    s.leaseTickTaken = true ∧ s.xi.engine.streams = true := by
  unfold State.leaseTickTaken State.withheld
  rcases h with h | ⟨h | h, hg⟩
  · rw [h]
    exact ⟨rfl, rfl⟩
  · rw [h, hg]
    exact ⟨rfl, rfl⟩
  · rw [h, hg]
    exact ⟨rfl, rfl⟩

theorem not_leaseTickTaken_of (h : s.xi.engine = .hold ∨ s.xi.engine = .still ∨
    (s.xi.engine = .run ∨ s.xi.engine = .faulted) ∧ s.tb.graceHold ≠ none) : s.leaseTickTaken = false := by
  unfold State.leaseTickTaken State.withheld
  rcases h with h | h | ⟨h | h, hg⟩
  · rw [h]
    rfl
  · rw [h]
    rfl
  · rw [h, Option.isSome_iff_ne_none.2 hg]
    rfl
  · rw [h, Option.isSome_iff_ne_none.2 hg]
    rfl

theorem leaseTickEvent_of_taken (h : s.leaseTickTaken = true) (hstreams : s.xi.engine.streams = true) :
    s.leaseTickEvent = s.restartLeaseStream.ageLeases := by
  unfold State.leaseTickEvent State.tickLeaseTable
  rw [if_pos hstreams]
  exact if_pos h

theorem leaseTickEvent_of_withheld (h : s.leaseTickTaken = false) (hstreams : s.xi.engine.streams = true) :
    s.leaseTickEvent = s.restartLeaseStream := by
  unfold State.leaseTickEvent State.tickLeaseTable
  rw [if_pos hstreams]
  exact if_neg fun hc => by
    rw [show s.restartLeaseStream.leaseTickTaken = s.leaseTickTaken from rfl, h] at hc
    cases hc

/-- R150, R151: the sum stops at the largest value, with the flag set where it would pass it. -/
theorem addTokens_eq (m : Meters) (inUse : Nat) : m.addTokens inUse = { m with
    tokenTicks := min 4294967295 (m.tokenTicks + inUse)
    satTokenTicks := m.satTokenTicks || decide (4294967295 < m.tokenTicks + inUse) } := by
  unfold Meters.addTokens maxTokenTicks
  split_ifs with h
  · rw [Nat.min_eq_right h, decide_eq_false (Nat.not_lt.2 h), Bool.or_false]
  · rw [Nat.min_eq_left (Nat.le_of_not_le h), decide_eq_true (Nat.lt_of_not_le h), Bool.or_true]

/-- What a number below the bound reads as in a table built. -/
theorem Table.get_build_below {α : Type} [DecidableEq α] (d : α) (f : Nat → α) {n i : Nat} (h : i < n) :
    Table.get d (Table.build d n f) i = f i := by
  rw [Table.get_build, if_pos h]

/-- R150: of the whole state only the meters change. -/
theorem addTokenTicks_frame (s : State) : s.addTokenTicks = { s with mu := { s.mu with meters := s.addTokenTicks.mu.meters } } := by
  unfold State.addTokenTicks
  generalize Table.build Meters.atReset Config.numPools (fun p => (s.metersOf p).addTokens (s.pool p).inUse) = meters
  rfl

/-- R150: every pool's in-use is added. -/
theorem addTokenTicks_meters (s : State) {p : Nat} (hp : p < 512) : s.addTokenTicks.metersOf p = (s.metersOf p).addTokens (s.pool p).inUse := by
  simp only [State.addTokenTicks, State.metersOf]
  rw [Table.get_build_below (n := Config.numPools) _ _ hp]

theorem exec_tokenTicks (h : s.leaseTickTaken = true) : exec .tokenTicks s = .next s.addTokenTicks := next_congr (if_pos h)

/-- Settles O33: the tick is taken, withheld, or does not come. -/
theorem leaseTickEvents : Obligations.LeaseTickEvents := by
  refine ⟨fun s i hcan => ⟨fun h => ?_, fun h => ?_, fun h => ?_⟩, fun s => ⟨fun h => ⟨_, exec_tokenTicks (leaseTickTaken_of h).1, addTokenTicks_frame s, ?_⟩,
    fun h => next_congr (if_neg (by rw [not_leaseTickTaken_of h]; nofun))⟩⟩
  · obtain ⟨htaken, hstreams⟩ := leaseTickTaken_of h
    have hevent := ageLeases_taken ((canonical_iff s).1 hcan)
    rw [← leaseTickEvent_of_taken htaken hstreams] at hevent
    exact ⟨⟨_, rfl, hevent⟩, fun hst hc => ⟨_, if_pos ⟨lapsing_iff.2 ⟨hst, hc⟩, htaken⟩, hevent⟩,
      fun hst hc => ⟨_, if_pos ⟨lingerEnding_iff.2 ⟨hst, hc⟩, htaken⟩, hevent⟩⟩
  · have hstreams : s.xi.engine.streams = true := by
      rcases h with h | ⟨h | h, -⟩ <;> rw [h] <;> rfl
    exact next_congr (leaseTickEvent_of_withheld (not_leaseTickTaken_of (h.imp_right .inr)) hstreams)
  · refine next_congr (if_neg fun hc => ?_)
    rw [h] at hc
    cases hc
  · intro p hp
    rw [addTokenTicks_meters s hp, addTokens_eq]

/-! ### The housekeeping tick -/

/-- R118: what a housekeeping tick makes of the grace hold. -/
def State.holdCounted (s : State) : Option Nat :=
  if s.xi.engine = .run ∨ s.xi.engine = .faulted then
    (match s.tb.graceHold with | none => none | some n => if n ≤ 1 then none else some (n - 1))
  else s.tb.graceHold

theorem graceActs_iff {e : EngineState} : e.graceActs = true ↔ e = .run ∨ e = .faulted := by
  cases e <;> simp [EngineState.graceActs]

theorem countGrace_eq (s : State) : s.countGrace = { s with tb := { s.tb with graceHold := s.holdCounted } } := by
  unfold State.countGrace State.holdCounted
  by_cases hacts : s.xi.engine.graceActs = true
  · rw [if_pos hacts, if_pos (graceActs_iff.1 hacts)]
    cases h : s.tb.graceHold with
    | none => simp only [← h]
    | some n => rfl
  · rw [if_neg hacts, if_neg fun h => hacts (graceActs_iff.2 h)]

theorem holdCounted_congr (hengine : t.xi.engine = s.xi.engine) (hhold : t.tb.graceHold = s.tb.graceHold) : t.holdCounted = s.holdCounted := by
  unfold State.holdCounted
  rw [hengine, hhold]

/-- R167: the re-read reads nothing of the Time Base. -/
theorem rereadConsumed_tb (s : State) (tb : TimeBase) :
    State.rereadConsumed { s with tb := tb } = { s.rereadConsumed with tb := tb } := by
  have h : State.rereadConsumed { s with tb := tb } =
      if s.noticeStalled && s.xi.engine.dma && !s.consumedInFlight then
        State.issue { s with tb := tb } .consumedRead (exchangeAddr s.xi.base consumedOffset) 4 []
      else { s with tb := tb } := rfl
  rw [h, State.rereadConsumed]
  split_ifs <;> rfl

/-- R114, R118: a housekeeping tick, once the Wait Unit has had it. -/
theorem housekeepingEvent_eq (h : s.xi.engine ≠ .still) {u : State} (hu : s.restartHkStream.tickWaitUnit = u)
    (hengine : u.xi.engine = s.xi.engine) (hhold : u.tb.graceHold = s.tb.graceHold) : s.housekeepingEvent =
      { u.rereadConsumed with tb := { u.tb with graceHold := s.holdCounted } } := by
  have hstreams : s.xi.engine.streams = true := streams_of_ne_still h
  have hreread := rereadConsumed_eq u
  unfold State.housekeepingEvent
  rw [if_pos hstreams, hu, countGrace_eq,
    holdCounted_congr (s := s) (by rw [hreread, hengine]) (by rw [hreread, hhold]), hreread]

/-- R79: what a tick that counts deadlines leaves of the engine state and the Time Base. -/
theorem TickCounted.frame (h : TickCounted s t) : t.xi.engine = s.xi.engine ∧ t.tb = s.tb := by
  obtain ⟨-, hframe, heq⟩ := h
  refine ⟨?_, by rw [heq]⟩
  unfold AnsweredFrame at hframe
  rw [← hframe]

theorem ages_of {e : EngineState} (h : e = .offline ∨ e = .run ∨ e = .faulted) : e.ages = true := by
  rcases h with rfl | rfl | rfl <;> rfl

/-- R80: the waiter expires at the next tick that counts it. -/
theorem waiterExpires_of {cell p : Nat} {w : Waiter} (hw : w ∈ s.queue p) (hcell : w.cell = cell) (hd : w.deadline ≤ 1) :
    s.waiterExpires cell = true := by
  refine List.any_eq_true.2 ⟨(p, s.queue p), Table.mem_of_get_ne fun hnil => ?_, List.any_eq_true.2 ⟨w, hw, ?_⟩⟩
  · rw [State.queue, hnil] at hw
    cases hw
  · rw [Bool.and_eq_true, decide_eq_true_iff]
    exact ⟨hcell, decide_eq_true hd⟩

/-- Settles O34: counted, held, in HOLD, or not come. -/
theorem housekeepingTickCounts : Obligations.HousekeepingTickCounts := by
  intro s cell hcan hold hhold counted hcounted
  obtain rfl : hold = s.holdCounted := hhold
  have hexec (h : s.xi.engine ≠ .still) : exec .housekeepingTick s = .next s.housekeepingEvent := rfl
  refine ⟨fun hages hnone => ?_, fun hstill hexam => ⟨_, rfl, ?_⟩, fun hold hnone => ?_, fun hstill => next_congr (if_neg fun hc => ?_)⟩
  · have hstill : s.xi.engine ≠ .still := fun h => by
      rw [h] at hages
      rcases hages with h | h | h <;> cases h
    have htick : s.restartHkStream.tickWaitUnit = s.restartHkStream.countDeadlines := by
      unfold State.tickWaitUnit
      rw [show s.restartHkStream.wu.exam = none from hnone]
      exact if_pos (ages_of hages)
    have hu : TickCounted s.restartHkStream s.restartHkStream.countDeadlines := countDeadlines_counted hcan
    obtain ⟨hengine, htb⟩ := hu.frame
    have hevent := housekeepingEvent_eq hstill htick hengine (by rw [htb]; rfl)
    have hc : counted s.housekeepingEvent := (hcounted _).2 ⟨_, hu, hevent⟩
    refine ⟨⟨_, rfl, hc⟩, fun ⟨p, w, hw, hcell, hd⟩ => ⟨_, if_pos ⟨waiterExpires_of hw hcell hd, ages_of hages, hnone⟩, hc⟩,
      fun hoffline hgrace => ⟨_, if_pos ⟨hgrace, graceActs_iff.2 (hages.resolve_left hoffline)⟩, hc, ?_⟩⟩
    rw [hevent]
    unfold State.holdCounted
    rw [if_pos (hages.resolve_left hoffline), hgrace]
    rfl
  · obtain ⟨x, hx⟩ := Option.ne_none_iff_exists'.1 hexam
    have htick : s.restartHkStream.tickWaitUnit =
        { s.restartHkStream with wu := { s.wu with heldTicks := s.wu.heldTicks + 1 } } := by
      unfold State.tickWaitUnit
      rw [show s.restartHkStream.wu.exam = some x from hx]
      rfl
    refine next_congr ((housekeepingEvent_eq hstill htick rfl rfl).trans ?_)
    exact (rereadConsumed_tb { s.restartHkStream with wu := { s.wu with heldTicks := s.wu.heldTicks + 1 } } _).symm
  · have htick : s.restartHkStream.tickWaitUnit = s.restartHkStream := by
      unfold State.tickWaitUnit
      rw [show s.restartHkStream.wu.exam = none from hnone]
      refine if_neg fun hc => ?_
      rw [show s.restartHkStream.xi.engine = .hold from hold] at hc
      cases hc
    refine next_congr ((housekeepingEvent_eq (by rw [hold]; nofun) htick rfl rfl).trans ?_)
    rw [← rereadConsumed_tb, State.holdCounted, if_neg (by rw [hold]; nofun)]
    rfl
  · rw [hstill] at hc
    cases hc

/-! ### Seconds -/

/-- R69, R123, R124, R152: a slot change is handed to the Wait Unit and to the Meter Unit. -/
theorem handSlotChange_handed (hq : Table.canonical [] s.wu.queues = true) : SlotChangeHanded s s.handSlotChange := by
  refine ⟨rfl, fun p => ?_, rfl⟩
  have hdue : s.handSlotChange.wu.due = addNumbers ((Table.select (fun _ q => !q.isEmpty) s.wu.queues).map Prod.fst) s.wu.due := rfl
  rw [hdue, mem_addNumbers, or_comm, List.mem_map]
  refine or_congr_right ⟨?_, fun hne => ?_⟩
  · rintro ⟨⟨p, q⟩, he, rfl⟩
    obtain ⟨hm, -⟩ := List.mem_filter.1 he
    obtain ⟨hread, hne⟩ := (Table.mem_iff_get [] hq p q).1 hm
    rw [State.queue, hread]
    exact hne
  · refine ⟨(p, s.queue p), List.mem_filter.2 ⟨Table.mem_of_get_ne hne, ?_⟩, rfl⟩
    rw [Bool.not_eq_true', List.isEmpty_eq_false_iff]
    exact hne

/-- A slot change handed from a state with the same queues and the same slot ends. -/
theorem SlotChangeHanded.from {u : State} (h : SlotChangeHanded u t) (hwu : u.wu = s.wu) (hmu : u.mu = s.mu) : SlotChangeHanded s t := by
  unfold SlotChangeHanded OnlyDue DueJoined State.queue at h ⊢
  rwa [hwu, hmu] at h

/-- R124: what a mask reads as once every staged mask present has become active. -/
theorem get_masksApplied {es : Table (Option Word)} (h : (es.map Prod.fst).Pairwise (· < ·)) (masks : Table Word) (p : Nat) :
    Table.get 0 (es.foldl (fun t e => match e.2 with
      | some m => Table.set 0 t e.1 m
      | none => t) masks) p = (Table.get none es p).getD (Table.get 0 masks p) := by
  induction es generalizing masks with
  | nil => rfl
  | cons e es ih =>
    obtain ⟨i, v⟩ := e
    rw [List.map_cons, List.pairwise_cons] at h
    rw [List.foldl_cons, ih h.2]
    by_cases hi : i = p
    · subst hi
      have hrest : Table.get none es i = none := Table.get_of_not_mem _ fun hm => absurd (h.1 i hm) (Nat.lt_irrefl i)
      rw [hrest, Table.get, if_pos rfl]
      cases v with
      | none => rfl
      | some m => exact Table.get_set_self 0 masks i m
    · rw [Table.get, if_neg hi]
      cases v with
      | none => rfl
      | some m => exact congrArg _ (Table.get_set_other 0 masks (Ne.symm hi) m)

/-- R124 steps 2 and 3: staged content becomes active. -/
theorem applyStaged_applied (h : Table.canonical none s.su.stagedMasks = true) (hsu : t.su = { s.applyStaged.su with
    frame := t.su.frame, slot := t.su.slot, seconds := t.su.seconds, clockSet := t.su.clockSet }) : StagedApplied s t := by
  refine ⟨by rw [hsu]; rfl, by rw [hsu]; rfl, fun p => ?_, fun p => ?_⟩
  · rw [State.activeMask, hsu]
    exact get_masksApplied ((Table.canonical_iff _ _).1 h).1 _ p
  · rw [State.stagedMask, hsu]
    rfl

theorem nextFrame_toNat (frame : Word) : (nextFrame frame).toNat = min (frame.toNat + 1) 0xFFFFFFFF := by
  unfold nextFrame
  split_ifs with h
  · subst h
    rfl
  · bv_omega

/-- Settles O35: by where in the slot and the frame the second falls. -/
theorem secondAdvancesClock : Obligations.SecondAdvancesClock := by
  intro s hcan
  rw [canonical_iff] at hcan
  refine ⟨fun hstill => next_congr (if_neg fun hc => ?_), ?_⟩
  · rw [hstill] at hc
    cases hc
  rintro hstill tick rfl
  have hstreams : s.xi.engine.streams = true := streams_of_ne_still hstill
  have hsecond : s.secondEvent = State.takeSecond { s with tb := { s.tb with secCount := 0 } } := if_pos hstreams
  refine ⟨fun hunset => next_congr (hsecond.trans (if_neg fun hc => ?_)), fun hset hwithin => ?_, fun hset hend hlast => ?_,
    fun hset hend hlast => ?_⟩
  · rw [show ({ s with tb := { s.tb with secCount := 0 } } : State).su.clockSet = false from hunset] at hc
    cases hc
  · refine next_congr (hsecond.trans ((if_pos hset).trans (if_neg fun hc => ?_)))
    exact absurd (of_decide_eq_true hc) (Nat.not_le.2 hwithin)
  · have hending : s.slotEnding = true := decide_eq_true hend
    have hnot : ¬ s.lastSlot = true := fun hc => absurd (of_decide_eq_true hc) (Nat.not_le.2 hlast)
    have hevent : s.secondEvent = State.slotStarts { s with tb := { s.tb with secCount := 0 } } :=
      hsecond.trans ((if_pos hset).trans ((if_pos hending).trans (if_neg hnot)))
    refine ⟨_, next_congr hevent, (if_pos ⟨hset, hending, hnot⟩ : exec .slotStart s = _).trans (next_congr hevent), ?_, rfl⟩
    exact (handSlotChange_handed (s := { s with
      tb := { s.tb with secCount := 0 }, su := { s.su with slot := s.su.slot + 1, seconds := 0 } }) hcan.queues).from rfl rfl
  · have hending : s.slotEnding = true := decide_eq_true hend
    have hlast' : s.lastSlot = true := decide_eq_true hlast
    have hevent : s.secondEvent = State.frameStarts { s with tb := { s.tb with secCount := 0 } } :=
      hsecond.trans ((if_pos hset).trans ((if_pos hending).trans (if_pos hlast')))
    refine ⟨_, next_congr hevent, (if_pos ⟨hset, hending, hlast'⟩ : exec .frameStart s = _).trans (next_congr hevent), ?_,
      applyStaged_applied hcan.stagedMasks rfl, nextFrame_toNat _, rfl, rfl, hset, rfl⟩
    exact (handSlotChange_handed (s := { s.applyStaged with
      tb := { s.tb with secCount := 0 }
      su := { s.applyStaged.su with frame := nextFrame s.su.frame, slot := 0, seconds := 0 } }) hcan.queues).from rfl rfl

end Sys2Proof.Machine
end

