-- ==== Sys2Proof/Proofs/Clock.lean ====
section
/-! SUPPORT. The reference cycle of an idle step (O3), SET_CLOCK (O36) and TUNE (O37). -/

namespace Sys2Proof.Machine

variable {s t : State}

/-! ### The reference cycle -/

/-- R112: a second restarts its count, and changes nothing else of the Time Base. -/
theorem secondEvent_time (h : s.xi.engine.streams = true) :
    s.secondEvent.xi.engine = s.xi.engine ∧ s.secondEvent.tb = { s.tb with secCount := 0 } := by
  have hevent : s.secondEvent = State.takeSecond { s with tb := { s.tb with secCount := 0 } } := if_pos h
  rw [hevent]
  unfold State.takeSecond State.advanceClock
  split_ifs <;> exact ⟨rfl, rfl⟩

/-- R112, R115: a lease tick restarts its count and reads the selection. -/
theorem leaseTick_time (h : s.xi.engine.streams = true) : s.leaseTickEvent.tickMeterUnit.xi.engine = s.xi.engine ∧
    s.leaseTickEvent.tickMeterUnit.tb = { s.tb with leaseCount := 0, leaseInterval := leasePeriod s.tb.leaseSel } := by
  have hmeter (u : State) : u.tickMeterUnit.xi = u.xi ∧ u.tickMeterUnit.tb = u.tb := by
    unfold State.tickMeterUnit
    split_ifs
    · rw [addTokenTicks_frame]
      exact ⟨rfl, rfl⟩
    · exact ⟨rfl, rfl⟩
  have htable : s.leaseTickEvent.xi.engine = s.xi.engine ∧ s.leaseTickEvent.tb = s.restartLeaseStream.tb := by
    unfold State.leaseTickEvent State.tickLeaseTable
    rw [if_pos h]
    split_ifs
    · rw [ageLeases_eq, released_eq]
      exact ⟨rfl, rfl⟩
    · exact ⟨rfl, rfl⟩
  rw [(hmeter _).1, (hmeter _).2]
  exact htable

/-- R79: a housekeeping tick at the Wait Unit leaves the engine state and the Time Base. -/
theorem tickWaitUnit_time (s : State) : s.tickWaitUnit.xi.engine = s.xi.engine ∧ s.tickWaitUnit.tb = s.tb := by
  unfold State.tickWaitUnit
  split
  · unfold State.waitTick
    split_ifs
    · unfold State.countDeadlines
      simp only [State.makeDue, expireAll_eq]
      rw [handAnswers_frame]
      exact ⟨rfl, rfl⟩
    · exact ⟨rfl, rfl⟩
  · exact ⟨rfl, rfl⟩

/-- R112, R115, R118: a housekeeping tick restarts its count, reads the selection and counts the grace hold. -/
theorem housekeepingEvent_time (h : s.xi.engine.streams = true) : s.housekeepingEvent.xi.engine = s.xi.engine ∧
    s.housekeepingEvent.tb = { s.tb with hkCount := 0, hkInterval := hkPeriod s.tb.hkSel, graceHold := s.holdCounted } := by
  obtain ⟨hengine, htb⟩ := tickWaitUnit_time s.restartHkStream
  have hstill : s.xi.engine ≠ .still := fun he => by
    rw [he] at h
    cases h
  rw [housekeepingEvent_eq hstill rfl hengine (by rw [htb]; rfl)]
  refine ⟨?_, by rw [htb]; rfl⟩
  rw [rereadConsumed_eq]
  exact hengine

theorem fallSecond_time (h : s.xi.engine.streams = true) : s.fallSecond.xi.engine = s.xi.engine ∧
    s.fallSecond.tb = { s.tb with secCount := if 1000 ≤ s.tb.secCount then 0 else s.tb.secCount } := by
  unfold State.fallSecond
  by_cases hdue : Config.baseTicksPerSecond ≤ s.tb.secCount
  · rw [if_pos hdue, if_pos (show 1000 ≤ s.tb.secCount from hdue)]
    exact secondEvent_time h
  · rw [if_neg hdue, if_neg (show ¬ 1000 ≤ s.tb.secCount from hdue)]
    exact ⟨rfl, rfl⟩

theorem fallLeaseTick_time (h : s.xi.engine.streams = true) : s.fallLeaseTick.xi.engine = s.xi.engine ∧
    s.fallLeaseTick.tb = { s.tb with
      leaseCount := if s.tb.leaseInterval ≤ s.tb.leaseCount then 0 else s.tb.leaseCount
      leaseInterval := if s.tb.leaseInterval ≤ s.tb.leaseCount then leasePeriod s.tb.leaseSel else s.tb.leaseInterval } := by
  unfold State.fallLeaseTick
  split_ifs
  · exact leaseTick_time h
  · exact ⟨rfl, rfl⟩

theorem fallHkTick_time (h : s.xi.engine.streams = true) : s.fallHkTick.xi.engine = s.xi.engine ∧
    s.fallHkTick.tb = { s.tb with
      hkCount := if s.tb.hkInterval ≤ s.tb.hkCount then 0 else s.tb.hkCount
      hkInterval := if s.tb.hkInterval ≤ s.tb.hkCount then hkPeriod s.tb.hkSel else s.tb.hkInterval
      graceHold := s.fallHkTick.tb.graceHold } := by
  unfold State.fallHkTick
  split_ifs
  · obtain ⟨hengine, htb⟩ := housekeepingEvent_time h
    exact ⟨hengine, by rw [htb]⟩
  · exact ⟨rfl, rfl⟩

/-- R112: the counts of a base tick before any tick falls. -/
def State.counted (s : State) : State :=
  { s with tb := { s.tb with
    divider := 0, secCount := s.tb.secCount + 1, leaseCount := s.tb.leaseCount + 1, hkCount := s.tb.hkCount + 1 } }

theorem baseTick_eq (s : State) : s.baseTick = s.counted.fallSecond.fallLeaseTick.fallHkTick := rfl

/-- Settles O3: the cycle stands, counts, or ends a base tick. -/
theorem idleStepIsReferenceCycle : Obligations.IdleStepIsReferenceCycle := by
  refine ⟨fun k n h => ?_, fun k n h => ?_, fun s hidle => ⟨fun hstill => ?_, fun hstill hdiv => ?_, fun hstill hdiv => ?_⟩⟩
  · simp only [List.mem_cons, Prod.mk.injEq, List.not_mem_nil, or_false] at h
    rcases h with h | h | h | h | h | h | h | h <;> obtain ⟨rfl, rfl⟩ := h <;> rfl
  · simp only [List.mem_cons, Prod.mk.injEq, List.not_mem_nil, or_false] at h
    rcases h with h | h | h | h | h | h | h | h <;> obtain ⟨rfl, rfl⟩ := h <;> rfl
  · refine (step_nil hidle).trans (next_congr (if_neg fun hc => ?_))
    rw [hstill] at hc
    cases hc
  · have hstreams : s.xi.engine.streams = true := streams_of_ne_still hstill
    exact (step_nil hidle).trans (next_congr ((if_pos hstreams).trans (if_pos hdiv)))
  · have hstreams : s.xi.engine.streams = true := streams_of_ne_still hstill
    have hcycle : s.referenceCycle = s.counted.fallSecond.fallLeaseTick.fallHkTick :=
      (if_pos hstreams).trans (if_neg (Nat.not_lt.2 hdiv))
    obtain ⟨hae, hatb⟩ := fallSecond_time (s := s.counted) hstreams
    have ha : s.counted.fallSecond.xi.engine.streams = true := (congrArg EngineState.streams hae).trans hstreams
    obtain ⟨hbe, hbtb⟩ := fallLeaseTick_time ha
    obtain ⟨hte, httb⟩ := fallHkTick_time ((congrArg EngineState.streams hbe).trans ha)
    rw [hatb] at hbtb
    rw [hbtb] at httb
    refine ⟨_, (step_nil hidle).trans (next_congr hcycle), hte.trans (hbe.trans hae), ?_⟩
    generalize hs : s.counted.fallSecond.fallLeaseTick.fallHkTick = t at *
    refine ⟨by rw [httb]; rfl, by rw [httb]; rfl, by rw [httb]; rfl, by rw [httb]; rfl, by rw [httb]; rfl, by rw [httb]; rfl,
      by rw [httb]; rfl, by rw [httb]; rfl, by rw [httb]; rfl, ?_⟩
    rintro counted rfl
    refine ⟨s.counted.fallSecond, s.counted.fallSecond.fallLeaseTick, ?_, ?_, ?_⟩
    · split_ifs with hdue
      · exact next_congr (if_pos hdue).symm
      · exact if_neg hdue
    · split_ifs with hdue
      · exact ⟨_, rfl, next_congr (if_pos (by rw [hatb]; exact hdue)).symm⟩
      · exact if_neg (by rw [hatb]; exact hdue)
    · rw [← hs]
      split_ifs with hdue
      · exact next_congr (if_pos (by rw [hbtb]; exact hdue)).symm
      · exact if_neg (by rw [hbtb]; exact hdue)

/-! ### SET_CLOCK -/

theorem exec_setClock {c : Nat} {copy : List Byte} {rest : List Nat} (h : s.ServesKind c copy rest 8) :
    exec .setClock s = .next (setClockRequest c copy (s.takenFrom c rest)) := next_congr (withRequest_of_serves h setClockRequest)

theorem SlotChangeHanded.congr {u : State} (h : SlotChangeHanded s u) (hwu : t.wu = u.wu) (hmu : t.mu = u.mu) : SlotChangeHanded s t := by
  unfold SlotChangeHanded OnlyDue DueJoined at h ⊢
  rwa [hwu, hmu]

/-- R128: the target is below the position of a clock that is SET. -/
theorem below_iff {frame : Word} {slot seconds : Nat} :
    (s.su.clockSet && positionBelow frame slot seconds s.su.frame s.su.slot s.su.seconds) = true ↔ s.su.clockSet = true ∧
      (frame.toNat < s.su.frame.toNat ∨ frame = s.su.frame ∧ (slot < s.su.slot ∨ slot = s.su.slot ∧ seconds < s.su.seconds)) := by
  rw [Bool.and_eq_true, positionBelow, decide_eq_true_iff]

/-- R129: the position and what else a target taken changes. -/
theorem moveClock_spec (hs : s.Canonical) (frame : Word) (slot seconds : Nat) (hsu : t.su = { (s.moveClock frame slot seconds).su with
      clockSet := true }) (hwu : t.wu = (s.moveClock frame slot seconds).wu) (hmu : t.mu = (s.moveClock frame slot seconds).mu) :
    t.su.clockSet = true ∧ t.su.frame = frame ∧ t.su.slot = slot ∧ t.su.seconds = seconds ∧
      (frame ≠ s.su.frame → SlotChangeHanded s t ∧ StagedApplied s t) ∧
      (frame = s.su.frame →
        t.su = { s.su with clockSet := true, slot := slot, seconds := seconds } ∧
          (slot ≠ s.su.slot → SlotChangeHanded s t) ∧ (slot = s.su.slot → t.wu = s.wu ∧ t.mu = s.mu)) := by
  unfold State.moveClock at hsu hwu hmu
  by_cases hf : frame = s.su.frame
  · rw [if_neg (not_not.2 hf)] at hsu hwu hmu
    by_cases hsl : slot = s.su.slot
    · rw [if_neg (not_not.2 hsl)] at hsu hwu hmu
      subst hf hsl
      rw [hsu]
      exact ⟨rfl, rfl, rfl, rfl, fun h => absurd rfl h, fun _ => ⟨rfl, fun h => absurd rfl h, fun _ => ⟨hwu, hmu⟩⟩⟩
    · rw [if_pos hsl] at hsu hwu hmu
      subst hf
      have hhanded := (handSlotChange_handed (s := { s with su := { s.su with slot := slot, seconds := seconds } }) hs.queues).from
        (s := s) rfl rfl
      rw [hsu]
      exact ⟨rfl, rfl, rfl, rfl, fun h => absurd rfl h, fun _ => ⟨rfl, fun _ => hhanded.congr hwu hmu, fun h => absurd h hsl⟩⟩
  · rw [if_pos hf] at hsu hwu hmu
    have hhanded := (handSlotChange_handed (s := { s.applyStaged with
      su := { s.applyStaged.su with frame := frame, slot := slot, seconds := seconds } }) hs.queues).from (s := s) rfl rfl
    refine ⟨by rw [hsu], by rw [hsu]; rfl, by rw [hsu]; rfl, by rw [hsu]; rfl,
      fun _ => ⟨hhanded.congr hwu hmu, applyStaged_applied hs.stagedMasks (by rw [hsu]; rfl)⟩, fun h => absurd h hf⟩

theorem moveClock_frame (s : State) (frame : Word) (slot seconds : Nat) : s.moveClock frame slot seconds = { s with
    su := (s.moveClock frame slot seconds).su
    wu := (s.moveClock frame slot seconds).wu
    mu := (s.moveClock frame slot seconds).mu } := by
  unfold State.moveClock
  split_ifs <;> rfl

/-- Settles O36: refused, below the position, or taken. -/
theorem setClockMovesPosition : Obligations.SetClockMovesPosition := by
  intro s c copy rest hcan hs frame slot seconds geometry hframe hslot hgeometry hseconds before hbefore
  rw [canonical_iff] at hcan
  have hframe' : wordField copy 0x04 = frame := hframe.symm
  have hslot' : (byteAt copy 0x08).toNat = slot := hslot.symm
  have hgeometry' : (s.takenFrom c rest).targetSchedule frame = geometry := hgeometry.symm
  have hseconds' : min (readLE copy 0x0A 2) (geometry.slotLength - 1) = seconds := hseconds.symm
  refine ⟨_, exec_setClock hs, ?_⟩
  unfold setClockRequest
  simp only [hframe', hslot', hgeometry', hseconds']
  by_cases hbad : geometry.slotCount ≤ slot
  · rw [if_pos hbad]
    exact ⟨rfl, fun _ => ⟨rfl, rfl, rfl, taken_answered s c rest _⟩, fun h => absurd hbad (Nat.not_le.2 h), fun h => absurd hbad (Nat.not_le.2 h)⟩
  · rw [if_neg hbad]
    unfold State.takeTarget
    by_cases hb : before
    · have hbelow : ((s.takenFrom c rest).su.clockSet && positionBelow frame slot seconds (s.takenFrom c rest).su.frame
          (s.takenFrom c rest).su.slot (s.takenFrom c rest).su.seconds) = true := below_iff.2 (hbefore.1 hb)
      rw [if_pos hbelow]
      exact ⟨rfl, fun h => absurd h hbad, fun _ _ => ⟨rfl, rfl, rfl, taken_answered s c rest _⟩, fun _ h => absurd hb h⟩
    · have hbelow : ¬ ((s.takenFrom c rest).su.clockSet && positionBelow frame slot seconds (s.takenFrom c rest).su.frame
          (s.takenFrom c rest).su.slot (s.takenFrom c rest).su.seconds) = true := fun h => hb (hbefore.2 (below_iff.1 h))
      rw [if_neg hbelow, moveClock_takenFrom]
      have hmove := moveClock_frame s frame slot seconds
      generalize hm : s.moveClock frame slot seconds = m at hmove
      have hspec := moveClock_spec (t := { m with su := { m.su with clockSet := true } }) hcan frame slot seconds (by rw [hm]) (by rw [hm])
        (by rw [hm])
      obtain ⟨hset, hfr, hsl, hse, hnew, hsame⟩ := hspec
      refine ⟨?_, fun h => absurd h hbad, fun _ h => absurd h hb, fun _ _ => ⟨rfl, hfr, hsl, hse, ?_, hnew, hsame⟩⟩
      · rw [hmove]
        rfl
      · have hanswer : State.clockAnswer { m.takenFrom c rest with su := { (m.takenFrom c rest).su with clockSet := true } } .ok =
            { result := .ok, detail := 0, pool := 0xFFFF, body := .clock frame slot seconds } := by
          rw [State.clockAnswer]
          show ({ result := .ok, detail := 0, pool := Config.noPool, body := .clock m.su.frame m.su.slot m.su.seconds } : Answer) = _
          rw [show m.su.frame = frame from hfr, show m.su.slot = slot from hsl, show m.su.seconds = seconds from hse]
        simp only
        rw [hanswer]
        refine taken_answered_of_xi (handAnswers_xi_congr [(c, _)] ?_)
        rw [hmove]
        rfl

/-! ### TUNE -/

theorem exec_tune {c : Nat} {copy : List Byte} {rest : List Nat} (h : s.ServesKind c copy rest 9) :
    exec .tune s = .next (tuneRequest c copy (s.takenFrom c rest)) := next_congr (withRequest_of_serves h tuneRequest)

/-- R119: the first selection above 7, in the order of the fields. -/
theorem tuneBadField_of_bad {copy : List Byte} (h : 7 < (byteAt copy 4).toNat ∨ 7 < (byteAt copy 5).toNat) :
    tuneBadField copy = some (if 7 < (byteAt copy 4).toNat then 4 else 5) := by
  unfold tuneBadField
  split_ifs with hlease hhk
  · rfl
  · rfl
  · exact (h.elim hlease hhk).elim

theorem tuneBadField_of_good {copy : List Byte} (hlease : (byteAt copy 4).toNat ≤ 7) (hhk : (byteAt copy 5).toNat ≤ 7) :
    tuneBadField copy = none := by
  unfold tuneBadField
  rw [if_neg (Nat.not_lt.2 hlease), if_neg (Nat.not_lt.2 hhk)]

/-- R152: an interval of 0 is taken as 1. -/
theorem tuneInterval_eq (copy : List Byte) : tuneInterval copy = max 1 (byteAt copy 8).toNat := by
  simp only [tuneInterval]
  split_ifs <;> omega

/-- Settles O37: refused or taken. -/
theorem tuneSetsFourValues : Obligations.TuneSetsFourValues := by
  intro s c copy rest hs lease hk grace interval hlease hhk hgrace hinterval
  subst hlease hhk hgrace hinterval
  rw [exec_tune hs]
  refine ⟨fun hbad => ⟨_, rfl, ?_⟩, fun hl hh => ⟨_, rfl, ?_⟩⟩
  · rw [tuneRequest, tuneBadField_of_bad hbad]
    exact ⟨rfl, taken_answered s c rest _⟩
  · rw [tuneRequest, tuneBadField_of_good hl hh, tuneInterval_eq]
    exact ⟨rfl, taken_answered_of_xi rfl⟩

end Sys2Proof.Machine
end

