-- ==== Sys2Proof/Proofs/Installs.lean ====
section
/-! SUPPORT. What an INSTALL and the arrivals of its image bytes make of a state: the take, checks 1 to 6 and what is staged
(R132 to R140). -/

namespace Sys2Proof.Machine
variable {s t u : State}

/-! ### The take of an INSTALL -/

theorem exec_install {c : Nat} {copy : List Byte} {rest : List Nat} (h : s.ServesKind c copy rest 7) :
    exec .install s = .next (installRequest c copy (s.takenFrom c rest)) := next_congr (withRequest_of_serves h installRequest)

/-- R132: the first field out of range, in the order of the fields. -/
theorem installBadField_of_bad {copy : List Byte}
    (h : readLE copy 8 8 % 8 ≠ 0 ∨ readLE copy 16 4 < 128 ∨ 49280 < readLE copy 16 4) :
    installBadField copy = some (if readLE copy 8 8 % 8 ≠ 0 then 8 else 16) := by
  unfold installBadField
  by_cases haddr : readLE copy 8 8 % 8 ≠ 0
  · rw [if_pos haddr, if_pos haddr]
  · rw [if_neg haddr, if_neg haddr]
    exact if_pos (h.resolve_left haddr)

theorem installBadField_of_good {copy : List Byte} (haddr : readLE copy 8 8 % 8 = 0) (hmin : 128 ≤ readLE copy 16 4)
    (hmax : readLE copy 16 4 ≤ 49280) : installBadField copy = none := by
  unfold installBadField
  rw [if_neg (not_not.2 haddr)]
  exact if_neg (not_or.2 ⟨Nat.not_lt.2 hmin, Nat.not_lt.2 hmax⟩)

theorem busy_iff {i : InstallUnit} : i.busy = true ↔ i ≠ .idle := by cases i <;> simp [InstallUnit.busy]

/-- R133: a taken INSTALL that finds an install in flight. -/
theorem takeInstall_of_busy (h : s.install ≠ .idle) (c : Nat) (copy : List Byte) :
    s.takeInstall c copy = s.handAnswer c (plainAnswer .installBusy Config.noPool) := if_pos (busy_iff.2 h)

/-- R133, R134: a taken INSTALL that finds the unit IDLE. -/
theorem takeInstall_of_idle (h : s.install = .idle) (hdma : s.xi.engine.dma = true) (c : Nat) (copy : List Byte) :
    s.takeInstall c copy = { s.setCellState c .working with
      nextTag := s.nextTag + 1
      xi.inFlight := s.xi.inFlight ++ [⟨s.nextTag, .imageRead c, BitVec.ofNat 64 (readLE copy 8 8), 128, []⟩]
      install := .reading ⟨c, BitVec.ofNat 64 (readLE copy 8 8), readLE copy 16 4, [], 0xFFFFFFFF, some s.nextTag, false⟩ } := by
  unfold State.takeInstall
  rw [if_neg (fun hbusy => busy_iff.1 hbusy h)]
  unfold State.nextImageRead
  rw [if_pos (by exact hdma)]
  unfold State.issueImageRead State.issue newInstall
  simp only [List.length_nil, BitVec.ofNat_eq_ofNat, BitVec.add_zero]
  rfl

theorem dma_of_evaluates {e : EngineState} (h : e.evaluates = true) : e.dma = true := by cases e <;> trivial

/-- Settles O38: refused, INSTALL_BUSY, or taken. -/
theorem installTaken : Obligations.InstallTaken := by
  intro s c copy rest hs addr len haddr hlen
  subst haddr hlen
  rw [exec_install hs]
  refine ⟨fun hbad => ⟨_, rfl, ?_⟩, fun ha hmin hmax hbusy => ⟨_, rfl, ?_⟩, fun ha hmin hmax hidle => ⟨_, rfl, ?_⟩⟩
  · rw [installRequest, installBadField_of_bad hbad]
    exact ⟨rfl, taken_answered s c rest _⟩
  · rw [installRequest, installBadField_of_good ha hmin hmax]
    simp only
    rw [takeInstall_of_busy (by exact hbusy)]
    exact ⟨rfl, taken_answered s c rest _⟩
  · rw [installRequest, installBadField_of_good ha hmin hmax]
    simp only
    rw [takeInstall_of_idle (by exact hidle) (by exact dma_of_evaluates hs.1.1)]
    refine ⟨?_, fun c' hc' => ?_, rfl⟩
    · refine (congrArg Cell.st (State.cell_congr (s := (s.takenFrom c rest).setCellState c .working) rfl c)).trans ?_
      rw [State.cell_setCellState, if_pos rfl]
    · refine (State.cell_congr (s := (s.takenFrom c rest).setCellState c .working) rfl c').trans ?_
      rw [State.cell_setCellState, if_neg hc']
      exact takenFrom_cell_other rest hc'

/-! ### Image bytes -/

theorem bigEndianRead : BigEndianRead := by
  intro bytes off n
  refine ⟨rfl, ?_⟩
  rw [readBE, readBEFrom_eq_sum]
  simp

theorem exec_imageReadArrival {tag c : Nat} {x : Transfer} (bytes : List Byte) (hx : s.transfer tag = some x)
    (hk : x.kind = .imageRead c) : exec (.imageReadArrival tag bytes) s = .next ((s.landed tag).imageLanded x bytes) := by
  obtain ⟨g, kind, a, n, b⟩ := x
  cases hk
  simp only [exec, execImageReadArrival, hx]

/-- R146: a read made before a fault, or by no install, is discarded. -/
theorem imageLanded_discarded {x : Transfer} {bytes : List Byte} (h : ∀ im, s.install = .reading im → im.readTag ≠ some x.tag) :
    s.imageLanded x bytes = s := by
  unfold State.imageLanded
  split
  · next im him => exact if_neg (h im him)
  · rfl
  · rfl

theorem imageLanded_taken {x : Transfer} {im : ImageRead} (bytes : List Byte) (him : s.install = .reading im)
    (htag : im.readTag = some x.tag) : s.imageLanded x bytes = s.takeImageBytes im (arrivedBytes x.len bytes) := by
  unfold State.imageLanded
  rw [him]
  exact if_pos htag

/-- R136: the register is what the bytes held make it. -/
theorem ImageRead.crcAgrees_iff {im : ImageRead} : im.crcAgrees ↔ im.crc = crcBytes crcStart (im.bytes.drop 10) := by
  unfold ImageRead.crcAgrees
  rw [← crcFinal_crcBytes]
  unfold crcFinal
  exact BitVec.xor_left_inj _

theorem ImageRead.crcAgrees.take {im : ImageRead} (h : im.crcAgrees) (bs : List Byte) : (im.take bs).crcAgrees :=
  crcAgrees_iff.2 (im.take_crcAgrees bs (crcAgrees_iff.1 h))

/-- R137: checks 1 and 2 in terms of the header bytes. -/
theorem ImageRead.headerFailure_of_good {im : ImageRead} (h : HeaderGood im.bytes im.len) : im.headerFailure = none := by
  obtain ⟨hmagic, hversion, hlen, hcount⟩ := h
  exact (if_neg (not_or.2 ⟨not_not.2 hmagic, not_not.2 hversion⟩)).trans (if_neg (not_or.2 ⟨not_not.2 hlen, not_not.2 hcount⟩))

theorem ImageRead.headerFailure_of_bad {im : ImageRead} (h : ¬ HeaderGood im.bytes im.len) :
    im.headerFailure = some (if readBE im.bytes 0 4 = 0x4B543431 ∧ readBE im.bytes 4 2 = 1 then 2 else 1) := by
  by_cases hfirst : readBE im.bytes 0 4 = 0x4B543431 ∧ readBE im.bytes 4 2 = 1
  · rw [if_pos hfirst]
    refine (if_neg (not_or.2 ⟨not_not.2 hfirst.1, not_not.2 hfirst.2⟩)).trans (if_pos (Classical.byContradiction fun hno => h ?_))
    obtain ⟨hlen, hcount⟩ := not_or.1 hno
    exact ⟨hfirst.1, hfirst.2, not_not.1 hlen, not_not.1 hcount⟩
  · rw [if_neg hfirst]
    exact if_pos (Classical.byContradiction fun hno => hfirst
      ⟨not_not.1 (not_or.1 hno).1, not_not.1 (not_or.1 hno).2⟩)

/-- R137: where the header is not completed now, or is good, the read goes on or the image is judged. -/
theorem takeImageBytes_goesOn {im : ImageRead} {bs : List Byte}
    (h : (im.take bs).bytes.length < 128 ∨ 128 ≤ im.bytes.length ∨ HeaderGood (im.take bs).bytes im.len) :
    s.takeImageBytes im bs = s.imageGoesOn (im.take bs) := by
  unfold State.takeImageBytes
  split_ifs with hnow
  · have hgood : HeaderGood (im.take bs).bytes im.len :=
      (h.resolve_left (Nat.not_lt.2 hnow.2)).resolve_left (Nat.not_le.2 hnow.1)
    rw [ImageRead.headerFailure_of_good hgood]
  · rfl

theorem takeImageBytes_corrupt {im : ImageRead} {bs : List Byte} (hbefore : im.bytes.length < 128)
    (hnow : 128 ≤ (im.take bs).bytes.length) (hbad : ¬ HeaderGood (im.take bs).bytes im.len) :
    s.takeImageBytes im bs = s.endInstall im.cell (corruptAnswer
      (if readBE (im.take bs).bytes 0 4 = 0x4B543431 ∧ readBE (im.take bs).bytes 4 2 = 1 then 2 else 1) Config.noPool) := by
  unfold State.takeImageBytes
  rw [if_pos ⟨hbefore, hnow⟩, ImageRead.headerFailure_of_bad hbad]

theorem imageGoesOn_reads {im : ImageRead} (h : im.bytes.length < im.len) :
    s.imageGoesOn im = State.nextImageRead { s with install := .reading im } := if_pos h

theorem imageGoesOn_judges {im : ImageRead} (h : im.bytes.length = im.len) : s.imageGoesOn im = s.judgeImage im :=
  if_neg (by omega)

/-- R140: the install ends with its answer. -/
theorem endInstall_answered (s : State) (c : Nat) (a : Answer) : Answered s (s.endInstall c a) [(c, a)] :=
  (handAnswer_answered { s with install := .idle } c a).2

/-- Settles O39: an arrival that is discarded, one the read goes on from, and one that completes a bad header. -/
theorem imageBytesAndHeaderChecks : Obligations.ImageBytesAndHeaderChecks := by
  refine ⟨bigEndianRead, ?_, ?_⟩
  · intro s tag bytes x c hx hk landed hlanded
    subst hlanded
    rw [exec_imageReadArrival bytes hx hk]
    refine ⟨fun h => next_congr (imageLanded_discarded (s := s.landed tag) h), ?_⟩
    intro im him htag hcrc taken htaken hmore hheader
    have htake : (im.take (arrivedBytes x.len bytes)).bytes = taken := htaken.symm
    rw [imageLanded_taken (s := s.landed tag) bytes him htag, takeImageBytes_goesOn (by rw [htake]; exact hheader),
      imageGoesOn_reads (by rw [htake]; exact hmore)]
    have hagrees := hcrc.take (arrivedBytes x.len bytes)
    have hwanted : (im.take (arrivedBytes x.len bytes)).wanted =
        if taken.length < 128 then 128 - taken.length else im.len - taken.length := by
      unfold ImageRead.wanted
      rw [htake]
      rfl
    unfold State.nextImageRead
    by_cases hdma : s.xi.engine.dma = true
    · rw [if_pos (by exact hdma)]
      refine ⟨_, _, rfl, rfl, htake, hagrees, rfl, fun _ => ⟨rfl, ?_⟩, fun hrun hhold => ?_, rfl⟩
      · rw [← hwanted, ← htake]
        rfl
      · exact absurd ((dma_iff _).1 hdma) (not_or.2 ⟨hrun, hhold⟩)
    · rw [if_neg (by exact hdma)]
      exact ⟨_, _, rfl, rfl, htake, hagrees, rfl, fun h => absurd ((dma_iff _).2 h) hdma, fun _ _ => ⟨rfl, rfl⟩, rfl⟩
  · intro s tag bytes x c im hx hk him htag taken htaken hbefore hnow hbad check hcheck
    have htake : (im.take (arrivedBytes x.len bytes)).bytes = taken := htaken.symm
    rw [exec_imageReadArrival bytes hx hk, imageLanded_taken (s := s.landed tag) bytes him htag,
      takeImageBytes_corrupt hbefore (by rw [htake]; exact hnow) (by rw [htake]; exact hbad), htake, ← hcheck]
    exact ⟨_, rfl, rfl, rfl, rfl, endInstall_answered (s.landed tag) im.cell _⟩

/-! ### What a record stages -/

theorem readBE_one (bs : List Byte) (off : Nat) : readBE bs off 1 = (byteAt bs off).toNat := by simp [readBE, readBEFrom]

/-- R172: a four-byte number fits a word. -/
theorem readBE_four_toNat (bs : List Byte) (off : Nat) : (BitVec.ofNat 32 (readBE bs off 4)).toNat = readBE bs off 4 := by
  rw [BitVec.toNat_ofNat, Nat.mod_eq_of_lt]
  simpa [readBE] using readBEFrom_lt 0 bs off 4

/-- Settles O41: each field at its offset, with the clamps of Table 1-2. -/
theorem stagingClamps : Obligations.StagingClamps := by
  refine ⟨bigEndianRead, ?_⟩
  intro r p hp
  subst hp
  have hclamp : ∀ a b : Nat, min a b = if b < a then b else a := fun a b => by split_ifs <;> omega
  have hraise : ∀ a b : Nat, max a b = if a < b then b else a := fun a b => by split_ifs <;> omega
  have hone : ∀ a : Nat, max 1 a = if a = 0 then 1 else a := fun a => by split_ifs <;> omega
  refine ⟨readBE_one r 3, ?_, readBE_four_toNat r 20, readBE_four_toNat r 24, readBE_four_toNat r 28, readBE_four_toNat r 32, rfl,
    hclamp _ _, hclamp _ _, hclamp _ _, hclamp _ _, hclamp _ _, ?_, readBE_one r 54, rfl, readBE_four_toNat r 56,
    readBE_four_toNat r 60, readBE_four_toNat r 64⟩
  · simp only [recordParams, recordFeatures, recordFeatureCount, readBE_one]
  · intro d1 m1 x1 m2 d2 hd1 hm1 hx1 hm2 hd2
    have hmax : stagedPeriodMax (readBE r 52 2) = x1 := (hone _).trans hx1.symm
    have hmin : stagedPeriodMin (readBE r 50 2) (readBE r 52 2) = m2 := by
      rw [stagedPeriodMin, hmax, hone, ← hm1, hclamp, hm2]
    refine ⟨hmax, hmin, ?_⟩
    show stagedPeriodDefault (readBE r 48 2) (readBE r 50 2) (readBE r 52 2) = _
    rw [stagedPeriodDefault, hmax, hmin, hone, ← hd1, hraise, ← hd2, hclamp]

/-! ### Checks 3 to 6 -/

/-- R138 check 6: the five tests of a record. -/
theorem recordPasses_iff {earlier : List Nat} {r : List Byte} : recordPasses earlier r = true ↔ RecordGood earlier r := by
  simp only [recordPasses, RecordGood, Bool.and_eq_true, decide_eq_true_eq, Bool.not_eq_true', List.all_eq_true, recordFeatures,
    recordFeatureCount, recordPool, readBE_one, List.mem_map, List.mem_range, forall_exists_index, and_imp,
    forall_apply_eq_imp_iff₂, List.contains_eq_mem, decide_eq_false_iff_not, and_assoc]
  have hdistinct : ((List.range (byteAt r 2).toNat).map (fun i => readBE r (4 + 2 * i) 2)).Nodup ↔
      ∀ j k, j < k → k < (byteAt r 2).toNat → readBE r (4 + 2 * j) 2 ≠ readBE r (4 + 2 * k) 2 := by
    rw [List.Nodup, List.pairwise_map, List.pairwise_iff_getElem]
    simp only [List.length_range, List.getElem_range]
    exact ⟨fun h j k hjk hk => h j k (hjk.trans hk) hk hjk, fun h j k _ hk hjk => h j k hjk hk⟩
  rw [hdistinct]
  exact and_congr_left' decide_eq_true_iff

/-- R138: only which numbers came earlier matters. -/
theorem RecordGood.congr {e e' : List Nat} {r : List Byte} (h : RecordGood e r) (he : ∀ n, n ∈ e' ↔ n ∈ e) : RecordGood e' r :=
  ⟨h.1, fun hm => h.2.1 ((he _).1 hm), h.2.2⟩

/-- Each record is good beside the ones before it, with `earlier` before them all. -/
def GoodAfter (earlier : List Nat) (rs : List (List Byte)) : Prop :=
  ∀ before r after, rs = before ++ r :: after → RecordGood (earlier ++ before.map recordPool) r

theorem GoodAfter.head {earlier : List Nat} {r : List Byte} {rs : List (List Byte)} (h : GoodAfter earlier (r :: rs)) :
    RecordGood earlier r := by simpa using h [] r rs rfl

theorem GoodAfter.tail {earlier : List Nat} {r : List Byte} {rs : List (List Byte)} (h : GoodAfter earlier (r :: rs)) :
    GoodAfter (recordPool r :: earlier) rs := by
  intro before x after hrs
  refine (h (r :: before) x after (by rw [hrs]; rfl)).congr fun n => ?_
  simp only [List.map_cons, List.mem_append, List.mem_cons]
  tauto

/-- R138 check 6: the records before the first bad one are passed over. -/
theorem failingRecord_append {position : Nat} {earlier : List Nat} {before : List (List Byte)} (rest : List (List Byte))
    (h : GoodAfter earlier before) :
    failingRecord position earlier (before ++ rest) =
      failingRecord (position + before.length) ((before.map recordPool).reverse ++ earlier) rest := by
  induction before generalizing position earlier with
  | nil => rfl
  | cons r before ih =>
    rw [List.cons_append, failingRecord, if_pos (recordPasses_iff.2 h.head), ih h.tail]
    simp [Nat.add_assoc, Nat.add_comm 1]

theorem failingRecord_of_good {rs : List (List Byte)} (h : GoodAfter [] rs) : failingRecord 0 [] rs = none := by
  have := failingRecord_append (position := 0) [] h
  rwa [List.append_nil] at this

theorem failingRecord_of_bad {before after : List (List Byte)} {r : List Byte} (h : GoodAfter [] before)
    (hbad : ¬ RecordGood (before.map recordPool) r) : failingRecord 0 [] (before ++ r :: after) = some before.length := by
  rw [failingRecord_append _ h, failingRecord, if_neg, Nat.zero_add]
  rw [recordPasses_iff]
  exact fun hgood => hbad (hgood.congr (by simp))

/-- R139: a pool number no record names is staged as before. -/
theorem get_staged_other {rs : List (List Byte)} {p : Nat} (h : ∀ r ∈ rs, recordPool r ≠ p) (m : Table (Option StagedPool)) :
    Table.get none (rs.foldl (fun t r => Table.set none t (recordPool r) (some (recordStaged r))) m) p = Table.get none m p := by
  induction rs generalizing m with
  | nil => rfl
  | cons r rs ih =>
    rw [List.foldl_cons, ih (fun x hx => h x (List.mem_cons_of_mem _ hx)), Table.get_set_other _ _ (h r List.mem_cons_self).symm]

/-- R139: each record is staged at its pool number. -/
theorem get_stagedPools {im : ImageRead} (h : GoodAfter [] im.records) {r : List Byte} (hr : r ∈ im.records) :
    Table.get none im.stagedPools (recordPool r) = some (recordStaged r) := by
  obtain ⟨before, after, hrs⟩ := List.append_of_mem hr
  have hafter : ∀ x ∈ after, recordPool x ≠ recordPool r := by
    intro x hx
    obtain ⟨b, a, rfl⟩ := List.append_of_mem hx
    obtain ⟨-, hnot, -⟩ := h (before ++ r :: b) x a (by rw [hrs]; simp)
    exact fun heq => hnot (by simp [← show recordPool x = readBE x 0 2 from rfl, heq])
  unfold ImageRead.stagedPools
  rw [hrs, List.foldl_append, List.foldl_cons, get_staged_other hafter, Table.get_set, if_pos rfl]

/-- R138: the first of checks 3 to 6 that fails. -/
theorem imageFailure_crc {im : ImageRead} {floor : Word} (h : crcFinal im.crc ≠ im.crcField) :
    im.imageFailure floor = some (corruptAnswer 3 Config.noPool) := if_pos h

theorem imageFailure_old {im : ImageRead} {floor : Word} (hcrc : crcFinal im.crc = im.crcField)
    (h : im.sequence.toNat ≤ floor.toNat) : im.imageFailure floor =
      some { result := .imageOld, detail := 0, pool := Config.noPool, body := .imageOld im.sequence floor } := by
  unfold ImageRead.imageFailure
  rw [if_neg (not_not.2 hcrc), if_pos h]

theorem imageFailure_geometry {im : ImageRead} {floor : Word} (hcrc : crcFinal im.crc = im.crcField)
    (hnew : floor.toNat < im.sequence.toNat) (h : im.slotCount < 1 ∨ 32 < im.slotCount ∨ im.slotLength = 0) :
    im.imageFailure floor = some (corruptAnswer 5 Config.noPool) := by
  unfold ImageRead.imageFailure
  rw [if_neg (not_not.2 hcrc), if_neg (Nat.not_le.2 hnew), if_pos h]

theorem imageFailure_records {im : ImageRead} {floor : Word} (hcrc : crcFinal im.crc = im.crcField)
    (hnew : floor.toNat < im.sequence.toNat) (h : ¬ (im.slotCount < 1 ∨ 32 < im.slotCount ∨ im.slotLength = 0)) :
    im.imageFailure floor =
      (failingRecord 0 [] im.records).map (fun position => corruptAnswer 6 (BitVec.ofNat 16 position)) := by
  unfold ImageRead.imageFailure
  rw [if_neg (not_not.2 hcrc), if_neg (Nat.not_le.2 hnew), if_neg h]

theorem judgeImage_ended {im : ImageRead} {a : Answer} (h : im.imageFailure s.et.floor = some a) :
    (s.judgeImage im).install = .idle ∧ Answered s (s.judgeImage im) [(im.cell, a)] := by
  unfold State.judgeImage
  rw [h]
  exact ⟨rfl, endInstall_answered s im.cell a⟩

theorem judgeImage_staged {im : ImageRead} (h : im.imageFailure s.et.floor = none) :
    s.judgeImage im = { s with install := .committing im im.stagedPools im.header none } := by
  unfold State.judgeImage
  rw [h]

/-- R138: what the judging of an image leaves alone. -/
theorem judgeImage_frame (s : State) (im : ImageRead) :
    s.judgeImage im = { s with xi := (s.judgeImage im).xi, install := (s.judgeImage im).install } ∧
      { (s.judgeImage im).xi with writeList := s.xi.writeList, cells := s.xi.cells } = s.xi := by
  cases h : im.imageFailure s.et.floor with
  | none => rw [judgeImage_staged h]; exact ⟨rfl, rfl⟩
  | some a => simp only [State.judgeImage, h]; exact ⟨rfl, rfl⟩

/-- Settles O40: checks 3 to 6 in order, and what is staged when all pass. -/
theorem imageChecksAtLastByte : Obligations.ImageChecksAtLastByte := by
  refine ⟨bigEndianRead, ?_⟩
  intro s tag bytes x c im hx hk him htag hcrc taken htaken hlast hheader field records hfield hrecords
  have htake : (im.take (arrivedBytes x.len bytes)).bytes = taken := htaken.symm
  rw [exec_imageReadArrival bytes hx hk, imageLanded_taken (s := s.landed tag) bytes him htag,
    takeImageBytes_goesOn (by rw [htake]; exact .inr hheader), imageGoesOn_judges (by rw [htake]; exact hlast)]
  have hfinal : crcFinal (im.take (arrivedBytes x.len bytes)).crc = imageCrc (taken.drop 10) := by
    rw [← htake]
    exact hcrc.take _
  have hcell : (im.take (arrivedBytes x.len bytes)).cell = im.cell := rfl
  generalize im.take (arrivedBytes x.len bytes) = whole at htake hfinal hcell
  subst htake
  have hrecs : whole.records = records := by rw [hrecords, hfield]; rfl
  subst hfield
  obtain ⟨hframe, hxi⟩ := judgeImage_frame (s.landed tag) whole
  refine ⟨_, rfl, ?_, ?_, ?_, ?_⟩
  · exact hframe
  · exact congrArg (fun x : ExchangeInterface => { x with inFlight := s.xi.inFlight }) hxi
  · exact congrArg ExchangeInterface.inFlight hxi
  · intro ended hended
    have hends : ∀ a, whole.imageFailure s.et.floor = some a → ended a := fun a ha => by
      obtain ⟨hidle, hanswered⟩ := judgeImage_ended (s := s.landed tag) ha
      exact (hended a).2 ⟨hidle, hcell ▸ hanswered⟩
    have hseq : whole.sequence.toNat = readBE whole.bytes 10 4 := readBE_four_toNat whole.bytes 10
    refine ⟨fun hbad => hends _ (imageFailure_crc (by rw [hfinal]; exact hbad)), fun hok hold => ?_, fun hok hnew => ⟨fun hbad => ?_, ?_⟩⟩
    · exact hends _ (imageFailure_old (hfinal.trans hok) (by rw [hseq]; exact hold))
    · exact hends _ (imageFailure_geometry (hfinal.trans hok) (by rw [hseq]; exact hnew) hbad)
    · intro hmin hmax hlen
      have hjudged := imageFailure_records (hfinal.trans hok) (floor := s.et.floor) (by rw [hseq]; exact hnew)
        (not_or.2 ⟨Nat.not_lt.2 hmin, not_or.2 ⟨Nat.not_lt.2 hmax, hlen⟩⟩)
      rw [hrecs] at hjudged
      refine ⟨fun before r after hsplit hgood hbad => hends _ ?_, fun hgood => ?_⟩
      · rw [hjudged, hsplit, failingRecord_of_bad (fun b1 b b2 h => hgood b1 b b2 h) hbad]
        rfl
      · have hall : GoodAfter [] whole.records := fun b1 b b2 h => hgood b1 b b2 (hrecs ▸ h)
        rw [← hrecs, failingRecord_of_good hall] at hjudged
        rw [judgeImage_staged (s := s.landed tag) hjudged]
        refine ⟨rfl, rfl, whole, _, _, rfl, hcell, rfl, rfl, rfl, ?_, ?_, ?_⟩
        · exact List.map_congr_left fun k _ => congrArg (max 25) (Nat.min_comm _ _)
        · exact fun r hr => get_stagedPools hall (hrecs ▸ hr)
        · intro p hp
          exact get_staged_other (fun r hr => hp r (hrecs ▸ hr)) []

end Sys2Proof.Machine
end

