-- ==== Sys2Proof/Proofs/Commits.lean ====
section
/-! SUPPORT. The commit event at the tables and the schedule content that follows it (R126, R141 to R144). -/

namespace Sys2Proof.Machine
variable {s t u : State}

/-! ### The commit event -/

theorem exec_installCommit {im : ImageRead} {staged : Table (Option StagedPool)} {header : HeaderContent}
    (h : s.install = .committing im staged header none) : exec .installCommit s = .next (s.commit im staged header) := by
  simp only [exec, execInstallCommit, h]

theorem installed_iff {p : Nat} : s.installed p = true ↔ (s.pool p).st ≠ .absent := decide_eq_true_iff

/-- Table 7-2: which pools are in which list. -/
theorem mem_created {staged : Table (Option StagedPool)} {p : Nat} : p ∈ (s.commitOutcome staged).created ↔
    p < 512 ∧ (s.pool p).st = .absent ∧ Table.get none staged p ≠ none := by
  simp only [State.commitOutcome, List.mem_filter, List.mem_range, Bool.and_eq_true, Bool.not_eq_true', State.installed,
    decide_eq_false_iff_not, not_not, stagedEntry, Option.isSome_iff_ne_none]

theorem mem_kept {staged : Table (Option StagedPool)} {p : Nat} : p ∈ (s.commitOutcome staged).kept ↔
    p < 512 ∧ (s.pool p).st ≠ .absent ∧ Table.get none staged p ≠ none := by
  simp only [State.commitOutcome, List.mem_filter, List.mem_range, Bool.and_eq_true, installed_iff, stagedEntry,
    Option.isSome_iff_ne_none]

theorem mem_retiring {staged : Table (Option StagedPool)} {p : Nat} : p ∈ (s.commitOutcome staged).retiring ↔
    p < 512 ∧ (s.pool p).st ≠ .absent ∧ Table.get none staged p = none ∧ (s.pool p).leaseCount ≠ 0 := by
  simp only [State.commitOutcome, List.mem_filter, List.mem_range, Bool.and_eq_true, installed_iff, stagedEntry,
    Option.isNone_iff_eq_none, decide_eq_true_eq, and_assoc]

theorem mem_removed {staged : Table (Option StagedPool)} {p : Nat} : p ∈ (s.commitOutcome staged).removed ↔
    p < 512 ∧ (s.pool p).st ≠ .absent ∧ Table.get none staged p = none ∧ (s.pool p).leaseCount = 0 := by
  simp only [State.commitOutcome, List.mem_filter, List.mem_range, Bool.and_eq_true, installed_iff, stagedEntry,
    Option.isNone_iff_eq_none, decide_eq_true_eq, and_assoc]

/-- R141: each list is in rising pool number. -/
theorem commitOutcome_rising (s : State) (staged : Table (Option StagedPool)) :
    (s.commitOutcome staged).created.Pairwise (· < ·) ∧ (s.commitOutcome staged).kept.Pairwise (· < ·) ∧
      (s.commitOutcome staged).retiring.Pairwise (· < ·) ∧ (s.commitOutcome staged).removed.Pairwise (· < ·) := by
  have hnumbers : (List.range Config.numPools).Pairwise (· < ·) := List.pairwise_lt_range
  unfold State.commitOutcome
  generalize List.range Config.numPools = numbers at hnumbers
  exact ⟨hnumbers.filter _, hnumbers.filter _, hnumbers.filter _, hnumbers.filter _⟩

theorem report_kept {o : CommitOutcome} {p : Nat} : p ∈ o.report.kept ↔ p ∈ o.kept := Iff.rfl

/-- R143: the leaving pools of the report, as numbers added to a list. -/
theorem report_leaving (o : CommitOutcome) : o.report.leaving = addNumbers o.retiring o.removed := rfl

/-- R141, Table 7-2: what the commit makes of one pool. -/
theorem committedPool_created {staged : Table (Option StagedPool)} {p : Nat} {entry : StagedPool}
    (h : (s.pool p).st = .absent) (hentry : Table.get none staged p = some entry) : s.committedPool staged p = createdPool entry.params := by
  simp only [State.committedPool, stagedEntry, hentry]
  exact if_neg fun hi => installed_iff.1 hi h

theorem committedPool_kept {staged : Table (Option StagedPool)} {p : Nat} {entry : StagedPool}
    (h : (s.pool p).st ≠ .absent) (hentry : Table.get none staged p = some entry) :
    s.committedPool staged p = keptPool (s.pool p) entry.params (reserveSum (s.recomputedLeases staged) p) := by
  simp only [State.committedPool, stagedEntry, hentry]
  exact if_pos (installed_iff.2 h)

theorem committedPool_leaving {staged : Table (Option StagedPool)} {p : Nat}
    (h : (s.pool p).st ≠ .absent) (hentry : Table.get none staged p = none) : s.committedPool staged p =
      if (s.pool p).leaseCount = 0 then Pool.atReset else { s.pool p with st := .retiring } := by
  simp only [State.committedPool, stagedEntry, hentry]
  exact if_pos (installed_iff.2 h)

theorem committedPool_absent {staged : Table (Option StagedPool)} {p : Nat}
    (h : (s.pool p).st = .absent) (hentry : Table.get none staged p = none) : s.committedPool staged p = s.pool p := by
  simp only [State.committedPool, stagedEntry, hentry]
  exact if_neg fun hi => installed_iff.1 hi h

/-- R142: a kept pool, judged against its new limits. -/
theorem keptPool_eq (e : Pool) (params : Params) (reserveInUse : Nat) : keptPool e params reserveInUse =
    { st := if params.capacity < e.inUse ∨ params.seatCap ≠ 0 ∧ params.seatCap < e.leaseCount then .draining else .active
      params := some params
      inUse := e.inUse
      reserveInUse := reserveInUse
      leaseCount := e.leaseCount } := by
  have hlimits : withinLimits params e = true ↔
      ¬ (params.capacity < e.inUse ∨ params.seatCap ≠ 0 ∧ params.seatCap < e.leaseCount) := by
    rw [withinLimits, decide_eq_true_iff]
    omega
  unfold keptPool
  by_cases h : params.capacity < e.inUse ∨ params.seatCap ≠ 0 ∧ params.seatCap < e.leaseCount
  · rw [if_pos h, if_neg fun hw => hlimits.1 hw h]
  · rw [if_neg h, if_pos (hlimits.2 h)]

/-- R108: what the commit makes of one record. -/
theorem commit_lease (hs : s.Canonical) (im : ImageRead) (staged : Table (Option StagedPool)) (header : HeaderContent) (i : Nat) :
    (s.commit im staged header).lease i = s.recomputed staged (s.lease i) := by
  refine Table.get_mapEntries Lease.atReset (fun _ l => s.recomputed staged l) s.lt.leases hs.leases_canonical i ?_
  unfold State.recomputed
  split <;> rfl

theorem recomputed_holding {staged : Table (Option StagedPool)} {l : Lease} {entry : StagedPool} (hl : l.st = .held ∨ l.st = .lingering)
    (hp : (s.pool l.pool).st ≠ .absent) (hentry : Table.get none staged l.pool = some entry) : s.recomputed staged l =
      { l with inReserve := decide ((l.key ^^^ entry.params.reserveValue) &&& entry.params.reserveMask = 0) } := by
  simp only [State.recomputed, stagedEntry, hentry]
  exact if_pos (Bool.and_eq_true_iff.2 ⟨(Lease.holds_iff _).2 hl, installed_iff.2 hp⟩)

theorem recomputed_standing {staged : Table (Option StagedPool)} {l : Lease}
    (h : l.st = .free ∨ l.st = .lapsed ∨ Table.get none staged l.pool = none) : s.recomputed staged l = l := by
  unfold State.recomputed
  split
  · next entry hentry =>
    refine if_neg fun hh => ?_
    have hholds := (Lease.holds_iff _).1 (Bool.and_eq_true_iff.1 hh).1
    rcases h with h | h | h
    · rw [h] at hholds; simp at hholds
    · rw [h] at hholds; simp at hholds
    · rw [stagedEntry, h] at hentry; cases hentry
  · rfl

/-- R108: the reserve counter is the sum over the records of the whole table. -/
theorem reserveSum_records (hs : s.Canonical) (p : Nat) : reserveSum s.lt.leases p =
    ((s.records.filter (fun e => decide ((e.2.st = .held ∨ e.2.st = .lingering) ∧ e.2.pool = p ∧ e.2.inReserve = true))).map
      (fun e => e.2.charge)).sum := by
  unfold reserveSum chargeSum
  rw [hs.filter_leases fun _ => rfl]
  generalize s.records = records
  refine congrArg (fun l : List (Nat × Lease) => (l.map fun e => e.2.charge).sum) (List.filter_congr fun e _ => Bool.eq_iff_iff.2 ?_)
  rw [Bool.and_eq_true, Bool.and_eq_true, Lease.holds_iff, decide_eq_true_iff, decide_eq_true_iff]

theorem records_congr (h : t.lt = s.lt) : t.records = s.records := by simp only [State.records, State.lease, h]

/-- R141: what a commit changes, and what it sets outright. -/
theorem commit_frame (s : State) (im : ImageRead) (staged : Table (Option StagedPool)) (header : HeaderContent) :
    (s.commit im staged header).et.floor = header.sequence ∧
      (s.commit im staged header).install = .committing im staged header (some (s.commitOutcome staged)) ∧
      (s.commit im staged header).wu = { s.wu with commitReports := s.wu.commitReports ++ [(s.commitOutcome staged).report] } ∧
      s.commit im staged header = { s with
        et := (s.commit im staged header).et
        lt := (s.commit im staged header).lt
        install := (s.commit im staged header).install
        wu := (s.commit im staged header).wu } := by
  unfold State.commit
  generalize Table.build Pool.atReset Config.numPools (s.committedPool staged) = pools
  generalize s.commitOutcome staged = o
  exact ⟨rfl, rfl, rfl, rfl⟩

/-- R108: the reserve sum of the commit, over the records as they then stand. -/
theorem commit_reserveSum (hs : s.Canonical) (im : ImageRead) (staged : Table (Option StagedPool)) (header : HeaderContent) (p : Nat) :
    reserveSum (s.recomputedLeases staged) p = (((s.commit im staged header).records.filter (fun e =>
      decide ((e.2.st = .held ∨ e.2.st = .lingering) ∧ e.2.pool = p ∧ e.2.inReserve = true))).map (fun e => e.2.charge)).sum := by
  have hcan : ({ s with lt.leases := s.recomputedLeases staged } : State).Canonical :=
    { hs with
      leases := by unfold State.recomputedLeases; dsimp only; exact wf_mapEntries _ hs.leases }
  have hrecords : (s.commit im staged header).records = ({ s with lt.leases := s.recomputedLeases staged } : State).records := by
    refine records_congr ?_
    unfold State.commit
    rfl
  rw [hrecords]
  exact reserveSum_records hcan p

/-- Settles O42: each pool number by its row of Table 7-2, each record by R108. -/
theorem commitByTable72 : Obligations.CommitByTable72 := by
  intro s im staged header hcan hinstall image himage
  subst himage
  rw [canonical_iff] at hcan
  obtain ⟨hcreated, hkept, hretiring, hremoved⟩ := commitOutcome_rising s staged
  have hpool {p : Nat} (hp : p < 512) : (s.commit im staged header).pool p = s.committedPool staged p := by
    rw [commit_pool, if_pos hp]
  obtain ⟨hfloor, hunit, hwait, hframe⟩ := commit_frame s im staged header
  refine ⟨s.commit im staged header, s.commitOutcome staged, (s.commitOutcome staged).report, exec_installCommit hinstall, hfloor, hunit,
    hwait, hframe,
    fun p => mem_created, fun p => mem_kept, fun p => mem_retiring, fun p => mem_removed, hcreated.imp Nat.ne_of_lt,
    hkept.imp Nat.ne_of_lt, hretiring.imp Nat.ne_of_lt, hremoved.imp Nat.ne_of_lt,
    fun p => report_kept, fun p => ?_, ?_, fun p entry hp hentry => ?_, fun p entry hp hentry => ?_, fun p hp => ?_, fun p hp => ?_,
    fun p hp hc hk hret hrem => ?_, fun p hp => ?_, fun i => ?_, fun i entry hl hp hentry => ?_, fun i hi => ?_⟩
  · rw [report_leaving, mem_addNumbers]
  · rw [report_leaving]
    exact of_decide_eq_true (rising_addNumbers _ _ (decide_eq_true hremoved))
  · obtain ⟨hlt, hst, -⟩ := mem_created.1 hp
    rw [hpool hlt, committedPool_created hst hentry]
    rfl
  · obtain ⟨hlt, hst, -⟩ := mem_kept.1 hp
    rw [hpool hlt, committedPool_kept hst hentry, keptPool_eq, commit_reserveSum hcan im staged header]
  · obtain ⟨hlt, hst, hno, hcount⟩ := mem_retiring.1 hp
    rw [hpool hlt, committedPool_leaving hst hno, if_neg hcount]
  · obtain ⟨hlt, hst, hno, hcount⟩ := mem_removed.1 hp
    rw [hpool hlt, committedPool_leaving hst hno, if_pos hcount]
  · rw [mem_created] at hc
    rw [mem_kept] at hk
    rw [mem_retiring] at hret
    rw [mem_removed] at hrem
    have hno : Table.get none staged p = none := by
      by_contra hsome
      by_cases hst : (s.pool p).st = .absent
      · exact hc ⟨hp, hst, hsome⟩
      · exact hk ⟨hp, hst, hsome⟩
    have hst : (s.pool p).st = .absent := by
      by_contra hst
      by_cases hcount : (s.pool p).leaseCount = 0
      · exact hrem ⟨hp, hst, hno, hcount⟩
      · exact hret ⟨hp, hst, hno, hcount⟩
    rw [hpool hp, committedPool_absent hst hno]
  · rw [commit_pool, if_neg (Nat.not_lt.2 hp)]
  · obtain ⟨b, hb⟩ := recomputed_cases s staged (s.lease i)
    rw [commit_lease hcan, hb]
  · rw [commit_lease hcan, recomputed_holding hl hp hentry]
  · rw [commit_lease hcan, recomputed_standing hi]

/-! ### The schedule content -/

theorem exec_scheduleContent {im : ImageRead} {staged : Table (Option StagedPool)} {header : HeaderContent} {o : CommitOutcome}
    (h : s.install = .committing im staged header (some o)) : exec .scheduleContent s =
      .next ((s.takeContent staged header o).endInstall im.cell (installAnswer o s.et.floor)) := by
  simp only [exec, execScheduleContent, h]

/-- A step for each number of a list sets what is read at that number, and nothing else of it. -/
theorem foldl_read {α : Type} {f : State → Nat → State} {read : State → Nat → α} (v : Nat → α)
    (h : ∀ s p q, read (f s p) q = if q = p then v q else read s q) (ps : List Nat) (s : State) (q : Nat) :
    read (ps.foldl f s) q = if q ∈ ps then v q else read s q := by
  induction ps generalizing s with
  | nil => rfl
  | cons p ps ih =>
    rw [List.foldl_cons, ih, h]
    by_cases hq : q = p
    · simp [hq]
    · simp [hq]

theorem foldl_unread {α : Type} {f : State → Nat → State} {read : State → Nat → α} (h : ∀ s p q, read (f s p) q = read s q)
    (ps : List Nat) (s : State) (q : Nat) : read (ps.foldl f s) q = read s q := by
  induction ps generalizing s with
  | nil => rfl
  | cons p ps ih => rw [List.foldl_cons, ih, h]

theorem foldl_maskActive (staged : Table (Option StagedPool)) (ps : List Nat) (s : State) (q : Nat) :
    (ps.foldl (State.maskActive staged) s).activeMask q = (if q ∈ ps then stagedMaskOf staged q else s.activeMask q) ∧
      (ps.foldl (State.maskActive staged) s).stagedMask q = if q ∈ ps then none else s.stagedMask q := by
  constructor
  · refine foldl_read (read := State.activeMask) (stagedMaskOf staged) (fun s p q => ?_) ps s q
    show (s.setActiveMask p _).activeMask q = _
    rw [State.activeMask_setActiveMask]
    split_ifs with h
    · rw [h]
    · rfl
  · exact foldl_read (f := State.maskActive staged) (read := State.stagedMask) (fun _ => none) (fun _ p q => State.stagedMask_setStagedMask _ p q none) ps s q

theorem foldl_maskStaged (staged : Table (Option StagedPool)) (ps : List Nat) (s : State) (q : Nat) :
    (ps.foldl (State.maskStaged staged) s).activeMask q = s.activeMask q ∧
      (ps.foldl (State.maskStaged staged) s).stagedMask q = if q ∈ ps then some (stagedMaskOf staged q) else s.stagedMask q := by
  refine ⟨foldl_unread (f := State.maskStaged staged) (read := State.activeMask) (fun _ _ _ => rfl) ps s q, ?_⟩
  refine foldl_read (read := State.stagedMask) (fun q => some (stagedMaskOf staged q)) (fun s p q => ?_) ps s q
  rw [State.maskStaged, State.stagedMask_setStagedMask]
  split_ifs with h
  · rw [h]
  · rfl

theorem foldl_maskRetired (ps : List Nat) (s : State) (q : Nat) :
    (ps.foldl State.maskRetired s).activeMask q = s.activeMask q ∧
      (ps.foldl State.maskRetired s).stagedMask q = if q ∈ ps then none else s.stagedMask q :=
  ⟨foldl_unread (f := State.maskRetired) (read := State.activeMask) (fun _ _ _ => rfl) ps s q,
    foldl_read (read := State.stagedMask) (fun _ => none) (fun _ p q => State.stagedMask_setStagedMask _ p q none) ps s q⟩

theorem foldl_maskRemoved (ps : List Nat) (s : State) (q : Nat) :
    (ps.foldl State.maskRemoved s).activeMask q = (if q ∈ ps then 0 else s.activeMask q) ∧
      (ps.foldl State.maskRemoved s).stagedMask q = if q ∈ ps then none else s.stagedMask q :=
  ⟨foldl_read (f := State.maskRemoved) (read := State.activeMask) (fun _ => 0) (fun s p q => State.activeMask_setActiveMask (s := s) p q 0) ps s q,
    foldl_read (f := State.maskRemoved) (read := State.stagedMask) (fun _ => none) (fun _ p q => State.stagedMask_setStagedMask _ p q none) ps s q⟩

theorem takeKeptMasks_set (h : s.su.clockSet = true) (staged : Table (Option StagedPool)) (kept : List Nat) :
    s.takeKeptMasks staged kept = kept.foldl (State.maskStaged staged) s := if_pos h

theorem takeKeptMasks_unset (h : s.su.clockSet = false) (staged : Table (Option StagedPool)) (kept : List Nat) :
    s.takeKeptMasks staged kept = kept.foldl (State.maskActive staged) s := if_neg (by rw [h]; exact Bool.false_ne_true)

/-- R126: the masks of a pool once the content has been taken, with the kept pools' masks taken. -/
theorem takeContent_masks (s : State) (staged : Table (Option StagedPool)) (header : HeaderContent) (o : CommitOutcome) (p : Nat) :
    (s.takeContent staged header o).activeMask p =
        (if p ∈ o.removed then 0 else if p ∈ o.created then stagedMaskOf staged p
          else ((s.takeSchedule header.schedule).takeKeptMasks staged o.kept).activeMask p) ∧
      (s.takeContent staged header o).stagedMask p =
        (if p ∈ o.removed then none else if p ∈ o.retiring then none else if p ∈ o.created then none
          else ((s.takeSchedule header.schedule).takeKeptMasks staged o.kept).stagedMask p) := by
  unfold State.takeContent
  rw [(foldl_maskRemoved _ _ _).1, (foldl_maskRemoved _ _ _).2, (foldl_maskRetired _ _ _).1, (foldl_maskRetired _ _ _).2,
    (foldl_maskActive _ _ _ _).1, (foldl_maskActive _ _ _ _).2]
  exact ⟨rfl, rfl⟩

/-- R126: the masks of the kept pools, by the state of the clock. -/
theorem keptMasks_set (h : s.su.clockSet = true) (sched : Schedule) (staged : Table (Option StagedPool)) (kept : List Nat) (p : Nat) :
    ((s.takeSchedule sched).takeKeptMasks staged kept).activeMask p = s.activeMask p ∧
      ((s.takeSchedule sched).takeKeptMasks staged kept).stagedMask p =
        if p ∈ kept then some (stagedMaskOf staged p) else s.stagedMask p := by
  rw [show s.takeSchedule sched = { s with su.staged := some sched } from if_pos h, takeKeptMasks_set (by exact h)]
  exact foldl_maskStaged staged kept _ p

theorem keptMasks_unset (h : s.su.clockSet = false) (sched : Schedule) (staged : Table (Option StagedPool)) (kept : List Nat) (p : Nat) :
    ((s.takeSchedule sched).takeKeptMasks staged kept).activeMask p = (if p ∈ kept then stagedMaskOf staged p else s.activeMask p) ∧
      ((s.takeSchedule sched).takeKeptMasks staged kept).stagedMask p = if p ∈ kept then none else s.stagedMask p := by
  rw [show s.takeSchedule sched = { s with su.active := sched, su.staged := none } from if_neg (by rw [h]; exact Bool.false_ne_true),
    takeKeptMasks_unset (by exact h)]
  exact foldl_maskActive staged kept _ p

/-- R126: what the content taken changes at the Schedule Unit besides the masks. -/
theorem takeContent_frame (s : State) (staged : Table (Option StagedPool)) (header : HeaderContent) (o : CommitOutcome) :
    s.takeContent staged header o = { s with su := (s.takeContent staged header o).su } ∧
      (s.takeContent staged header o).su = { s.su with
        active := if s.su.clockSet = true then s.su.active else header.schedule
        staged := if s.su.clockSet = true then some header.schedule else none
        activeMasks := (s.takeContent staged header o).su.activeMasks
        stagedMasks := (s.takeContent staged header o).su.stagedMasks } := by
  obtain ⟨hmasks, -, -⟩ := takeContent_moved s staged header o
  have hsched : s.takeSchedule header.schedule = { s with
      su.active := if s.su.clockSet = true then s.su.active else header.schedule
      su.staged := if s.su.clockSet = true then some header.schedule else none } := by
    unfold State.takeSchedule
    split_ifs <;> rfl
  generalize s.takeContent staged header o = t at hmasks
  rw [hmasks, hsched]
  exact ⟨rfl, rfl⟩

/-- R126: the numbers of the lists of a commit are in one list each. -/
def CommitOutcome.Exclusive (o : CommitOutcome) : Prop :=
  ∀ p, [p ∈ o.created, p ∈ o.kept, p ∈ o.retiring, p ∈ o.removed].Pairwise (fun a b => ¬ (a ∧ b))

theorem CommitOutcome.Exclusive.apart {o : CommitOutcome} (h : o.Exclusive) (p : Nat) :
    (p ∈ o.created → p ∉ o.kept ∧ p ∉ o.retiring ∧ p ∉ o.removed) ∧ (p ∈ o.kept → p ∉ o.retiring ∧ p ∉ o.removed) ∧
      (p ∈ o.retiring → p ∉ o.removed) := by
  have hp := h p
  simp only [List.pairwise_cons, List.mem_cons, List.not_mem_nil, or_false, forall_eq_or_imp, forall_eq, not_and] at hp
  tauto

/-- R126: the masks of a pool once the content has been taken, by its list. -/
theorem takeContent_masks_by_list (s : State) (staged : Table (Option StagedPool)) (header : HeaderContent) {o : CommitOutcome}
    (ho : o.Exclusive) (p : Nat) :
    (p ∈ o.created ∨ p ∈ o.kept ∧ s.su.clockSet = false → (s.takeContent staged header o).activeMask p = stagedMaskOf staged p ∧
        (s.takeContent staged header o).stagedMask p = none) ∧
      (p ∈ o.kept → s.su.clockSet = true → (s.takeContent staged header o).activeMask p = s.activeMask p ∧
        (s.takeContent staged header o).stagedMask p = some (stagedMaskOf staged p)) ∧
      (p ∈ o.retiring → (s.takeContent staged header o).activeMask p = s.activeMask p ∧
        (s.takeContent staged header o).stagedMask p = none) ∧
      (p ∈ o.removed → (s.takeContent staged header o).activeMask p = 0 ∧ (s.takeContent staged header o).stagedMask p = none) ∧
      (p ∉ o.created → p ∉ o.kept → p ∉ o.retiring → p ∉ o.removed →
        (s.takeContent staged header o).activeMask p = s.activeMask p ∧
          (s.takeContent staged header o).stagedMask p = s.stagedMask p) := by
  obtain ⟨hactive, hstaged⟩ := takeContent_masks s staged header o p
  obtain ⟨hcreated, hkept, hretiring⟩ := ho.apart p
  rw [hactive, hstaged]
  cases hset : s.su.clockSet with
  | true =>
    obtain ⟨hka, hks⟩ := keptMasks_set hset header.schedule staged o.kept p
    rw [hka, hks]
    grind
  | false =>
    obtain ⟨hka, hks⟩ := keptMasks_unset hset header.schedule staged o.kept p
    rw [hka, hks]
    grind

/-- Settles O43: the schedule, the masks list by list, and the answer. -/
theorem scheduleContentTaken : Obligations.ScheduleContentTaken := by
  intro s im staged header o hinstall hdisjoint
  obtain ⟨hframe, hsu⟩ := takeContent_frame s staged header o
  have hmasks := takeContent_masks_by_list s staged header (o := o) hdisjoint
  generalize hcontent : s.takeContent staged header o = content at hframe hsu hmasks
  have hexec := exec_scheduleContent hinstall
  rw [hcontent] at hexec
  obtain ⟨hanswered, hwrites⟩ := handAnswer_answered { content with install := .idle } im.cell (installAnswer o s.et.floor)
  have hxi : content.xi = s.xi := by rw [hframe]
  refine ⟨_, hexec, ?_, ?_, ?_, ?_, fun hset => ?_, fun hunset => ?_, fun p mask hmask => ?_⟩
  · rw [hframe]
    rfl
  · unfold AnsweredFrame at hanswered ⊢
    rw [← hxi]
    exact hanswered
  · unfold Answered State.cell at hwrites ⊢
    rw [← hxi]
    exact hwrites
  · show ({ content.su with
      active := s.su.active, staged := s.su.staged, activeMasks := s.su.activeMasks, stagedMasks := s.su.stagedMasks } : ScheduleUnit) = s.su
    rw [hsu]
  · show content.su.active = _ ∧ content.su.staged = _
    rw [hsu]
    exact ⟨if_pos hset, if_pos hset⟩
  · show content.su.active = _ ∧ content.su.staged = _
    have hno : ¬ s.su.clockSet = true := by rw [hunset]; exact Bool.false_ne_true
    rw [hsu]
    exact ⟨if_neg hno, if_neg hno⟩
  · subst hmask
    exact hmasks p

end Sys2Proof.Machine
end

