-- ==== Sys2Proof/Proofs/Metering.lean ====
section
/-! SUPPORT. Counts, interval ends and the meter page at the Meter Unit (R149 to R156). -/

namespace Sys2Proof.Machine
variable {s t : State}

/-! ### Counts -/

theorem exec_meterCount {which : Nat} {c : MeterCount} (h : s.mu.inbox[which]? = some c) :
    exec (.meterCount which) s = .next (State.takeCount { s with mu.inbox := s.mu.inbox.eraseIdx which } c) := by
  simp only [exec, execMeterCount, h]

/-- R149: a count changes the meters of its own pool only. -/
theorem takeCount_frame (s : State) (c : MeterCount) :
    s.takeCount c = { s with mu := { s.mu with meters := (s.takeCount c).mu.meters } } := by cases c <;> rfl

theorem takeCount_raise (s : State) (k : CountedMeter) (p q : Nat) : (s.takeCount (.raise k p)).metersOf q =
    if q = p then (s.metersOf p).raise k else s.metersOf q := State.metersOf_setMeters _ p q _

theorem takeCount_peak (s : State) (p q inUse : Nat) : (s.takeCount (.peak p inUse)).metersOf q =
    if q = p then (s.metersOf p).takePeak inUse else s.metersOf q := State.metersOf_setMeters _ p q _

/-- R149, R151: one more grant, or the saturation flag. -/
theorem raise_grants (m : Meters) : m.raise .grants = { m with
    grants := if m.grants < 16777215 then m.grants + 1 else m.grants
    satGrants := m.satGrants || decide (16777215 ≤ m.grants) } := by
  unfold Meters.raise maxGrants
  by_cases h : m.grants < 16777215
  · simp [h, Nat.not_le.2 h]
  · simp [h, Nat.not_lt.1 h]

theorem raise_refusals (m : Meters) : m.raise .refusals = { m with
    refusals := if m.refusals < 65535 then m.refusals + 1 else m.refusals
    satRefusals := m.satRefusals || decide (65535 ≤ m.refusals) } := by
  unfold Meters.raise maxMeter16
  by_cases h : m.refusals < 65535
  · simp [h, Nat.not_le.2 h]
  · simp [h, Nat.not_lt.1 h]

theorem raise_waitExpiries (m : Meters) : m.raise .waitExpiries = { m with
    waitExpiries := if m.waitExpiries < 65535 then m.waitExpiries + 1 else m.waitExpiries
    satWaitExpiries := m.satWaitExpiries || decide (65535 ≤ m.waitExpiries) } := by
  unfold Meters.raise maxMeter16
  by_cases h : m.waitExpiries < 65535
  · simp [h, Nat.not_le.2 h]
  · simp [h, Nat.not_lt.1 h]

theorem raise_lapses (m : Meters) : m.raise .lapses = { m with
    lapses := if m.lapses < 65535 then m.lapses + 1 else m.lapses
    satLapses := m.satLapses || decide (65535 ≤ m.lapses) } := by
  unfold Meters.raise maxMeter16
  by_cases h : m.lapses < 65535
  · simp [h, Nat.not_le.2 h]
  · simp [h, Nat.not_lt.1 h]

/-- R150, R151: the peak follows a new in-use above it, flagged where it reaches 65535. -/
theorem takePeak_eq (m : Meters) {inUse : Nat} (h : inUse ≤ 65535) : m.takePeak inUse = { m with
    peak := max m.peak inUse
    satPeak := m.satPeak || decide (m.peak < 65535 ∧ inUse = 65535) } := by
  unfold Meters.takePeak maxMeter16
  by_cases hpeak : m.peak < inUse
  · rw [if_pos hpeak, Nat.max_eq_right hpeak.le]
    by_cases htop : inUse < 65535
    · simp [htop, Nat.ne_of_lt htop]
    · have htop : inUse = 65535 := by omega
      subst htop
      simp [hpeak]
  · have hno : ¬ (m.peak < 65535 ∧ inUse = 65535) := by omega
    simp [hpeak, hno, Nat.max_eq_left (Nat.not_lt.1 hpeak)]

/-! ### Slot ends -/

theorem takeSlotEnd_within (h : s.mu.slotEndCount + 1 < s.mu.interval) : s.takeSlotEnd = { s with
    mu := { s.mu with slotEnds := s.mu.slotEnds - 1, slotEndCount := s.mu.slotEndCount + 1 } } := by
  unfold State.takeSlotEnd State.intervalDue
  rw [if_neg (by rw [decide_eq_true_eq]; omega)]

theorem takeSlotEnd_ends (h : s.mu.interval ≤ s.mu.slotEndCount + 1) : s.takeSlotEnd = { s with mu := { s.mu with
    slotEnds := s.mu.slotEnds - 1
    slotEndCount := 0
    covered := if s.mu.covered < 255 then s.mu.covered + 1 else s.mu.covered
    readDue := if s.mu.page = .reading then s.mu.readDue else true } } := by
  unfold State.takeSlotEnd State.intervalDue
  rw [if_pos (decide_eq_true h)]
  rfl

/-- Settles O44: each count by its meter, each slot end by the interval. -/
theorem meterCountsAndIntervals : Obligations.MeterCountsAndIntervals := by
  refine ⟨fun s which p inUse m hm c hc => ?_, fun s hpos => ⟨fun hwithin => ?_, fun hends => ?_⟩⟩
  · subst hm
    refine ⟨_, exec_meterCount hc, takeCount_frame _ c, ?_, ?_, ?_, ?_, ?_, ?_⟩
    · rintro rfl
      rw [takeCount_raise, if_pos rfl]
      exact raise_grants _
    · rintro rfl
      rw [takeCount_raise, if_pos rfl]
      exact raise_refusals _
    · rintro rfl
      rw [takeCount_raise, if_pos rfl]
      exact raise_waitExpiries _
    · rintro rfl
      rw [takeCount_raise, if_pos rfl]
      exact raise_lapses _
    · rintro rfl hle
      rw [takeCount_peak, if_pos rfl]
      exact takePeak_eq _ hle
    · rintro (rfl | ⟨k, rfl⟩) q hq
      · rw [takeCount_peak, if_neg hq]
        rfl
      · rw [takeCount_raise, if_neg hq]
        rfl
  · simp only [exec, execSlotEnd]
    rw [if_pos hpos, takeSlotEnd_within hwithin]
  · refine ⟨_, if_pos hpos, ?_, takeSlotEnd_ends hends⟩
    exact if_pos ⟨hpos, decide_eq_true hends⟩

/-! ### The meter page -/

theorem exec_ownerReadArrival {tag : Nat} {bytes : List Byte} {x : Transfer} (hx : s.transfer tag = some x) (hk : x.kind = .ownerRead) :
    exec (.ownerReadArrival tag bytes) s = .next ((s.landed tag).takeOwnerWord (wordField bytes 0)) := by
  obtain ⟨_, kind, _, _, _⟩ := x
  cases hk
  simp only [exec, execOwnerReadArrival, hx]

theorem exec_pageWriteComplete {tag : Nat} {x : Transfer} (hx : s.transfer tag = some x) (hk : x.kind = .pageWrite) :
    exec (.pageWriteComplete tag) s = .next (s.landed tag).pagePartDone := by
  obtain ⟨_, kind, _, _, _⟩ := x
  cases hk
  simp only [exec, execPageWriteComplete, hx]

theorem exec_ownerWordWriteComplete {tag : Nat} {x : Transfer} (hx : s.transfer tag = some x) (hk : x.kind = .ownerWrite) :
    exec (.ownerWordWriteComplete tag) s = .next (s.landed tag).pageDone := by
  obtain ⟨_, kind, _, _, _⟩ := x
  cases hk
  simp only [exec, execOwnerWordWriteComplete, hx]

theorem exec_meterOwnerRead (hidle : s.mu.page = .idle) (hdue : s.mu.readDue = true) (hdma : s.xi.engine.dma = true) :
    exec .meterOwnerRead s = .next { s with
      nextTag := s.nextTag + 1
      xi := { s.xi with inFlight := s.xi.inFlight ++ [⟨s.nextTag, .ownerRead, s.xi.base + 8, 4, []⟩] }
      mu := { s.mu with readDue := false, page := .reading } } := by
  refine (if_pos ⟨hidle, hdue, hdma⟩).trans ?_
  rfl

/-- R172: four bytes read as 0 exactly when each is 0. -/
theorem wordField_eq_zero_iff (b0 b1 b2 b3 : Byte) : wordField [b0, b1, b2, b3] 0 = 0 ↔ b0 = 0 ∧ b1 = 0 ∧ b2 = 0 ∧ b3 = 0 := by
  rw [wordField_four]
  constructor
  · intro h
    have hz : (b3 ++ b2 ++ b1 ++ b0).toNat = 0 := congrArg BitVec.toNat h
    rw [toNat_append_byte, toNat_append_byte, toNat_append_byte] at hz
    have hzero (b : Byte) (hb : b.toNat = 0) : b = 0 := BitVec.eq_of_toNat_eq hb
    exact ⟨hzero b0 (by omega), hzero b1 (by omega), hzero b2 (by omega), hzero b3 (by omega)⟩
  · rintro ⟨rfl, rfl, rfl, rfl⟩
    rfl

/-- R155: the next part of the page where DMA is permitted. -/
theorem nextPagePart_header {snap : PageSnapshot} {b : Bool} (h : s.mu.page = .writing snap 0 b) (hdma : s.xi.engine.dma = true) :
    s.nextPagePart = { s with
      nextTag := s.nextTag + 1
      xi := { s.xi with inFlight := s.xi.inFlight ++ [⟨s.nextTag, .pageWrite, s.xi.base + 0x5000, 0, snap.headerBytes⟩] }
      mu := { s.mu with page := .writing snap 0 true } } := by
  unfold State.nextPagePart State.issuePagePart
  rw [if_pos hdma, h]
  rfl

theorem nextPagePart_after {snap : PageSnapshot} {part : Nat} {b : Bool} (h : s.mu.page = .writing snap (part + 1) b)
    (hdma : s.xi.engine.dma = true) : s.nextPagePart = { s with
      nextTag := s.nextTag + 1
      mu := { s.mu with page := .writing snap (part + 1) true }
      xi := { s.xi with inFlight := s.xi.inFlight ++
        [if part < 512 then
          ⟨s.nextTag, .pageWrite, s.xi.base + BitVec.ofNat 64 (0x5040 + 32 * part), 0, snap.recordBytes part⟩
        else ⟨s.nextTag, .ownerWrite, s.xi.base + 8, 0, [1, 0, 0, 0]⟩] } } := by
  unfold State.nextPagePart State.issuePagePart
  rw [if_pos hdma, h]
  simp only
  by_cases hp : part < 512
  · rw [if_pos hp, if_pos (show part + 1 ≤ Config.numPools from hp)]
    rfl
  · rw [if_neg hp, if_neg (show ¬ part + 1 ≤ Config.numPools from hp)]
    rfl

theorem nextPagePart_waits (h : ¬ s.xi.engine.dma = true) : s.nextPagePart = s := if_neg h

/-- R156: a METER notice whose write has not begun. -/
theorem meterNoticeWaits_iff : s.meterNoticeWaits = true ↔
    Notice.meter ∈ s.xi.notices.drop (if s.xi.noticeStage = .notBegun then 0 else 1) := by
  unfold State.meterNoticeWaits
  cases s.xi.notices with
  | nil => simp
  | cons n rest => split_ifs <;> simp

/-- R154: a page begins: the meters are as given, and the header of the snapshot is the part that comes next. -/
def State.pageBegun (s : State) (meters : Table Meters) (snap : PageSnapshot) : State :=
  { s with
    mu.meters := meters
    mu.covered := 0
    mu.pages := s.mu.pages + 1
    mu.page := .writing snap 0 false }

theorem takePage_eq (s : State) : s.takePage = (s.pageBegun s.metersAfterSnapshot s.snapshot).nextPagePart := by
  unfold State.takePage State.pageBegun
  rfl

theorem metersAfterSnapshot_get {p : Nat} (hp : p < 512) :
    Table.get Meters.atReset s.metersAfterSnapshot p = { Meters.atReset with peak := (s.pool p).inUse } := by
  simp only [State.metersAfterSnapshot]
  rw [Table.get_build_below (n := Config.numPools) _ _ hp]

/-- R154: what the snapshot holds. -/
theorem snapshot_spec (s : State) :
    s.snapshot.covered = s.mu.covered ∧ s.snapshot.frame = s.su.frame ∧ s.snapshot.slot = s.su.slot ∧
      s.snapshot.pages = s.mu.pages + 1 ∧ s.snapshot.meters = s.mu.meters ∧
      ∀ p, p < 512 → Table.get Occupancy.atReset s.snapshot.pools p = ⟨(s.pool p).st, (s.pool p).inUse, (s.pool p).leaseCount⟩ := by
  refine ⟨rfl, rfl, rfl, rfl, rfl, fun p hp => ?_⟩
  simp only [State.snapshot]
  rw [Table.get_build_below (n := Config.numPools) _ _ hp]

/-- R155: a part has been written, and the next follows. -/
theorem pagePartDone_eq {snap : PageSnapshot} {part : Nat} {b : Bool} (h : s.mu.page = .writing snap part b) :
    s.pagePartDone = State.nextPagePart { s with mu.page := .writing snap (part + 1) false } := by
  unfold State.pagePartDone
  rw [h]

theorem pageDone_waits (h : s.meterNoticeWaits = true) : s.pageDone = { s with mu.page := .idle } := by
  simp only [State.pageDone, h, if_true]

theorem pageDone_notices (h : ¬ s.meterNoticeWaits = true) :
    s.pageDone = { s with mu.page := .idle, xi.notices := s.xi.notices ++ [.meter] } := by
  simp only [State.pageDone, h]
  rfl

/-- Settles O45: the owner word, the parts of the page, its end, and the layouts. -/
theorem meterPageReadAndWritten : Obligations.MeterPageReadAndWritten := by
  refine ⟨fun s tag bytes b0 b1 b2 b3 x hbytes landed hlanded => ⟨fun hidle hdue hdma => ?_, fun hx hk hne => ?_,
      fun hx hk h0 h1 h2 h3 => ?_⟩,
    fun s tag part snap x hx inFlight hin => ⟨fun hk hpage => ⟨fun hdma => ?_, fun hrun hhold => ?_⟩, fun hk waits hwaits => ⟨fun hw => ?_, fun hw => ?_⟩⟩,
    fun snap => ⟨snap.headerBytes_laidOut, fun p m o hm ho => hm ▸ ho ▸ snap.recordBytes_laidOut p⟩⟩
  · exact exec_meterOwnerRead hidle hdue ((dma_iff _).2 hdma)
  · subst hbytes hlanded
    rw [exec_ownerReadArrival hx hk]
    refine next_congr (if_neg fun hzero => ?_)
    obtain ⟨h0, h1, h2, h3⟩ := (wordField_eq_zero_iff b0 b1 b2 b3).1 hzero
    rcases hne with h | h | h | h
    · exact h h0
    · exact h h1
    · exact h h2
    · exact h h3
  · subst hbytes hlanded
    have hexec : exec (.ownerReadArrival tag [b0, b1, b2, b3]) s = .next (s.landed tag).takePage := by
      rw [exec_ownerReadArrival hx hk]
      exact next_congr (if_pos ((wordField_eq_zero_iff b0 b1 b2 b3).2 ⟨h0, h1, h2, h3⟩))
    rw [takePage_eq] at hexec
    have hmeters : ∀ p, p < 512 → Table.get Meters.atReset (s.landed tag).metersAfterSnapshot p =
        { Meters.atReset with peak := (s.pool p).inUse } := fun p hp => metersAfterSnapshot_get hp
    obtain ⟨hcovered, hframe, hslot, hpages, hheld, hpools⟩ := snapshot_spec (s.landed tag)
    have hpage : ∀ p, p < 512 → Table.get Meters.atReset (s.landed tag).snapshot.meters p = s.metersOf p ∧
        Table.get Occupancy.atReset (s.landed tag).snapshot.pools p = ⟨(s.pool p).st, (s.pool p).inUse, (s.pool p).leaseCount⟩ :=
      fun p hp => ⟨by rw [hheld]; rfl, hpools p hp⟩
    generalize (s.landed tag).metersAfterSnapshot = meters at hexec hmeters
    generalize (s.landed tag).snapshot = snap at hexec hcovered hframe hslot hpages hpage
    by_cases hdma : s.xi.engine.dma = true
    · rw [nextPagePart_header (s := (s.landed tag).pageBegun meters snap) (b := false) rfl hdma] at hexec
      refine ⟨_, snap, hexec, hmeters, hcovered, hframe, hslot, hpages, hpage, fun u hu => ⟨fun _ => ?_, fun hr hh => ?_⟩⟩
      · rw [hu]
        rfl
      · exact absurd ((dma_iff _).1 hdma) (not_or.2 ⟨hr, hh⟩)
    · rw [nextPagePart_waits (s := (s.landed tag).pageBegun meters snap) hdma] at hexec
      refine ⟨_, snap, hexec, hmeters, hcovered, hframe, hslot, hpages, hpage, fun u hu => ⟨fun h => ?_, fun _ _ => ?_⟩⟩
      · exact absurd ((dma_iff _).2 h) hdma
      · rw [hu]
        rfl
  · subst hin
    rw [exec_pageWriteComplete hx hk]
    refine next_congr ((pagePartDone_eq (s := s.landed tag) hpage).trans ?_)
    exact nextPagePart_after (s := { s.landed tag with mu.page := .writing snap (part + 1) false }) rfl ((dma_iff _).2 hdma)
  · subst hin
    rw [exec_pageWriteComplete hx hk]
    refine next_congr ((pagePartDone_eq (s := s.landed tag) hpage).trans ?_)
    exact nextPagePart_waits (s := { s.landed tag with mu.page := .writing snap (part + 1) false })
      fun h => ((dma_iff _).1 h).elim hrun hhold
  · subst hin
    rw [exec_ownerWordWriteComplete hx hk]
    exact next_congr (pageDone_waits (s := s.landed tag) (meterNoticeWaits_iff.2 (hwaits.1 hw)))
  · subst hin
    rw [exec_ownerWordWriteComplete hx hk]
    exact next_congr (pageDone_notices (s := s.landed tag) fun h => hw (hwaits.2 (meterNoticeWaits_iff.1 h)))

end Sys2Proof.Machine
end

