-- ==== Sys2Proof/Proofs/Requeue.lean ====
section
/-! SUPPORT. Every operation of the model commutes with a change of the queue of waiting commands, so no command reads it (O2). An
operation without a branch does so by its definition; the lemmas below are for those that branch or fold, in the order of the model. -/

namespace Sys2Proof.Machine

/-- The state with other commands waiting. -/
def State.requeued (s : State) (l : List Instr) : State := { s with pending := l }

section
variable (s : State) (l : List Instr)

theorem ite_requeued {s t s' t' : State} {l : List Instr} {c : Prop} [Decidable c] (hs : s' = s.requeued l) (ht : t' = t.requeued l) :
    (if c then s' else t') = (if c then s else t).requeued l := by
  subst hs ht
  split_ifs <;> rfl

theorem foldl_requeued {α : Type} {f : State → α → State} (h : ∀ s l a, f (s.requeued l) a = (f s a).requeued l) (as : List α) :
    as.foldl f (s.requeued l) = (as.foldl f s).requeued l := by
  induction as generalizing s with
  | nil => rfl
  | cons a as ih => rw [List.foldl_cons, List.foldl_cons, h, ih]

theorem requeued_xi : (s.requeued l).xi = s.xi := rfl

theorem requeued_mu : (s.requeued l).mu = s.mu := rfl

theorem requeued_wu : (s.requeued l).wu = s.wu := rfl

theorem requeued_install : (s.requeued l).install = s.install := rfl

theorem requeued_decision : (s.requeued l).decision = s.decision := rfl

/-! ### Interrupts and transfers -/

theorem setCauseNotice_requeued : (s.requeued l).setCauseNotice = s.setCauseNotice.requeued l := ite_requeued rfl rfl

theorem setCauseFault_requeued : (s.requeued l).setCauseFault = s.setCauseFault.requeued l := ite_requeued rfl rfl

theorem takeEnable_requeued (enable : Bool) : (s.requeued l).takeEnable enable = (s.takeEnable enable).requeued l :=
  ite_requeued rfl rfl

theorem rereadConsumed_requeued : (s.requeued l).rereadConsumed = s.rereadConsumed.requeued l := ite_requeued rfl rfl

theorem issueFirstWrite_requeued : (s.requeued l).issueFirstWrite = s.issueFirstWrite.requeued l := by
  unfold State.issueFirstWrite
  rw [requeued_xi]
  rcases s.xi.writeList with _ | ⟨_ | _, _⟩ <;> rfl

theorem issueStatusWrite_requeued : (s.requeued l).issueStatusWrite = s.issueStatusWrite.requeued l := by
  unfold State.issueStatusWrite
  rw [requeued_xi]
  rcases s.xi.writeList with _ | ⟨_ | _, _⟩ <;> rfl

theorem firstWriteDone_requeued : (s.requeued l).firstWriteDone = s.firstWriteDone.requeued l :=
  ite_requeued (issueStatusWrite_requeued s l) rfl

theorem issueNoticeEntry_requeued : (s.requeued l).issueNoticeEntry = s.issueNoticeEntry.requeued l := by
  unfold State.issueNoticeEntry
  rw [requeued_xi]
  cases s.xi.notices <;> rfl

theorem issueNoticeCount_requeued : (s.requeued l).issueNoticeCount = s.issueNoticeCount.requeued l := by
  unfold State.issueNoticeCount
  rw [requeued_xi]
  cases s.xi.notices <;> rfl

theorem issuePagePart_requeued : (s.requeued l).issuePagePart = s.issuePagePart.requeued l := by
  unfold State.issuePagePart
  rw [requeued_mu]
  cases s.mu.page
  case writing => exact ite_requeued rfl rfl
  all_goals rfl

theorem nextPagePart_requeued : (s.requeued l).nextPagePart = s.nextPagePart.requeued l :=
  ite_requeued (issuePagePart_requeued s l) rfl

theorem issueImageRead_requeued : (s.requeued l).issueImageRead = s.issueImageRead.requeued l := by
  unfold State.issueImageRead
  rw [requeued_install]
  cases s.install <;> rfl

theorem nextImageRead_requeued : (s.requeued l).nextImageRead = s.nextImageRead.requeued l :=
  ite_requeued (issueImageRead_requeued s l) rfl

/-! ### Engine states -/

theorem resume_requeued : (s.requeued l).resume = s.resume.requeued l := by
  have hretries : (s.requeued l).issueRetries = s.issueRetries.requeued l :=
    foldl_requeued { s with xi.retry := [] } l (fun _ _ _ => rfl) s.xi.retry
  have hwrite (s : State) : (s.requeued l).resumeWriteList = s.resumeWriteList.requeued l :=
    ite_requeued (issueStatusWrite_requeued s l) rfl
  have hnotices (s : State) : (s.requeued l).resumeNotices = s.resumeNotices.requeued l :=
    ite_requeued (issueNoticeCount_requeued s l) rfl
  have hpage (s : State) : (s.requeued l).resumePage = s.resumePage.requeued l := by
    have hpart := issuePagePart_requeued s l
    unfold State.resumePage
    rw [requeued_mu]
    rcases s.mu.page with _ | _ | ⟨_, _, _ | _⟩
    case writing.false => exact hpart
    all_goals rfl
  have himage (s : State) : (s.requeued l).resumeImage = s.resumeImage.requeued l := by
    have hread := issueImageRead_requeued s l
    unfold State.resumeImage
    rw [requeued_install]
    cases s.install with
    | reading im =>
      exact ite_requeued (issueImageRead_requeued
        { s with install := .reading { im with bytes := [], crc := crcStart, readTag := none, restart := false } } l)
        (ite_requeued hread rfl)
    | idle => rfl
    | committing _ _ _ _ => rfl
  unfold State.resume
  rw [hretries, hwrite, hnotices, hpage, himage]

theorem leaveOffline_requeued (target : EngineState) : (s.requeued l).leaveOffline target = (s.leaveOffline target).requeued l :=
  ite_requeued rfl rfl

theorem requestDmaState_requeued (target : EngineState) :
    (s.requeued l).requestDmaState target = (s.requestDmaState target).requeued l := by
  have hoffline := leaveOffline_requeued s l target
  unfold State.requestDmaState
  rw [requeued_xi]
  cases s.xi.engine
  case offline => exact hoffline
  case still => exact resume_requeued { s.loadGrace with xi.engine := target } l
  case faulted => exact resume_requeued { s with xi.engine := target } l
  all_goals rfl

theorem requestStillState_requeued : (s.requeued l).requestStillState = s.requestStillState.requeued l := by
  have hoffline := leaveOffline_requeued s l .still
  unfold State.requestStillState
  rw [requeued_xi]
  cases s.xi.engine
  case offline => exact hoffline
  all_goals rfl

/-! ### Registers and cells -/

theorem writeBaseLo_requeued (value : Word) : (s.requeued l).writeBaseLo value = (s.writeBaseLo value).requeued l := by
  unfold State.writeBaseLo
  rw [requeued_xi]
  cases s.xi.engine <;> rfl

theorem writeBaseHi_requeued (value : Word) : (s.requeued l).writeBaseHi value = (s.writeBaseHi value).requeued l := by
  unfold State.writeBaseHi
  rw [requeued_xi]
  cases s.xi.engine <;> rfl

theorem requeued_cell (c : Nat) : (s.requeued l).cell c = s.cell c := rfl

theorem requeued_lease (i : Nat) : (s.requeued l).lease i = s.lease i := rfl

theorem requeued_pool (p : Nat) : (s.requeued l).pool p = s.pool p := rfl

theorem requeued_queue (p : Nat) : (s.requeued l).queue p = s.queue p := rfl

theorem requeued_transfer (tag : Nat) : (s.requeued l).transfer tag = s.transfer tag := rfl

theorem postCell_requeued (c : Nat) : (s.requeued l).postCell c = (s.postCell c).requeued l := by
  unfold State.postCell
  refine ite_requeued rfl ?_
  rw [requeued_cell]
  cases (s.cell c).st <;> rfl

theorem retireWrite_requeued : (s.requeued l).retireWrite = s.retireWrite.requeued l := by
  unfold State.retireWrite
  rw [requeued_xi]
  rcases s.xi.writeList with _ | ⟨_ | _, _⟩ <;> rfl

theorem noticeDelivered_requeued (n : Notice) : (s.requeued l).noticeDelivered n = (s.noticeDelivered n).requeued l := by
  cases n with
  | answer c r p => rfl
  | lapse index generation p => exact ite_requeued rfl rfl
  | meter => rfl

theorem noticeWrittenEvent_requeued : (s.requeued l).noticeWrittenEvent = s.noticeWrittenEvent.requeued l := by
  unfold State.noticeWrittenEvent
  rw [requeued_xi]
  cases s.xi.notices with
  | nil => rfl
  | cons n rest =>
    have hcause := setCauseNotice_requeued
      { s with xi.written := s.xi.written + 1, xi.notices := rest, xi.noticeStage := .notBegun } l
    exact (congrArg (fun u : State => u.noticeDelivered n) hcause).trans (noticeDelivered_requeued _ l n)

theorem failTransfer_requeued (x : Transfer) : (s.requeued l).failTransfer x = (s.failTransfer x).requeued l := by
  rw [failTransfer_eq, failTransfer_eq]
  rfl

/-! ### Leases and waiters -/

theorem freeEvent_requeued (ls : List Lease) : (s.requeued l).freeEvent ls = (s.freeEvent ls).requeued l := by
  rw [freeEvent_congr (s := s) (t := s.requeued l) ls rfl rfl rfl]
  exact congrArg (fun u : State => u.requeued l) (freeEvent_eq s ls).symm

theorem released_requeued (f : Nat → Lease → Lease) (notices : List Notice) (inbox : List MeterCount) (freed : List Lease) (report : Bool) :
    (s.requeued l).released f notices inbox freed report = (s.released f notices inbox freed report).requeued l := by
  rw [released_eq, released_eq, freeEvent_requeued]
  cases report <;> rfl

theorem ageLeases_requeued : (s.requeued l).ageLeases = s.ageLeases.requeued l := by
  rw [ageLeases_eq, ageLeases_eq, released_requeued]
  rfl

theorem clearLeases_requeued : (s.requeued l).clearLeases = s.clearLeases.requeued l := by
  rw [clearLeases_released, clearLeases_released, released_requeued]
  rfl

theorem returnRecords_requeued (skip : Bool) (chosen : Nat → Lease → Bool) :
    (s.requeued l).returnRecords skip chosen = (s.returnRecords skip chosen).requeued l := by
  rw [returnRecords_released, returnRecords_released, released_requeued]
  rfl

theorem flushQueue_requeued (p : Nat) (r : Result) : (s.requeued l).flushQueue p r = (s.flushQueue p r).requeued l :=
  foldl_requeued (s.setQueue p []) l (fun _ _ _ => rfl) (s.queue p)

theorem countDeadlines_requeued : (s.requeued l).countDeadlines = s.countDeadlines.requeued l := by
  unfold State.countDeadlines
  exact congrArg (fun u : State => u.makeDue s.expiringHeads) (foldl_requeued
    { s with wu.queues := Table.mapEntries [] (fun _ q => (q.filter (fun w => !w.expiring)).map Waiter.counted) s.wu.queues } l
    (fun _ _ _ => rfl) s.expiringWaiters)

theorem waitTick_requeued : (s.requeued l).waitTick = s.waitTick.requeued l := ite_requeued (countDeadlines_requeued s l) rfl

theorem tickWaitUnit_requeued : (s.requeued l).tickWaitUnit = s.tickWaitUnit.requeued l := by
  have htick := waitTick_requeued s l
  unfold State.tickWaitUnit
  rw [requeued_wu]
  cases s.wu.exam with
  | none => exact htick
  | some e => rfl

theorem waitTicks_requeued (n : Nat) : State.waitTicks n (s.requeued l) = (State.waitTicks n s).requeued l := by
  induction n generalizing s with
  | zero => rfl
  | succ n ih => rw [State.waitTicks, State.waitTicks, waitTick_requeued, ih]

theorem takeParking_requeued (e : ParkingEvent) : (s.requeued l).takeParking e = (s.takeParking e).requeued l := ite_requeued rfl rfl

theorem endExam_requeued (p : Nat) (stalled : Bool) : (s.requeued l).endExam p stalled = (s.endExam p stalled).requeued l :=
  waitTicks_requeued { s.setStall p stalled with wu.exam := none, wu.heldTicks := 0 } l s.wu.heldTicks

theorem examPoolState_requeued (p : Nat) : (s.requeued l).examPoolState p = (s.examPoolState p).requeued l := by
  refine ite_requeued rfl ?_
  rw [flushQueue_requeued, endExam_requeued]

theorem examFlushExpired_requeued (p : Nat) : (s.requeued l).examFlushExpired p = (s.examFlushExpired p).requeued l := by
  unfold State.examFlushExpired
  rw [flushQueue_requeued]
  exact endExam_requeued ((s.flushQueue p .expired).handCounts ((s.queue p).map (fun _ => MeterCount.raise .refusals p))) l p false

theorem examValidity_requeued (p : Nat) : (s.requeued l).examValidity p = (s.examValidity p).requeued l :=
  ite_requeued (endExam_requeued s l p false) (ite_requeued (examFlushExpired_requeued s l p)
    (ite_requeued (endExam_requeued s l p false) rfl))

theorem examHead_requeued (p : Nat) : (s.requeued l).examHead p = (s.examHead p).requeued l := by
  have hend := endExam_requeued s l p false
  unfold State.examHead
  rw [requeued_queue]
  cases s.queue p with
  | nil => exact hend
  | cons w rest => exact ite_requeued hend (ite_requeued rfl (ite_requeued rfl hend))

theorem examStep_requeued : (s.requeued l).examStep = s.examStep.requeued l := by
  have hstate := examPoolState_requeued s l
  have hvalidity := examValidity_requeued s l
  have hhead := examHead_requeued s l
  unfold State.examStep
  rw [requeued_wu]
  rcases s.wu.exam with _ | ⟨p, stage⟩
  · rfl
  · cases stage with
    | poolState => exact hstate p
    | validity => exact hvalidity p
    | head => exact hhead p
    | granting charge => rfl

theorem examSteps_requeued (n : Nat) : State.examSteps n (s.requeued l) = (State.examSteps n s).requeued l := by
  induction n generalizing s with
  | zero => rfl
  | succ n ih => rw [State.examSteps, State.examSteps, examStep_requeued, ih]

theorem beginExam_requeued : (s.requeued l).beginExam = s.beginExam.requeued l := by
  unfold State.beginExam
  rw [requeued_wu]
  cases s.wu.exam with
  | none => cases s.wu.due <;> rfl
  | some e => rfl

theorem lowestFree_requeued : (s.requeued l).lowestFree = s.lowestFree := State.lowestFree_congr rfl

theorem grantVerdict_requeued (p : Nat) (key : Word) (charge : Nat) :
    (s.requeued l).grantVerdict p key charge = s.grantVerdict p key charge := by
  unfold State.grantVerdict
  rw [lowestFree_requeued]
  rfl

theorem examGrant_requeued (p charge : Nat) : (s.requeued l).examGrant p charge = (s.examGrant p charge).requeued l := by
  have hend := endExam_requeued s l p
  unfold State.examGrant
  rw [requeued_queue]
  cases s.queue p with
  | nil => exact hend false
  | cons w rest =>
    simp only [grantVerdict_requeued, lowestFree_requeued]
    cases s.grantVerdict p w.key charge with
    | none =>
      cases s.lowestFree with
      | none => exact hend true
      | some i => rfl
    | some kind => cases kind <;> exact hend _

theorem takeCommitReport_requeued (r : CommitReport) : (s.requeued l).takeCommitReport r = (s.takeCommitReport r).requeued l := by
  have hretire (s : State) (l : List Instr) (p : Nat) : (s.requeued l).retireQueue p = (s.retireQueue p).requeued l :=
    congrArg (fun u : State => u.setStall p false) (flushQueue_requeued s l p .poolRetired)
  unfold State.takeCommitReport
  rw [foldl_requeued s l hretire]
  rfl

/-! ### Requests at the Wait Unit -/

theorem withdrawEvent_requeued (c target : Nat) : (s.requeued l).withdrawEvent c target = (s.withdrawEvent c target).requeued l := by
  unfold State.withdrawEvent
  rw [show (s.requeued l).homeOf target = s.homeOf target from rfl]
  cases s.homeOf target with
  | none => rfl
  | some p =>
    exact congrArg (fun u : State => u.handAnswer c (plainAnswer .ok (poolField p)))
      (ite_requeued (l := l) rfl rfl : (s.requeued l).withdrawFrom p target = (s.withdrawFrom p target).requeued l)

theorem clearWaiters_requeued : (s.requeued l).clearWaiters = s.clearWaiters.requeued l :=
  foldl_requeued { s with wu.queues := [], wu.stall := [], wu.due := [] } l (fun _ _ _ => rfl) s.allWaiters

theorem clearFloorEvent_requeued (c : Nat) : (s.requeued l).clearFloorEvent c = (s.clearFloorEvent c).requeued l := by
  unfold State.clearFloorEvent
  rw [clearWaiters_requeued, clearLeases_requeued]
  rfl

theorem finishWithdraw_requeued : (s.requeued l).finishWithdraw = s.finishWithdraw.requeued l := by
  unfold State.finishWithdraw
  rw [requeued_decision]
  rcases s.decision with _ | _ | ⟨c, target⟩ | _ | _
  case some.withdraw => exact ite_requeued (withdrawEvent_requeued { s with decision := none } l c target) rfl
  all_goals rfl

theorem finishClearFloor_requeued : (s.requeued l).finishClearFloor = s.finishClearFloor.requeued l := by
  unfold State.finishClearFloor
  rw [requeued_decision]
  rcases s.decision with _ | _ | _ | _ | c
  case some.clearFloor => exact ite_requeued (clearFloorEvent_requeued { s with decision := none } l c) rfl
  all_goals rfl

theorem finishInspect_requeued : (s.requeued l).finishInspect = s.finishInspect.requeued l := by
  unfold State.finishInspect
  rw [requeued_decision]
  rcases s.decision with _ | _ | _ | _ | _
  case some.inspect => exact ite_requeued rfl rfl
  all_goals rfl

/-! ### Requests -/

theorem takeCell_requeued : (s.requeued l).takeCell = s.takeCell.map fun e => (e.1, e.2.1, e.2.2.requeued l) := by
  unfold State.takeCell
  rw [requeued_xi, requeued_decision]
  split_ifs with hruns
  · cases s.xi.readAhead with
    | nil => rfl
    | cons c rest =>
      dsimp only
      rw [apply_ite (Option.map _)]
      rfl
  · rfl

theorem withRequest_requeued {f : Nat → List Byte → State → State} (kind : Nat)
    (hf : ∀ c copy (s : State), f c copy (s.requeued l) = (f c copy s).requeued l) :
    (s.requeued l).withRequest kind f = (s.withRequest kind f).requeued l := by
  unfold State.withRequest
  rw [takeCell_requeued]
  rcases s.takeCell with _ | ⟨c, copy, taken⟩
  · rfl
  · refine ite_requeued ?_ rfl
    cases firstReserved kind copy with
    | none => exact hf c copy taken
    | some off => rfl

theorem renewRequest_requeued (c : Nat) (copy : List Byte) : renewRequest c copy (s.requeued l) = (renewRequest c copy s).requeued l := by
  refine ite_requeued rfl ?_
  unfold State.renewRecord
  simp only [requeued_lease]
  cases handleCase (s.lease (handleIndex copy)) (handleGeneration copy) <;> rfl

theorem returnRequest_requeued (c : Nat) (copy : List Byte) :
    returnRequest c copy (s.requeued l) = (returnRequest c copy s).requeued l := by
  refine ite_requeued rfl ?_
  unfold State.returnRecord
  simp only [requeued_lease, returnRecords_requeued]
  cases handleCase (s.lease (handleIndex copy)) (handleGeneration copy) <;> rfl

theorem returnMatchingRequest_requeued (c : Nat) (copy : List Byte) :
    returnMatchingRequest c copy (s.requeued l) = (returnMatchingRequest c copy s).requeued l := by
  refine ite_requeued rfl ?_
  rw [returnRecords_requeued]
  rfl

theorem withdrawRequest_requeued (c : Nat) (copy : List Byte) :
    withdrawRequest c copy (s.requeued l) = (withdrawRequest c copy s).requeued l := ite_requeued rfl rfl

theorem inspectRequest_requeued (c : Nat) (copy : List Byte) :
    inspectRequest c copy (s.requeued l) = (inspectRequest c copy s).requeued l := ite_requeued rfl rfl

theorem moveClock_requeued (frame : Word) (slot seconds : Nat) :
    (s.requeued l).moveClock frame slot seconds = (s.moveClock frame slot seconds).requeued l :=
  ite_requeued rfl (ite_requeued rfl rfl)

theorem setClockRequest_requeued (c : Nat) (copy : List Byte) :
    setClockRequest c copy (s.requeued l) = (setClockRequest c copy s).requeued l := by
  refine ite_requeued rfl (ite_requeued rfl ?_)
  rw [moveClock_requeued]
  rfl

theorem tuneRequest_requeued (c : Nat) (copy : List Byte) : tuneRequest c copy (s.requeued l) = (tuneRequest c copy s).requeued l := by
  unfold tuneRequest
  cases tuneBadField copy <;> rfl

theorem installRequest_requeued (c : Nat) (copy : List Byte) :
    installRequest c copy (s.requeued l) = (installRequest c copy s).requeued l := by
  unfold installRequest
  cases installBadField copy with
  | none => exact ite_requeued rfl (nextImageRead_requeued { s.setCellState c .working with install := .reading (newInstall c copy) } l)
  | some off => rfl

theorem drawRequestCheck_requeued (c : Nat) (copy : List Byte) :
    drawRequestCheck c copy (s.requeued l) = (drawRequestCheck c copy s).requeued l := by
  unfold drawRequestCheck
  cases drawBadField copy <;> rfl

/-! ### The DRAW decision -/

theorem drawQualify_requeued (d : DrawDecision) (found : List FoundRecord) :
    (s.requeued l).drawQualify d found = (s.drawQualify d found).requeued l := by
  cases found with
  | nil => rfl
  | cons f rest => exact ite_requeued rfl rfl

theorem drawTableFull_requeued (d : DrawDecision) : (s.requeued l).drawTableFull d = (s.drawTableFull d).requeued l := by
  unfold State.drawTableFull
  rw [lowestFree_requeued]
  exact ite_requeued rfl rfl

theorem candidates_requeued (key : Word) (feature : Nat) : (s.requeued l).candidates key feature = s.candidates key feature := by
  unfold State.candidates
  generalize List.range Config.numPools = numbers
  rfl

theorem drawGather_requeued (d : DrawDecision) : (s.requeued l).drawGather d = (s.drawGather d).requeued l := by
  unfold State.drawGather
  rw [candidates_requeued]
  cases s.candidates d.key d.feature <;> rfl

theorem drawDivide_requeued (d : DrawDecision) (cs : List Candidate) : (s.requeued l).drawDivide d cs = (s.drawDivide d cs).requeued l := by
  unfold State.drawDivide
  rw [show (s.requeued l).su = s.su from rfl]
  cases remainingCandidates s.su.frame cs with
  | nil => cases cs <;> rfl
  | cons p rest => rfl

theorem drawTrial_requeued (d : DrawDecision) (p : Nat) (rest : List Nat) (tried : List TrialRecord) :
    (s.requeued l).drawTrial d p rest tried = (s.drawTrial d p rest tried).requeued l := by
  unfold State.drawTrial
  simp only [show (s.requeued l).chargeOn p d.quantity d.units = s.chargeOn p d.quantity d.units from rfl,
    show ∀ charge, (s.requeued l).trialVerdict p d.cls charge = s.trialVerdict p d.cls charge from fun _ => rfl]
  rcases s.trialVerdict p d.cls (s.chargeOn p d.quantity d.units) with _ | kind
  · rfl
  · cases kind <;> rfl

theorem drawEnd_requeued (d : DrawDecision) (tried : List TrialRecord) : (s.requeued l).drawEnd d tried = (s.drawEnd d tried).requeued l := by
  unfold State.drawEnd
  cases tried with
  | nil => rfl
  | cons t tried =>
    cases homePool (t :: tried) with
    | none => rfl
    | some home => exact ite_requeued rfl rfl

theorem drawStep_requeued : (s.requeued l).drawStep = s.drawStep.requeued l := by
  have hqualify := drawQualify_requeued s l
  have hfull := drawTableFull_requeued s l
  have hgather := drawGather_requeued s l
  have hdivide := drawDivide_requeued s l
  have htrial := drawTrial_requeued s l
  have hend := drawEnd_requeued s l
  unfold State.drawStep
  rw [requeued_decision]
  rcases s.decision with _ | d | _ | _ | _
  case some.draw =>
    dsimp only
    cases d.stage with
    | clock => exact ite_requeued rfl rfl
    | qualify found => exact hqualify d found
    | tableFull => exact hfull d
    | gather => exact hgather d
    | divide cs => exact hdivide d cs
    | trial left tried =>
      cases left with
      | nil => exact hend d tried
      | cons p rest => exact ite_requeued (htrial d p rest tried) rfl
    | _ => rfl
  all_goals rfl

theorem drawSteps_requeued (n : Nat) : State.drawSteps n (s.requeued l) = (State.drawSteps n s).requeued l := by
  induction n generalizing s with
  | zero => rfl
  | succ n ih => rw [State.drawSteps, State.drawSteps, drawStep_requeued, ih]

theorem admissionGrant_requeued : (s.requeued l).admissionGrant = s.admissionGrant.requeued l := by
  have hgrant (d : DrawDecision) (p charge : Nat) (fits : Bool) (left : List Nat) (tried : List TrialRecord) :
      (s.requeued l).drawGrant d p charge fits left tried = (s.drawGrant d p charge fits left tried).requeued l := by
    unfold State.drawGrant
    simp only [grantVerdict_requeued, lowestFree_requeued]
    rcases s.grantVerdict p d.key charge with _ | kind
    · cases s.lowestFree <;> rfl
    · cases kind <;> rfl
  unfold State.admissionGrant
  rw [requeued_decision]
  rcases s.decision with _ | d | _ | _ | _
  case some.draw =>
    dsimp only
    cases d.stage
    case granting p charge fits left tried => exact hgrant d p charge fits left tried
    all_goals rfl
  all_goals rfl

theorem waitUnitGrant_requeued : (s.requeued l).waitUnitGrant = s.waitUnitGrant.requeued l := by
  have hgrant := examGrant_requeued s l
  unfold State.waitUnitGrant
  rw [requeued_wu]
  rcases s.wu.exam with _ | ⟨p, stage⟩
  · rfl
  · cases stage
    case granting charge => exact hgrant p charge
    all_goals rfl

/-! ### Ticks -/

theorem tickMeterUnit_requeued : (s.requeued l).tickMeterUnit = s.tickMeterUnit.requeued l := by
  refine ite_requeued ?_ rfl
  unfold State.addTokenTicks
  generalize Config.numPools = n
  rfl

theorem leaseTickEvent_requeued : (s.requeued l).leaseTickEvent = s.leaseTickEvent.requeued l :=
  ite_requeued (ite_requeued (ageLeases_requeued s.restartLeaseStream l) rfl) rfl

theorem countGrace_requeued : (s.requeued l).countGrace = s.countGrace.requeued l := by
  rw [countGrace_eq, countGrace_eq]
  rfl

theorem housekeepingEvent_requeued : (s.requeued l).housekeepingEvent = s.housekeepingEvent.requeued l := by
  refine ite_requeued ?_ rfl
  rw [show (s.requeued l).restartHkStream = s.restartHkStream.requeued l from rfl, tickWaitUnit_requeued, rereadConsumed_requeued,
    countGrace_requeued]

theorem secondEvent_requeued : (s.requeued l).secondEvent = s.secondEvent.requeued l :=
  ite_requeued (ite_requeued (ite_requeued (ite_requeued rfl rfl) rfl) rfl) rfl

/-! ### Metering -/

theorem takeSlotEnd_requeued : (s.requeued l).takeSlotEnd = s.takeSlotEnd.requeued l := ite_requeued rfl rfl

theorem takeOwnerWord_requeued (word : Word) : (s.requeued l).takeOwnerWord word = (s.takeOwnerWord word).requeued l := by
  refine ite_requeued ?_ rfl
  rw [takePage_eq, takePage_eq]
  have hmeters : (s.requeued l).metersAfterSnapshot = s.metersAfterSnapshot := by
    unfold State.metersAfterSnapshot
    generalize Config.numPools = n
    rfl
  have hsnapshot : (s.requeued l).snapshot = s.snapshot := by
    unfold State.snapshot
    generalize Config.numPools = n
    rfl
  rw [hmeters, hsnapshot]
  exact nextPagePart_requeued (s.pageBegun s.metersAfterSnapshot s.snapshot) l

theorem pagePartDone_requeued : (s.requeued l).pagePartDone = s.pagePartDone.requeued l := by
  unfold State.pagePartDone
  rw [requeued_mu]
  cases s.mu.page with
  | writing snap part issued => exact nextPagePart_requeued { s with mu.page := .writing snap (part + 1) false } l
  | idle => rfl
  | reading => rfl

theorem pageDone_requeued : (s.requeued l).pageDone = s.pageDone.requeued l :=
  congrArg (fun u : State => { u with mu.page := .idle }) (ite_requeued (s := s) (t := s.handNotice .meter) (l := l) rfl rfl)

/-! ### Installs -/

theorem imageGoesOn_requeued (im : ImageRead) : (s.requeued l).imageGoesOn im = (s.imageGoesOn im).requeued l := by
  refine ite_requeued (nextImageRead_requeued { s with install := .reading im } l) ?_
  unfold State.judgeImage
  rw [show (s.requeued l).et = s.et from rfl]
  cases im.imageFailure s.et.floor <;> rfl

theorem takeImageBytes_requeued (im : ImageRead) (bs : List Byte) :
    (s.requeued l).takeImageBytes im bs = (s.takeImageBytes im bs).requeued l := by
  have hgoes := imageGoesOn_requeued s l (im.take bs)
  refine ite_requeued ?_ hgoes
  cases (im.take bs).headerFailure with
  | none => exact hgoes
  | some check => rfl

theorem imageLanded_requeued (x : Transfer) (bs : List Byte) : (s.requeued l).imageLanded x bs = (s.imageLanded x bs).requeued l := by
  have htake := takeImageBytes_requeued s l
  unfold State.imageLanded
  rw [requeued_install]
  cases s.install with
  | reading im => exact ite_requeued (htake im _) rfl
  | idle => rfl
  | committing _ _ _ _ => rfl

theorem commit_requeued (im : ImageRead) (staged : Table (Option StagedPool)) (header : HeaderContent) :
    (s.requeued l).commit im staged header = (s.commit im staged header).requeued l := by
  have houtcome : (s.requeued l).commitOutcome staged = s.commitOutcome staged := by
    unfold State.commitOutcome
    generalize Config.numPools = n
    rfl
  have hpools : (s.requeued l).committedPool staged = s.committedPool staged := rfl
  unfold State.commit
  rw [houtcome, hpools]
  generalize Config.numPools = n
  rfl

theorem takeContent_requeued (staged : Table (Option StagedPool)) (header : HeaderContent) (o : CommitOutcome) :
    (s.requeued l).takeContent staged header o = (s.takeContent staged header o).requeued l := by
  have hsched : (s.requeued l).takeSchedule header.schedule = (s.takeSchedule header.schedule).requeued l := ite_requeued rfl rfl
  have hkept (s : State) : (s.requeued l).takeKeptMasks staged o.kept = (s.takeKeptMasks staged o.kept).requeued l :=
    ite_requeued (foldl_requeued s l (fun _ _ _ => rfl) o.kept) (foldl_requeued s l (fun _ _ _ => rfl) o.kept)
  unfold State.takeContent
  rw [hsched, hkept, foldl_requeued _ l (fun _ _ _ => rfl) o.created, foldl_requeued _ l (fun _ _ _ => rfl) o.retiring,
    foldl_requeued _ l (fun _ _ _ => rfl) o.removed]

/-! ### Commands -/

end

/-- One command on two states that differ in the queue alone. -/
def Requeues (l : List Instr) (o o' : Outcome) : Prop := ∃ t, o = .next t ∧ o' = .next (t.requeued l)

theorem Requeues.next {l : List Instr} {t t' : State} (h : t' = t.requeued l) : Requeues l (.next t) (.next t') := ⟨t, rfl, by rw [h]⟩

theorem Requeues.ite {l : List Instr} {c : Prop} [Decidable c] {o p o' p' : Outcome} (ho : Requeues l o o') (hp : Requeues l p p') :
    Requeues l (if c then o else p) (if c then o' else p') := by
  split_ifs
  · exact ho
  · exact hp

section
variable (s : State) (l : List Instr)

theorem registerWritten_requeued {t u : State} (h : u = t.requeued l) : Requeues l (.next t.registerWritten) (.next u.registerWritten) :=
  .next (h ▸ rereadConsumed_requeued t l)

/-- The commands that end a transfer, an error apart. -/
def endsTransfer : Instr → Bool
  | .fetchArrival _ _ => true
  | .imageReadArrival _ _ => true
  | .answerWriteComplete _ => true
  | .poolFieldWriteComplete _ => true
  | .statusByteWriteComplete _ => true
  | .noticeEntryWriteComplete _ => true
  | .noticeWritten _ => true
  | .consumedReadArrival _ _ => true
  | .ownerReadArrival _ _ => true
  | .pageWriteComplete _ => true
  | .ownerWordWriteComplete _ => true
  | _ => false

theorem endsTransfer_requeued {c : Instr} (hc : endsTransfer c = true) : Requeues l (exec c s) (exec c (s.requeued l)) := by
  cases c with
  | fetchArrival tag bytes =>
    simp only [exec, execFetchArrival, requeued_transfer]
    rcases s.transfer tag with _ | ⟨g, kind, a, n, b⟩
    · exact .next rfl
    · cases kind
      case fetch c => exact .next rfl
      all_goals exact .next rfl
  | imageReadArrival tag bytes =>
    simp only [exec, execImageReadArrival, requeued_transfer]
    rcases s.transfer tag with _ | ⟨g, kind, a, n, b⟩
    · exact .next rfl
    · cases kind
      case imageRead c => exact .next (imageLanded_requeued (s.landed tag) l _ bytes)
      all_goals exact .next rfl
  | answerWriteComplete tag =>
    simp only [exec, execAnswerWriteComplete, requeued_transfer]
    rcases s.transfer tag with _ | ⟨g, kind, a, n, b⟩
    · exact .next rfl
    · cases kind
      case answerArea c => exact .next (firstWriteDone_requeued (s.landed tag) l)
      all_goals exact .next rfl
  | poolFieldWriteComplete tag =>
    simp only [exec, execPoolFieldWriteComplete, requeued_transfer]
    rcases s.transfer tag with _ | ⟨g, kind, a, n, b⟩
    · exact .next rfl
    · cases kind
      case poolField c => exact .next (firstWriteDone_requeued (s.landed tag) l)
      all_goals exact .next rfl
  | statusByteWriteComplete tag =>
    simp only [exec, execStatusByteWriteComplete, requeued_transfer]
    rcases s.transfer tag with _ | ⟨g, kind, a, n, b⟩
    · exact .next rfl
    · cases kind
      case statusByte c => exact .next (retireWrite_requeued (s.landed tag) l)
      all_goals exact .next rfl
  | noticeEntryWriteComplete tag =>
    simp only [exec, execNoticeEntryWriteComplete, requeued_transfer]
    rcases s.transfer tag with _ | ⟨g, kind, a, n, b⟩
    · exact .next rfl
    · cases kind
      case noticeEntry i => exact .ite (.next (issueNoticeCount_requeued (s.landed tag) l)) (.next rfl)
      all_goals exact .next rfl
  | noticeWritten tag =>
    simp only [exec, execNoticeWritten, requeued_transfer]
    rcases s.transfer tag with _ | ⟨g, kind, a, n, b⟩
    · exact .next rfl
    · cases kind
      case noticeCount i => exact .next (noticeWrittenEvent_requeued (s.landed tag) l)
      all_goals exact .next rfl
  | consumedReadArrival tag bytes =>
    simp only [exec, execConsumedReadArrival, requeued_transfer]
    rcases s.transfer tag with _ | ⟨g, kind, a, n, b⟩
    · exact .next rfl
    · cases kind
      case consumedRead => exact .next (ite_requeued rfl rfl)
      all_goals exact .next rfl
  | ownerReadArrival tag bytes =>
    simp only [exec, execOwnerReadArrival, requeued_transfer]
    rcases s.transfer tag with _ | ⟨g, kind, a, n, b⟩
    · exact .next rfl
    · cases kind
      case ownerRead => exact .next (takeOwnerWord_requeued (s.landed tag) l _)
      all_goals exact .next rfl
  | pageWriteComplete tag =>
    simp only [exec, execPageWriteComplete, requeued_transfer]
    rcases s.transfer tag with _ | ⟨g, kind, a, n, b⟩
    · exact .next rfl
    · cases kind
      case pageWrite => exact .next (pagePartDone_requeued (s.landed tag) l)
      all_goals exact .next rfl
  | ownerWordWriteComplete tag =>
    simp only [exec, execOwnerWordWriteComplete, requeued_transfer]
    rcases s.transfer tag with _ | ⟨g, kind, a, n, b⟩
    · exact .next rfl
    · cases kind
      case ownerWrite => exact .next (pageDone_requeued (s.landed tag) l)
      all_goals exact .next rfl
  | _ => cases hc

theorem request_requeued {c : Instr} (hc : isRequest c = true) : Requeues l (exec c s) (exec c (s.requeued l)) := by
  cases c with
  | draw steps =>
    refine .next ?_
    rw [withRequest_requeued s l kindDraw fun c copy s => drawRequestCheck_requeued s l c copy, drawSteps_requeued]
  | renew => exact .next (withRequest_requeued s l kindRenew fun c copy s => renewRequest_requeued s l c copy)
  | returnLease => exact .next (withRequest_requeued s l kindReturn fun c copy s => returnRequest_requeued s l c copy)
  | returnMatching => exact .next (withRequest_requeued s l kindReturnMatching fun c copy s => returnMatchingRequest_requeued s l c copy)
  | withdraw =>
    refine .next ?_
    rw [withRequest_requeued s l kindWithdraw fun c copy s => withdrawRequest_requeued s l c copy, finishWithdraw_requeued]
  | inspectPool =>
    refine .next ?_
    rw [withRequest_requeued s l kindInspectPool fun c copy s => inspectRequest_requeued s l c copy, finishInspect_requeued]
  | install => exact .next (withRequest_requeued s l kindInstall fun c copy s => installRequest_requeued s l c copy)
  | setClock => exact .next (withRequest_requeued s l kindSetClock fun c copy s => setClockRequest_requeued s l c copy)
  | tune => exact .next (withRequest_requeued s l kindTune fun c copy s => tuneRequest_requeued s l c copy)
  | clearFloor =>
    refine .next ?_
    rw [withRequest_requeued s l kindClearFloor fun _ _ _ => rfl, finishClearFloor_requeued]
  | unknownRequestKind =>
    simp only [exec, execUnknownRequestKind, takeCell_requeued]
    rcases s.takeCell with _ | ⟨c, copy, taken⟩
    · exact .next rfl
    · exact .ite (.next rfl) (.next rfl)
  | _ => cases hc

/-- Each command commutes with a change of the queue. -/
theorem exec_requeued (c : Instr) : Requeues l (exec c s) (exec c (s.requeued l)) := by
  by_cases hshared : (endsTransfer c || isRequest c) = true
  · exact ((Bool.or_eq_true_iff).1 hshared).elim (endsTransfer_requeued s l) (request_requeued s l)
  cases c with
  | exbaseLoWrite value => exact registerWritten_requeued l (writeBaseLo_requeued s l value)
  | exbaseHiWrite value => exact registerWritten_requeued l (writeBaseHi_requeued s l value)
  | post value => exact registerWritten_requeued l (postCell_requeued s l value.toNat)
  | requestRun value =>
    refine registerWritten_requeued l ?_
    rw [takeEnable_requeued, requestDmaState_requeued]
  | requestHold value =>
    refine registerWritten_requeued l ?_
    rw [takeEnable_requeued, requestDmaState_requeued]
  | requestStill value =>
    refine registerWritten_requeued l ?_
    rw [takeEnable_requeued, requestStillState_requeued]
  | interruptEnable value => exact registerWritten_requeued l (takeEnable_requeued s l _)
  | functionReset value => exact .next rfl
  | powerOnReset => exact .next rfl
  | functionLevelReset => exact .next rfl
  | causeWrite value => exact registerWritten_requeued l rfl
  | registerWriteIgnored reg value => exact registerWritten_requeued l rfl
  | cellPick =>
    simp only [exec, execCellPick]
    rw [show (s.requeued l).nextPick = s.nextPick from rfl]
    cases s.nextPick with
    | none => exact .next rfl
    | some c => exact .ite (.next rfl) (.next rfl)
  | grantEvent sender =>
    cases sender with
    | admissionUnit => exact .next (admissionGrant_requeued s l)
    | waitUnit => exact .next (waitUnitGrant_requeued s l)
  | revival =>
    simp only [exec, execRevival, requeued_decision]
    rcases s.decision with _ | d | _ | _ | _
    case some.draw =>
      dsimp only
      cases d.stage
      case reviving index generation => exact .next (ite_requeued rfl rfl)
      all_goals exact .next rfl
    all_goals exact .next rfl
  | parking =>
    simp only [exec, execParking, requeued_wu]
    cases s.wu.parkInbox with
    | nil => exact .next rfl
    | cons e rest =>
      cases s.wu.exam with
      | none => exact .next (takeParking_requeued { s with wu := { s.wu with parkInbox := rest, exam := none } } l e)
      | some _ => exact .next rfl
  | commitReport =>
    simp only [exec, execCommitReport, requeued_wu]
    cases s.wu.commitReports with
    | nil => exact .next rfl
    | cons r rest =>
      cases s.wu.exam with
      | none => exact .next (takeCommitReport_requeued { s with wu := { s.wu with commitReports := rest, exam := none } } l r)
      | some _ => exact .next rfl
  | leaseTick => exact .next (leaseTickEvent_requeued s l)
  | lapse index => exact .ite (.next (leaseTickEvent_requeued s l)) (.next rfl)
  | lingerEnd index => exact .ite (.next (leaseTickEvent_requeued s l)) (.next rfl)
  | tokenTicks => exact .next (tickMeterUnit_requeued s l)
  | housekeepingTick => exact .next (housekeepingEvent_requeued s l)
  | waitExpiry cell => exact .ite (.next (housekeepingEvent_requeued s l)) (.next rfl)
  | graceHoldEnd => exact .ite (.next (housekeepingEvent_requeued s l)) (.next rfl)
  | examination steps =>
    refine .next ?_
    rw [beginExam_requeued, examSteps_requeued]
  | second => exact .next (secondEvent_requeued s l)
  | slotStart => exact .ite (.next (secondEvent_requeued s l)) (.next rfl)
  | frameStart => exact .ite (.next (secondEvent_requeued s l)) (.next rfl)
  | installCommit =>
    simp only [exec, execInstallCommit, requeued_install]
    rcases s.install with _ | _ | ⟨im, staged, header, _ | o⟩
    case committing.none => exact .next (commit_requeued s l im staged header)
    all_goals exact .next rfl
  | scheduleContent =>
    simp only [exec, execScheduleContent, requeued_install]
    rcases s.install with _ | _ | ⟨im, staged, header, _ | o⟩
    case committing.some =>
      exact .next (congrArg (fun u : State => u.endInstall im.cell (installAnswer o s.et.floor))
        (takeContent_requeued s l staged header o))
    all_goals exact .next rfl
  | writeListIssue => exact .ite (.next (issueFirstWrite_requeued s l)) (.next rfl)
  | noticeWrite => exact .ite (.next (issueNoticeEntry_requeued s l)) (.next rfl)
  | dmaError tag =>
    simp only [exec, execDmaError, requeued_transfer]
    cases s.transfer tag with
    | none => exact .next rfl
    | some x => exact .next (failTransfer_requeued s l x)
  | meterCount which =>
    simp only [exec, execMeterCount, requeued_mu]
    cases s.mu.inbox[which]? with
    | none => exact .next rfl
    | some count => cases count <;> exact .next rfl
  | slotEnd => exact .ite (.next (takeSlotEnd_requeued s l)) (.next rfl)
  | intervalEnd => exact .ite (.next (takeSlotEnd_requeued s l)) (.next rfl)
  | meterOwnerRead => exact .ite (.next rfl) (.next rfl)
  | _ => exact absurd rfl hshared

end

/-- Settles O2: a command leaves the queue as it is, and makes of a state with another queue what it makes of this one. -/
theorem execIgnoresQueue : Obligations.ExecIgnoresQueue := by
  intro c s t hexec
  have hsame : ∀ l, exec c (s.requeued l) = .next (t.requeued l) := by
    intro l
    obtain ⟨u, hu, hrequeued⟩ := exec_requeued s l c
    rw [hexec] at hu
    cases hu
    exact hrequeued
  refine ⟨?_, hsame⟩
  have hown : t = t.requeued s.pending := Host.Outcome.next.inj (hexec.symm.trans (hsame s.pending))
  rw [hown]
  rfl

end Sys2Proof.Machine
end
